-- ==== Sys2Proof/Word.lean ====
section
/-! DEFINITION. The words of the block (00_scope.md R8): a byte, a CPU-bus address, a host word, a cycle stamp. -/

namespace Sys2Proof

/-- A byte on either bus (R8). -/
abbrev Byte := BitVec 8

/-- A 16-bit CPU-bus address; a PPU-bus address is one reduced by `& 0x3FFF` (R94). -/
abbrev Addr := BitVec 16

/-- A CMD or BUS word (R151, R153). -/
abbrev Word32 := BitVec 32

/-- A value of `cpu.cycle` (R40). -/
abbrev Stamp := BitVec 64

/-- A string, as its characters (log 23). -/
abbrev Text := List Char

end Sys2Proof
end

