-- ==== Sys2Proof/Syntax.lean ====
section
/-! DEFINITION. The syntax of the block: the enumerated operands of 30_encoding.md section 2, byte sequences,
the cartridge descriptor (R171), payloads (R151), and one constructor of `Instr` per row of spec/opcode_table.json. -/

namespace Sys2Proof

/-- Timing region (R160). -/
inductive Region where
  | ntsc | pal | dendy
  deriving DecidableEq, Repr, Inhabited

/-- Video post-filter (R161). -/
inductive VideoFilter where
  | pixellate | ntscArtifact
  deriving DecidableEq, Repr, Inhabited

/-- RAM-initialisation policy (R162). -/
inductive RamPolicy where
  | allZeros | allOnes | random
  deriving DecidableEq, Repr, Inhabited

/-- Four-player adapter mode (R163). -/
inductive FourPlayer where
  | disabled | fourScore | satellite
  deriving DecidableEq, Repr, Inhabited

/-- Mapper revision override (R164): `standard` is the code named Default. -/
inductive Revision where
  | standard | revA
  deriving DecidableEq, Repr, Inhabited

/-- Reset kind (R164). -/
inductive ResetKind where
  | soft | hard
  deriving DecidableEq, Repr, Inhabited

/-- Audio channel (R165). -/
inductive Channel where
  | pulse1 | pulse2 | triangle | noise | dmc
  deriving DecidableEq, Repr, Inhabited

/-- A joypad button (R166). -/
inductive Button where
  | a | b | select | start | up | down | left | right | turboA | turboB
  deriving DecidableEq, Repr, Inhabited

/-- The mirroring a descriptor can carry (R171). -/
inductive HeaderMirroring where
  | horizontal | vertical | fourScreen
  deriving DecidableEq, Repr, Inhabited

/-- The five mirroring modes (R104). -/
inductive Mirroring where
  | horizontal | vertical | singleScreenA | singleScreenB | fourScreen
  deriving DecidableEq, Repr, Inhabited

/-- The cached mirror shift (R50, R104). -/
inductive MirrorShift where
  | h | v | sa | sb | fs
  deriving DecidableEq, Repr, Inhabited

/-- The routes of the CPU address map (R95). -/
inductive CpuRoute where
  | wram | ppuReg | apuIo | openBus | cartridge
  deriving DecidableEq, Repr

/-- The routes of the PPU address map (R103). -/
inductive PpuRoute where
  | pattern | nametable | palette
  deriving DecidableEq, Repr

/-- The boards (R373), which decide how a write to the cartridge range decodes (R150). -/
inductive BoardKind where
  | nrom | uxrom | cnrom | axrom | mmc1 | mmc3
  deriving DecidableEq, Repr, Inhabited

/-- A pool of `size` bytes, or a sequence of that many bytes: the cells that do not hold 0x00, in rising order of
index (log 21, log 22). A byte with no cell reads as 0x00. `Memory.wf` is the canonical form. -/
structure Memory where
  size  : Nat
  cells : List Host.Cell
  deriving DecidableEq, Repr, Inhabited

/-- The decoded cartridge tuple (R171). -/
structure Descriptor where
  mapperId   : BitVec 16
  submapper  : Byte
  prgRom     : Memory
  chrRom     : Memory
  mirroring  : HeaderMirroring
  battery    : Bool
  regionHint : Option Region
  trainer    : Option Memory
  deriving DecidableEq, Repr, Inhabited

/-- The typed value delivered with a word (R151, R152). -/
inductive Payload where
  | none
  | seconds (num den : Word32)
  | rom (name : Text) (desc : Descriptor)
  | bytes (b : Memory)
  | code (t : Text)
  deriving DecidableEq, Repr, Inhabited

/-- What the host hands to the block: a word and its payload (R151). -/
structure HostWord where
  word    : Word32
  payload : Payload
  deriving DecidableEq, Repr, Inhabited

/-- One constructor per row of spec/opcode_table.json. -/
inductive Instr where
  -- CMD (R152)
  | clockInstr
  | clockSeconds (num den : Word32)
  | clockFrame
  | clockScanline
  | loadRom (name : Text) (desc : Descriptor)
  | unloadRom
  | reset (kind : ResetKind)
  | loadSram (b : Memory)
  | readSram
  | readWram
  | queryStatus
  | readFrameBuffer
  | readAudioSamples
  | setRegion (r : Region)
  | setFourPlayer (m : FourPlayer)
  | setFilter (f : VideoFilter)
  | setRamState (p : RamPolicy)
  | connectZapper (e : Bool)
  | aimZapper (x y : Byte)
  | triggerZapper
  | toggleApuChannel (c : Channel)
  | clearAudioSamples
  | setJoypad (player : BitVec 2) (mask : BitVec 10)
  | setMapperRevision (r : Revision)
  | addGenie (code : Text)
  | removeGenie (code : Text)
  -- BUS (R153)
  | cpuRead (a : Addr)
  | cpuWrite (a : Addr) (v : Byte)
  | cpuPeek (a : Addr)
  | ppuRead (a : Addr)
  | ppuWrite (a : Addr) (v : Byte)
  | ppuPeek (a : Addr)
  -- OPC (R157), after the opcode fetch
  | jam02
  | jam12
  | jam22
  | jam32
  | jam42
  | jam52
  | jam62
  | jam72
  | jam92
  | jamB2
  | jamD2
  | jamF2
  | nop
  | jmpAbs
  | ldaImm
  | staAbs
  | inx
  | bneRel
  | execute (b : Byte)
  -- MAPREG (R150, R463 to R477)
  | uxromBank (a : Addr) (v : Byte)
  | cnromChrBank (a : Addr) (v : Byte)
  | axromReg (a : Addr) (v : Byte)
  | mmc1Control (a : Addr) (v : Byte)
  | mmc1Chr0 (a : Addr) (v : Byte)
  | mmc1Chr1 (a : Addr) (v : Byte)
  | mmc1Prg (a : Addr) (v : Byte)
  | mmc3BankSelect (a : Addr) (v : Byte)
  | mmc3BankData (a : Addr) (v : Byte)
  | mmc3Mirroring (a : Addr) (v : Byte)
  | mmc3PrgRamProtect (a : Addr) (v : Byte)
  | mmc3IrqLatch (a : Addr) (v : Byte)
  | mmc3IrqReload (a : Addr) (v : Byte)
  | mmc3IrqDisable (a : Addr) (v : Byte)
  | mmc3IrqEnable (a : Addr) (v : Byte)
  deriving DecidableEq, Repr

/-- What carries an instruction (R150): a host word with its payload, an opcode byte, or a CPU-bus write as one
board sees it. -/
inductive Code where
  | host (w : Word32) (p : Payload)
  | opc (b : Byte)
  | mapReg (board : BoardKind) (a : Addr) (v : Byte)
  deriving DecidableEq, Repr

end Sys2Proof
end

