-- ==== Sys2Proof/Machine/Operands.lean ====
section
/-! DEFINITION. Operand forms: how a 16-bit value is split and joined (20_memory.md R90), which opcode bytes
have a JAM row (R12, R157), which register of a board an address selects, and how an address decodes on either bus
(R95 to R112). No state. -/

namespace Sys2Proof

/-! ## Opcode classes -/

/-- The set decision D27 takes for the opcode table: the JAM rows. It is the suggested value of the parameter `CorruptSet`
(R12, R157; log 13), whose value in force is `Params.corruptSet`. -/
def decidedCorruptSet : List Byte :=
  [0x02, 0x12, 0x22, 0x32, 0x42, 0x52, 0x62, 0x72, 0x92, 0xB2, 0xD2, 0xF2]

/-- The opcode byte has a JAM row in the table (R157). -/
def isJamRow (b : Byte) : Bool := decidedCorruptSet.contains b

/-- The six opcodes of 40_deck_clocking.md section 3. -/
def referenceOpcodes : List Byte := [0xEA, 0x4C, 0xA9, 0x8D, 0xE8, 0xD0]

/-! ## Board register selection -/

/-- The address selects the register of an MMC3 row (R452). -/
def mmc3Row (a : Addr) (sel : Addr) : Bool := a &&& 0xE001 == sel

/-- The address selects the register of an MMC1 row (R437). -/
def mmc1Row (a : Addr) (sel : Addr) : Bool := a &&& 0xE000 == sel

/-- The address is in 0x8000..0xFFFF. -/
def upperHalf (a : Addr) : Bool := a &&& 0x8000 == 0x8000

/-! ## Words and bytes -/

/-- `lo | (hi << 8)` (R90). -/
def word16 (lo hi : Byte) : Addr := hi ++ lo

/-- Bits 15:8. -/
def hiByte (a : Addr) : Byte := a.extractLsb' 8 8

/-- Bits 7:0. -/
def loByte (a : Addr) : Byte := a.extractLsb' 0 8

/-- The stack byte is at 0x0100 + s (R36). -/
def stackAddr (s : Byte) : Addr := (0x01#8) ++ s

/-- `(pc + sext_16(off)) mod 2^16` (R236). -/
def branchTarget (pc : Addr) (off : Byte) : Addr := pc + off.signExtend 16

/-- `(pc[15:8], t[7:0])`: the address of the dummy read of a page-crossing branch (R236). -/
def samePage (pc t : Addr) : Addr := hiByte pc ++ loByte t

/-! ## CPU bus -/

/-- The CPU address map (R95). -/
def cpuRoute (a : Addr) : CpuRoute :=
  if a.toNat < 0x2000 then .wram
  else if a.toNat < 0x4000 then .ppuReg
  else if a.toNat < 0x4018 then .apuIo
  else if a.toNat < 0x4020 then .openBus
  else .cartridge

/-- `a & 0x07FF` (R97). -/
def wramIndex (a : Addr) : Nat := (a &&& 0x07FF).toNat

/-- `a & 7` (R98). -/
def ppuRegIndex (a : Addr) : BitVec 3 := a.setWidth 3

/-! ## PPU bus -/

/-- `a & 0x3FFF` (R94). -/
def reducePpu (a : Addr) : Addr := a &&& 0x3FFF

/-- The PPU address map for a reduced address (R103). -/
def ppuRoute (a : Addr) : PpuRoute :=
  if a.toNat < 0x2000 then .pattern
  else if a.toNat ≤ 0x3EFF then .nametable
  else .palette

/-- The table half of a nametable address, 0x000 or 0x400; Four-Screen has none (R104). -/
def halfBit (m : MirrorShift) (a : Addr) : Option Addr :=
  match m with
  | .h => some (((a &&& 0x0C00) >>> 1) &&& 0x0400)
  | .v => some (((a &&& 0x0C00) >>> 0) &&& 0x0400)
  | .sa => some 0x000
  | .sb => some 0x400
  | .fs => none

/-- The CIRAM index, by the source's formula (R105). -/
def ciramIndex (m : MirrorShift) (a : Addr) : Option Nat :=
  (halfBit m a).map fun half => (half ||| (~~~half &&& (a &&& 0x03FF))).toNat

/-- The palette cell of an address in 0x3F00..0x3FFF (R112). -/
def paletteIndex (a : Addr) : Nat :=
  let i := (a &&& 0x1F).toNat
  if i = 0x10 ∨ i = 0x14 ∨ i = 0x18 ∨ i = 0x1C then i - 0x10 else i

/-- `MirrorShift(mode)` (R104). -/
def mirrorShiftOf : Mirroring → MirrorShift
  | .horizontal => .h
  | .vertical => .v
  | .singleScreenA => .sa
  | .singleScreenB => .sb
  | .fourScreen => .fs

end Sys2Proof
end

