-- ==== Sys2Proof/WellFormed.lean ====
section
/-! DEFINITION. Which instructions an encoding can carry: the operand limits of 30_encoding.md R151 to R157 and R171,
and the address patterns of the MAPREG rows (45_mapper_boards.md R463 to R477). -/

namespace Sys2Proof

/-- Cell indices rise strictly from at least `lo` and stay below `size`, and no cell holds 0x00. -/
def cellsWf (size : Nat) : Nat → List Host.Cell → Bool
  | _, [] => true
  | lo, (i, v) :: rest => decide (lo ≤ i) && decide (i < size) && decide (v ≠ 0) && cellsWf size (i + 1) rest

/-- The canonical form of a pool: equal pools are equal data (log 21). -/
def Memory.wf (m : Memory) : Bool := cellsWf m.size 0 m.cells

/-- A descriptor is a value of the type R171 gives: `mapper_id` in 0..4095, `submapper` in 0..15, byte sequences in
canonical form. -/
def Descriptor.wf (d : Descriptor) : Bool :=
  decide (d.mapperId.toNat < 4096) && decide (d.submapper.toNat < 16) && d.prgRom.wf && d.chrRom.wf &&
    (match d.trainer with
     | none => true
     | some t => t.wf)

/-- A payload is a value of its type (R151); `den ≠ 0` is a check of CLOCK_SECONDS (R156). -/
def Payload.wf : Payload → Bool
  | .none => true
  | .seconds _ _ => true
  | .rom _ d => d.wf
  | .bytes b => b.wf
  | .code _ => true

/-- The instruction is one that its encoding can carry. -/
def Instr.wf : Instr → Bool
  | .clockSeconds _ den => decide (den ≠ 0)
  | .loadRom _ d => d.wf
  | .loadSram b => b.wf
  | .execute b => !isJamRow b && !referenceOpcodes.contains b
  | .uxromBank a _ => upperHalf a
  | .cnromChrBank a _ => upperHalf a
  | .axromReg a _ => upperHalf a
  | .mmc1Control a _ => mmc1Row a 0x8000
  | .mmc1Chr0 a _ => mmc1Row a 0xA000
  | .mmc1Chr1 a _ => mmc1Row a 0xC000
  | .mmc1Prg a _ => mmc1Row a 0xE000
  | .mmc3BankSelect a _ => mmc3Row a 0x8000
  | .mmc3BankData a _ => mmc3Row a 0x8001
  | .mmc3Mirroring a _ => mmc3Row a 0xA000
  | .mmc3PrgRamProtect a _ => mmc3Row a 0xA001
  | .mmc3IrqLatch a _ => mmc3Row a 0xC000
  | .mmc3IrqReload a _ => mmc3Row a 0xC001
  | .mmc3IrqDisable a _ => mmc3Row a 0xE000
  | .mmc3IrqEnable a _ => mmc3Row a 0xE001
  | .clockInstr => true
  | .clockFrame => true
  | .clockScanline => true
  | .unloadRom => true
  | .reset _ => true
  | .readSram => true
  | .readWram => true
  | .queryStatus => true
  | .readFrameBuffer => true
  | .readAudioSamples => true
  | .setRegion _ => true
  | .setFourPlayer _ => true
  | .setFilter _ => true
  | .setRamState _ => true
  | .connectZapper _ => true
  | .aimZapper _ _ => true
  | .triggerZapper => true
  | .toggleApuChannel _ => true
  | .clearAudioSamples => true
  | .setJoypad _ _ => true
  | .setMapperRevision _ => true
  | .addGenie _ => true
  | .removeGenie _ => true
  | .cpuRead _ => true
  | .cpuWrite _ _ => true
  | .cpuPeek _ => true
  | .ppuRead _ => true
  | .ppuWrite _ _ => true
  | .ppuPeek _ => true
  | .jam02 => true
  | .jam12 => true
  | .jam22 => true
  | .jam32 => true
  | .jam42 => true
  | .jam52 => true
  | .jam62 => true
  | .jam72 => true
  | .jam92 => true
  | .jamB2 => true
  | .jamD2 => true
  | .jamF2 => true
  | .nop => true
  | .jmpAbs => true
  | .ldaImm => true
  | .staAbs => true
  | .inx => true
  | .bneRel => true

end Sys2Proof
end

