-- ==== Sys2Proof/Decode.lean ====
section
/-! DEFINITION. Decoding and encoding (30_encoding.md sections 1 and 2): CMD and BUS words with their payloads, opcode
bytes, and mapper register writes. Decoding is total and rejects by name. -/

namespace Sys2Proof

/-- Why a word is illegal (R156). -/
inductive DecodeError where
  | unknownOp | reservedField | illegalCode | badPayload | zeroDenominator | notARegister
  deriving DecidableEq, Repr

/-! ## Fields of a word (R151, R153) -/

/-- Bits 31:24. -/
def opField (w : Word32) : Byte := w.extractLsb' 24 8

/-- Bits 23:16: `sub` of a CMD word, `data` of a BUS word. -/
def subField (w : Word32) : Byte := w.extractLsb' 16 8

/-- Bits 15:0: `imm` of a CMD word, `addr` of a BUS word. -/
def immField (w : Word32) : Addr := w.extractLsb' 0 16

/-- The word of three fields. -/
def mkWord (op sub : Byte) (imm : Addr) : Word32 := (op ++ sub : BitVec 16) ++ imm

/-! ## Enumerated codes (R160 to R166) -/

def Region.ofCode (b : Byte) : Option Region :=
  if b = 0 then some .ntsc else if b = 1 then some .pal else if b = 2 then some .dendy else none

def Region.code : Region → Byte
  | .ntsc => 0
  | .pal => 1
  | .dendy => 2

def VideoFilter.ofCode (b : Byte) : Option VideoFilter :=
  if b = 0 then some .pixellate else if b = 1 then some .ntscArtifact else none

def VideoFilter.code : VideoFilter → Byte
  | .pixellate => 0
  | .ntscArtifact => 1

def RamPolicy.ofCode (b : Byte) : Option RamPolicy :=
  if b = 0 then some .allZeros else if b = 1 then some .allOnes else if b = 2 then some .random else none

def RamPolicy.code : RamPolicy → Byte
  | .allZeros => 0
  | .allOnes => 1
  | .random => 2

def FourPlayer.ofCode (b : Byte) : Option FourPlayer :=
  if b = 0 then some .disabled else if b = 1 then some .fourScore else if b = 2 then some .satellite else none

def FourPlayer.code : FourPlayer → Byte
  | .disabled => 0
  | .fourScore => 1
  | .satellite => 2

def Revision.ofCode (b : Byte) : Option Revision :=
  if b = 0 then some .standard else if b = 1 then some .revA else none

def Revision.code : Revision → Byte
  | .standard => 0
  | .revA => 1

def ResetKind.ofCode (b : Byte) : Option ResetKind :=
  if b = 0 then some .soft else if b = 1 then some .hard else none

def ResetKind.code : ResetKind → Byte
  | .soft => 0
  | .hard => 1

def Channel.ofCode (b : Byte) : Option Channel :=
  if b = 0 then some .pulse1 else if b = 1 then some .pulse2 else if b = 2 then some .triangle
  else if b = 3 then some .noise else if b = 4 then some .dmc else none

def Channel.code : Channel → Byte
  | .pulse1 => 0
  | .pulse2 => 1
  | .triangle => 2
  | .noise => 3
  | .dmc => 4

/-- The mirroring mode of a code (R164). -/
def Mirroring.ofCode (b : Byte) : Option Mirroring :=
  if b = 0 then some .horizontal else if b = 1 then some .vertical else if b = 2 then some .singleScreenA
  else if b = 3 then some .singleScreenB else if b = 4 then some .fourScreen else none

/-- The code of a mirroring mode (R164). -/
def Mirroring.code : Mirroring → Byte
  | .horizontal => 0
  | .vertical => 1
  | .singleScreenA => 2
  | .singleScreenB => 3
  | .fourScreen => 4

/-- The bit of a button in a joypad mask: the mask of SET_JOYPAD and the stored one (R166). -/
def Button.bit : Button → Nat
  | .a => 0
  | .b => 1
  | .select => 2
  | .start => 3
  | .up => 4
  | .down => 5
  | .left => 6
  | .right => 7
  | .turboA => 8
  | .turboB => 9

/-- The button is down in a mask of SET_JOYPAD (R166). -/
def Button.inMask (button : Button) (mask : BitVec 10) : Bool := mask.getLsbD button.bit

/-- `sub` of CONNECT_ZAPPER: 0 disconnect, 1 connect. -/
def connectOfCode (b : Byte) : Option Bool :=
  if b = 0 then some false else if b = 1 then some true else none

def connectCode : Bool → Byte
  | false => 0
  | true => 1

/-- `sub` of SET_JOYPAD: players 0..3. -/
def playerOfCode (b : Byte) : Option (BitVec 2) :=
  if b.toNat < 4 then some (b.setWidth 2) else none

/-! ## Decoding a CMD or BUS word -/

/-- A command with neither `sub` nor `imm` nor payload. -/
def plainCmd (sub : Byte) (imm : Addr) (p : Payload) (i : Instr) : Except DecodeError Instr :=
  if sub ≠ 0 ∨ imm ≠ 0 then .error .reservedField
  else if p ≠ .none then .error .badPayload
  else .ok i

/-- A command with an enumerated `sub`. -/
def enumCmd {α : Type} (imm : Addr) (p : Payload) (code : Option α) (i : α → Instr) : Except DecodeError Instr :=
  if imm ≠ 0 then .error .reservedField
  else if p ≠ .none then .error .badPayload
  else match code with
    | none => .error .illegalCode
    | some x => .ok (i x)

/-- A command with a payload and no `sub` or `imm`. -/
def payloadCmd (sub : Byte) (imm : Addr) (i : Except DecodeError Instr) : Except DecodeError Instr :=
  if sub ≠ 0 ∨ imm ≠ 0 then .error .reservedField else i

/-- A bus word with no data byte. -/
def busNoData (sub : Byte) (p : Payload) (i : Instr) : Except DecodeError Instr :=
  if sub ≠ 0 then .error .reservedField
  else if p ≠ .none then .error .badPayload
  else .ok i

/-- A bus word with a data byte. -/
def busData (p : Payload) (i : Instr) : Except DecodeError Instr :=
  if p ≠ .none then .error .badPayload else .ok i

/-- CLOCK_SECONDS takes `num/den` with `den ≠ 0` (R152, R156). -/
def secondsPayload : Payload → Except DecodeError Instr
  | .seconds num den => if den = 0 then .error .zeroDenominator else .ok (.clockSeconds num den)
  | .none => .error .badPayload
  | .rom _ _ => .error .badPayload
  | .bytes _ => .error .badPayload
  | .code _ => .error .badPayload

/-- LOAD_ROM takes a name and a descriptor. -/
def romPayload : Payload → Except DecodeError Instr
  | .rom name desc => if desc.wf then .ok (.loadRom name desc) else .error .badPayload
  | .none => .error .badPayload
  | .seconds _ _ => .error .badPayload
  | .bytes _ => .error .badPayload
  | .code _ => .error .badPayload

/-- LOAD_SRAM takes bytes. -/
def sramPayload : Payload → Except DecodeError Instr
  | .bytes b => if b.wf then .ok (.loadSram b) else .error .badPayload
  | .none => .error .badPayload
  | .seconds _ _ => .error .badPayload
  | .rom _ _ => .error .badPayload
  | .code _ => .error .badPayload

/-- ADD_GENIE and REMOVE_GENIE take a string. -/
def codePayload (i : Text → Instr) : Payload → Except DecodeError Instr
  | .code t => .ok (i t)
  | .none => .error .badPayload
  | .seconds _ _ => .error .badPayload
  | .rom _ _ => .error .badPayload
  | .bytes _ => .error .badPayload

/-- The opcode maps of R152 and R153. -/
def decodeFields (op sub : Byte) (imm : Addr) (p : Payload) : Except DecodeError Instr :=
  if op = 0x01 then plainCmd sub imm p .clockInstr
  else if op = 0x02 then payloadCmd sub imm (secondsPayload p)
  else if op = 0x03 then plainCmd sub imm p .clockFrame
  else if op = 0x04 then plainCmd sub imm p .clockScanline
  else if op = 0x10 then payloadCmd sub imm (romPayload p)
  else if op = 0x11 then plainCmd sub imm p .unloadRom
  else if op = 0x12 then enumCmd imm p (ResetKind.ofCode sub) .reset
  else if op = 0x13 then payloadCmd sub imm (sramPayload p)
  else if op = 0x14 then plainCmd sub imm p .readSram
  else if op = 0x15 then plainCmd sub imm p .readWram
  else if op = 0x16 then plainCmd sub imm p .queryStatus
  else if op = 0x17 then plainCmd sub imm p .readFrameBuffer
  else if op = 0x18 then plainCmd sub imm p .readAudioSamples
  else if op = 0x20 then enumCmd imm p (Region.ofCode sub) .setRegion
  else if op = 0x21 then enumCmd imm p (FourPlayer.ofCode sub) .setFourPlayer
  else if op = 0x22 then enumCmd imm p (VideoFilter.ofCode sub) .setFilter
  else if op = 0x23 then enumCmd imm p (RamPolicy.ofCode sub) .setRamState
  else if op = 0x24 then enumCmd imm p (connectOfCode sub) .connectZapper
  else if op = 0x25 then busNoData sub p (.aimZapper (hiByte imm) (loByte imm))
  else if op = 0x26 then plainCmd sub imm p .triggerZapper
  else if op = 0x27 then enumCmd imm p (Channel.ofCode sub) .toggleApuChannel
  else if op = 0x28 then plainCmd sub imm p .clearAudioSamples
  else if op = 0x29 then
    enumCmd (imm &&& 0xFC00) p (playerOfCode sub) fun player => .setJoypad player (imm.setWidth 10)
  else if op = 0x2A then enumCmd imm p (Revision.ofCode sub) .setMapperRevision
  else if op = 0x30 then payloadCmd sub imm (codePayload .addGenie p)
  else if op = 0x31 then payloadCmd sub imm (codePayload .removeGenie p)
  else if op = 0x40 then busNoData sub p (.cpuRead imm)
  else if op = 0x41 then busData p (.cpuWrite imm sub)
  else if op = 0x42 then busNoData sub p (.cpuPeek imm)
  else if op = 0x43 then busNoData sub p (.ppuRead imm)
  else if op = 0x44 then busData p (.ppuWrite imm sub)
  else if op = 0x45 then busNoData sub p (.ppuPeek imm)
  else .error .unknownOp

/-- A host word with its payload (R151 to R156). -/
def decodeHost (w : Word32) (p : Payload) : Except DecodeError Instr :=
  decodeFields (opField w) (subField w) (immField w) p

/-! ## Decoding an opcode byte (R157) -/

/-- The opcode classes: the corrupting bytes, the six reference opcodes, and the rest of the execute class. -/
def decodeOpc (b : Byte) : Instr :=
  if b = 0x02 then .jam02
  else if b = 0x12 then .jam12
  else if b = 0x22 then .jam22
  else if b = 0x32 then .jam32
  else if b = 0x42 then .jam42
  else if b = 0x52 then .jam52
  else if b = 0x62 then .jam62
  else if b = 0x72 then .jam72
  else if b = 0x92 then .jam92
  else if b = 0xB2 then .jamB2
  else if b = 0xD2 then .jamD2
  else if b = 0xF2 then .jamF2
  else if b = 0xEA then .nop
  else if b = 0x4C then .jmpAbs
  else if b = 0xA9 then .ldaImm
  else if b = 0x8D then .staAbs
  else if b = 0xE8 then .inx
  else if b = 0xD0 then .bneRel
  else .execute b

/-! ## Decoding a mapper register write (R150, R463 to R477) -/

/-- The MMC1 register rows (R437). -/
def decodeMmc1 (a : Addr) (v : Byte) : Option Instr :=
  if mmc1Row a 0x8000 then some (.mmc1Control a v)
  else if mmc1Row a 0xA000 then some (.mmc1Chr0 a v)
  else if mmc1Row a 0xC000 then some (.mmc1Chr1 a v)
  else if mmc1Row a 0xE000 then some (.mmc1Prg a v)
  else none

/-- The MMC3 register rows (R452). -/
def decodeMmc3 (a : Addr) (v : Byte) : Option Instr :=
  if mmc3Row a 0x8000 then some (.mmc3BankSelect a v)
  else if mmc3Row a 0x8001 then some (.mmc3BankData a v)
  else if mmc3Row a 0xA000 then some (.mmc3Mirroring a v)
  else if mmc3Row a 0xA001 then some (.mmc3PrgRamProtect a v)
  else if mmc3Row a 0xC000 then some (.mmc3IrqLatch a v)
  else if mmc3Row a 0xC001 then some (.mmc3IrqReload a v)
  else if mmc3Row a 0xE000 then some (.mmc3IrqDisable a v)
  else if mmc3Row a 0xE001 then some (.mmc3IrqEnable a v)
  else none

/-- The register a CPU write reaches on a board; none where the board has no register at the address. -/
def decodeMapReg (board : BoardKind) (a : Addr) (v : Byte) : Option Instr :=
  match board with
  | .nrom => none
  | .uxrom => if upperHalf a then some (.uxromBank a v) else none
  | .cnrom => if upperHalf a then some (.cnromChrBank a v) else none
  | .axrom => if upperHalf a then some (.axromReg a v) else none
  | .mmc1 => decodeMmc1 a v
  | .mmc3 => decodeMmc3 a v

/-- The decoder, on anything that carries an instruction. -/
def decode : Code → Except DecodeError Instr
  | .host w p => decodeHost w p
  | .opc b => .ok (decodeOpc b)
  | .mapReg board a v =>
    match decodeMapReg board a v with
    | none => .error .notARegister
    | some i => .ok i

/-! ## Encoding -/

/-- A word with only an opcode. -/
def opWord (op : Byte) : Word32 := mkWord op 0 0

/-- The code of an instruction, from the same tables. -/
def encode : Instr → Code
  | .clockInstr => .host (opWord 0x01) .none
  | .clockSeconds num den => .host (opWord 0x02) (.seconds num den)
  | .clockFrame => .host (opWord 0x03) .none
  | .clockScanline => .host (opWord 0x04) .none
  | .loadRom name desc => .host (opWord 0x10) (.rom name desc)
  | .unloadRom => .host (opWord 0x11) .none
  | .reset kind => .host (mkWord 0x12 kind.code 0) .none
  | .loadSram b => .host (opWord 0x13) (.bytes b)
  | .readSram => .host (opWord 0x14) .none
  | .readWram => .host (opWord 0x15) .none
  | .queryStatus => .host (opWord 0x16) .none
  | .readFrameBuffer => .host (opWord 0x17) .none
  | .readAudioSamples => .host (opWord 0x18) .none
  | .setRegion r => .host (mkWord 0x20 r.code 0) .none
  | .setFourPlayer m => .host (mkWord 0x21 m.code 0) .none
  | .setFilter f => .host (mkWord 0x22 f.code 0) .none
  | .setRamState p => .host (mkWord 0x23 p.code 0) .none
  | .connectZapper e => .host (mkWord 0x24 (connectCode e) 0) .none
  | .aimZapper x y => .host (mkWord 0x25 0 (x ++ y : BitVec 16)) .none
  | .triggerZapper => .host (opWord 0x26) .none
  | .toggleApuChannel c => .host (mkWord 0x27 c.code 0) .none
  | .clearAudioSamples => .host (opWord 0x28) .none
  | .setJoypad player mask => .host (mkWord 0x29 (player.setWidth 8) (mask.setWidth 16)) .none
  | .setMapperRevision r => .host (mkWord 0x2A r.code 0) .none
  | .addGenie code => .host (opWord 0x30) (.code code)
  | .removeGenie code => .host (opWord 0x31) (.code code)
  | .cpuRead a => .host (mkWord 0x40 0 a) .none
  | .cpuWrite a v => .host (mkWord 0x41 v a) .none
  | .cpuPeek a => .host (mkWord 0x42 0 a) .none
  | .ppuRead a => .host (mkWord 0x43 0 a) .none
  | .ppuWrite a v => .host (mkWord 0x44 v a) .none
  | .ppuPeek a => .host (mkWord 0x45 0 a) .none
  | .jam02 => .opc 0x02
  | .jam12 => .opc 0x12
  | .jam22 => .opc 0x22
  | .jam32 => .opc 0x32
  | .jam42 => .opc 0x42
  | .jam52 => .opc 0x52
  | .jam62 => .opc 0x62
  | .jam72 => .opc 0x72
  | .jam92 => .opc 0x92
  | .jamB2 => .opc 0xB2
  | .jamD2 => .opc 0xD2
  | .jamF2 => .opc 0xF2
  | .nop => .opc 0xEA
  | .jmpAbs => .opc 0x4C
  | .ldaImm => .opc 0xA9
  | .staAbs => .opc 0x8D
  | .inx => .opc 0xE8
  | .bneRel => .opc 0xD0
  | .execute b => .opc b
  | .uxromBank a v => .mapReg .uxrom a v
  | .cnromChrBank a v => .mapReg .cnrom a v
  | .axromReg a v => .mapReg .axrom a v
  | .mmc1Control a v => .mapReg .mmc1 a v
  | .mmc1Chr0 a v => .mapReg .mmc1 a v
  | .mmc1Chr1 a v => .mapReg .mmc1 a v
  | .mmc1Prg a v => .mapReg .mmc1 a v
  | .mmc3BankSelect a v => .mapReg .mmc3 a v
  | .mmc3BankData a v => .mapReg .mmc3 a v
  | .mmc3Mirroring a v => .mapReg .mmc3 a v
  | .mmc3PrgRamProtect a v => .mapReg .mmc3 a v
  | .mmc3IrqLatch a v => .mapReg .mmc3 a v
  | .mmc3IrqReload a v => .mapReg .mmc3 a v
  | .mmc3IrqDisable a v => .mapReg .mmc3 a v
  | .mmc3IrqEnable a v => .mapReg .mmc3 a v

/-! ## The table's words -/

/-- The payload of zeros for a word whose command takes one (log 5): 0/1 seconds, an empty name and descriptor, no
bytes, an empty code. -/
def zeroPayload (w : Word32) : Payload :=
  if opField w = 0x02 then .seconds 0 1
  else if opField w = 0x10 then
    .rom [] { mapperId := 0, submapper := 0, prgRom := { size := 0, cells := [] }, chrRom := { size := 0, cells := [] },
              mirroring := .horizontal, battery := false, regionHint := none, trainer := none }
  else if opField w = 0x13 then .bytes { size := 0, cells := [] }
  else if opField w = 0x30 ∨ opField w = 0x31 then .code []
  else .none

/-- The board whose decode stands for a 16-bit row, which does not say its board (log 5). -/
def tableBoard : BoardKind := .mmc3

/-- The instruction the decoder reads from a table row's bits: 32 bits are a CMD or BUS word, 8 an opcode byte, 16 the
address of a mapper register write with data 0. -/
def decodeTableWord (nbits w : Nat) : Option Instr :=
  if nbits = 32 then
    match decodeHost (BitVec.ofNat 32 w) (zeroPayload (BitVec.ofNat 32 w)) with
    | .ok i => some i
    | .error _ => none
  else if nbits = 8 then some (decodeOpc (BitVec.ofNat 8 w))
  else if nbits = 16 then decodeMapReg tableBoard (BitVec.ofNat 16 w) 0
  else none

end Sys2Proof
end

