-- ==== Sys2Proof/Config.lean ====
section
/-! DEFINITION. What an implementation fixes: the parameters that are values (00_scope.md R10, R12, R213, R217, R459), the records
the parameter functions see, the interaction trees they answer with, and the free values: opaque constants with no body,
so that nothing about them can be proved beyond their types (R13, R14, R15; log 9, log 14). -/

namespace Sys2Proof

/-! ## Parameters that are values -/

/-- A region's numbers (R10); `dotsNum / dotsDen` is `DotsPerCpuCycle`, an exact rational. DESIGN CHOICE: R10 gives `ClockRate`
no type; it is a natural number of cycles a second here (log 12). -/
structure RegionParams where
  clockRate         : Nat
  scanlinesPerFrame : Nat
  dotsNum           : Nat
  dotsDen           : Nat
  deriving DecidableEq, Repr, Inhabited

/-- The numeric parameters, `CorruptSet` (R12; log 13), and whether the attached picture and audio units are idle ones
(log 11, log 12). No instruction writes them. -/
structure Params where
  ntsc             : RegionParams
  pal              : RegionParams
  dendy            : RegionParams
  dotsPerScanline  : Nat
  jamStepCycles    : Nat
  maxStepCycles    : Nat
  a12FilterCycles  : Nat
  idleUnits        : Bool
  corruptSet       : List Byte
  deriving DecidableEq, Repr, Inhabited

/-- The numbers of one region. -/
def Params.region (p : Params) : Region → RegionParams
  | .ntsc => p.ntsc
  | .pal => p.pal
  | .dendy => p.dendy

/-- The suggested values (R10, R12, R213, R217, R459). PRESUMED: general knowledge by the spec's own mark (log 12). -/
def Params.suggested : Params :=
  { ntsc := { clockRate := 1789773, scanlinesPerFrame := 262, dotsNum := 3, dotsDen := 1 }
    pal := { clockRate := 1662607, scanlinesPerFrame := 312, dotsNum := 16, dotsDen := 5 }
    dendy := { clockRate := 1773448, scanlinesPerFrame := 312, dotsNum := 3, dotsDen := 1 }
    dotsPerScanline := 341
    jamStepCycles := 2
    maxStepCycles := 600
    a12FilterCycles := 3
    idleUnits := false
    corruptSet := decidedCorruptSet }

/-- What the rules assume of the parameters of one region: `DotsPerCpuCycle` is a rational number (R10), and no step is as
long as a frame less one scanline (R217). -/
def RegionParams.ok (r : RegionParams) (p : Params) : Bool :=
  decide (0 < r.dotsDen) &&
    decide (p.maxStepCycles * r.dotsNum < p.dotsPerScanline * (r.scanlinesPerFrame - 1) * r.dotsDen)

/-- What the rules assume of the parameters: `JamStepCycles ≥ 1` (R213), a bound that the fixed steps meet (R217), and R217
in every region; and, the model's own, a scanline that keeps a dot when one is dropped (log 12). -/
def Params.ok (p : Params) : Bool :=
  decide (1 ≤ p.jamStepCycles) && decide (p.jamStepCycles ≤ p.maxStepCycles) && decide (7 ≤ p.maxStepCycles) &&
    decide (2 ≤ p.dotsPerScanline) && p.ntsc.ok p && p.pal.ok p && p.dendy.ok p

/-! ## Records the parameters see -/

/-- The six flags of `p` (R38); bits 5 and 4 of the 8-bit status have no storage (log 18). -/
structure Status where
  n : Bool
  v : Bool
  d : Bool
  i : Bool
  z : Bool
  c : Bool
  deriving DecidableEq, Repr, Inhabited

/-- The processor register file (R36). -/
structure CpuRegs where
  pc : Addr
  a  : Byte
  x  : Byte
  y  : Byte
  s  : Byte
  p  : Status
  deriving DecidableEq, Repr, Inhabited

/-- The configuration record (R30, R63). -/
structure DeckConfig where
  region        : Region
  filter        : VideoFilter
  ramState      : RamPolicy
  fourPlayer    : FourPlayer
  zapperEnabled : Bool
  genie         : List Text
  deriving DecidableEq, Repr, Inhabited

/-- The picture unit as the block sees it (R57 to R60); `dot` and `shortened` are implied by R540 and R541 (log 10),
`priv` stands for the unit's own registers (log 9). -/
structure Ppu where
  frameNumber : BitVec 32
  scanline    : Nat
  dot         : Nat
  shortened   : Bool
  nmiOut      : Bool
  frame       : Memory
  priv        : Nat
  deriving DecidableEq, Repr, Inhabited

/-- An audio sample, as its 32 bits (log 19). -/
abbrev Sample := BitVec 32

/-- One enable bit per audio channel (R66). -/
structure Channels where
  pulse1   : Bool
  pulse2   : Bool
  triangle : Bool
  noise    : Bool
  dmc      : Bool
  deriving DecidableEq, Repr, Inhabited

/-- The audio unit as the block sees it (R59, R60, R66); `priv` stands for the unit's own registers (log 9). -/
structure Apu where
  irqOut         : Bool
  samples        : List Sample
  channelEnabled : Channels
  priv           : Nat
  deriving DecidableEq, Repr, Inhabited

/-- What the audio unit's registers and its IRQ can depend on: the unit itself, neither the channel enables nor the sample
buffer (R298, D43, R60). -/
structure ApuCore where
  irqOut : Bool
  priv   : Nat
  deriving DecidableEq, Repr, Inhabited

/-- The light gun (R61). -/
structure Zapper where
  connected : Bool
  x         : Byte
  y         : Byte
  trigger   : Bool
  deriving DecidableEq, Repr, Inhabited

/-- The input state (R61): one button mask per player. -/
structure Input where
  joypad0 : BitVec 16
  joypad1 : BitVec 16
  joypad2 : BitVec 16
  joypad3 : BitVec 16
  zapper  : Zapper
  deriving DecidableEq, Repr, Inhabited

/-- What the audio, DMA and input registers can depend on (R61, R99), the fields of the configuration as R63 names them. -/
structure IoView where
  apu           : ApuCore
  input         : Input
  region        : Region
  fourPlayer    : FourPlayer
  zapperEnabled : Bool
  ppu           : Ppu
  deriving DecidableEq, Repr, Inhabited

/-! ## Interaction trees -/

/-- A processor program over `CpuPort` (R215): it can only read, write, idle, and end with a value. Every tree is
finite. -/
inductive CpuProg (α : Type) where
  | done (x : α)
  | read (a : Addr) (k : Byte → CpuProg α)
  | write (a : Addr) (v : Byte) (k : CpuProg α)
  | idle (k : CpuProg α)
  deriving Inhabited

/-- One port operation and the rest of the program (law (c) of R215: an execution makes at least one). -/
inductive CpuFirst (α : Type) where
  | read (a : Addr) (k : Byte → CpuProg α)
  | write (a : Addr) (v : Byte) (k : CpuProg α)
  | idle (k : CpuProg α)
  deriving Inhabited

/-- The program of a first operation and its rest. -/
def CpuFirst.prog {α : Type} : CpuFirst α → CpuProg α
  | .read a k => .read a k
  | .write a v k => .write a v k
  | .idle k => .idle k

/-- A picture-unit program over the PPU bus (R14, R343): reads, writes, address-only cycles, and an end. -/
inductive PpuProg (α : Type) where
  | done (x : α)
  | read (a : Addr) (k : Byte → PpuProg α)
  | write (a : Addr) (v : Byte) (k : PpuProg α)
  | addrOut (a : Addr) (k : PpuProg α)
  deriving Inhabited

/-- How a dot ends (R14, R540): the unit's registers, its NMI output, the pixels it puts into the frame, and whether it
drops a dot of this frame. -/
structure DotEnd where
  priv   : Nat
  nmiOut : Bool
  pixels : List Host.Cell
  skip   : Bool
  deriving DecidableEq, Repr, Inhabited

/-- How a picture-unit register read ends: the unit's registers and the byte (R14, R59). -/
structure PpuReadEnd where
  priv  : Nat
  value : Byte
  deriving DecidableEq, Repr, Inhabited

/-- How a picture-unit register write ends: the unit's registers and its NMI output (R14, R59). -/
structure PpuWriteEnd where
  priv   : Nat
  nmiOut : Bool
  deriving DecidableEq, Repr, Inhabited

/-- What each audio channel puts out in one cycle (R66; log 9). -/
structure ChannelOutputs where
  pulse1   : Nat
  pulse2   : Nat
  triangle : Nat
  noise    : Nat
  dmc      : Nat
  deriving DecidableEq, Repr, Inhabited

/-- What one audio-unit cycle does (R14, R66): the unit's registers, its IRQ output, and what it hands to the sample mix:
the channels' outputs and the state of its sample clock. -/
structure ApuEnd where
  priv    : Nat
  irqOut  : Bool
  outputs : ChannelOutputs
  sampler : Nat
  deriving DecidableEq, Repr, Inhabited

/-- How a read in 0x4000..0x4017 ends (R14, R59). -/
structure IoReadEnd where
  priv   : Nat
  irqOut : Bool
  value  : Byte
  deriving DecidableEq, Repr, Inhabited

/-- How a write in 0x4000..0x4017 ends (R14, R59). -/
structure IoWriteEnd where
  priv   : Nat
  irqOut : Bool
  deriving DecidableEq, Repr, Inhabited

/-- A processor cycle whose bus access the spec does not state: none, or a read whose value is not used (log 16). -/
inductive DummyOp where
  | idle
  | read (a : Addr)
  deriving DecidableEq, Repr, Inhabited

/-! ## Free values: no body, so only the types are known -/

/-- `Execute` for an opcode that no rule fixes (R13, R215; log 14). -/
opaque Config.execute : Byte → CpuRegs → CpuFirst CpuRegs

/-- The registers `Execute` leaves when a program of the free parameter is longer than `MaxStepCycles` (R217; log 14). -/
opaque Config.executeCutRegs : Byte → CpuRegs → CpuRegs

/-- The stall of a sprite-DMA write by the reference STA (R99, D44; log 17), given the byte written. -/
opaque Config.dmaStall : Byte → CpuProg Unit

/-- RTI's second cycle (log 16). -/
opaque Config.rtiCycle2 : CpuRegs → DummyOp

/-- RTI's third cycle (log 16). -/
opaque Config.rtiCycle3 : CpuRegs → DummyOp

/-- One picture-unit dot (R14). -/
opaque Config.ppuDot : (draw : Nat) → Region → Ppu → PpuProg DotEnd

/-- Where the picture unit goes, and whether it takes a frame boundary, when a region change has left its scanline out
of range (R291; log 10). -/
opaque Config.ppuRelocate : (draw : Nat) → Region → Ppu → Nat × Bool

/-- `PpuRegRead` (R14). -/
opaque Config.ppuRegRead : (draw : Nat) → Region → Ppu → BitVec 3 → PpuProg PpuReadEnd

/-- `PpuRegWrite` (R14). -/
opaque Config.ppuRegWrite : (draw : Nat) → Region → Ppu → BitVec 3 → Byte → PpuProg PpuWriteEnd

/-- `PpuRegPeek` (R14): none when the parameter gives no value (R330). DESIGN CHOICE: it sees the region and the picture unit alone,
not the PPU bus or its memory, and takes no draw (log 36). -/
opaque Config.ppuRegPeek : Region → Ppu → BitVec 3 → Option Byte

/-- `PpuReset` (R574): the unit's registers and its NMI output. DESIGN CHOICE: it sees the reset's kind, the region and the picture
unit alone, and makes no transaction on the PPU bus (log 37). -/
opaque Config.ppuReset : (draw : Nat) → ResetKind → Region → Ppu → PpuWriteEnd

/-- One audio-unit CPU cycle (R14); what it sees is the model's choice (log 37). -/
opaque Config.apuTick : (draw : Nat) → Region → ApuCore → ApuEnd

/-- The samples of one cycle (R60, R66), from the state of the sample clock and the outputs that are mixed. -/
opaque Config.apuMix : Region → (sampler : Nat) → List (Channel × Nat) → List Sample

/-- `ApuIoRead` (R14). -/
opaque Config.apuIoRead : (draw : Nat) → IoView → Addr → IoReadEnd

/-- `ApuIoWrite` (R14). -/
opaque Config.apuIoWrite : (draw : Nat) → IoView → Addr → Byte → IoWriteEnd

/-- `ApuIoPeek` (R14): none when the parameter gives no value (R330). DESIGN CHOICE: it sees what an access there sees, and takes
no draw (log 36). -/
opaque Config.apuIoPeek : IoView → Addr → Option Byte

/-- `ApuReset` (R574): the unit's registers and its IRQ output. DESIGN CHOICE: it sees the reset's kind, the region and the audio
unit's registers and IRQ output alone (log 37). -/
opaque Config.apuReset : (draw : Nat) → ResetKind → Region → ApuCore → IoWriteEnd

/-- `Filter` (R266): byte `i` of the RGBA frame. -/
opaque Config.filterByte : VideoFilter → Memory → (i : Nat) → Byte

/-- A byte of a pool filled under the Random policy (R15, R64). -/
opaque Config.randomByte : (draw : Nat) → (i : Nat) → Byte

/-- The byte of a transaction the model refuses (R107; log 2). -/
opaque Config.refusedByte : (draw : Nat) → Byte

/-- MMC3's power-on `mirroring_reg` under a Four-Screen header, which R450 does not state (log 27). -/
opaque Config.mmc3FourScreenReg : BitVec 1

end Sys2Proof
end

