-- ==== Sys2Proof/Machine/State.lean ====
section
/-! DEFINITION. The state of the block as plain data (10_state.md), the results a command returns (60_exceptions.md
section 1), the ways a step can stop, and the state after deck construction. -/

namespace Sys2Proof.Machine

open Sys2Proof

/-! ## Results of commands -/

/-- Why `LOAD_ROM` rejects a descriptor (R251). -/
inductive RomProblem where
  | unsupportedMapper | badPrgSize | badChrSize | badTrainer | badMirroring | boardLimit
  deriving DecidableEq, Repr

/-- Why `ADD_GENIE` rejects a code (R482): the number of characters, or the first bad character and its place. -/
inductive CodeProblem where
  | wrongLength (n : Nat)
  | badChar (k : Nat) (c : Char)
  deriving DecidableEq, Repr

/-- The errors a command returns (R510). -/
inductive CmdError where
  | romFormat (reason : RomProblem)
  | cpuCorrupted
  | invalidCode (reason : CodeProblem)
  deriving DecidableEq, Repr

/-- The verdict that a command has no meaning (R517; log 1). -/
inductive RefuseReason where
  | illegalCommand | noCartridge | fourScreenDefault
  deriving DecidableEq, Repr

/-- The record `QUERY_STATUS` returns (R265). -/
structure StatusRecord where
  running     : Bool
  loadedRom   : Option Text
  corrupted   : Bool
  region      : Region
  frameNumber : BitVec 32
  scanline    : Nat
  cycle       : Stamp
  deriving DecidableEq, Repr

/-- The values a command returns (R152, R153). -/
inductive Value where
  | unit
  | cycles (n : Nat)
  | flushed (b : Option Memory)
  | bytes (b : Memory)
  | samples (l : List Sample)
  | status (r : StatusRecord)
  | byte (v : Byte)
  deriving DecidableEq, Repr

/-- A command's result (R19). -/
inductive Result where
  | ok (v : Value)
  | err (e : CmdError)
  | refused (r : RefuseReason)
  deriving DecidableEq, Repr

/-! ## Cartridge boards -/

/-- What every board holds (R56, R252, R369, R370, R374). -/
structure BoardInfo where
  header     : HeaderMirroring
  fourScreen : Bool
  region     : Region
  revision   : Revision
  deriving DecidableEq, Repr

/-- MMC1's registers (R430). -/
structure Mmc1 where
  shift          : BitVec 5
  count          : Fin 5
  control        : BitVec 5
  chr0           : BitVec 5
  chr1           : BitVec 5
  prg            : BitVec 5
  lastWriteCycle : Option Stamp
  deriving DecidableEq, Repr

/-- MMC3's registers (R450). -/
structure Mmc3 where
  bankSelect   : Byte
  r0           : Byte
  r1           : Byte
  r2           : Byte
  r3           : Byte
  r4           : Byte
  r5           : Byte
  r6           : Byte
  r7           : Byte
  mirroringReg : BitVec 1
  prgRamCtl    : Byte
  irqLatch     : Byte
  irqCounter   : Byte
  irqReload    : Bool
  irqEnabled   : Bool
  irqOut       : Bool
  a12Prev      : Bool
  a12HighCycle : Option Stamp
  deriving DecidableEq, Repr

/-- A board's own registers (45_mapper_boards.md). -/
inductive BoardRegs where
  | nrom
  | uxrom (bank : Byte)
  | cnrom (chrBank : Byte)
  | axrom (reg : Byte)
  | mmc1 (m : Mmc1)
  | mmc3 (m : Mmc3)
  deriving DecidableEq, Repr

/-- The mapper: no cartridge, or one board (R55, R375). -/
inductive Mapper where
  | empty
  | board (info : BoardInfo) (regs : BoardRegs)
  deriving DecidableEq, Repr

/-! ## The block -/

/-- The processor (R36 to R41). -/
structure Cpu where
  regs      : CpuRegs
  corrupted : Bool
  cycle     : Stamp
  nmiPrev   : Bool
  nmiLatch  : Bool
  deriving DecidableEq, Repr

/-- A cheat code in the table (R45). -/
structure GenieEntry where
  text    : Text
  addr    : Addr
  data    : Byte
  compare : Option Byte
  deriving DecidableEq, Repr

/-- The CPU-side bus (R43 to R45). -/
structure Bus where
  wram    : Memory
  openBus : Byte
  genie   : List GenieEntry
  deriving DecidableEq, Repr

/-- The picture-unit-side bus (R46 to R51). -/
structure PpuBus where
  ciram       : Memory
  palette     : Memory
  exram       : Memory
  chr         : Memory
  chrIsRam    : Bool
  mirrorShift : MirrorShift
  openBus     : Byte
  deriving DecidableEq, Repr

/-- Cartridge storage (R52 to R54). -/
structure Cart where
  prgRom : Memory
  prgRam : Memory
  desc   : Option Descriptor
  deriving DecidableEq, Repr

/-- Everything the transactions, the ticks and the steps read or write. -/
structure Chip where
  params    : Params
  config    : DeckConfig
  cpu       : Cpu
  bus       : Bus
  ppubus    : PpuBus
  cart      : Cart
  mapper    : Mapper
  ppu       : Ppu
  apu       : Apu
  input     : Input
  draws     : Nat
  fsDefault : Bool
  deriving DecidableEq, Repr

/-- The counter that ends a CLOCK_FRAME or CLOCK_SCANLINE, and its value when the command began (R203, R204). -/
inductive ClockLoop where
  | frame (start : BitVec 32)
  | scanline (start : Nat)
  deriving DecidableEq, Repr

/-- A CLOCK_FRAME or CLOCK_SCANLINE that has not ended: its loop, and the cycles of its steps so far (log 25). -/
structure Ongoing where
  loop   : ClockLoop
  cycles : Nat
  deriving DecidableEq, Repr

/-- The whole machine: the chip, the deck's own fields (R31 to R35), and the host's side: the words to come, the result of
the last command, and the command still in progress (log 3, log 25). -/
structure State where
  chip            : Chip
  running         : Bool
  loadedRom       : Option Text
  batteryBacked   : Bool
  cyclesRemaining : Rat
  refused         : Bool
  pending         : List HostWord
  result          : Option Result
  ongoing         : Option Ongoing
  deriving DecidableEq, Repr

/-- Why a step stops with a fault: nothing does. The spec's faults are results of commands (R510), its refusals a mark (R517),
and no address is missing (R96). -/
inductive Fault where
  deriving DecidableEq, Repr

/-- Why a step refuses. -/
inductive Refusal where
  /-- Raised by `exec` for an instruction that has no meaning in the model. Safe. -/
  | notModelled (mnemonic : String)
  deriving DecidableEq, Repr

/-! ## Deck construction -/

/-- The construction defaults of the configuration (R63). -/
def DeckConfig.construction : DeckConfig :=
  { region := .ntsc, filter := .pixellate, ramState := .allZeros, fourPlayer := .disabled, zapperEnabled := false,
    genie := [] }

/-- A pool of 0x00 bytes. -/
def zeroPool (size : Nat) : Memory := { size := size, cells := [] }

/-- The register file at construction: R36 leaves it unspecified. DESIGN CHOICE: all zero (log 7). -/
def CpuRegs.construction : CpuRegs :=
  { pc := 0, a := 0, x := 0, y := 0, s := 0,
    p := { n := false, v := false, d := false, i := false, z := false, c := false } }

/-- The chip at construction (R80, R57 to R61, R66; log 6, log 7, log 8). -/
def Chip.construction : Chip :=
  { params := Params.suggested
    config := DeckConfig.construction
    cpu := { regs := CpuRegs.construction, corrupted := false, cycle := 0, nmiPrev := false, nmiLatch := false }
    bus := { wram := zeroPool 2048, openBus := 0, genie := [] }
    ppubus :=
      { ciram := zeroPool 2048, palette := zeroPool 32, exram := zeroPool 0, chr := zeroPool 0, chrIsRam := false,
        mirrorShift := .h, openBus := 0 }
    cart := { prgRom := zeroPool 0, prgRam := zeroPool 0, desc := none }
    mapper := .empty
    ppu :=
      { frameNumber := 0, scanline := 0, dot := 0, shortened := false, nmiOut := false, frame := zeroPool 61440,
        priv := 0 }
    apu :=
      { irqOut := false, samples := [],
        channelEnabled := { pulse1 := true, pulse2 := true, triangle := true, noise := true, dmc := true }, priv := 0 }
    input :=
      { joypad0 := 0, joypad1 := 0, joypad2 := 0, joypad3 := 0,
        zapper := { connected := false, x := 0, y := 0, trigger := false } }
    draws := 0
    fsDefault := false }

/-- The machine after deck construction with the default configuration (R80, R578 first column): no cartridge, no
command yet. -/
def State.reset : State :=
  { chip := Chip.construction
    running := false
    loadedRom := none
    batteryBacked := false
    cyclesRemaining := 0
    refused := false
    pending := []
    result := none
    ongoing := none }

end Sys2Proof.Machine
end

