-- ==== Sys2Proof/Machine/Flags.lean ====
section
/-! DEFINITION. The status register: the N and Z updates of the reference opcodes (40_deck_clocking.md R230), the pushed
copy and the pulled copy of `p` (10_state.md R38, 60_exceptions.md R526, R529). -/

namespace Sys2Proof.Machine

open Sys2Proof

/-- `N ← r[7]`, `Z ← (r = 0)` (R230). -/
def setNZ (p : Status) (r : Byte) : Status :=
  { p with n := r.getLsbD 7, z := r == 0 }

/-- `p.I ← 1` (R526, R572). -/
def setI (p : Status) : Status := { p with i := true }

/-- The status after a hard reset (R573). -/
def hardResetStatus : Status :=
  { n := false, v := false, d := false, i := true, z := false, c := false }

/-- The copy of `p` pushed on the stack: bit 5 is 1, bit 4 is B (R38). -/
def pushedStatus (p : Status) (brk : Bool) : Byte :=
  BitVec.ofNat 8 (p.n.toNat * 128 + p.v.toNat * 64 + 32 + brk.toNat * 16 + p.d.toNat * 8 + p.i.toNat * 4 +
    p.z.toNat * 2 + p.c.toNat)

/-- The flags of a pulled byte; bits 5 and 4 are ignored (R529). -/
def pulledStatus (b : Byte) : Status :=
  { n := b.getLsbD 7, v := b.getLsbD 6, d := b.getLsbD 3, i := b.getLsbD 2, z := b.getLsbD 1, c := b.getLsbD 0 }

end Sys2Proof.Machine
end

