-- ==== Sys2Proof/Machine/Ops.lean ====
section
/-! DEFINITION. The named operations: reading, writing and filling a pool of bytes (10_state.md R64, 20_memory.md R108,
R109), how a command ends (00_scope.md R19, 60_exceptions.md R517), and the processor programs that take an exception
and return from one (60_exceptions.md R524 to R529, 70_reset_and_hazards.md R572). -/

namespace Sys2Proof

/-! ## Pools of bytes -/

/-- The byte a list of cells gives an index; 0x00 where it gives none (log 21). -/
def cellAt (i : Nat) : List Host.Cell → Byte
  | [] => 0
  | (j, v) :: rest => if i = j then v else cellAt i rest

/-- Stores a byte, keeping the cells in rising order and without 0x00. -/
def putCell (i : Nat) (v : Byte) : List Host.Cell → List Host.Cell
  | [] => if v = 0 then [] else [(i, v)]
  | (j, w) :: rest =>
    if i < j then (if v = 0 then (j, w) :: rest else (i, v) :: (j, w) :: rest)
    else if i = j then (if v = 0 then rest else (i, v) :: rest)
    else (j, w) :: putCell i v rest

/-- `pool[i]`. -/
def Memory.read (m : Memory) (i : Nat) : Byte := cellAt i m.cells

/-- `pool[i] ← v`; an index at or past the size names no byte. -/
def Memory.write (m : Memory) (i : Nat) (v : Byte) : Memory :=
  if i < m.size then { m with cells := putCell i v m.cells } else m

/-- The cells of indices `i`, `i + 1`, … for `n` bytes given by a function. -/
def tabulateCells (f : Nat → Byte) : (i n : Nat) → List Host.Cell
  | _, 0 => []
  | i, n + 1 => if f i = 0 then tabulateCells f (i + 1) n else (i, f i) :: tabulateCells f (i + 1) n

/-- The pool of `size` bytes given by a function. -/
def Memory.tabulate (size : Nat) (f : Nat → Byte) : Memory :=
  { size := size, cells := tabulateCells f 0 size }

/-- `InitRam` of a pool of `size` bytes (R64); Random takes a fresh draw (log 30). -/
def initRam (policy : RamPolicy) (draw size : Nat) : Memory :=
  match policy with
  | .allZeros => { size := size, cells := [] }
  | .allOnes => Memory.tabulate size fun _ => 0xFF
  | .random => Memory.tabulate size (Config.randomByte draw)

/-- A read of a pool at an index reduced modulo its size; an empty pool gives the latch (R108, R114). -/
def Memory.readMod (m : Memory) (i : Nat) (latch : Byte) : Byte :=
  if m.size = 0 then latch else m.read (i % m.size)

/-- A write of a pool at an index reduced modulo its size; an empty pool takes none (R109). -/
def Memory.writeMod (m : Memory) (i : Nat) (v : Byte) : Memory :=
  if m.size = 0 then m else m.write (i % m.size) v

/-- Stores the pixels of a dot into the raw frame. -/
def Memory.writeAll (m : Memory) : List Host.Cell → Memory
  | [] => m
  | (i, v) :: rest => (m.write i v).writeAll rest

/-! ## The audio unit -/

/-- The part of the audio unit that its registers and its IRQ are made of (R298, D43). -/
def Apu.core (a : Apu) : ApuCore := { irqOut := a.irqOut, priv := a.priv }

/-- The outputs that are mixed: a disabled channel is left out (R66, R298). -/
def Channels.mixed (e : Channels) (o : ChannelOutputs) : List (Channel × Nat) :=
  (if e.pulse1 then [(.pulse1, o.pulse1)] else []) ++ (if e.pulse2 then [(.pulse2, o.pulse2)] else []) ++
  (if e.triangle then [(.triangle, o.triangle)] else []) ++ (if e.noise then [(.noise, o.noise)] else []) ++
  (if e.dmc then [(.dmc, o.dmc)] else [])

/-! ## Processor programs -/

/-- Runs a second program after the first. -/
def CpuProg.andThen {α β : Type} : CpuProg α → (α → CpuProg β) → CpuProg β
  | .done x, k => k x
  | .read a f, k => .read a fun v => (f v).andThen k
  | .write a v p, k => .write a v (p.andThen k)
  | .idle p, k => .idle (p.andThen k)

/-- The program cut after `n` operations, ending with `x` there: every program of at most `n` operations is unchanged
(R217; log 14). -/
def CpuProg.cut {α : Type} (x : α) : Nat → CpuProg α → CpuProg α
  | _, .done y => .done y
  | 0, .read _ _ => .done x
  | 0, .write _ _ _ => .done x
  | 0, .idle _ => .done x
  | n + 1, .read a f => .read a fun v => CpuProg.cut x n (f v)
  | n + 1, .write a v p => .write a v (CpuProg.cut x n p)
  | n + 1, .idle p => .idle (CpuProg.cut x n p)

/-- A cycle whose access the spec does not state (log 16). -/
def DummyOp.prog {α : Type} (op : DummyOp) (k : CpuProg α) : CpuProg α :=
  match op with
  | .idle => .idle k
  | .read a => .read a fun _ => k

/-- The interrupts the control unit takes (R520). -/
inductive Interrupt where
  | nmi | irq
  deriving DecidableEq, Repr

/-- The vector of an interrupt (R102, R520). -/
def Interrupt.vector : Interrupt → Addr
  | .nmi => 0xFFFA
  | .irq => 0xFFFE

end Sys2Proof

namespace Sys2Proof.Machine

open Sys2Proof

/-- Taking an exception (R526, R525): pushes a return address and a copy of `p`, sets I, and loads `pc` from a vector.
Five cycles; the dummy reads before it are the caller's. -/
def takeException (r : CpuRegs) (ret : Addr) (brk : Bool) (vector : Addr) : CpuProg CpuRegs :=
  .write (stackAddr r.s) (hiByte ret) <|
  .write (stackAddr (r.s - 1)) (loByte ret) <|
  .write (stackAddr (r.s - 2)) (pushedStatus r.p brk) <|
  .read vector fun lo =>
  .read (vector + 1) fun hi =>
  .done { r with s := r.s - 3, p := setI r.p, pc := word16 lo hi }

/-- The seven cycles of an interrupt entry (R526), less the clearing of `nmi_latch`. -/
def interruptProg (k : Interrupt) (r : CpuRegs) : CpuProg CpuRegs :=
  .read r.pc fun _ => .read r.pc fun _ => takeException r r.pc false k.vector

/-- BRK after its fetch (R525): the padding byte is read as a dummy, the pushed PC is the BRK's address + 2, B is 1
(log 15). -/
def brkProg (r : CpuRegs) : CpuProg CpuRegs :=
  .read r.pc fun _ => takeException r (r.pc + 1) true 0xFFFE

/-- The return from an exception, RTI after its fetch (R529): pulls P, PCL and PCH; the two cycles before are free
(log 16). -/
def rtiProg (r : CpuRegs) : CpuProg CpuRegs :=
  (Config.rtiCycle2 r).prog <|
  (Config.rtiCycle3 r).prog <|
  .read (stackAddr (r.s + 1)) fun p =>
  .read (stackAddr (r.s + 2)) fun lo =>
  .read (stackAddr (r.s + 3)) fun hi =>
  .done { r with s := r.s + 3, p := pulledStatus p, pc := word16 lo hi }

/-- The reset sequence (R572): seven cycles, no writes. -/
def resetProg (r : CpuRegs) : CpuProg CpuRegs :=
  .read r.pc fun _ => .read r.pc fun _ =>
  .read (stackAddr r.s) fun _ => .read (stackAddr (r.s - 1)) fun _ => .read (stackAddr (r.s - 2)) fun _ =>
  .read 0xFFFC fun lo => .read 0xFFFD fun hi =>
  .done { r with s := r.s - 3, p := setI r.p, pc := word16 lo hi }

/-! ## How a command ends -/

/-- The chip at the start of a command: no refusal has happened in it yet (log 2). -/
def Chip.begin (c : Chip) : Chip := { c with fsDefault := false }

/-- A command with a result and the state its lines left. -/
def State.finish (s : State) (r : Result) : State := { s with result := some r }

/-- `refuse(reason)` (R19, R517): the mark is set, and nothing else but the result changes. -/
def State.refuse (s : State) (reason : RefuseReason) : State :=
  { s with refused := true, result := some (.refused reason) }

/-- The end of a command that ran transactions: the chip they left and the result, or the refusal of rule R107 when one
of them met it (log 2). -/
def State.commit (s : State) (c : Chip) (r : Result) : State :=
  { s with chip := c.begin
           refused := s.refused || c.fsDefault
           result := some (if c.fsDefault then .refused .fourScreenDefault else r) }

/-! ## Views and codes -/

/-- The numbers of the region in force. -/
def Chip.regionParams (c : Chip) : RegionParams := c.params.region c.config.region

/-- `b ∈ CorruptSet` (R12, R157). -/
def Chip.corrupts (b : Byte) (c : Chip) : Bool := c.params.corruptSet.contains b

/-- The code of an error (R167, R510). -/
def CmdError.code : CmdError → Nat
  | .romFormat _ => 1
  | .cpuCorrupted => 2
  | .invalidCode _ => 3

/-- The code a result carries: 0 for a success, the error's for an error (R167); a refusal is no error and has none
(R517). -/
def Result.code : Result → Option Nat
  | .ok _ => some 0
  | .err e => some e.code
  | .refused _ => none

end Sys2Proof.Machine
end

