-- ==== Sys2Proof/Machine/Mmc1.lean ====
section
/-! DEFINITION. The answers a mapper gives (20_memory.md R108, R109) and the MMC1 board (45_mapper_boards.md section 5). -/

namespace Sys2Proof.Machine

open Sys2Proof

/-- A mapper's answer to a read (R108). -/
inductive MappedRead where
  | dflt
  | prgRom (i : Nat)
  | prgRam (i : Nat)
  | chr (i : Nat)
  | ciRam (i : Nat)
  | exRam (i : Nat)
  | data (v : Byte)
  | openBus
  deriving DecidableEq, Repr

/-- A mapper's answer to a write (R109). -/
inductive MappedWrite where
  | dflt
  | prgRam (i : Nat)
  | chr (i : Nat)
  | ciRam (i : Nat)
  | exRam (i : Nat)
  | none
  deriving DecidableEq, Repr

/-- Power-on registers (R430). -/
def mmc1PowerOn : Mmc1 :=
  { shift := 0, count := 0, control := 0x0C, chr0 := 0, chr1 := 0, prg := 0, lastWriteCycle := none }

/-- The mode coded by `control & 3` (R433, R438). -/
def mmc1Mirroring (m : Mmc1) : Mirroring :=
  let k := (m.control &&& 3).toNat
  if k = 0 then .singleScreenA else if k = 1 then .singleScreenB else if k = 2 then .vertical else .horizontal

/-- The PRG mode, control bits 3:2 (R433). -/
def mmc1PrgMode (m : Mmc1) : Nat := ((m.control >>> 2) &&& 3).toNat

/-- The PRG index of an address in 0x8000..0xFFFF, with `P16` 16 KiB banks (R434). -/
def mmc1PrgIndex (m : Mmc1) (p16 : Nat) (a : Addr) : Nat :=
  let b := (m.prg &&& 0x0F).toNat
  let off := (a &&& 0x3FFF).toNat
  if mmc1PrgMode m < 2 then (m.prg &&& 0x0E).toNat * 0x4000 + (a &&& 0x7FFF).toNat
  else if mmc1PrgMode m = 2 then (if a.toNat < 0xC000 then off else b * 0x4000 + off)
  else (if a.toNat < 0xC000 then b * 0x4000 + off else (p16 - 1) * 0x4000 + off)

/-- The CHR index of an address in 0x0000..0x1FFF (R435). -/
def mmc1ChrIndex (m : Mmc1) (a : Addr) : Nat :=
  if m.control.getLsbD 4 then
    (if a.toNat < 0x1000 then m.chr0.toNat * 0x1000 + (a &&& 0x0FFF).toNat
     else m.chr1.toNat * 0x1000 + (a &&& 0x0FFF).toNat)
  else (m.chr0 &&& 0x1E).toNat * 0x1000 + a.toNat

/-- PRG RAM answers while `prg` bit 4 is 0 (R441). -/
def mmc1PrgRamEnabled (m : Mmc1) : Bool := !m.prg.getLsbD 4

/-- A CPU read in 0x4020..0xFFFF (R440). -/
def mmc1CpuRead (m : Mmc1) (p16 : Nat) (a : Addr) : MappedRead :=
  if a.toNat < 0x6000 then .openBus
  else if a.toNat < 0x8000 then
    (if mmc1PrgRamEnabled m then .prgRam (a.toNat - 0x6000) else .openBus)
  else .prgRom (mmc1PrgIndex m p16 a)

/-- A write with bit 7 set (R432). -/
def mmc1ResetBit (m : Mmc1) : Mmc1 :=
  { m with shift := 0, count := 0, control := m.control ||| 0x0C }

/-- The shift register with this write's bit in it, first write lowest (R432). -/
def mmc1Shifted (m : Mmc1) (v : Byte) : BitVec 5 :=
  m.shift ||| ((v &&& 1).setWidth 5 <<< m.count.val)

/-- The fifth write into `control` (R437, R466). -/
def mmc1StoreControl (m : Mmc1) (x : BitVec 5) : Mmc1 := { m with control := x }

/-- The fifth write into `chr0` (R437, R467). -/
def mmc1StoreChr0 (m : Mmc1) (x : BitVec 5) : Mmc1 := { m with chr0 := x }

/-- The fifth write into `chr1` (R437, R468). -/
def mmc1StoreChr1 (m : Mmc1) (x : BitVec 5) : Mmc1 := { m with chr1 := x }

/-- The fifth write into `prg` (R437, R469). -/
def mmc1StorePrg (m : Mmc1) (x : BitVec 5) : Mmc1 := { m with prg := x }

/-- `register[target] ← shift`, the target being address bits 14:13 (R437). -/
def mmc1Store (m : Mmc1) (a : Addr) (x : BitVec 5) : Mmc1 :=
  let target := ((a >>> 13) &&& 3).toNat
  if target = 0 then mmc1StoreControl m x
  else if target = 1 then mmc1StoreChr0 m x
  else if target = 2 then mmc1StoreChr1 m x
  else mmc1StorePrg m x

/-- A write on the cycle after the previous serial write (R436). DESIGN CHOICE: the stamps are compared modulo 2^64, so cycle 0
is the cycle after 2^64 - 1 (log 34). -/
def mmc1Filtered (m : Mmc1) (stamp : Stamp) : Bool :=
  match m.lastWriteCycle with
  | none => false
  | some c => stamp == c + 1

/-- `MMC1Write` (R432). -/
def mmc1Write (m : Mmc1) (a : Addr) (v : Byte) (stamp : Stamp) : Mmc1 :=
  let m1 := { m with lastWriteCycle := some stamp }
  if mmc1Filtered m stamp then m1
  else if v.getLsbD 7 then mmc1ResetBit m1
  else if m.count.val < 4 then { m1 with shift := mmc1Shifted m v, count := m.count + 1 }
  else { mmc1Store m1 a (mmc1Shifted m v) with shift := 0, count := 0 }

/-- A CPU write in 0x4020..0xFFFF (R440). -/
def mmc1CpuWrite (m : Mmc1) (a : Addr) (v : Byte) (stamp : Stamp) : Mmc1 × MappedWrite :=
  if a.toNat < 0x6000 then (m, .none)
  else if a.toNat < 0x8000 then
    (m, if mmc1PrgRamEnabled m then .prgRam (a.toNat - 0x6000) else .none)
  else (mmc1Write m a v stamp, .none)

end Sys2Proof.Machine
end

