-- ==== Sys2Proof/Machine/Mmc3.lean ====
section
/-! DEFINITION. The MMC3 board (45_mapper_boards.md section 6). -/

namespace Sys2Proof.Machine

open Sys2Proof

/-- The power-on `mirroring_reg` (R450); a Four-Screen header has no stated value (log 27). -/
def mmc3PowerOnMirroring : HeaderMirroring → BitVec 1
  | .vertical => 0
  | .horizontal => 1
  | .fourScreen => Config.mmc3FourScreenReg

/-- Power-on registers (R450). -/
def mmc3PowerOn (h : HeaderMirroring) : Mmc3 :=
  { bankSelect := 0, r0 := 0, r1 := 2, r2 := 4, r3 := 5, r4 := 6, r5 := 7, r6 := 0, r7 := 1,
    mirroringReg := mmc3PowerOnMirroring h, prgRamCtl := 0x80, irqLatch := 0, irqCounter := 0, irqReload := false,
    irqEnabled := false, irqOut := false, a12Prev := false, a12HighCycle := none }

/-- `mirroring` (R450, R456). -/
def mmc3Mirroring (m : Mmc3) : Mirroring :=
  if m.mirroringReg = 0 then .vertical else .horizontal

/-- `r[i]`. -/
def mmc3Reg (m : Mmc3) (i : Nat) : Byte :=
  if i = 0 then m.r0 else if i = 1 then m.r1 else if i = 2 then m.r2 else if i = 3 then m.r3
  else if i = 4 then m.r4 else if i = 5 then m.r5 else if i = 6 then m.r6 else m.r7

/-- `r[i] ← v`. -/
def mmc3SetReg (m : Mmc3) (i : Nat) (v : Byte) : Mmc3 :=
  if i = 0 then { m with r0 := v } else if i = 1 then { m with r1 := v } else if i = 2 then { m with r2 := v }
  else if i = 3 then { m with r3 := v } else if i = 4 then { m with r4 := v } else if i = 5 then { m with r5 := v }
  else if i = 6 then { m with r6 := v } else { m with r7 := v }

/-- The 8 KiB PRG bank of a window, with `P8` banks (R454). -/
def mmc3PrgBank (m : Mmc3) (p8 : Nat) (a : Addr) : Nat :=
  let q := ((a >>> 13) &&& 3).toNat
  let s := m.bankSelect.getLsbD 6
  if q = 0 then (if s then p8 - 2 else (m.r6 &&& 0x3F).toNat)
  else if q = 1 then (m.r7 &&& 0x3F).toNat
  else if q = 2 then (if s then (m.r6 &&& 0x3F).toNat else p8 - 2)
  else p8 - 1

/-- The 1 KiB CHR bank (R455). -/
def mmc3ChrBank (m : Mmc3) (a : Addr) : Nat :=
  let a' := if m.bankSelect.getLsbD 7 then a ^^^ 0x1000 else a
  if a'.toNat < 0x0800 then (m.r0 &&& 0xFE).toNat + ((a' >>> 10) &&& 1).toNat
  else if a'.toNat < 0x1000 then (m.r1 &&& 0xFE).toNat + ((a' >>> 10) &&& 1).toNat
  else (mmc3Reg m (2 + (a'.toNat - 0x1000) / 0x400)).toNat

/-- The CHR index of an address in 0x0000..0x1FFF (R455). -/
def mmc3ChrIndex (m : Mmc3) (a : Addr) : Nat := mmc3ChrBank m a * 0x400 + (a &&& 0x3FF).toNat

/-- PRG RAM is enabled: `prg_ram_ctl` bit 7 (R457). -/
def mmc3PrgRamEnabled (m : Mmc3) : Bool := m.prgRamCtl.getLsbD 7

/-- PRG RAM takes writes: bit 7 = 1 and bit 6 = 0 (R457). -/
def mmc3PrgRamWritable (m : Mmc3) : Bool := m.prgRamCtl.getLsbD 7 && !m.prgRamCtl.getLsbD 6

/-- A CPU read in 0x4020..0xFFFF (R462). -/
def mmc3CpuRead (m : Mmc3) (p8 : Nat) (a : Addr) : MappedRead :=
  if a.toNat < 0x6000 then .openBus
  else if a.toNat < 0x8000 then
    (if mmc3PrgRamEnabled m then .prgRam (a.toNat - 0x6000) else .openBus)
  else .prgRom (mmc3PrgBank m p8 a * 0x2000 + (a &&& 0x1FFF).toNat)

/-! ## Register writes (R452), one definition a row -/

/-- 0x8000: bank select (R470). -/
def mmc3WriteBankSelect (m : Mmc3) (v : Byte) : Mmc3 := { m with bankSelect := v }

/-- 0x8001: bank data (R471). -/
def mmc3WriteBankData (m : Mmc3) (v : Byte) : Mmc3 := mmc3SetReg m (m.bankSelect &&& 7).toNat v

/-- 0xA000: mirroring (R472). -/
def mmc3WriteMirroring (m : Mmc3) (v : Byte) : Mmc3 := { m with mirroringReg := (v &&& 1).setWidth 1 }

/-- 0xA001: PRG-RAM protect (R473). -/
def mmc3WritePrgRamCtl (m : Mmc3) (v : Byte) : Mmc3 := { m with prgRamCtl := v }

/-- 0xC000: IRQ latch (R474). -/
def mmc3WriteIrqLatch (m : Mmc3) (v : Byte) : Mmc3 := { m with irqLatch := v }

/-- 0xC001: IRQ reload (R475). -/
def mmc3WriteIrqReload (m : Mmc3) : Mmc3 := { m with irqCounter := 0, irqReload := true }

/-- 0xE000: IRQ disable and acknowledge (R476). -/
def mmc3WriteIrqDisable (m : Mmc3) : Mmc3 := { m with irqEnabled := false, irqOut := false }

/-- 0xE001: IRQ enable (R477). -/
def mmc3WriteIrqEnable (m : Mmc3) : Mmc3 := { m with irqEnabled := true }

/-- The register decode of a write to 0x8000..0xFFFF (R452). -/
def mmc3RegWrite (m : Mmc3) (a : Addr) (v : Byte) : Mmc3 :=
  if mmc3Row a 0x8000 then mmc3WriteBankSelect m v
  else if mmc3Row a 0x8001 then mmc3WriteBankData m v
  else if mmc3Row a 0xA000 then mmc3WriteMirroring m v
  else if mmc3Row a 0xA001 then mmc3WritePrgRamCtl m v
  else if mmc3Row a 0xC000 then mmc3WriteIrqLatch m v
  else if mmc3Row a 0xC001 then mmc3WriteIrqReload m
  else if mmc3Row a 0xE000 then mmc3WriteIrqDisable m
  else mmc3WriteIrqEnable m

/-- A CPU write in 0x4020..0xFFFF (R462). -/
def mmc3CpuWrite (m : Mmc3) (a : Addr) (v : Byte) : Mmc3 × MappedWrite :=
  if a.toNat < 0x6000 then (m, .none)
  else if a.toNat < 0x8000 then
    (m, if mmc3PrgRamWritable m then .prgRam (a.toNat - 0x6000) else .none)
  else (mmc3RegWrite m a v, .none)

/-! ## The scanline interrupt -/

/-- The counter after a clock (R460). -/
def mmc3NextCounter (m : Mmc3) : Byte :=
  if m.irqCounter = 0 ∨ m.irqReload = true then m.irqLatch else m.irqCounter - 1

/-- Whether a clock fires, by revision (R460). -/
def mmc3Fires (rev : Revision) (m : Mmc3) : Bool :=
  match rev with
  | .standard => mmc3NextCounter m == 0
  | .revA => mmc3NextCounter m == 0 && (m.irqCounter != 0 || m.irqReload)

/-- `ClockIrqCounter` (R460). -/
def mmc3ClockIrq (rev : Revision) (m : Mmc3) : Mmc3 :=
  { m with irqCounter := mmc3NextCounter m
           irqReload := false
           irqOut := (mmc3Fires rev m && m.irqEnabled) || m.irqOut }

/-- A rise of A12 passes the filter (R459). DESIGN CHOICE: the difference of the stamps is taken modulo 2^64 (log 34). -/
def mmc3RisePasses (filterCycles : Nat) (m : Mmc3) (stamp : Stamp) : Bool :=
  match m.a12HighCycle with
  | none => true
  | some c => decide (filterCycles ≤ (stamp - c).toNat)

/-- The A12 snoop at a notification (R459). -/
def mmc3Notify (rev : Revision) (filterCycles : Nat) (m : Mmc3) (a : Addr) (stamp : Stamp) : Mmc3 :=
  let a12 := a.getLsbD 12
  let m1 := if a12 && !m.a12Prev && mmc3RisePasses filterCycles m stamp then mmc3ClockIrq rev m else m
  { m1 with a12HighCycle := if a12 then some stamp else m1.a12HighCycle
            a12Prev := a12 }

end Sys2Proof.Machine
end

