-- ==== Sys2Proof/Machine/Boards.lean ====
section
/-! DEFINITION. The four plain boards (45_mapper_boards.md sections 1 to 4) and the mapper's capability surface
(44_mapper.md R360 to R375). -/

namespace Sys2Proof.Machine

open Sys2Proof

/-! ## NROM, UxROM, CNROM, AxROM -/

/-- NROM reads (R402). -/
def nromCpuRead (a : Addr) : MappedRead :=
  if a.toNat < 0x6000 then .openBus
  else if a.toNat < 0x8000 then .prgRam (a.toNat - 0x6000)
  else .prgRom (a.toNat - 0x8000)

/-- NROM writes (R402). -/
def nromCpuWrite (a : Addr) : MappedWrite :=
  if a.toNat < 0x6000 then .none
  else if a.toNat < 0x8000 then .prgRam (a.toNat - 0x6000)
  else .none

/-- UxROM reads, with `P16` banks (R412). -/
def uxromCpuRead (bank : Byte) (p16 : Nat) (a : Addr) : MappedRead :=
  if a.toNat < 0x8000 then .openBus
  else if a.toNat < 0xC000 then .prgRom (bank.toNat * 0x4000 + (a &&& 0x3FFF).toNat)
  else .prgRom ((p16 - 1) * 0x4000 + (a &&& 0x3FFF).toNat)

/-- The UxROM bank register after a write (R412, R463). -/
def uxromWrite (bank : Byte) (a : Addr) (v : Byte) : Byte := if a.toNat < 0x8000 then bank else v

/-- CNROM reads (R422). -/
def cnromCpuRead (a : Addr) : MappedRead :=
  if a.toNat < 0x8000 then .openBus else .prgRom (a.toNat - 0x8000)

/-- The CNROM bank register after a write (R422, R464). -/
def cnromWrite (chrBank : Byte) (a : Addr) (v : Byte) : Byte := if a.toNat < 0x8000 then chrBank else v

/-- The CNROM CHR index (R423). -/
def cnromChrIndex (chrBank : Byte) (a : Addr) : Nat := chrBank.toNat * 0x2000 + a.toNat

/-- AxROM reads (R427). -/
def axromCpuRead (reg : Byte) (a : Addr) : MappedRead :=
  if a.toNat < 0x8000 then .openBus
  else .prgRom ((reg &&& 7).toNat * 0x8000 + (a &&& 0x7FFF).toNat)

/-- The AxROM register after a write (R427, R465). -/
def axromWrite (reg : Byte) (a : Addr) (v : Byte) : Byte := if a.toNat < 0x8000 then reg else v

/-- AxROM `mirroring` (R425). -/
def axromMirroring (reg : Byte) : Mirroring :=
  if reg.getLsbD 4 then .singleScreenB else .singleScreenA

/-! ## The capability surface -/

/-- The header mirroring as a mode (R252). -/
def headerMode : HeaderMirroring → Mirroring
  | .horizontal => .horizontal
  | .vertical => .vertical
  | .fourScreen => .fourScreen

/-- The variant of a board's registers (R373). -/
def BoardRegs.kind : BoardRegs → BoardKind
  | .nrom => .nrom
  | .uxrom _ => .uxrom
  | .cnrom _ => .cnrom
  | .axrom _ => .axrom
  | .mmc1 _ => .mmc1
  | .mmc3 _ => .mmc3

/-- Which board is loaded. -/
def Mapper.kind : Mapper → Option BoardKind
  | .empty => none
  | .board _ regs => some regs.kind

/-- The board's own `mirroring` (R56). -/
def boardMirroring (info : BoardInfo) : BoardRegs → Mirroring
  | .nrom => headerMode info.header
  | .uxrom _ => headerMode info.header
  | .cnrom _ => headerMode info.header
  | .axrom reg => axromMirroring reg
  | .mmc1 m => mmc1Mirroring m
  | .mmc3 m => mmc3Mirroring m

/-- `m.four_screen` (R374, R375). -/
def Mapper.fourScreen : Mapper → Bool
  | .empty => false
  | .board info _ => info.fourScreen

/-- `Mirroring(m)` (R368, R374, R375). -/
def Mapper.mirroring : Mapper → Mirroring
  | .empty => .horizontal
  | .board info regs => if info.fourScreen then .fourScreen else boardMirroring info regs

/-- `m.irq_out` (R372). -/
def Mapper.irqOut : Mapper → Bool
  | .empty => false
  | .board _ (.mmc3 m) => m.irqOut
  | .board _ .nrom => false
  | .board _ (.uxrom _) => false
  | .board _ (.cnrom _) => false
  | .board _ (.axrom _) => false
  | .board _ (.mmc1 _) => false

/-- `PrgRamSize(m)` (R360, D52). -/
def Mapper.prgRamSize : Mapper → Nat
  | .empty => 0
  | .board _ .nrom => 8192
  | .board _ (.uxrom _) => 0
  | .board _ (.cnrom _) => 0
  | .board _ (.axrom _) => 0
  | .board _ (.mmc1 _) => 8192
  | .board _ (.mmc3 _) => 8192

/-- `MapCpuRead` (R361), with the length of PRG ROM. Reads change no board state, so it is also `MapCpuPeek` (R363). -/
def Mapper.cpuRead (prgLen : Nat) (a : Addr) : Mapper → MappedRead
  | .empty => .openBus
  | .board _ .nrom => nromCpuRead a
  | .board _ (.uxrom bank) => uxromCpuRead bank (prgLen / 16384) a
  | .board _ (.cnrom _) => cnromCpuRead a
  | .board _ (.axrom reg) => axromCpuRead reg a
  | .board _ (.mmc1 m) => mmc1CpuRead m (prgLen / 16384) a
  | .board _ (.mmc3 m) => mmc3CpuRead m (prgLen / 8192) a

/-- `MapCpuWrite` (R362). -/
def Mapper.cpuWrite (a : Addr) (v : Byte) (stamp : Stamp) : Mapper → Mapper × MappedWrite
  | .empty => (.empty, .none)
  | .board info .nrom => (.board info .nrom, nromCpuWrite a)
  | .board info (.uxrom bank) => (.board info (.uxrom (uxromWrite bank a v)), .none)
  | .board info (.cnrom bank) => (.board info (.cnrom (cnromWrite bank a v)), .none)
  | .board info (.axrom reg) => (.board info (.axrom (axromWrite reg a v)), .none)
  | .board info (.mmc1 m) => (.board info (.mmc1 (mmc1CpuWrite m a v stamp).1), (mmc1CpuWrite m a v stamp).2)
  | .board info (.mmc3 m) => (.board info (.mmc3 (mmc3CpuWrite m a v).1), (mmc3CpuWrite m a v).2)

/-- The CHR index of an address in 0x0000..0x1FFF (R364; R403, R413, R423, R428, R435, R455). -/
def boardChrIndex (a : Addr) : BoardRegs → Nat
  | .nrom => a.toNat
  | .uxrom _ => a.toNat
  | .cnrom bank => cnromChrIndex bank a
  | .axrom _ => a.toNat
  | .mmc1 m => mmc1ChrIndex m a
  | .mmc3 m => mmc3ChrIndex m a

/-- The logical nametable `n = a[11:10]` (R106, R374). -/
def nametable (a : Addr) : Nat := ((a >>> 10) &&& 3).toNat

/-- A nametable read under Four-Screen (R374). -/
def fourScreenRead (a : Addr) : MappedRead :=
  if nametable a < 2 then .ciRam (nametable a * 0x400 + (a &&& 0x3FF).toNat)
  else .exRam ((nametable a - 2) * 0x400 + (a &&& 0x3FF).toNat)

/-- A nametable write under Four-Screen (R374). -/
def fourScreenWrite (a : Addr) : MappedWrite :=
  if nametable a < 2 then .ciRam (nametable a * 0x400 + (a &&& 0x3FF).toNat)
  else .exRam ((nametable a - 2) * 0x400 + (a &&& 0x3FF).toNat)

/-- `MapPpuRead` for a reduced address at most 0x3EFF (R364, R375); also `MapPpuPeek` (R363). -/
def Mapper.ppuRead (a : Addr) : Mapper → MappedRead
  | .empty => if a.toNat < 0x2000 then .openBus else .dflt
  | .board info regs =>
    if a.toNat < 0x2000 then .chr (boardChrIndex a regs)
    else if info.fourScreen then fourScreenRead a
    else .dflt

/-- `MapPpuWrite` for a reduced address at most 0x3EFF (R365, R375); no reference board changes. -/
def Mapper.ppuWrite (a : Addr) (_v : Byte) : Mapper → Mapper × MappedWrite
  | .empty => (.empty, .none)
  | .board info regs =>
    (.board info regs,
      if a.toNat < 0x2000 then .chr (boardChrIndex a regs)
      else if info.fourScreen then fourScreenWrite a
      else .dflt)

/-- `MapperPpuNotify` (R366, R459). -/
def Mapper.notify (filterCycles : Nat) (a : Addr) (stamp : Stamp) : Mapper → Mapper
  | .empty => .empty
  | .board info .nrom => .board info .nrom
  | .board info (.uxrom bank) => .board info (.uxrom bank)
  | .board info (.cnrom bank) => .board info (.cnrom bank)
  | .board info (.axrom reg) => .board info (.axrom reg)
  | .board info (.mmc1 m) => .board info (.mmc1 m)
  | .board info (.mmc3 m) => .board info (.mmc3 (mmc3Notify info.revision filterCycles m a stamp))

/-- `MapperClock` (R367): every reference board returns its state unchanged. -/
def Mapper.clock (_stamp : Stamp) (m : Mapper) : Mapper := m

/-- A board's registers at power-on (R371, 45_mapper_boards.md). -/
def boardPowerOn (h : HeaderMirroring) : BoardRegs → BoardRegs
  | .nrom => .nrom
  | .uxrom _ => .uxrom 0
  | .cnrom _ => .cnrom 0
  | .axrom _ => .axrom 0
  | .mmc1 _ => .mmc1 mmc1PowerOn
  | .mmc3 _ => .mmc3 (mmc3PowerOn h)

/-- `MapperHardReset` (R371). -/
def Mapper.hardReset : Mapper → Mapper
  | .empty => .empty
  | .board info regs => .board info (boardPowerOn info.header regs)

/-- `MapperSoftReset` (R371): it changes nothing on a reference board. -/
def Mapper.softReset (m : Mapper) : Mapper := m

/-- `mapper.region ← r`, when there is a board (R291, R369). -/
def Mapper.setRegion (r : Region) : Mapper → Mapper
  | .empty => .empty
  | .board info regs => .board { info with region := r } regs

/-- `mapper.revision ← rev`, when there is a board (R370). -/
def Mapper.setRevision (rev : Revision) : Mapper → Mapper
  | .empty => .empty
  | .board info regs => .board { info with revision := rev } regs

/-! ## Selection -/

/-- The variant of a mapper id (R373). -/
def boardOfId (id : BitVec 16) (h : HeaderMirroring) : Option BoardRegs :=
  if id = 0 then some .nrom
  else if id = 1 then some (.mmc1 mmc1PowerOn)
  else if id = 2 then some (.uxrom 0)
  else if id = 3 then some (.cnrom 0)
  else if id = 4 then some (.mmc3 (mmc3PowerOn h))
  else if id = 7 then some (.axrom 0)
  else none

/-- `SelectBoard` (R252), the region being the one in force. -/
def selectBoard (d : Descriptor) (region : Region) : Mapper :=
  match boardOfId d.mapperId d.mirroring with
  | none => .empty
  | some regs =>
    .board { header := d.mirroring, fourScreen := decide (d.mirroring = .fourScreen), region := region,
             revision := .standard } regs

/-- The size limits of the selected board (R401, R411, R421, R426, R431, R451). -/
def withinBoardLimits (prg chr : Nat) : BoardRegs → Bool
  | .nrom => (prg == 16384 || prg == 32768) && (chr == 0 || chr == 8192)
  | .uxrom _ => prg % 16384 == 0 && decide (prg ≤ 256 * 16384) && (chr == 0 || chr == 8192)
  | .cnrom _ => (prg == 16384 || prg == 32768) && chr % 8192 == 0 && decide (chr ≤ 256 * 8192)
  | .axrom _ => prg % 32768 == 0 && decide (prg ≤ 8 * 32768) && (chr == 0 || chr == 8192)
  | .mmc1 _ => prg % 16384 == 0 && decide (prg ≤ 262144) && chr % 8192 == 0 && decide (chr ≤ 131072)
  | .mmc3 _ => prg % 16384 == 0 && decide (prg ≤ 524288) && chr % 8192 == 0 && decide (chr ≤ 262144)

/-- The board can route Four-Screen: every reference board can (R251 check 5, R374). -/
def routesFourScreen : BoardRegs → Bool
  | .nrom => true
  | .uxrom _ => true
  | .cnrom _ => true
  | .axrom _ => true
  | .mmc1 _ => true
  | .mmc3 _ => true

/-- The trainer fails check 4 (R251). -/
def badTrainer : Option Memory → Bool
  | none => false
  | some t => t.size != 512

/-- `Validate(desc)`: the first failing check, or none (R251). -/
def validate (d : Descriptor) : Option RomProblem :=
  match boardOfId d.mapperId d.mirroring with
  | none => some .unsupportedMapper
  | some regs =>
    if d.prgRom.size = 0 ∨ d.prgRom.size % 16384 ≠ 0 then some .badPrgSize
    else if d.chrRom.size % 8192 ≠ 0 then some .badChrSize
    else if badTrainer d.trainer then some .badTrainer
    else if d.mirroring = .fourScreen ∧ routesFourScreen regs = false then some .badMirroring
    else if withinBoardLimits d.prgRom.size d.chrRom.size regs = false then some .boardLimit
    else none

end Sys2Proof.Machine
end

