-- ==== Sys2Proof/Machine/Genie.lean ====
section
/-! DEFINITION. Genie codes: the alphabet and the bit positions (30_encoding.md R173 to R175), parsing
(46_genie.md R482) and the intercept filter (R489). -/

namespace Sys2Proof.Machine

open Sys2Proof

/-- The alphabet (R173). -/
def nibble (c : Char) : Option (BitVec 4) :=
  if c = 'A' then some 0x0 else if c = 'P' then some 0x1 else if c = 'Z' then some 0x2 else if c = 'L' then some 0x3
  else if c = 'G' then some 0x4 else if c = 'I' then some 0x5 else if c = 'T' then some 0x6
  else if c = 'Y' then some 0x7 else if c = 'E' then some 0x8 else if c = 'O' then some 0x9
  else if c = 'X' then some 0xA else if c = 'U' then some 0xB else if c = 'K' then some 0xC
  else if c = 'S' then some 0xD else if c = 'V' then some 0xE else if c = 'N' then some 0xF
  else none

/-- The nibbles of a code, or the first character outside the alphabet and its place (R482). -/
def nibbles : (k : Nat) → Text → Except CodeProblem (List (BitVec 4))
  | _, [] => .ok []
  | k, c :: rest =>
    match nibble c with
    | none => .error (.badChar k c)
    | some n =>
      match nibbles (k + 1) rest with
      | .error e => .error e
      | .ok ns => .ok (n :: ns)

/-- The low three bits of a nibble, in a 16-bit word. -/
def low3 (n : BitVec 4) : Addr := (n &&& 7).setWidth 16

/-- Bit 3 of a nibble, in place, in a 16-bit word. -/
def high1 (n : BitVec 4) : Addr := (n &&& 8).setWidth 16

/-- The target address (R174). -/
def genieAddr (n1 n2 n3 n4 n5 : BitVec 4) : Addr :=
  0x8000 ||| (low3 n3 <<< 12) ||| (low3 n5 <<< 8) ||| (high1 n4 <<< 8) ||| (low3 n2 <<< 4) ||| (high1 n1 <<< 4) |||
    low3 n4 ||| high1 n3

/-- A data or compare byte: `((hi & 7) << 4) | ((lo & 8) << 4) | (lo & 7) | (last & 8)` (R175). -/
def genieByte (hi lo last : BitVec 4) : Byte :=
  ((hi &&& 7).setWidth 8 <<< 4) ||| ((lo &&& 8).setWidth 8 <<< 4) ||| (lo &&& 7).setWidth 8 ||| (last &&& 8).setWidth 8

/-- The decoded entry of the nibbles of a code (R174, R175); none for another number of nibbles. -/
def genieEntry (text : Text) : List (BitVec 4) → Option GenieEntry
  | [n0, n1, n2, n3, n4, n5] =>
    some { text := text, addr := genieAddr n1 n2 n3 n4 n5, data := genieByte n1 n0 n5, compare := none }
  | [n0, n1, n2, n3, n4, n5, n6, n7] =>
    some { text := text, addr := genieAddr n1 n2 n3 n4 n5, data := genieByte n1 n0 n7,
           compare := some (genieByte n7 n6 n5) }
  | _ => none

/-- `ParseGenie` (R482): the length is checked first. -/
def parseGenie (code : Text) : Except CodeProblem GenieEntry :=
  if code.length ≠ 6 ∧ code.length ≠ 8 then .error (.wrongLength code.length)
  else match nibbles 0 code with
    | .error e => .error e
    | .ok ns =>
      match genieEntry code ns with
      | none => .error (.wrongLength code.length)
      | some g => .ok g

/-- The entries whose text is not the code. -/
def genieWithout (code : Text) (table : List GenieEntry) : List GenieEntry :=
  table.filter fun e => e.text ≠ code

/-- Adds an entry as the most recent one (R480). -/
def genieAdd (g : GenieEntry) (table : List GenieEntry) : List GenieEntry :=
  genieWithout g.text table ++ [g]

/-- The last entry at an address (R489). -/
def lastAt (a : Addr) : List GenieEntry → Option GenieEntry
  | [] => none
  | e :: rest =>
    match lastAt a rest with
    | some g => some g
    | none => if e.addr = a then some e else none

/-- `GenieFilter` (R489). -/
def genieFilter (table : List GenieEntry) (a : Addr) (v : Byte) : Byte :=
  if a.toNat < 0x8000 then v
  else match lastAt a table with
    | none => v
    | some g =>
      match g.compare with
      | none => g.data
      | some x => if v = x then g.data else v

end Sys2Proof.Machine
end

