-- ==== Sys2Proof/Machine/Bus.lean ====
section
/-! DEFINITION. The six bus transactions (43_bus.md) over the pools, the mapper and the peripheral parameters
(20_memory.md sections 3 to 9). A transaction takes a chip and gives the chip after it, with the byte read. -/

namespace Sys2Proof.Machine

open Sys2Proof

/-! ## Shared pieces -/

/-- `RefreshMirrorShift()` (R590). -/
def Chip.refreshMirror (c : Chip) : Chip :=
  { c with ppubus := { c.ppubus with mirrorShift := mirrorShiftOf c.mapper.mirroring } }

/-- The latch of the PPU bus after a transaction (R115). -/
def Chip.latchPpu (c : Chip) (v : Byte) : Chip :=
  { c with ppubus := { c.ppubus with openBus := v } }

/-- The latch of the CPU bus after a transaction (R115). -/
def Chip.latchCpu (c : Chip) (v : Byte) : Chip :=
  { c with bus := { c.bus with openBus := v } }

/-- `MapperPpuNotify(mapper, a, cpu.cycle)` (R366). -/
def Chip.notify (a : Addr) (c : Chip) : Chip :=
  { c with mapper := c.mapper.notify c.params.a12FilterCycles a c.cpu.cycle }

/-- The chip after the picture unit has run: what it can reach is the PPU bus, the cartridge, the mapper and itself
(R14, R94); everything else is as before. -/
def Chip.keepPpuSide (c after : Chip) : Chip :=
  { c with ppubus := after.ppubus, cart := after.cart, mapper := after.mapper, ppu := after.ppu,
           draws := after.draws, fsDefault := after.fsDefault }

/-- `ResolveRead` for every tag whose meaning does not depend on the bus but for its latch (R108). -/
def resolvePool (c : Chip) (latch : Byte) : MappedRead → Byte
  | .dflt => latch
  | .prgRom i => c.cart.prgRom.readMod i latch
  | .prgRam i => c.cart.prgRam.readMod i latch
  | .chr i => c.ppubus.chr.readMod i latch
  | .ciRam i => c.ppubus.ciram.readMod i latch
  | .exRam i => c.ppubus.exram.readMod i latch
  | .data v => v
  | .openBus => latch

/-- `ApplyWrite` for every tag whose meaning does not depend on the bus (R109); CHR ROM takes no write. -/
def storePool (c : Chip) (v : Byte) : MappedWrite → Chip
  | .dflt => c
  | .prgRam i => { c with cart := { c.cart with prgRam := c.cart.prgRam.writeMod i v } }
  | .chr i =>
    { c with ppubus := { c.ppubus with
        chr := if c.ppubus.chrIsRam then c.ppubus.chr.writeMod i v else c.ppubus.chr } }
  | .ciRam i => { c with ppubus := { c.ppubus with ciram := c.ppubus.ciram.writeMod i v } }
  | .exRam i => { c with ppubus := { c.ppubus with exram := c.ppubus.exram.writeMod i v } }
  | .none => c

/-! ## PPU bus -/

/-- `ResolveRead(ppu, a, r)` for a reduced address at most 0x3EFF (R108); none where rule R107 refuses. -/
def resolvePpu (c : Chip) (a : Addr) (r : MappedRead) : Option Byte :=
  if r = .dflt then
    if a.toNat < 0x2000 then some (resolvePool c c.ppubus.openBus (.chr a.toNat))
    else (ciramIndex c.ppubus.mirrorShift a).map c.ppubus.ciram.read
  else some (resolvePool c c.ppubus.openBus r)

/-- `ApplyWrite(ppu, a, r, v)` for a reduced address at most 0x3EFF (R109); none where rule R107 refuses. -/
def applyPpu (c : Chip) (a : Addr) (v : Byte) (r : MappedWrite) : Option Chip :=
  if r = .dflt then
    if a.toNat < 0x2000 then some (storePool c v (.chr a.toNat))
    else (ciramIndex c.ppubus.mirrorShift a).map fun i =>
      { c with ppubus := { c.ppubus with ciram := c.ppubus.ciram.write i v } }
  else some (storePool c v r)

/-- A `Default` answer under Four-Screen: the mark of the refusal (R107; log 2). -/
def Chip.markFourScreen (c : Chip) : Chip := { c with fsDefault := true, draws := c.draws + 1 }

/-- `PpuRead` on the part of the map the mapper decides, for a reduced address (R335). -/
def ppuMappedRead (a : Addr) (c : Chip) : Chip × Byte :=
  match resolvePpu (c.notify a) a ((c.notify a).mapper.ppuRead a) with
  | some v => ((c.notify a).latchPpu v, v)
  | none => ((c.notify a).markFourScreen.latchPpu (Config.refusedByte c.draws), Config.refusedByte c.draws)

/-- `PpuWrite` on the part of the map the mapper decides, for a reduced address (R338). -/
def ppuMappedWrite (a : Addr) (v : Byte) (c : Chip) : Chip :=
  let n := c.notify a
  let w := n.mapper.ppuWrite a v
  match applyPpu { n with mapper := w.1 } a v w.2 with
  | some t => t.refreshMirror.latchPpu v
  | none => { n with mapper := w.1 }.markFourScreen.refreshMirror.latchPpu v

/-- `PpuRead(a)` (R335). -/
def ppuRead (a : Addr) (c : Chip) : Chip × Byte :=
  match ppuRoute (reducePpu a) with
  | .pattern => ppuMappedRead (reducePpu a) c
  | .nametable => ppuMappedRead (reducePpu a) c
  | .palette =>
    (c.latchPpu (c.ppubus.palette.read (paletteIndex (reducePpu a))), c.ppubus.palette.read (paletteIndex (reducePpu a)))

/-- `PpuWrite(a, v)` (R338). -/
def ppuWrite (a : Addr) (v : Byte) (c : Chip) : Chip :=
  match ppuRoute (reducePpu a) with
  | .pattern => ppuMappedWrite (reducePpu a) v c
  | .nametable => ppuMappedWrite (reducePpu a) v c
  | .palette =>
    { c with ppubus := { c.ppubus with palette := c.ppubus.palette.write (paletteIndex (reducePpu a)) v } }.latchPpu v

/-- `PpuPeek(a)` (R341): it changes nothing, notifies nobody, and is none where rule R107 refuses. -/
def ppuPeek (a : Addr) (c : Chip) : Option Byte :=
  match ppuRoute (reducePpu a) with
  | .pattern => resolvePpu c (reducePpu a) (c.mapper.ppuRead (reducePpu a))
  | .nametable => resolvePpu c (reducePpu a) (c.mapper.ppuRead (reducePpu a))
  | .palette => some (c.ppubus.palette.read (paletteIndex (reducePpu a)))

end Sys2Proof.Machine

namespace Sys2Proof

open Sys2Proof.Machine

/-- Runs a picture-unit program on the PPU bus (R14, R343). -/
def PpuProg.run {α : Type} : PpuProg α → Chip → Chip × α
  | .done x, c => (c, x)
  | .read a k, c => (k (ppuRead a c).2).run (ppuRead a c).1
  | .write a v k, c => k.run (ppuWrite a v c)
  | .addrOut a k, c => k.run (c.notify (reducePpu a))

end Sys2Proof

namespace Sys2Proof.Machine

open Sys2Proof

/-! ## CPU bus -/

/-- The chip after one free value has been taken (log 9). -/
def Chip.drawn (c : Chip) : Chip := { c with draws := c.draws + 1 }

/-- `PpuRegRead(r)` (R98, R14): its own registers and its PPU-bus transactions (log 31). -/
def ppuRegRead (r : BitVec 3) (c : Chip) : Chip × Byte :=
  let e := (Config.ppuRegRead c.draws c.config.region c.ppu r).run c.drawn
  (c.keepPpuSide { e.1 with ppu := { e.1.ppu with priv := e.2.priv } }, e.2.value)

/-- `PpuRegWrite(r, v)` (R98, R14): its own registers, its NMI output, and its PPU-bus transactions (log 31). -/
def ppuRegWrite (r : BitVec 3) (v : Byte) (c : Chip) : Chip :=
  let e := (Config.ppuRegWrite c.draws c.config.region c.ppu r v).run c.drawn
  c.keepPpuSide { e.1 with ppu := { e.1.ppu with priv := e.2.priv, nmiOut := e.2.nmiOut } }

/-- What the audio and input registers see: no cheat code, no channel enable, no sample (R63, R298, R490). -/
def Chip.ioView (c : Chip) : IoView :=
  { apu := c.apu.core, input := c.input, region := c.config.region, fourPlayer := c.config.fourPlayer,
    zapperEnabled := c.config.zapperEnabled, ppu := c.ppu }

/-- `ApuIoRead(a)` (R99, R14): its own registers and its IRQ output (log 31). -/
def apuIoRead (a : Addr) (c : Chip) : Chip × Byte :=
  let e := Config.apuIoRead c.draws c.ioView a
  ({ c.drawn with apu := { c.apu with priv := e.priv, irqOut := e.irqOut } }, e.value)

/-- `ApuIoWrite(a, v)` (R99, R14). -/
def apuIoWrite (a : Addr) (v : Byte) (c : Chip) : Chip :=
  let e := Config.apuIoWrite c.draws c.ioView a v
  { c.drawn with apu := { c.apu with priv := e.priv, irqOut := e.irqOut } }

/-- `ResolveRead(cpu, a, MapCpuRead(mapper, a))` (R101, R108); an empty pool gives the latch (log 26). -/
def cartRead (a : Addr) (c : Chip) : Byte :=
  resolvePool c c.bus.openBus (c.mapper.cpuRead c.cart.prgRom.size a)

/-- The write half of the cartridge decode (R101, R326): the mapper, the storage it names, the mirror shift. -/
def cartWrite (a : Addr) (v : Byte) (c : Chip) : Chip :=
  let w := c.mapper.cpuWrite a v c.cpu.cycle
  (storePool { c with mapper := w.1 } v w.2).refreshMirror

/-- The decode of a CPU read, before the Genie filter (R320). -/
def cpuDecodeRead (a : Addr) (c : Chip) : Chip × Byte :=
  match cpuRoute a with
  | .wram => (c, c.bus.wram.read (wramIndex a))
  | .ppuReg => ppuRegRead (ppuRegIndex a) c
  | .apuIo => apuIoRead a c
  | .openBus => (c, c.bus.openBus)
  | .cartridge => (c, cartRead a c)

/-- `CpuRead(a)` (R320). -/
def cpuRead (a : Addr) (c : Chip) : Chip × Byte :=
  ((cpuDecodeRead a c).1.latchCpu (genieFilter c.bus.genie a (cpuDecodeRead a c).2),
    genieFilter c.bus.genie a (cpuDecodeRead a c).2)

/-- The decode of a CPU write (R326). -/
def cpuDecodeWrite (a : Addr) (v : Byte) (c : Chip) : Chip :=
  match cpuRoute a with
  | .wram => { c with bus := { c.bus with wram := c.bus.wram.write (wramIndex a) v } }
  | .ppuReg => ppuRegWrite (ppuRegIndex a) v c
  | .apuIo => apuIoWrite a v c
  | .openBus => c
  | .cartridge => cartWrite a v c

/-- `CpuWrite(a, v)` (R326). -/
def cpuWrite (a : Addr) (v : Byte) (c : Chip) : Chip := (cpuDecodeWrite a v c).latchCpu v

/-- `CpuPeek(a)` (R330): it changes nothing. -/
def cpuPeek (a : Addr) (c : Chip) : Byte :=
  genieFilter c.bus.genie a
    (match cpuRoute a with
     | .wram => c.bus.wram.read (wramIndex a)
     | .ppuReg => (Config.ppuRegPeek c.config.region c.ppu (ppuRegIndex a)).getD c.bus.openBus
     | .apuIo => (Config.apuIoPeek c.ioView a).getD c.bus.openBus
     | .openBus => c.bus.openBus
     | .cartridge => cartRead a c)

end Sys2Proof.Machine
end

