-- ==== Sys2Proof/Machine/Tick.lean ====
section
/-! DEFINITION. Peripheral time: `Tick` (40_deck_clocking.md R214), the dot and frame counters (60_exceptions.md R540,
R541), and the processor port whose every operation is one cycle (R215, R131). -/

namespace Sys2Proof.Machine

open Sys2Proof

/-! ## The picture unit's dot -/

/-- The dots of the scanline used so far, after this dot and the one it drops, if it drops one: at most one a frame
(R540; log 10). -/
def nextDot (p : Ppu) (skip : Bool) : Nat :=
  if skip && !p.shortened then p.dot + 2 else p.dot + 1

/-- The counters of a picture unit after one dot, with `L` dots a scanline and `S` scanlines a frame (R540, R541). A
dropped dot that would be the next frame's counts as that frame's one. -/
def advanceCounters (S L : Nat) (skip : Bool) (p : Ppu) : Ppu :=
  let d := nextDot p skip
  if d < L then { p with dot := d, shortened := p.shortened || skip }
  else if p.scanline + 1 < S then
    { p with dot := d - L, scanline := p.scanline + 1, shortened := p.shortened || skip }
  else { p with dot := d - L, scanline := 0, frameNumber := p.frameNumber + 1, shortened := decide (d ≠ L) }

/-- The counters after one dot when a region change has left the scanline out of range: in range again (R291), at 0 when
the unit takes a frame boundary there (log 10). -/
def relocateCounters (S : Nat) (target : Nat × Bool) (p : Ppu) : Ppu :=
  if target.2 then { p with dot := 0, scanline := 0, frameNumber := p.frameNumber + 1, shortened := false }
  else { p with dot := 0, scanline := target.1 % S }

/-- The unit's own part of a dot: none of its own when the units are idle (log 11). -/
def ppuOwnDot (c : Chip) : Chip × Bool :=
  if c.params.idleUnits then (c, false)
  else
    let e := (Config.ppuDot c.draws c.config.region c.ppu).run c.drawn
    ({ e.1 with ppu := { e.1.ppu with priv := e.2.priv, nmiOut := e.2.nmiOut,
                                      frame := e.1.ppu.frame.writeAll e.2.pixels } }, e.2.skip)

/-- `PpuTick()` (R214, R540, R541). DESIGN CHOICE: where SET_REGION leaves the scanline in range, the counters go on from where
they stand under the new region's numbers, which R291 leaves to this parameter (P8; log 10). -/
def ppuTick (c : Chip) : Chip :=
  let S := c.regionParams.scanlinesPerFrame
  let e := ppuOwnDot c
  if c.ppu.scanline < S then
    { e.1 with ppu := advanceCounters S c.params.dotsPerScanline e.2 e.1.ppu }
  else
    { e.1 with draws := e.1.draws + 1
               ppu := relocateCounters S (Config.ppuRelocate e.1.draws c.config.region e.1.ppu) e.1.ppu }

/-- `n` dots. -/
def ppuDots : Nat → Chip → Chip
  | 0, c => c
  | n + 1, c => ppuDots n (ppuTick c)

/-! ## The rest of a cycle -/

/-- The samples the audio unit appends in a cycle: the mix of its enabled channels (R60, R66). -/
def cycleSamples (c : Chip) (e : ApuEnd) : List Sample :=
  Config.apuMix c.config.region e.sampler (c.apu.channelEnabled.mixed e.outputs)

/-- `ApuTick()` (R214): its own registers, its IRQ output, and samples at the end of the buffer (R60; log 11, log 31). -/
def apuTick (c : Chip) : Chip :=
  if c.params.idleUnits then c
  else
    let e := Config.apuTick c.draws c.config.region c.apu.core
    { c.drawn with apu := { c.apu with priv := e.priv, irqOut := e.irqOut, samples := c.apu.samples ++ cycleSamples c e } }

/-- The number of dots of a cycle: `floor((k + 1) D) - floor(k D)`, `k` being the cycle count before it (R214; log 24). -/
def dotsInCycle (r : RegionParams) (k : Nat) : Nat :=
  (k + 1) * r.dotsNum / r.dotsDen - k * r.dotsNum / r.dotsDen

/-- The light gun's trigger ends at a frame boundary (R214, R297). -/
def endTrigger (before : BitVec 32) (c : Chip) : Chip :=
  { c with input := { c.input with zapper := { c.input.zapper with
      trigger := c.input.zapper.trigger && c.ppu.frameNumber == before } } }

/-- NMI edge detection at the end of a cycle (R41, R214). -/
def sampleNmi (c : Chip) : Chip :=
  { c with cpu := { c.cpu with nmiLatch := c.cpu.nmiLatch || (c.ppu.nmiOut && !c.cpu.nmiPrev),
                               nmiPrev := c.ppu.nmiOut } }

/-- `MapperClock(mapper, cpu.cycle)` (R367). -/
def clockMapper (c : Chip) : Chip := { c with mapper := c.mapper.clock c.cpu.cycle }

/-- The picture unit's part of a cycle. -/
def tickPpu (c : Chip) : Chip :=
  let c1 := { c with cpu := { c.cpu with cycle := c.cpu.cycle + 1 } }
  c1.keepPpuSide (ppuDots (dotsInCycle c.regionParams c.cpu.cycle.toNat) c1)

/-- `Tick()` (R214). -/
def tick (c : Chip) : Chip :=
  sampleNmi (clockMapper (apuTick (endTrigger c.ppu.frameNumber (tickPpu c))))

/-- `n` cycles. -/
def ticks : Nat → Chip → Chip
  | 0, c => c
  | n + 1, c => ticks n (tick c)

/-! ## The processor port -/

/-- What a processor program leaves: the chip, how many port operations it made, and its value. -/
structure Ran (α : Type) where
  chip  : Chip
  ops   : Nat
  value : α

end Sys2Proof.Machine

namespace Sys2Proof

open Sys2Proof.Machine

/-- Runs a processor program on `CpuPort`: each operation is a `Tick` and then its access (R215, R131). -/
def CpuProg.run {α : Type} : CpuProg α → Chip → Ran α
  | .done x, c => { chip := c, ops := 0, value := x }
  | .read a k, c =>
    let r := (k (cpuRead a (tick c)).2).run (cpuRead a (tick c)).1
    { r with ops := r.ops + 1 }
  | .write a v k, c =>
    let r := k.run (cpuWrite a v (tick c))
    { r with ops := r.ops + 1 }
  | .idle k, c =>
    let r := k.run (tick c)
    { r with ops := r.ops + 1 }

end Sys2Proof
end

