-- ==== Sys2Proof/Machine/Opcodes.lean ====
section
/-! DEFINITION. The control unit's step (40_deck_clocking.md R210 to R219): interrupt check, opcode fetch, dispatch, the
corrupting class, the reference opcodes (section 3), and the meaning of each OPC row on the chip its fetch leaves. -/

namespace Sys2Proof.Machine

open Sys2Proof

/-! ## Programs of the opcodes, after the fetch -/

/-- NOP (R231). -/
def nopProg (r : CpuRegs) : CpuProg CpuRegs :=
  .read r.pc fun _ => .done r

/-- JMP absolute (R232). -/
def jmpProg (r : CpuRegs) : CpuProg CpuRegs :=
  .read r.pc fun lo => .read (r.pc + 1) fun hi => .done { r with pc := word16 lo hi }

/-- LDA immediate (R233). -/
def ldaProg (r : CpuRegs) : CpuProg CpuRegs :=
  .read r.pc fun v => .done { r with pc := r.pc + 1, a := v, p := setNZ r.p v }

/-- The rest of STA absolute (R234): the write, and after a write of 0x4014 its stall (R99, D44; log 17), which with
the four cycles before it stays within `maxCycles` (R217). -/
def staStore (maxCycles : Nat) (target : Addr) (r : CpuRegs) : CpuProg CpuRegs :=
  .write target r.a <|
    if target = 0x4014 then (CpuProg.cut () (maxCycles - 4) (Config.dmaStall r.a)).andThen fun _ => .done r
    else .done r

/-- STA absolute (R234). -/
def staProg (maxCycles : Nat) (r : CpuRegs) : CpuProg CpuRegs :=
  .read r.pc fun lo => .read (r.pc + 1) fun hi =>
    staStore maxCycles (word16 lo hi) { r with pc := r.pc + 2 }

/-- INX (R235). -/
def inxProg (r : CpuRegs) : CpuProg CpuRegs :=
  .read r.pc fun _ => .done { r with x := r.x + 1, p := setNZ r.p (r.x + 1) }

/-- A taken BNE from `pc`, the address after its operand (R236). -/
def branchTaken (r : CpuRegs) (t : Addr) : CpuProg CpuRegs :=
  .read r.pc fun _ =>
    if hiByte t = hiByte r.pc then .done { r with pc := t }
    else .read (samePage r.pc t) fun _ => .done { r with pc := t }

/-- BNE relative (R236). -/
def bneProg (r : CpuRegs) : CpuProg CpuRegs :=
  .read r.pc fun off =>
    if r.p.z then .done { r with pc := r.pc + 1 }
    else branchTaken { r with pc := r.pc + 1 } (branchTarget (r.pc + 1) off)

/-- An opcode whose effect is the parameter's, within `maxCycles` (R219, R217; log 14). -/
def freeProg (b : Byte) (maxCycles : Nat) (r : CpuRegs) : CpuProg CpuRegs :=
  CpuProg.cut (Config.executeCutRegs b r) (Nat.max 1 (maxCycles - 1)) (Config.execute b r).prog

/-- The EXECUTE row (R219): BRK and RTI as rules R525 and R529 describe them, else the parameter. -/
def executeProg (b : Byte) (maxCycles : Nat) (r : CpuRegs) : CpuProg CpuRegs :=
  if b = 0x00 then brkProg r
  else if b = 0x40 then rtiProg r
  else freeProg b maxCycles r

/-- `Execute` (R13, R215): the six reference opcodes and the rest. -/
def opcodeProg (b : Byte) (maxCycles : Nat) (r : CpuRegs) : CpuProg CpuRegs :=
  if b = 0xEA then nopProg r
  else if b = 0x4C then jmpProg r
  else if b = 0xA9 then ldaProg r
  else if b = 0x8D then staProg maxCycles r
  else if b = 0xE8 then inxProg r
  else if b = 0xD0 then bneProg r
  else executeProg b maxCycles r

/-! ## The step -/

/-- What a step leaves: the chip and its cycle count. -/
structure Stepped where
  chip   : Chip
  cycles : Nat

/-- `cpu.regs ← r`. -/
def Chip.setRegs (c : Chip) (r : CpuRegs) : Chip := { c with cpu := { c.cpu with regs := r } }

/-- `IrqLine(M)` (R42). -/
def Chip.irqLine (c : Chip) : Bool := c.mapper.irqOut || c.apu.irqOut

/-- `PendingInterrupt()` (R524). -/
def pendingInterrupt (c : Chip) : Option Interrupt :=
  if c.cpu.nmiLatch then some .nmi
  else if c.irqLine && !c.cpu.regs.p.i then some .irq
  else none

/-- The latch an entry clears (R526). -/
def clearLatch (k : Interrupt) (c : Chip) : Chip :=
  match k with
  | .nmi => { c with cpu := { c.cpu with nmiLatch := false } }
  | .irq => c

/-- `InterruptEntry(k)` (R526): seven cycles. -/
def interruptEntry (k : Interrupt) (c : Chip) : Stepped :=
  let r := (interruptProg k c.cpu.regs).run (clearLatch k c)
  { chip := r.chip.setRegs r.value, cycles := r.ops }

/-- `FetchOpcode()` (R212): one cycle; the chip after it and the opcode. -/
def fetchOpcode (c : Chip) : Chip × Byte :=
  let f := cpuRead (tick c).cpu.regs.pc (tick c)
  (f.1.setRegs { f.1.cpu.regs with pc := f.1.cpu.regs.pc + 1 }, f.2)

/-- `Dispatch(b)` (R215) with a given program: its cycle count includes the fetch. -/
def dispatch (prog : CpuRegs → CpuProg CpuRegs) (c : Chip) : Stepped :=
  let r := (prog c.cpu.regs).run c
  { chip := r.chip.setRegs r.value, cycles := 1 + r.ops }

/-- `CorruptStep()` (R213), after the fetch. -/
def corruptStep (c : Chip) : Stepped :=
  { chip := ticks (c.params.jamStepCycles - 1) { c with cpu := { c.cpu with corrupted := true } }
    cycles := c.params.jamStepCycles }

/-- What the control unit does with a fetched opcode whose program is given (R210, R157): the corrupting step when the byte is
in `CorruptSet`, else its dispatch. -/
def opcodeStep (b : Byte) (prog : CpuRegs → CpuProg CpuRegs) (c : Chip) : Stepped :=
  if c.corrupts b then corruptStep c else dispatch prog c

/-- What the control unit does with a fetched opcode (R210). -/
def runOpcode (b : Byte) (c : Chip) : Stepped := opcodeStep b (opcodeProg b c.params.maxStepCycles) c

/-- `CpuStep()` (R210). -/
def cpuStep (c : Chip) : Stepped :=
  match pendingInterrupt c with
  | some k => interruptEntry k c
  | none => runOpcode (fetchOpcode c).2 (fetchOpcode c).1

/-! ## The meaning of each OPC row: the step after its fetch, ended as CLOCK_INSTR ends it (R201;
log 33). A JAM row corrupts while its byte is in `CorruptSet`, and so does any other row (R157, R218, R219; log 13) -/

/-- The end of a CLOCK_INSTR whose step is done (R201). -/
def endStep (s : State) (r : Stepped) : State :=
  s.commit r.chip (if r.chip.cpu.corrupted then .err .cpuCorrupted else .ok (.cycles r.cycles))

/-- The step of an opcode that has no rule of its own: outside `CorruptSet`, the parameter's (R13, R219). -/
def executeStep (b : Byte) (c : Chip) : Stepped := opcodeStep b (executeProg b c.params.maxStepCycles) c

/-- JAM_02 (R218). -/
def execJam02 (s : State) : Host.Outcome State Fault Refusal := .next (endStep s (executeStep 0x02 s.chip))

/-- JAM_12 (R218). -/
def execJam12 (s : State) : Host.Outcome State Fault Refusal := .next (endStep s (executeStep 0x12 s.chip))

/-- JAM_22 (R218). -/
def execJam22 (s : State) : Host.Outcome State Fault Refusal := .next (endStep s (executeStep 0x22 s.chip))

/-- JAM_32 (R218). -/
def execJam32 (s : State) : Host.Outcome State Fault Refusal := .next (endStep s (executeStep 0x32 s.chip))

/-- JAM_42 (R218). -/
def execJam42 (s : State) : Host.Outcome State Fault Refusal := .next (endStep s (executeStep 0x42 s.chip))

/-- JAM_52 (R218). -/
def execJam52 (s : State) : Host.Outcome State Fault Refusal := .next (endStep s (executeStep 0x52 s.chip))

/-- JAM_62 (R218). -/
def execJam62 (s : State) : Host.Outcome State Fault Refusal := .next (endStep s (executeStep 0x62 s.chip))

/-- JAM_72 (R218). -/
def execJam72 (s : State) : Host.Outcome State Fault Refusal := .next (endStep s (executeStep 0x72 s.chip))

/-- JAM_92 (R218). -/
def execJam92 (s : State) : Host.Outcome State Fault Refusal := .next (endStep s (executeStep 0x92 s.chip))

/-- JAM_B2 (R218). -/
def execJamB2 (s : State) : Host.Outcome State Fault Refusal := .next (endStep s (executeStep 0xB2 s.chip))

/-- JAM_D2 (R218). -/
def execJamD2 (s : State) : Host.Outcome State Fault Refusal := .next (endStep s (executeStep 0xD2 s.chip))

/-- JAM_F2 (R218). -/
def execJamF2 (s : State) : Host.Outcome State Fault Refusal := .next (endStep s (executeStep 0xF2 s.chip))

/-- NOP (R231). -/
def execNop (s : State) : Host.Outcome State Fault Refusal := .next (endStep s (opcodeStep 0xEA nopProg s.chip))

/-- JMP_ABS (R232). -/
def execJmpAbs (s : State) : Host.Outcome State Fault Refusal := .next (endStep s (opcodeStep 0x4C jmpProg s.chip))

/-- LDA_IMM (R233). -/
def execLdaImm (s : State) : Host.Outcome State Fault Refusal := .next (endStep s (opcodeStep 0xA9 ldaProg s.chip))

/-- STA_ABS (R234). -/
def execStaAbs (s : State) : Host.Outcome State Fault Refusal :=
  .next (endStep s (opcodeStep 0x8D (staProg s.chip.params.maxStepCycles) s.chip))

/-- INX (R235). -/
def execInx (s : State) : Host.Outcome State Fault Refusal := .next (endStep s (opcodeStep 0xE8 inxProg s.chip))

/-- BNE_REL (R236). -/
def execBneRel (s : State) : Host.Outcome State Fault Refusal := .next (endStep s (opcodeStep 0xD0 bneProg s.chip))

/-- EXECUTE (R219). -/
def execExecute (b : Byte) (s : State) : Host.Outcome State Fault Refusal := .next (endStep s (executeStep b s.chip))

end Sys2Proof.Machine
end

