-- ==== Sys2Proof/Machine/Clock.lean ====
section
/-! DEFINITION. The four stepping commands (40_deck_clocking.md R200 to R204). -/

namespace Sys2Proof.Machine

open Sys2Proof

/-- `Gate()` (R200): the state a stepping command ends in when the gate stops it; none when it passes. -/
def gateStop (s : State) : Option State :=
  match s.loadedRom with
  | none => some (s.refuse .noCartridge)
  | some _ => if s.chip.cpu.corrupted then some (s.finish (.err .cpuCorrupted)) else none

/-- A loop of a stepping command ends here whatever its own condition: the processor is corrupted (R201), or a
transaction met rule R107 (log 2). -/
def loopStops (c : Chip) : Bool := c.cpu.corrupted || c.fsDefault

/-! ## CLOCK_INSTR -/

/-- CLOCK_INSTR (R201). -/
def execClockInstr (s : State) : Host.Outcome State Fault Refusal :=
  .next ((gateStop s).getD (endStep s (cpuStep s.chip.begin)))

/-! ## CLOCK_SECONDS -/

/-- What the loop of CLOCK_SECONDS carries. -/
structure Budget where
  chip   : Chip
  remain : Rat
  total  : Nat

/-- The loop of CLOCK_SECONDS (R202). Every step takes at least one cycle, so `fuel` at or above the budget never ends
it. -/
def secondsLoop : (fuel : Nat) → Budget → Budget
  | 0, g => g
  | fuel + 1, g =>
    if 0 < g.remain then
      let r := cpuStep g.chip
      let g' : Budget := { chip := r.chip, remain := g.remain - (r.cycles : Rat), total := g.total + r.cycles }
      if loopStops r.chip then g' else secondsLoop fuel g'
    else g

/-- The budget CLOCK_SECONDS starts its loop with (R202). -/
def secondsBudget (num den : Word32) (s : State) : Rat :=
  s.cyclesRemaining + (s.chip.regionParams.clockRate : Rat) * ((num.toNat : Rat) / (den.toNat : Rat))

/-- The body of CLOCK_SECONDS, past its gate. -/
def clockSeconds (num den : Word32) (s : State) : State :=
  let budget := secondsBudget num den s
  let g := secondsLoop budget.ceil.toNat { chip := s.chip.begin, remain := budget, total := 0 }
  { s with cyclesRemaining := g.remain }.commit g.chip
    (if g.chip.cpu.corrupted then .err .cpuCorrupted else .ok (.cycles g.total))

/-- CLOCK_SECONDS (R202); a zero `den` is refused here too (R156; log 29). -/
def execClockSeconds (num den : Word32) (s : State) : Host.Outcome State Fault Refusal :=
  .next (if den = 0 then s.refuse .illegalCommand else (gateStop s).getD (clockSeconds num den s))

/-! ## CLOCK_FRAME and CLOCK_SCANLINE -/

/-- The counter of the loop differs from its value when the command began (R203, R204). -/
def ClockLoop.moved (c : Chip) : ClockLoop → Bool
  | .frame start => decide (c.ppu.frameNumber ≠ start)
  | .scanline start => decide (c.ppu.scanline ≠ start)

/-- Steps until the loop's condition to end holds (R203, R204), at least one; and whether it came within `fuel` steps. -/
def runUntil (loop : ClockLoop) : (fuel : Nat) → Stepped → Stepped × Bool
  | 0, g => (g, false)
  | fuel + 1, g =>
    let r := cpuStep g.chip
    let g' : Stepped := { chip := r.chip, cycles := g.cycles + r.cycles }
    if loopStops r.chip || loop.moved r.chip then (g', true) else runUntil loop fuel g'

/-- The control-unit steps that one step of the machine takes of a loop at most: enough for the dots of a frame at a dot in
every `2 * dotsDen` cycles (log 25). -/
def loopFuel (c : Chip) : Nat :=
  (c.regionParams.scanlinesPerFrame * c.params.dotsPerScanline + 2) * (2 * c.regionParams.dotsDen) + 1

/-- A loop goes on, `cycles` after its command began (R203, R204). It ends as CLOCK_INSTR does; when it has not ended within the
fuel, the command stays in progress, with no result yet, and the next step of the machine goes on with it (log 25). -/
def runLoop (loop : ClockLoop) (cycles : Nat) (s : State) : State :=
  let g := runUntil loop (loopFuel s.chip) { chip := s.chip.begin, cycles := cycles }
  if g.2 then endStep { s with ongoing := none } g.1
  else { s with chip := g.1.chip, result := none, ongoing := some { loop := loop, cycles := g.1.cycles } }

/-- CLOCK_FRAME (R203). -/
def execClockFrame (s : State) : Host.Outcome State Fault Refusal :=
  .next ((gateStop s).getD (runLoop (.frame s.chip.ppu.frameNumber) 0 s))

/-- CLOCK_SCANLINE (R204). -/
def execClockScanline (s : State) : Host.Outcome State Fault Refusal :=
  .next ((gateStop s).getD (runLoop (.scanline s.chip.ppu.scanline) 0 s))

/-- The command in progress goes on (log 25). -/
def State.resume (o : Ongoing) (s : State) : State := runLoop o.loop o.cycles s

end Sys2Proof.Machine
end

