-- ==== Sys2Proof/Machine/Lifecycle.lean ====
section
/-! DEFINITION. The cartridge lifecycle, the resets, and the accessors (41_deck_lifecycle.md; 70_reset_and_hazards.md
section 1; 10_state.md R64, R80). -/

namespace Sys2Proof.Machine

open Sys2Proof

/-! ## Resets -/

/-- `PpuReset(kind)` (R574): its own registers and its NMI output; an idle unit has none (log 11). -/
def resetPpu (kind : ResetKind) (c : Chip) : Chip :=
  if c.params.idleUnits then c
  else
    let e := Config.ppuReset c.draws kind c.config.region c.ppu
    { c.drawn with ppu := { c.ppu with priv := e.priv, nmiOut := e.nmiOut } }

/-- `ApuReset(kind)` (R574): its own registers and its IRQ output; an idle unit has none (log 11). -/
def resetApu (kind : ResetKind) (c : Chip) : Chip :=
  if c.params.idleUnits then c
  else
    let e := Config.apuReset c.draws kind c.config.region c.apu.core
    { c.drawn with apu := { c.apu with priv := e.priv, irqOut := e.irqOut } }

/-- `ResetSequence()` (R572): each of its seven cycles has its `Tick` (R215), whose audio unit appends samples and whose frame
boundary ends the gun's trigger, though R578 gives `apu.samples` and `input` as unchanged by a reset: the Ticks are followed
(log 35). -/
def resetSequence (c : Chip) : Chip :=
  ((resetProg c.cpu.regs).run c).chip.setRegs ((resetProg c.cpu.regs).run c).value

/-- The chip just before the reset sequence of a soft reset (R571). -/
def softResetStart (c : Chip) : Chip :=
  let c1 := { c with cpu := { c.cpu with corrupted := false, nmiLatch := false }, mapper := c.mapper.softReset }
  (resetApu .soft (resetPpu .soft c1)).refreshMirror

/-- `SoftReset()` (R571), less the deck's budget. -/
def softReset (c : Chip) : Chip := resetSequence (softResetStart c)

/-- The pools after a hard reset's `InitRam` calls, in its order (R64, R573); one draw each (log 30). -/
def hardResetPools (battery : Bool) (c : Chip) : Chip :=
  let p := c.config.ramState
  let d := c.draws
  { c with
    bus := { c.bus with wram := initRam p d c.bus.wram.size, openBus := 0 }
    ppubus := { c.ppubus with
      ciram := initRam p (d + 1) c.ppubus.ciram.size
      palette := initRam p (d + 2) c.ppubus.palette.size
      exram := initRam p (d + 3) c.ppubus.exram.size
      chr := if c.ppubus.chrIsRam then initRam p (d + 4) c.ppubus.chr.size else c.ppubus.chr
      openBus := 0 }
    cart := { c.cart with prgRam := if battery then c.cart.prgRam else initRam p (d + 5) c.cart.prgRam.size }
    draws := d + 6 }

/-- The processor at the start of a hard reset (R573). -/
def hardResetCpu (pc : Addr) : Cpu :=
  { regs := { pc := pc, a := 0, x := 0, y := 0, s := 0, p := hardResetStatus }
    corrupted := false, cycle := 0, nmiPrev := false, nmiLatch := false }

/-- The chip just before the reset sequence of a hard reset (R573). -/
def hardResetStart (battery : Bool) (c : Chip) : Chip :=
  let c1 := hardResetPools battery c
  let c2 := { c1 with cpu := hardResetCpu c.cpu.regs.pc, mapper := c.mapper.hardReset }
  (resetApu .hard (resetPpu .hard c2)).refreshMirror

/-- `HardReset()` (R573), less the deck's budget. -/
def hardReset (battery : Bool) (c : Chip) : Chip := resetSequence (hardResetStart battery c)

/-- A reset of either kind on the chip. -/
def resetChip (kind : ResetKind) (battery : Bool) (c : Chip) : Chip :=
  match kind with
  | .soft => softReset c
  | .hard => hardReset battery c

/-- RESET (R260): both kinds drop the budget (R575). -/
def execReset (kind : ResetKind) (s : State) : Host.Outcome State Fault Refusal :=
  .next (match s.loadedRom with
    | none => s.refuse .noCartridge
    | some _ =>
      { s with cyclesRemaining := 0 }.commit (resetChip kind s.batteryBacked s.chip.begin) (.ok .unit))

/-! ## Unloading -/

/-- The battery flush (R257). -/
def State.flush (s : State) : Option Memory :=
  if s.loadedRom.isSome && s.batteryBacked then some s.chip.cart.prgRam else none

/-- The chip with no cartridge (R256). -/
def Chip.unload (c : Chip) : Chip :=
  { c with
    mapper := .empty
    cart := { prgRom := zeroPool 0, prgRam := zeroPool 0, desc := none }
    ppubus := { c.ppubus with chr := zeroPool 0, chrIsRam := false, exram := zeroPool 0,
                              mirrorShift := mirrorShiftOf .horizontal } }

/-- UNLOAD_ROM (R256). -/
def execUnloadRom (s : State) : Host.Outcome State Fault Refusal :=
  .next ({ s with chip := s.chip.unload, loadedRom := none, running := false, batteryBacked := false }.finish
    (.ok (.flushed s.flush)))

/-! ## Loading -/

/-- `SelectRegion(desc)` (R253). -/
def Chip.selectRegion (d : Descriptor) (c : Chip) : Chip :=
  { c with config := { c.config with region := d.regionHint.getD c.config.region }
           mapper := c.mapper.setRegion (d.regionHint.getD c.config.region) }

/-- The cartridge in its place (R250): board, descriptor, pools. -/
def Chip.insert (d : Descriptor) (c : Chip) : Chip :=
  let m := selectBoard d c.config.region
  { c with
    mapper := m
    cart := { prgRom := d.prgRom, prgRam := zeroPool m.prgRamSize, desc := some d }
    ppubus := { c.ppubus with
      chr := if d.chrRom.size = 0 then zeroPool 8192 else d.chrRom
      chrIsRam := decide (d.chrRom.size = 0)
      exram := if d.mirroring = .fourScreen then zeroPool 2048 else zeroPool 0 } }

/-- `InitRam(cart.prg_ram)` (R250, R64). -/
def Chip.initPrgRam (c : Chip) : Chip :=
  { c with cart := { c.cart with prgRam := initRam c.config.ramState c.draws c.cart.prgRam.size }
           draws := c.draws + 1 }

/-- The chip of LOAD_ROM up to its hard reset (R250). -/
def Chip.load (d : Descriptor) (c : Chip) : Chip :=
  (c.unload.insert d).selectRegion d |>.initPrgRam

/-- LOAD_ROM past its validation (R250). -/
def loadValid (name : Text) (d : Descriptor) (s : State) : State :=
  { s with running := true, loadedRom := some name, batteryBacked := d.battery, cyclesRemaining := 0 }.commit
    (hardReset d.battery (s.chip.begin.load d)) (.ok (.flushed s.flush))

/-- LOAD_ROM (R250): a failing check changes nothing (R254). -/
def execLoadRom (name : Text) (d : Descriptor) (s : State) : Host.Outcome State Fault Refusal :=
  .next (match validate d with
    | some e => s.finish (.err (.romFormat e))
    | none => loadValid name d s)

/-! ## Battery RAM and work RAM -/

/-- LOAD_SRAM (R262). -/
def execLoadSram (b : Memory) (s : State) : Host.Outcome State Fault Refusal :=
  .next ((if s.batteryBacked && b.size == s.chip.cart.prgRam.size then
      { s with chip := { s.chip with cart := { s.chip.cart with prgRam := b } } }
    else s).finish (.ok .unit))

/-- READ_SRAM (R263). -/
def execReadSram (s : State) : Host.Outcome State Fault Refusal :=
  .next (s.finish (.ok (.bytes (if s.batteryBacked then s.chip.cart.prgRam else zeroPool 0))))

/-- READ_WRAM (R264). -/
def execReadWram (s : State) : Host.Outcome State Fault Refusal :=
  .next (s.finish (.ok (.bytes s.chip.bus.wram)))

/-! ## Status and outputs -/

/-- The record of QUERY_STATUS (R265). -/
def State.status (s : State) : StatusRecord :=
  { running := s.running, loadedRom := s.loadedRom, corrupted := s.chip.cpu.corrupted, region := s.chip.config.region,
    frameNumber := s.chip.ppu.frameNumber, scanline := s.chip.ppu.scanline, cycle := s.chip.cpu.cycle }

/-- QUERY_STATUS (R265). -/
def execQueryStatus (s : State) : Host.Outcome State Fault Refusal :=
  .next (s.finish (.ok (.status s.status)))

/-- The bytes of an RGBA frame: 256 x 240 x 4 (R266, D45). -/
def frameBytes : Nat := 256 * 240 * 4

/-- READ_FRAME_BUFFER (R266; log 20). -/
def execReadFrameBuffer (s : State) : Host.Outcome State Fault Refusal :=
  .next (s.finish (.ok (.bytes
    (Memory.tabulate frameBytes (Config.filterByte s.chip.config.filter s.chip.ppu.frame)))))

/-- READ_AUDIO_SAMPLES (R267). -/
def execReadAudioSamples (s : State) : Host.Outcome State Fault Refusal :=
  .next (s.finish (.ok (.samples s.chip.apu.samples)))

/-! ## Deck construction -/

/-- The initial codes added one by one, invalid ones skipped (R491). -/
def addInitialCodes : List Text → List GenieEntry → List GenieEntry
  | [], table => table
  | code :: rest, table =>
    match parseGenie code with
    | .error _ => addInitialCodes rest table
    | .ok g => addInitialCodes rest (genieAdd g table)

/-- Deck construction with a configuration (R80): the host's act, no command. `State.reset` is it for the default
configuration (log 6). -/
def constructDeck (cfg : DeckConfig) : State :=
  let table := addInitialCodes cfg.genie []
  let c := Chip.construction
  { State.reset with chip := { c with
      config := { cfg with genie := table.map GenieEntry.text }
      bus := { c.bus with wram := initRam cfg.ramState 0 2048, genie := table }
      ppubus := { c.ppubus with ciram := initRam cfg.ramState 1 2048, palette := initRam cfg.ramState 2 32 }
      draws := 3 } }

end Sys2Proof.Machine
end

