-- ==== Sys2Proof/Machine/BusWords.lean ====
section
/-! DEFINITION. The six BUS words, issued by the host through the debug port (43_bus.md R321 to R342): no `Tick`
(D55). -/

namespace Sys2Proof.Machine

open Sys2Proof

/-- CPU_READ (R321). -/
def execCpuRead (a : Addr) (s : State) : Host.Outcome State Fault Refusal :=
  .next (s.commit (cpuRead a s.chip.begin).1 (.ok (.byte (cpuRead a s.chip.begin).2)))

/-- The end of a CPU-bus write by the host (R327), which the MAPREG rows share (45_mapper_boards.md section 7). -/
def hostCpuWrite (a : Addr) (v : Byte) (s : State) : State :=
  s.commit (cpuWrite a v s.chip.begin) (.ok .unit)

/-- CPU_WRITE (R327). -/
def execCpuWrite (a : Addr) (v : Byte) (s : State) : Host.Outcome State Fault Refusal :=
  .next (hostCpuWrite a v s)

/-- CPU_PEEK (R331). -/
def execCpuPeek (a : Addr) (s : State) : Host.Outcome State Fault Refusal :=
  .next (s.finish (.ok (.byte (cpuPeek a s.chip))))

/-- PPU_READ (R336). -/
def execPpuRead (a : Addr) (s : State) : Host.Outcome State Fault Refusal :=
  .next (s.commit (ppuRead a s.chip.begin).1 (.ok (.byte (ppuRead a s.chip.begin).2)))

/-- PPU_WRITE (R339). -/
def execPpuWrite (a : Addr) (v : Byte) (s : State) : Host.Outcome State Fault Refusal :=
  .next (s.commit (ppuWrite a v s.chip.begin) (.ok .unit))

/-- PPU_PEEK (R342). -/
def execPpuPeek (a : Addr) (s : State) : Host.Outcome State Fault Refusal :=
  .next (match ppuPeek a s.chip with
    | none => s.refuse .fourScreenDefault
    | some v => s.finish (.ok (.byte v)))

end Sys2Proof.Machine
end

