-- ==== Sys2Proof/Machine/MapReg.lean ====
section
/-! DEFINITION. The mapper register writes (45_mapper_boards.md section 7, R463 to R477). Each is a `CpuWrite` in the
row's range: the cartridge decode hands it to the board, whose own definition of the register stands in Boards.lean,
Mmc1.lean or Mmc3.lean, and the mirror shift is refreshed after it (log 28). -/

namespace Sys2Proof.Machine

open Sys2Proof

/-- UXROM_BANK (R463). -/
def execUxromBank (a : Addr) (v : Byte) (s : State) : Host.Outcome State Fault Refusal :=
  .next (hostCpuWrite a v s)

/-- CNROM_CHR_BANK (R464). -/
def execCnromChrBank (a : Addr) (v : Byte) (s : State) : Host.Outcome State Fault Refusal :=
  .next (hostCpuWrite a v s)

/-- AXROM_REG (R465). -/
def execAxromReg (a : Addr) (v : Byte) (s : State) : Host.Outcome State Fault Refusal :=
  .next (hostCpuWrite a v s)

/-- MMC1_CONTROL (R466). -/
def execMmc1Control (a : Addr) (v : Byte) (s : State) : Host.Outcome State Fault Refusal :=
  .next (hostCpuWrite a v s)

/-- MMC1_CHR0 (R467). -/
def execMmc1Chr0 (a : Addr) (v : Byte) (s : State) : Host.Outcome State Fault Refusal :=
  .next (hostCpuWrite a v s)

/-- MMC1_CHR1 (R468). -/
def execMmc1Chr1 (a : Addr) (v : Byte) (s : State) : Host.Outcome State Fault Refusal :=
  .next (hostCpuWrite a v s)

/-- MMC1_PRG (R469). -/
def execMmc1Prg (a : Addr) (v : Byte) (s : State) : Host.Outcome State Fault Refusal :=
  .next (hostCpuWrite a v s)

/-- MMC3_BANK_SELECT (R470). -/
def execMmc3BankSelect (a : Addr) (v : Byte) (s : State) : Host.Outcome State Fault Refusal :=
  .next (hostCpuWrite a v s)

/-- MMC3_BANK_DATA (R471). -/
def execMmc3BankData (a : Addr) (v : Byte) (s : State) : Host.Outcome State Fault Refusal :=
  .next (hostCpuWrite a v s)

/-- MMC3_MIRRORING (R472). -/
def execMmc3Mirroring (a : Addr) (v : Byte) (s : State) : Host.Outcome State Fault Refusal :=
  .next (hostCpuWrite a v s)

/-- MMC3_PRG_RAM_PROTECT (R473). -/
def execMmc3PrgRamProtect (a : Addr) (v : Byte) (s : State) : Host.Outcome State Fault Refusal :=
  .next (hostCpuWrite a v s)

/-- MMC3_IRQ_LATCH (R474). -/
def execMmc3IrqLatch (a : Addr) (v : Byte) (s : State) : Host.Outcome State Fault Refusal :=
  .next (hostCpuWrite a v s)

/-- MMC3_IRQ_RELOAD (R475). -/
def execMmc3IrqReload (a : Addr) (v : Byte) (s : State) : Host.Outcome State Fault Refusal :=
  .next (hostCpuWrite a v s)

/-- MMC3_IRQ_DISABLE (R476). -/
def execMmc3IrqDisable (a : Addr) (v : Byte) (s : State) : Host.Outcome State Fault Refusal :=
  .next (hostCpuWrite a v s)

/-- MMC3_IRQ_ENABLE (R477). -/
def execMmc3IrqEnable (a : Addr) (v : Byte) (s : State) : Host.Outcome State Fault Refusal :=
  .next (hostCpuWrite a v s)

end Sys2Proof.Machine
end

