-- ==== Sys2Proof/Machine/Settings.lean ====
section
/-! DEFINITION. Runtime configuration and input commands (42_deck_config.md), the revision override (44_mapper.md R370)
and the cheat-code commands (46_genie.md R480, R481). -/

namespace Sys2Proof.Machine

open Sys2Proof

/-- A command that only changes the chip and returns unit. -/
def State.setChip (s : State) (c : Chip) : State := { s with chip := c, result := some (.ok .unit) }

/-- The chip with a changed configuration record. -/
def Chip.setConfig (c : Chip) (cfg : DeckConfig) : Chip := { c with config := cfg }

/-- The chip with a changed input record. -/
def Chip.setInput (c : Chip) (i : Input) : Chip := { c with input := i }

/-- SET_REGION (R291). -/
def execSetRegion (r : Region) (s : State) : Host.Outcome State Fault Refusal :=
  .next (s.setChip { s.chip with config := { s.chip.config with region := r }, mapper := s.chip.mapper.setRegion r })

/-- SET_FOUR_PLAYER (R292). -/
def execSetFourPlayer (m : FourPlayer) (s : State) : Host.Outcome State Fault Refusal :=
  .next (s.setChip (s.chip.setConfig { s.chip.config with fourPlayer := m }))

/-- SET_FILTER (R293). -/
def execSetFilter (f : VideoFilter) (s : State) : Host.Outcome State Fault Refusal :=
  .next (s.setChip (s.chip.setConfig { s.chip.config with filter := f }))

/-- SET_RAM_STATE (R294). -/
def execSetRamState (p : RamPolicy) (s : State) : Host.Outcome State Fault Refusal :=
  .next (s.setChip (s.chip.setConfig { s.chip.config with ramState := p }))

/-- CONNECT_ZAPPER (R295). -/
def execConnectZapper (e : Bool) (s : State) : Host.Outcome State Fault Refusal :=
  .next (s.setChip { s.chip with
    config := { s.chip.config with zapperEnabled := e }
    input := { s.chip.input with zapper := { s.chip.input.zapper with connected := e } } })

/-- AIM_ZAPPER (R296). -/
def execAimZapper (x y : Byte) (s : State) : Host.Outcome State Fault Refusal :=
  .next (s.setChip (s.chip.setInput { s.chip.input with zapper := { s.chip.input.zapper with x := x, y := y } }))

/-- TRIGGER_ZAPPER (R297). -/
def execTriggerZapper (s : State) : Host.Outcome State Fault Refusal :=
  .next (s.setChip (s.chip.setInput { s.chip.input with zapper := { s.chip.input.zapper with trigger := true } }))

/-- Inverts one bit (R298). -/
def Channels.toggle (c : Channels) : Channel → Channels
  | .pulse1 => { c with pulse1 := !c.pulse1 }
  | .pulse2 => { c with pulse2 := !c.pulse2 }
  | .triangle => { c with triangle := !c.triangle }
  | .noise => { c with noise := !c.noise }
  | .dmc => { c with dmc := !c.dmc }

/-- TOGGLE_APU_CHANNEL (R298). -/
def execToggleApuChannel (c : Channel) (s : State) : Host.Outcome State Fault Refusal :=
  .next (s.setChip { s.chip with
    apu := { s.chip.apu with channelEnabled := Channels.toggle s.chip.apu.channelEnabled c } })

/-- CLEAR_AUDIO_SAMPLES (R299). -/
def execClearAudioSamples (s : State) : Host.Outcome State Fault Refusal :=
  .next (s.setChip { s.chip with apu := { s.chip.apu with samples := [] } })

/-- `input.joypad[p] ← mask` (R300). -/
def Input.setJoypad (i : Input) (player : BitVec 2) (mask : BitVec 16) : Input :=
  if player = 0 then { i with joypad0 := mask }
  else if player = 1 then { i with joypad1 := mask }
  else if player = 2 then { i with joypad2 := mask }
  else { i with joypad3 := mask }

/-- `input.joypad[p]` (R61). -/
def Input.joypad (i : Input) (player : BitVec 2) : BitVec 16 :=
  if player = 0 then i.joypad0 else if player = 1 then i.joypad1 else if player = 2 then i.joypad2 else i.joypad3

/-- The player holds the button down (R61, R166). -/
def Input.pressed (i : Input) (player : BitVec 2) (button : Button) : Bool :=
  (Input.joypad i player).getLsbD button.bit

/-- SET_JOYPAD (R300). -/
def execSetJoypad (player : BitVec 2) (mask : BitVec 10) (s : State) : Host.Outcome State Fault Refusal :=
  .next (s.setChip (s.chip.setInput (Input.setJoypad s.chip.input player (mask.setWidth 16))))

/-- SET_MAPPER_REVISION (R370), with the refresh of rule R590. -/
def execSetMapperRevision (r : Revision) (s : State) : Host.Outcome State Fault Refusal :=
  .next (s.setChip { s.chip with mapper := s.chip.mapper.setRevision r }.refreshMirror)

/-- The chip with another cheat table; the configuration's list follows it (R491). -/
def Chip.setGenie (c : Chip) (table : List GenieEntry) : Chip :=
  { c with bus := { c.bus with genie := table }, config := { c.config with genie := table.map GenieEntry.text } }

/-- ADD_GENIE (R480): a malformed code changes nothing (R513). -/
def execAddGenie (code : Text) (s : State) : Host.Outcome State Fault Refusal :=
  .next (match parseGenie code with
    | .error e => s.finish (.err (.invalidCode e))
    | .ok g => s.setChip (s.chip.setGenie (genieAdd g s.chip.bus.genie)))

/-- REMOVE_GENIE (R481). -/
def execRemoveGenie (code : Text) (s : State) : Host.Outcome State Fault Refusal :=
  .next (s.setChip (s.chip.setGenie (genieWithout code s.chip.bus.genie)))

end Sys2Proof.Machine
end

