-- ==== Sys2Proof/Machine/Dispatch.lean ====
section
/-! DEFINITION. The dispatch of every instruction to its meaning: one arm per constructor of `Instr`. -/

namespace Sys2Proof.Machine

open Sys2Proof

/-- The meaning of an instruction. -/
def exec (i : Instr) (s : State) : Host.Outcome State Fault Refusal :=
  match i with
  | .clockInstr => Sys2Proof.Machine.execClockInstr s
  | .clockSeconds num den => Sys2Proof.Machine.execClockSeconds num den s
  | .clockFrame => Sys2Proof.Machine.execClockFrame s
  | .clockScanline => Sys2Proof.Machine.execClockScanline s
  | .loadRom name desc => Sys2Proof.Machine.execLoadRom name desc s
  | .unloadRom => Sys2Proof.Machine.execUnloadRom s
  | .reset kind => Sys2Proof.Machine.execReset kind s
  | .loadSram b => Sys2Proof.Machine.execLoadSram b s
  | .readSram => Sys2Proof.Machine.execReadSram s
  | .readWram => Sys2Proof.Machine.execReadWram s
  | .queryStatus => Sys2Proof.Machine.execQueryStatus s
  | .readFrameBuffer => Sys2Proof.Machine.execReadFrameBuffer s
  | .readAudioSamples => Sys2Proof.Machine.execReadAudioSamples s
  | .setRegion r => Sys2Proof.Machine.execSetRegion r s
  | .setFourPlayer m => Sys2Proof.Machine.execSetFourPlayer m s
  | .setFilter f => Sys2Proof.Machine.execSetFilter f s
  | .setRamState p => Sys2Proof.Machine.execSetRamState p s
  | .connectZapper e => Sys2Proof.Machine.execConnectZapper e s
  | .aimZapper x y => Sys2Proof.Machine.execAimZapper x y s
  | .triggerZapper => Sys2Proof.Machine.execTriggerZapper s
  | .toggleApuChannel c => Sys2Proof.Machine.execToggleApuChannel c s
  | .clearAudioSamples => Sys2Proof.Machine.execClearAudioSamples s
  | .setJoypad player mask => Sys2Proof.Machine.execSetJoypad player mask s
  | .setMapperRevision r => Sys2Proof.Machine.execSetMapperRevision r s
  | .addGenie code => Sys2Proof.Machine.execAddGenie code s
  | .removeGenie code => Sys2Proof.Machine.execRemoveGenie code s
  | .cpuRead a => Sys2Proof.Machine.execCpuRead a s
  | .cpuWrite a v => Sys2Proof.Machine.execCpuWrite a v s
  | .cpuPeek a => Sys2Proof.Machine.execCpuPeek a s
  | .ppuRead a => Sys2Proof.Machine.execPpuRead a s
  | .ppuWrite a v => Sys2Proof.Machine.execPpuWrite a v s
  | .ppuPeek a => Sys2Proof.Machine.execPpuPeek a s
  | .jam02 => Sys2Proof.Machine.execJam02 s
  | .jam12 => Sys2Proof.Machine.execJam12 s
  | .jam22 => Sys2Proof.Machine.execJam22 s
  | .jam32 => Sys2Proof.Machine.execJam32 s
  | .jam42 => Sys2Proof.Machine.execJam42 s
  | .jam52 => Sys2Proof.Machine.execJam52 s
  | .jam62 => Sys2Proof.Machine.execJam62 s
  | .jam72 => Sys2Proof.Machine.execJam72 s
  | .jam92 => Sys2Proof.Machine.execJam92 s
  | .jamB2 => Sys2Proof.Machine.execJamB2 s
  | .jamD2 => Sys2Proof.Machine.execJamD2 s
  | .jamF2 => Sys2Proof.Machine.execJamF2 s
  | .nop => Sys2Proof.Machine.execNop s
  | .jmpAbs => Sys2Proof.Machine.execJmpAbs s
  | .ldaImm => Sys2Proof.Machine.execLdaImm s
  | .staAbs => Sys2Proof.Machine.execStaAbs s
  | .inx => Sys2Proof.Machine.execInx s
  | .bneRel => Sys2Proof.Machine.execBneRel s
  | .execute b => Sys2Proof.Machine.execExecute b s
  | .uxromBank a v => Sys2Proof.Machine.execUxromBank a v s
  | .cnromChrBank a v => Sys2Proof.Machine.execCnromChrBank a v s
  | .axromReg a v => Sys2Proof.Machine.execAxromReg a v s
  | .mmc1Control a v => Sys2Proof.Machine.execMmc1Control a v s
  | .mmc1Chr0 a v => Sys2Proof.Machine.execMmc1Chr0 a v s
  | .mmc1Chr1 a v => Sys2Proof.Machine.execMmc1Chr1 a v s
  | .mmc1Prg a v => Sys2Proof.Machine.execMmc1Prg a v s
  | .mmc3BankSelect a v => Sys2Proof.Machine.execMmc3BankSelect a v s
  | .mmc3BankData a v => Sys2Proof.Machine.execMmc3BankData a v s
  | .mmc3Mirroring a v => Sys2Proof.Machine.execMmc3Mirroring a v s
  | .mmc3PrgRamProtect a v => Sys2Proof.Machine.execMmc3PrgRamProtect a v s
  | .mmc3IrqLatch a v => Sys2Proof.Machine.execMmc3IrqLatch a v s
  | .mmc3IrqReload a v => Sys2Proof.Machine.execMmc3IrqReload a v s
  | .mmc3IrqDisable a v => Sys2Proof.Machine.execMmc3IrqDisable a v s
  | .mmc3IrqEnable a v => Sys2Proof.Machine.execMmc3IrqEnable a v s

end Sys2Proof.Machine
end

