-- ==== Sys2Proof/Machine/Fetch.lean ====
section
/-! DEFINITION. How the block takes its next instruction: a host word is decoded, and a CPU write is known to the loaded
board as one of its register rows (30_encoding.md R150, R154, R156; log 3, log 28); and what stands for placing one
instruction where the machine takes its next from (log 4). -/

namespace Sys2Proof.Machine

open Sys2Proof

/-- A CPU write as the loaded board decodes it: its MAPREG row where it has one (R150). -/
def asMapReg (m : Mapper) (a : Addr) (v : Byte) : Instr :=
  match m.kind with
  | none => .cpuWrite a v
  | some board =>
    match decodeMapReg board a v with
    | none => .cpuWrite a v
    | some i => i

/-- The instruction a host word is on this state: CMD and BUS words as they decode, but for a CPU write that reaches a
register of the board (log 28). -/
def resolveInstr (m : Mapper) (i : Instr) : Instr :=
  match i with
  | .cpuWrite a v => asMapReg m a v
  | i => i

/-- The instruction of a host word (R151 to R156). -/
def hostInstr (m : Mapper) (h : HostWord) : Except DecodeError Instr :=
  match decodeHost h.word h.payload with
  | .error e => .error e
  | .ok i => .ok (resolveInstr m i)

/-! ## Placing an instruction -/

/-- A host word with the payload of zeros (log 5). -/
def tableHostWord (w : Word32) : HostWord := { word := w, payload := zeroPayload w }

/-- `h` as the next word the block takes: no command is in progress. -/
def State.pushWord (s : State) (h : HostWord) : State := { s with pending := h :: s.pending, ongoing := none }

/-- Some cartridge in place: the one there, or a nameless one (log 4). -/
def State.plugged (s : State) : State := { s with loadedRom := some (s.loadedRom.getD []), running := true }

/-- `pc` where WRAM holds the next instruction: the same, or 0x0000 (log 4). -/
def wramPc (pc : Addr) : Addr := if pc.toNat < 0x2000 then pc else 0

/-- The chip whose next step fetches `b` and then zeros, with no interrupt before it (log 4). -/
def Chip.placeOpcode (b : Byte) (c : Chip) : Chip :=
  let pc := wramPc c.cpu.regs.pc
  let r := { c.cpu.regs with pc := pc, p := setI c.cpu.regs.p }
  { c with
    cpu := { c.cpu with regs := r, corrupted := false, nmiLatch := false }
    bus := { c.bus with wram := ((c.bus.wram.write (wramIndex pc) b).write (wramIndex (pc + 1)) 0).write
                                  (wramIndex (pc + 2)) 0 } }

/-- The chip with the table's board in place (log 5). -/
def Chip.placeBoard (c : Chip) : Chip :=
  if c.mapper.kind = some tableBoard then c
  else
    { c with mapper := .board { header := .horizontal, fourScreen := false, region := c.config.region,
                                revision := .standard } (.mmc3 (mmc3PowerOn .horizontal)) }.refreshMirror

/-- The state whose next step runs the opcode byte `b`: a CLOCK_INSTR with `b` at `pc`. -/
def State.placeOpcode (b : Byte) (s : State) : State :=
  { s.plugged with chip := s.chip.placeOpcode b }.pushWord (tableHostWord (opWord 0x01))

/-- The state whose next step writes 0 to `a` on the table's board. -/
def State.placeMapReg (a : Addr) (s : State) : State :=
  { s.plugged with chip := s.chip.placeBoard }.pushWord (tableHostWord (mkWord 0x41 0 a))

end Sys2Proof.Machine
end

