-- ==== Sys2Proof/Machine/Step.lean ====
section
/-! DEFINITION. One step of the machine: the command in progress goes on, or the next word the host issued is decoded and run
(R7, R156; log 3, log 25). -/

namespace Sys2Proof.Machine

open Sys2Proof

/-- The instruction of a host word, run; an illegal word is refused before any change (R156). -/
def runWord (h : HostWord) (s : State) : Host.Outcome State Fault Refusal :=
  match hostInstr s.chip.mapper h with
  | .error _ => .next (s.refuse .illegalCommand)
  | .ok i => exec i s

/-- One step: a command in progress goes on (log 25); else the block takes the oldest word; with none it waits (log 3). -/
def step (s : State) : Host.Outcome State Fault Refusal :=
  match s.ongoing with
  | some o => .next (s.resume o)
  | none =>
    match s.pending with
    | [] => .next s
    | h :: rest => runWord h { s with pending := rest }

/-- The state whose very next step runs the instruction of an opcode-table word (log 4, log 5): 32 bits are a CMD or BUS
word, 8 an opcode byte, 16 the address of a mapper register write with data 0. -/
def State.withFetchWord (s : State) (nbits w : Nat) : State :=
  if nbits = 32 then s.pushWord (tableHostWord (BitVec.ofNat 32 w))
  else if nbits = 8 then s.placeOpcode (BitVec.ofNat 8 w)
  else if nbits = 16 then s.placeMapReg (BitVec.ofNat 16 w)
  else s

end Sys2Proof.Machine
end

