-- ==== Sys2Proof/Safety.lean ====
section
/-! DEFINITION. What the reachable states have in common (the spec's derived invariants: 10_state.md R31, R34, R36, R45,
R49, R50, R52, R55; 46_genie.md R491; 20_memory.md R107), and what a run is that never stops. -/

namespace Sys2Proof.Machine

open Sys2Proof

/-- A pool in canonical form with a given number of bytes. -/
def PoolOk (m : Memory) (n : Nat) : Prop := m.wf = true ∧ m.size = n

/-- What is fixed for as long as a cartridge stays in: the board's variant, and what selection and the host's settings gave
it (R55, R252, R374). -/
def boardIdentity : Mapper → Option (BoardInfo × BoardKind)
  | .empty => none
  | .board info regs => some (info, regs.kind)

/-- The largest scanline count of the three regions: a region change may leave the counter out of its own region's range
until the next dot (R291). -/
def maxScanlines (p : Params) : Nat :=
  max p.ntsc.scanlinesPerFrame (max p.pal.scanlinesPerFrame p.dendy.scanlinesPerFrame)

/-- The cartridge in place agrees with the descriptor it was loaded from (R49, R52, R54, R252, R373, R374). -/
structure CartridgeMatches (c : Chip) (info : BoardInfo) (regs : BoardRegs) (d : Descriptor) : Prop where
  desc       : c.cart.desc = some d
  descWf     : d.wf = true
  valid      : validate d = none
  variant    : (boardOfId d.mapperId d.mirroring).map BoardRegs.kind = some regs.kind
  header     : info.header = d.mirroring
  fourScreen : info.fourScreen = decide (d.mirroring = .fourScreen)
  region     : info.region = c.config.region
  prgRom     : c.cart.prgRom = d.prgRom
  chrIsRam   : c.ppubus.chrIsRam = decide (d.chrRom.size = 0)
  chrRom     : d.chrRom.size ≠ 0 → c.ppubus.chr = d.chrRom
  chrRam     : d.chrRom.size = 0 → c.ppubus.chr.size = 8192

/-- No cartridge: every cartridge pool is empty (R256). -/
structure NoCartridge (c : Chip) : Prop where
  desc     : c.cart.desc = none
  prgRom   : c.cart.prgRom = zeroPool 0
  chr      : c.ppubus.chr = zeroPool 0
  chrIsRam : c.ppubus.chrIsRam = false

/-- The mapper and the cartridge storage agree. -/
def CartridgeOk (c : Chip) : Prop :=
  match c.mapper with
  | .empty => NoCartridge c
  | .board info regs => ∃ d, CartridgeMatches c info regs d

/-- The invariant of the chip. -/
structure Chip.Inv (c : Chip) : Prop where
  params     : c.params.ok = true
  wram       : PoolOk c.bus.wram 2048
  ciram      : PoolOk c.ppubus.ciram 2048
  palette    : PoolOk c.ppubus.palette 32
  exram      : PoolOk c.ppubus.exram (if c.mapper.fourScreen then 2048 else 0)
  chr        : c.ppubus.chr.wf = true
  prgRam     : PoolOk c.cart.prgRam c.mapper.prgRamSize
  frame      : PoolOk c.ppu.frame 61440
  mirror     : c.ppubus.mirrorShift = mirrorShiftOf c.mapper.mirroring
  cartridge  : CartridgeOk c
  dot        : c.ppu.dot < c.params.dotsPerScanline
  scanline   : c.ppu.scanline < maxScanlines c.params
  genieList  : c.config.genie = c.bus.genie.map GenieEntry.text
  genieOnce  : (c.bus.genie.map GenieEntry.text).Nodup
  genieCodes : ∀ e ∈ c.bus.genie, parseGenie e.text = .ok e
  noRefusal  : c.fsDefault = false

/-- The invariant of the machine. -/
structure State.Inv (s : State) : Prop where
  chip    : s.chip.Inv
  running : s.running = s.loadedRom.isSome
  loaded  : s.loadedRom.isSome = s.chip.mapper.kind.isSome
  battery : s.batteryBacked = (match s.chip.cart.desc with | none => false | some d => d.battery)
  budget  : 0 < s.cyclesRemaining → s.chip.cpu.corrupted = true
  owed    : -(s.chip.params.maxStepCycles : Rat) < s.cyclesRemaining
  ongoing : s.ongoing.isSome = true → s.loadedRom.isSome = true ∧ s.chip.cpu.corrupted = false

end Sys2Proof.Machine

namespace Sys2Proof

/-- Dots do come: at least one in every `2 * dotsDen` cycles, at the wrap of the 64-bit cycle count too (R214; log 24). -/
def RegionParams.dotsCome (r : RegionParams) : Bool := decide (0 < r.dotsNum) && decide (r.dotsDen ≤ 2 ^ 64)

/-- A region in which no step is as long as a frame less one scanline and two dots, so that no step can bring the scanline
counter back to where it was (R204, R217). -/
def RegionParams.scanlineOk (r : RegionParams) (p : Params) : Bool :=
  decide (p.maxStepCycles * r.dotsNum + 2 * r.dotsDen ≤ p.dotsPerScanline * (r.scanlinesPerFrame - 1) * r.dotsDen)

end Sys2Proof

namespace Sys2Proof.Machine

open Sys2Proof

/-! ## Cartridges that load (R251) -/

/-- The size limits of the board of a mapper id (R401, R411, R421, R426, R431, R451). -/
def WithinLimits (id : BitVec 16) (prg chr : Nat) : Prop :=
  (id = 0 → (prg = 16384 ∨ prg = 32768) ∧ (chr = 0 ∨ chr = 8192)) ∧
  (id = 1 → prg % 16384 = 0 ∧ prg ≤ 262144 ∧ chr % 8192 = 0 ∧ chr ≤ 131072) ∧
  (id = 2 → prg % 16384 = 0 ∧ prg ≤ 256 * 16384 ∧ (chr = 0 ∨ chr = 8192)) ∧
  (id = 3 → (prg = 16384 ∨ prg = 32768) ∧ chr % 8192 = 0 ∧ chr ≤ 256 * 8192) ∧
  (id = 4 → prg % 16384 = 0 ∧ prg ≤ 524288 ∧ chr % 8192 = 0 ∧ chr ≤ 262144) ∧
  (id = 7 → prg % 32768 = 0 ∧ prg ≤ 8 * 32768 ∧ (chr = 0 ∨ chr = 8192))

/-- The checks of rule R251 that can fail on the reference boards, each with its reason, in their order. The fifth
(R374) cannot. -/
def loadChecks (d : Descriptor) : List (Prop × RomProblem) :=
  [(d.mapperId ∈ ([0, 1, 2, 3, 4, 7] : List (BitVec 16)), .unsupportedMapper),
   (d.prgRom.size ≠ 0 ∧ d.prgRom.size % 16384 = 0, .badPrgSize),
   (d.chrRom.size % 8192 = 0, .badChrSize),
   (∀ t, d.trainer = some t → t.size = 512, .badTrainer),
   (WithinLimits d.mapperId d.prgRom.size d.chrRom.size, .boardLimit)]

/-- The reason of the first check that fails, and none when all pass. -/
def FirstFailure : List (Prop × RomProblem) → Option RomProblem → Prop
  | [], r => r = none
  | (p, e) :: rest, r => (¬ p ∧ r = some e) ∨ (p ∧ FirstFailure rest r)

/-- Every check passes. -/
def Loadable (d : Descriptor) : Prop := d.wf = true ∧ FirstFailure (loadChecks d) none

/-- A pool as `InitRam` leaves it under a policy (R64); under Random every byte is the free byte of one draw (R15, log 30). -/
def FilledBy (policy : RamPolicy) (m : Memory) : Prop :=
  (policy = .allZeros → ∀ i, i < m.size → m.read i = 0x00) ∧
  (policy = .allOnes → ∀ i, i < m.size → m.read i = 0xFF) ∧
  (policy = .random → ∃ draw, ∀ i, i < m.size → m.read i = Config.randomByte draw i)

/-- The RAM pools a hard reset fills whatever the cartridge (R64, R573). -/
structure PoolsFilled (policy : RamPolicy) (c : Chip) : Prop where
  wram    : FilledBy policy c.bus.wram
  ciram   : FilledBy policy c.ppubus.ciram
  palette : FilledBy policy c.ppubus.palette
  exram   : FilledBy policy c.ppubus.exram
  chrRam  : c.ppubus.chrIsRam = true → FilledBy policy c.ppubus.chr

/-- What the units' own resets leave: the picture unit its counters and its frame, the audio unit its samples and channel enables,
and the inputs (R574, R578). -/
structure UnitsReset (c d : Chip) : Prop where
  ppu   : d.ppu = { c.ppu with priv := d.ppu.priv, nmiOut := d.ppu.nmiOut }
  apu   : d.apu = { c.apu with priv := d.apu.priv, irqOut := d.apu.irqOut }
  input : d.input = c.input

/-- A board maps both buses, and reports its mirroring, as another does. -/
structure MapsAs (m m' : Mapper) : Prop where
  cpu       : ∀ n a, m.cpuRead n a = m'.cpuRead n a
  ppu       : ∀ a, m.ppuRead a = m'.ppuRead a
  mirroring : m.mirroring = m'.mirroring

/-! ## Illegal words (R156) -/

/-- The `op` codes of rules R152 and R153. -/
def legalOps : List Byte :=
  [0x01, 0x02, 0x03, 0x04, 0x10, 0x11, 0x12, 0x13, 0x14, 0x15, 0x16, 0x17, 0x18] ++
  [0x20, 0x21, 0x22, 0x23, 0x24, 0x25, 0x26, 0x27, 0x28, 0x29, 0x2A, 0x30, 0x31] ++
  [0x40, 0x41, 0x42, 0x43, 0x44, 0x45]

/-- The `op` codes whose `sub` or `data` field the tables mark 0. -/
def subReservedOps : List Byte :=
  [0x01, 0x02, 0x03, 0x04, 0x10, 0x11, 0x13, 0x14, 0x15, 0x16, 0x17, 0x18] ++
  [0x25, 0x26, 0x28, 0x30, 0x31, 0x40, 0x42, 0x43, 0x45]

/-- The `op` codes whose `imm` field the tables mark 0. -/
def immReservedOps : List Byte :=
  [0x01, 0x02, 0x03, 0x04, 0x10, 0x11, 0x12, 0x13, 0x14, 0x15, 0x16, 0x17, 0x18] ++
  [0x20, 0x21, 0x22, 0x23, 0x24, 0x26, 0x27, 0x28, 0x2A, 0x30, 0x31]

/-- The enumerated `sub` fields: an `op` code and the number of codes its table has. -/
def enumeratedSubs : List (Byte × Nat) :=
  [(0x12, 2), (0x20, 3), (0x21, 3), (0x22, 2), (0x23, 3), (0x24, 2), (0x27, 5), (0x29, 4), (0x2A, 2)]

/-- The payload is of the type that the `op` code takes (R151, R152). -/
def payloadFits (op : Byte) : Payload → Bool
  | .none => !([0x02, 0x10, 0x13, 0x30, 0x31] : List Byte).contains op
  | .seconds _ _ => op == 0x02
  | .rom _ d => op == 0x10 && d.wf
  | .bytes b => op == 0x13 && b.wf
  | .code _ => op == 0x30 || op == 0x31

/-- A word and its payload are illegal by one of the clauses of rule R156. -/
def IllegalWord (w : Word32) (p : Payload) : Prop :=
  opField w ∉ legalOps ∨
  (opField w ∈ subReservedOps ∧ subField w ≠ 0) ∨
  (opField w ∈ immReservedOps ∧ immField w ≠ 0) ∨
  (opField w = 0x29 ∧ immField w &&& 0xFC00 ≠ 0) ∨
  (∃ e ∈ enumeratedSubs, opField w = e.1 ∧ e.2 ≤ (subField w).toNat) ∨
  payloadFits (opField w) p = false ∨
  (opField w = 0x02 ∧ ∃ num, p = .seconds num 0)

/-! ## Runs of one command -/

/-- The cycle ahead ends with a rising edge of the picture unit's NMI output (R41, R521). -/
def risingEdge (c : Chip) : Bool := (tick c).ppu.nmiOut && !c.cpu.nmiPrev

/-- Some cycle of a processor program's run ends with a rising edge. -/
def sawEdge {α : Type} : CpuProg α → Chip → Bool
  | .done _, _ => false
  | .read a k, c => risingEdge c || sawEdge (k (cpuRead a (tick c)).2) (cpuRead a (tick c)).1
  | .write a v k, c => risingEdge c || sawEdge k (cpuWrite a v (tick c))
  | .idle k, c => risingEdge c || sawEdge k (tick c)

/-- Commands run one after another; none when one of them does not answer a next state. -/
def commandsRun : List Instr → State → Option State
  | [], s => some s
  | i :: rest, s =>
    match exec i s with
    | .next t => commandsRun rest t
    | _ => none

/-- `k` steps of the control unit in a row, and the cycles of all of them added to those before (R202, R203, R216). -/
def stepsFrom : (k : Nat) → Stepped → Stepped
  | 0, g => g
  | k + 1, g => stepsFrom k { chip := (cpuStep g.chip).chip, cycles := g.cycles + (cpuStep g.chip).cycles }

/-- `k` is the first number from `least` on at which a loop's condition to end holds. -/
def FirstAt (least : Nat) (ends : Nat → Prop) (k : Nat) : Prop :=
  least ≤ k ∧ ends k ∧ ∀ j, least ≤ j → j < k → ¬ ends j

/-- Steps of the machine lead from `t`, where a command is in progress or done, to its end in `u`; until then it is in
progress and no further word is taken (log 25). -/
def EndsIn (t u : State) : Prop :=
  ∃ n, Sys2Proof.core.run n t = .next u ∧ u.ongoing = none ∧
    ∀ m, m < n → ∃ v : State, Sys2Proof.core.run m t = .next v ∧ v.ongoing.isSome = true ∧ v.result = none ∧
      v.pending = t.pending

/-- A command is in progress after every number of steps of the machine from `t`, and no further word is taken. -/
def GoesOn (t : State) : Prop :=
  ∀ n, ∃ v : State, Sys2Proof.core.run n t = .next v ∧ v.ongoing.isSome = true ∧ v.result = none ∧ v.pending = t.pending

/-- CLOCK_SECONDS called once for each pair, in order: the sum of the cycle counts and the state after, or none as soon as
one call does not return `Ok` (R205). -/
def secondsRun : List (Word32 × Word32) → State → Option (Nat × State)
  | [], s => some (0, s)
  | (num, den) :: rest, s =>
    match exec (.clockSeconds num den) s with
    | .next t =>
      match t.result with
      | some (.ok (.cycles c)) => (secondsRun rest t).map fun r => (c + r.1, r.2)
      | _ => none
    | _ => none

/-- The sum of the fractions. -/
def secondsSum : List (Word32 × Word32) → Rat
  | [] => 0
  | (num, den) :: rest => (num.toNat : Rat) / (den.toNat : Rat) + secondsSum rest

/-- A picture unit at the start of a frame: on the first dot, or the second when the frame's dropped dot was its first
(R540; log 10). -/
def AtFrameStart (p : Ppu) : Prop := p.scanline = 0 ∧ p.dot = if p.shortened then 1 else 0

/-! ## Frames -/

/-- The deck's own fields, the words still to come and the command in progress, if one is, are as before. -/
structure SameDeck (s t : State) : Prop where
  running         : t.running = s.running
  loadedRom       : t.loadedRom = s.loadedRom
  batteryBacked   : t.batteryBacked = s.batteryBacked
  cyclesRemaining : t.cyclesRemaining = s.cyclesRemaining
  refused         : t.refused = s.refused
  pending         : t.pending = s.pending
  ongoing         : t.ongoing = s.ongoing

/-- Everything the processor can store to reads as before: WRAM, PRG RAM, PRG ROM, and the way the board maps the last two
(R97, R101). -/
structure SameCpuMemory (c d : Chip) : Prop where
  wram   : ∀ i, d.bus.wram.read i = c.bus.wram.read i
  prgRam : d.cart.prgRam = c.cart.prgRam
  prgRom : d.cart.prgRom = c.cart.prgRom
  banks  : ∀ n a, d.mapper.cpuRead n a = c.mapper.cpuRead n a

/-- What an opcode that stores nothing leaves: the processor's memory, the configuration, the cheat table, the board and
its selection, the ROMs, the host's inputs and channel enables. The picture and audio units run through its cycles, so
their own state, the PPU-bus storage they write, the NMI latch and a board's scanline counter are left open (R214). -/
structure OpcodeFrame (c d : Chip) : Prop where
  memory    : SameCpuMemory c d
  params    : d.params = c.params
  config    : d.config = c.config
  genie     : d.bus.genie = c.bus.genie
  desc      : d.cart.desc = c.cart.desc
  identity  : boardIdentity d.mapper = boardIdentity c.mapper
  mirroring : d.mapper.mirroring = c.mapper.mirroring
  chrIsRam  : d.ppubus.chrIsRam = c.ppubus.chrIsRam
  chrRom    : c.ppubus.chrIsRam = false → d.ppubus.chr = c.ppubus.chr
  channels  : d.apu.channelEnabled = c.apu.channelEnabled
  joypads   : d.input.joypad0 = c.input.joypad0 ∧ d.input.joypad1 = c.input.joypad1 ∧
              d.input.joypad2 = c.input.joypad2 ∧ d.input.joypad3 = c.input.joypad3
  aim       : d.input.zapper.connected = c.input.zapper.connected ∧ d.input.zapper.x = c.input.zapper.x ∧
              d.input.zapper.y = c.input.zapper.y

/-- One cycle of the processor that reads (R215, R131). -/
def cycleRead (a : Addr) (c : Chip) : Chip × Byte := cpuRead a (tick c)

/-- One cycle of the processor that writes (R215, R131). -/
def cycleWrite (a : Addr) (v : Byte) (c : Chip) : Chip := cpuWrite a v (tick c)

/-- The WRAM cell a CPU write stores to, if it stores to one (R97). -/
def wramStored (a : Addr) : Option Nat :=
  if cpuRoute a = .wram then some (wramIndex a) else none

/-- The PRG-RAM cell a CPU write stores to, if it stores to one: the one the board names (R101, R109). -/
def prgRamStored (a : Addr) (v : Byte) (c : Chip) : Option Nat :=
  if cpuRoute a = .cartridge then
    match (c.mapper.cpuWrite a v c.cpu.cycle).2 with
    | .prgRam i => some (i % c.cart.prgRam.size)
    | .dflt => none
    | .chr _ => none
    | .ciRam _ => none
    | .exRam _ => none
    | .none => none
  else none

/-- The state after a register write by the host to the board in place: the board's registers, the mirror shift that
follows them, the CPU latch (R326, R590). -/
def boardWritten (s : State) (info : BoardInfo) (regs : BoardRegs) (v : Byte) : State :=
  { s with
    chip := { s.chip with
      mapper := .board info regs
      bus := { s.chip.bus with openBus := v }
      ppubus := { s.chip.ppubus with
        mirrorShift := mirrorShiftOf (if info.fourScreen then .fourScreen else boardMirroring info regs) } }
    result := some (.ok .unit) }

/-- The board after an access of the PPU bus at `a`: notified of the reduced address and the current cycle when that is at most
0x3EFF, and as before when the access is the palette's (R335, R338, R366). -/
def Chip.notified (a : Addr) (c : Chip) : Mapper :=
  if (reducePpu a).toNat ≤ 0x3EFF then c.mapper.notify c.params.a12FilterCycles (reducePpu a) c.cpu.cycle else c.mapper

/-- A PPU address in the nametable range, after its reduction (R103). -/
def NametableAddr (a : Addr) : Prop := 0x2000 ≤ (reducePpu a).toNat ∧ (reducePpu a).toNat ≤ 0x3EFF

/-- The table of rule R106: the physical half of logical nametable `n`. -/
def tableHalf : MirrorShift → (n : Nat) → Option Nat
  | .h, n => some (if n < 2 then 0 else 1)
  | .v, n => some (if n % 2 = 0 then 0 else 1)
  | .sa, _ => some 0
  | .sb, _ => some 1
  | .fs, _ => none

/-- An opcode's step ended well: `n` cycles in all, the fetch among them (R201, R215), the processor not corrupted, and
the deck as before. -/
structure OpcodeEnds (s t : State) (n : Nat) : Prop where
  running   : t.chip.cpu.corrupted = false
  result : t.result = some (.ok (.cycles n))
  cycle  : t.chip.cpu.cycle + 1 = s.chip.cpu.cycle + BitVec.ofNat 64 n
  deck   : SameDeck s t

/-- A chip on which an opcode can run on: the invariant holds, and the processor is not corrupted. -/
structure Ready (c : Chip) : Prop where
  inv       : c.Inv
  corrupted : c.cpu.corrupted = false

/-- A state that the gate of the stepping commands lets pass (R200). -/
structure CanStep (s : State) : Prop where
  loaded : s.loadedRom.isSome = true
  ready  : Ready s.chip

end Sys2Proof.Machine
end

