-- ==== Sys2Proof/Certificates/Slice0/Obligations.lean ====
section
/-! DEFINITION. The statements for the provers, file by file of the spec: encoding, the control unit, the buses, the
mapper, the lifecycle and settings, the clock commands, and the rules of the whole machine. -/

open Sys2Proof Sys2Proof.Machine

/-! ## Encoding (30_encoding.md) -/

/-- Every well-formed instruction is read back from its code, operands and all (R150 to R157); and whatever decodes is well
formed, and is its code's only reading. -/
def Obligations.DecodeEncodeAgree : Prop :=
  (∀ i : Instr, i.wf = true → decode (encode i) = .ok i) ∧
  (∀ (c : Code) (i : Instr), decode c = .ok i → i.wf = true ∧ encode i = c)

/-- R156: an illegal word is refused before any state changes; every other word decodes. -/
def Obligations.IllegalWordsRefused : Prop :=
  (∀ (s : State) (h : HostWord) (rest : List HostWord), s.ongoing = none → s.pending = h :: rest →
    IllegalWord h.word h.payload →
    step s = .next { s with pending := rest, refused := true, result := some (.refused .illegalCommand) }) ∧
  (∀ (w : Word32) (p : Payload), ¬ IllegalWord w p → ∃ i, decodeHost w p = .ok i)

/-- Words written out from the encodings of R152, R153, R157 and the MAPREG rows decode to what they stand for; the codes of
the mirroring modes (R164), the joypad's bits (R166) and the results (R167, R510). -/
def Obligations.TableWords : Prop :=
  decode (.host 0x01000000 .none) = .ok .clockInstr ∧
  decode (.host 0x02000000 (.seconds 1 60)) = .ok (.clockSeconds 1 60) ∧
  decode (.host 0x12010000 .none) = .ok (.reset .hard) ∧
  decode (.host 0x20010000 .none) = .ok (.setRegion .pal) ∧
  decode (.host 0x25008078 .none) = .ok (.aimZapper 0x80 0x78) ∧
  decode (.host 0x29000009 .none) = .ok (.setJoypad 0 0x009) ∧
  decode (.host 0x41AB0005 .none) = .ok (.cpuWrite 0x0005 0xAB) ∧
  decode (.host 0x43007F10 .none) = .ok (.ppuRead 0x7F10) ∧
  decode (.opc 0xF2) = .ok .jamF2 ∧
  decode (.opc 0x4C) = .ok .jmpAbs ∧
  decode (.opc 0x82) = .ok (.execute 0x82) ∧
  decode (.mapReg .uxrom 0x8000 3) = .ok (.uxromBank 0x8000 3) ∧
  decode (.mapReg .mmc1 0xBFFF 1) = .ok (.mmc1Chr0 0xBFFF 1) ∧
  decode (.mapReg .mmc3 0x9FFF 6) = .ok (.mmc3BankData 0x9FFF 6) ∧
  ([.horizontal, .vertical, .singleScreenA, .singleScreenB, .fourScreen] : List Mirroring).map Mirroring.code =
    [0, 1, 2, 3, 4] ∧
  (∀ (b : Byte) (m : Mirroring), Mirroring.ofCode b = some m ↔ m.code = b) ∧
  ([.a, .b, .select, .start, .up, .down, .left, .right, .turboA, .turboB] : List Button).map Button.bit =
    [0, 1, 2, 3, 4, 5, 6, 7, 8, 9] ∧
  (∀ e, (CmdError.romFormat e).code = 1) ∧ CmdError.cpuCorrupted.code = 2 ∧ (∀ e, (CmdError.invalidCode e).code = 3) ∧
  (∀ v, (Result.ok v).code = some 0) ∧ (∀ e, (Result.err e).code = some e.code)

/-- R157: every opcode byte is in one of two classes, by membership in the parameter `CorruptSet` (R12): a byte of the set is
handled by the corrupting step and any other by `Execute`, whatever the set, whichever row of the table the byte has. The
set decided for the table (D27) is the suggested value: the twelve bytes with low nibble 2 outside 0x82, 0xA2, 0xC2,
0xE2. -/
def Obligations.OpcodeClasses : Prop :=
  (∀ (b : Byte) (s : State), b ∈ s.chip.params.corruptSet →
    runOpcode b s.chip = corruptStep s.chip ∧ exec (decodeOpc b) s = .next (endStep s (corruptStep s.chip))) ∧
  (∀ (b : Byte) (s : State), b ∉ s.chip.params.corruptSet →
    let executed := dispatch (opcodeProg b s.chip.params.maxStepCycles) s.chip
    runOpcode b s.chip = executed ∧ exec (decodeOpc b) s = .next (endStep s executed)) ∧
  (∀ b : Byte, b ∈ Params.suggested.corruptSet ↔
    b &&& 0x0F = 0x02 ∧ b ≠ 0x82 ∧ b ≠ 0xA2 ∧ b ≠ 0xC2 ∧ b ≠ 0xE2)

/-! ## The step of the machine -/

/-- A step runs the decoded instruction on the state without its word; a CPU write that the board knows as one of its
register rows runs as that row, with the same effect; with no word the block waits; and while a command is in progress the
step goes on with its loop and takes no word (R7, R150; the waiting, the queue and a command in progress are the model's,
log 3, log 25 and log 28). -/
def Obligations.StepRunsDecoded : Prop :=
  (∀ (s : State) (o : Ongoing), s.ongoing = some o → step s = .next (runLoop o.loop o.cycles s)) ∧
  (∀ s : State, s.ongoing = none → s.pending = [] → step s = .next s) ∧
  (∀ (s : State) (h : HostWord) (rest : List HostWord) (i : Instr), s.ongoing = none →
    s.pending = h :: rest → decodeHost h.word h.payload = .ok i →
      step s = exec i { s with pending := rest } ∧
      step s = exec (resolveInstr s.chip.mapper i) { s with pending := rest })

/-- CLOCK_INSTR past its gate is one step (R201, R210): an interrupt entry, or the fetched opcode's own instruction on
the chip its fetch leaves. It always completes, with the step's cycle count, or with the error of R201 when the step
corrupted the processor. -/
def Obligations.ClockInstrRunsOneStep : Prop :=
  (∀ s : State, s.loadedRom.isSome = true → s.chip.cpu.corrupted = false →
    (∀ k, pendingInterrupt s.chip = some k →
      exec .clockInstr s = .next (endStep s (interruptEntry k s.chip.begin))) ∧
    (pendingInterrupt s.chip = none →
      exec .clockInstr s =
        exec (decodeOpc (fetchOpcode s.chip.begin).2) { s with chip := (fetchOpcode s.chip.begin).1 })) ∧
  (∀ s : State, CanStep s → ∃ t n, exec .clockInstr s = .next t ∧ 1 ≤ n ∧
    t.chip.cpu.cycle = s.chip.cpu.cycle + BitVec.ofNat 64 n ∧ SameDeck s t ∧
    t.result = some (if t.chip.cpu.corrupted then .err .cpuCorrupted else .ok (.cycles n)))

/-- R200: with no cartridge every stepping command is refused, and with one and a corrupted processor it fails with
`CpuCorrupted`; nothing is stepped. The cartridge is checked first. -/
def Obligations.SteppingGate : Prop :=
  ∀ (s : State) (i : Instr),
    (i = .clockInstr ∨ (∃ num den, den ≠ 0 ∧ i = .clockSeconds num den) ∨ i = .clockFrame ∨ i = .clockScanline) →
    (s.loadedRom = none → exec i s = .next { s with refused := true, result := some (.refused .noCartridge) }) ∧
    (s.loadedRom ≠ none → s.chip.cpu.corrupted = true →
      exec i s = .next { s with result := some (.err .cpuCorrupted) })

/-! ## The control unit (40_deck_clocking.md section 2) -/

/-- R216: a step takes at least one cycle, seven for an interrupt entry, `JamStepCycles` for a corrupting step, at least
two for an executed instruction, and `cpu.cycle` moves by the count. With R217's bound. -/
def Obligations.StepCycles : Prop :=
  ∀ c : Chip, c.params.ok = true →
    (cpuStep c).chip.cpu.cycle = c.cpu.cycle + BitVec.ofNat 64 (cpuStep c).cycles ∧
    1 ≤ (cpuStep c).cycles ∧ (cpuStep c).cycles ≤ c.params.maxStepCycles ∧
    ((pendingInterrupt c).isSome = true → (cpuStep c).cycles = 7) ∧
    (pendingInterrupt c = none → (fetchOpcode c).2 ∈ c.params.corruptSet →
      (cpuStep c).cycles = c.params.jamStepCycles) ∧
    (pendingInterrupt c = none → (fetchOpcode c).2 ∉ c.params.corruptSet → 2 ≤ (cpuStep c).cycles)

/-- R524: at the start of a step NMI comes before IRQ, IRQ is masked by I, an interrupt comes before the opcode at `pc`,
corrupting or not, and a step takes at most one. The entry of an NMI consumes no IRQ: the level sources are as before at its
first cycle, and a board's stays up through all seven (what the audio unit does with its own is the parameter's). -/
def Obligations.InterruptPriority : Prop :=
  ∀ c : Chip,
    (c.cpu.nmiLatch = true → cpuStep c = interruptEntry .nmi c) ∧
    (c.cpu.nmiLatch = false → (c.mapper.irqOut || c.apu.irqOut) = true → c.cpu.regs.p.i = false →
      cpuStep c = interruptEntry .irq c) ∧
    (c.cpu.nmiLatch = false → ((c.mapper.irqOut || c.apu.irqOut) = false ∨ c.cpu.regs.p.i = true) →
      cpuStep c = runOpcode (fetchOpcode c).2 (fetchOpcode c).1) ∧
    (clearLatch .nmi c).mapper.irqOut = c.mapper.irqOut ∧ (clearLatch .nmi c).apu.irqOut = c.apu.irqOut ∧
    (c.mapper.irqOut = true → (interruptEntry .nmi c).chip.mapper.irqOut = true)

/-- One cycle (R214): the cycle counter, then `floor((k + 1) D) - floor(k D)` dots, `D` being the exact rational
`DotsPerCpuCycle` and `k` the count before the cycle; then the light gun's trigger, which ends where a dot changed the frame
counter; then the audio unit; then the board's hook with the new count; then NMI edge detection (R521). Three dots on NTSC and
Dendy and 3, 3, 3, 3, 4 on PAL under the suggested numbers. The audio unit's registers and its IRQ run whatever channels are
enabled: a channel that is not enabled is left out of what a cycle mixes (R66), and that is all the enables change (R298).
The model's own: counting on at the wrap of the count (log 24), the audio unit as a core and a mix (log 9), and no samples
from idle units (log 11). -/
def Obligations.TickParts : Prop :=
  (∀ c : Chip,
    let d := c.params.region c.config.region
    let k := c.cpu.cycle.toNat
    let started := { c with cpu := { c.cpu with cycle := c.cpu.cycle + 1 } }
    ∃ n : Nat, (n : Int) = (((k + 1 : Nat) : Rat) * (mkRat d.dotsNum d.dotsDen)).floor -
        ((k : Rat) * (mkRat d.dotsNum d.dotsDen)).floor ∧
      let dots := ppuDots n started
      let audio := apuTick dots
      tick c = { dots with
        input := { c.input with zapper := { c.input.zapper with
          trigger := c.input.zapper.trigger && decide (dots.ppu.frameNumber = c.ppu.frameNumber) } }
        apu := audio.apu
        draws := audio.draws
        mapper := dots.mapper.clock (c.cpu.cycle + 1)
        cpu := { c.cpu with
          cycle := c.cpu.cycle + 1
          nmiLatch := c.cpu.nmiLatch || (dots.ppu.nmiOut && !c.cpu.nmiPrev)
          nmiPrev := dots.ppu.nmiOut } }) ∧
  (∀ k : Nat, dotsInCycle Params.suggested.ntsc k = 3 ∧ dotsInCycle Params.suggested.dendy k = 3 ∧
    dotsInCycle Params.suggested.pal k = if k % 5 = 4 then 4 else 3) ∧
  (∀ c : Chip, ∃ (o : ChannelOutputs) (sampler : Nat), ∀ e : Channels,
    let outputs : List (Bool × Channel × Nat) :=
      [(e.pulse1, .pulse1, o.pulse1), (e.pulse2, .pulse2, o.pulse2), (e.triangle, .triangle, o.triangle),
       (e.noise, .noise, o.noise), (e.dmc, .dmc, o.dmc)]
    let mixed := outputs.filterMap fun x => if x.1 then some x.2 else none
    tick { c with apu := { c.apu with channelEnabled := e } } =
      { tick c with apu := { (tick c).apu with
        channelEnabled := e
        samples := c.apu.samples ++
          if c.params.idleUnits then [] else Config.apuMix c.config.region sampler mixed } })

/-- Interrupt entry (60_exceptions.md section 2): seven cycles; `pc` and `p` with B = 0 on the stack, `s` down by three, I set,
`pc` from the vector, whose high byte stays in the latch; nothing else of the processor or its memory changes. An NMI entry
clears `nmi_latch` first and an IRQ entry keeps it: after the entry it is what that left, or an edge of one of the seven
cycles. -/
def Obligations.InterruptEntry : Prop :=
  (∀ (c : Chip) (k : Interrupt),
    let kept := decide (k = .irq) && c.cpu.nmiLatch
    (interruptEntry k c).chip.cpu.nmiLatch =
      (kept || sawEdge (interruptProg k c.cpu.regs) { c with cpu := { c.cpu with nmiLatch := kept } })) ∧
  ∀ (s : State) (k : Interrupt), s.Inv → CanStep s → pendingInterrupt s.chip = some k →
    ∃ t, exec .clockInstr s = .next t ∧ t.result = some (.ok (.cycles 7)) ∧ SameDeck s t ∧
      t.chip.cpu.cycle = s.chip.cpu.cycle + 7 ∧ t.chip.cpu.corrupted = false ∧
      t.chip.cpu.regs =
        { s.chip.cpu.regs with
          s := s.chip.cpu.regs.s - 3
          p := { s.chip.cpu.regs.p with i := true }
          pc := word16 (cpuPeek k.vector s.chip) (cpuPeek (k.vector + 1) s.chip) } ∧
      (sawEdge (interruptProg k s.chip.cpu.regs) { s.chip with cpu := { s.chip.cpu with nmiLatch := false } } = false →
        t.chip.cpu.nmiLatch = false) ∧
      t.chip.bus.openBus = cpuPeek (k.vector + 1) s.chip ∧
      (∀ i, t.chip.bus.wram.read i =
        if i = 0x100 + s.chip.cpu.regs.s.toNat then hiByte s.chip.cpu.regs.pc
        else if i = 0x100 + (s.chip.cpu.regs.s - 1).toNat then loByte s.chip.cpu.regs.pc
        else if i = 0x100 + (s.chip.cpu.regs.s - 2).toNat then pushedStatus s.chip.cpu.regs.p false
        else s.chip.bus.wram.read i) ∧
      t.chip.cart.prgRam = s.chip.cart.prgRam ∧ t.chip.cart.prgRom = s.chip.cart.prgRom ∧
      (∀ n a, t.chip.mapper.cpuRead n a = s.chip.mapper.cpuRead n a)

/-- BRK after its fetch (60_exceptions.md section 2): seven cycles, the address of the BRK plus two on the stack, B = 1, the IRQ vector
whatever I is. Which byte the padding read takes is the model's (log 15). -/
def Obligations.BreakEntry : Prop :=
  ∀ s : State, Ready s.chip → (0x00 : Byte) ∉ s.chip.params.corruptSet → s.chip.mapper.kind.isSome = true →
    ∃ t, exec (.execute 0x00) s = .next t ∧ OpcodeEnds s t 7 ∧
      t.chip.cpu.regs =
        { s.chip.cpu.regs with
          s := s.chip.cpu.regs.s - 3
          p := { s.chip.cpu.regs.p with i := true }
          pc := word16 (cpuPeek 0xFFFE s.chip) (cpuPeek 0xFFFF s.chip) } ∧
      (∀ i, t.chip.bus.wram.read i =
        if i = 0x100 + s.chip.cpu.regs.s.toNat then hiByte (s.chip.cpu.regs.pc + 1)
        else if i = 0x100 + (s.chip.cpu.regs.s - 1).toNat then loByte (s.chip.cpu.regs.pc + 1)
        else if i = 0x100 + (s.chip.cpu.regs.s - 2).toNat then pushedStatus s.chip.cpu.regs.p true
        else s.chip.bus.wram.read i) ∧
      t.chip.cart.prgRam = s.chip.cart.prgRam ∧ t.chip.cart.prgRom = s.chip.cart.prgRom

/-- RTI after its fetch (60_exceptions.md section 2): six cycles; P (its bits 5 and 4 ignored), PCL and PCH are pulled. The accesses of
its second and third cycle are free (log 16), and nothing here rests on them. -/
def Obligations.ReturnFromInterrupt : Prop :=
  ∀ s : State, Ready s.chip → (0x40 : Byte) ∉ s.chip.params.corruptSet →
    ∃ t, exec (.execute 0x40) s = .next t ∧ OpcodeEnds s t 6 ∧ OpcodeFrame s.chip t.chip ∧
      t.chip.cpu.regs =
        { s.chip.cpu.regs with
          s := s.chip.cpu.regs.s + 3
          p := pulledStatus (s.chip.bus.wram.read (0x100 + (s.chip.cpu.regs.s + 1).toNat))
          pc := word16 (s.chip.bus.wram.read (0x100 + (s.chip.cpu.regs.s + 2).toNat))
            (s.chip.bus.wram.read (0x100 + (s.chip.cpu.regs.s + 3).toNat)) }

/-- An interrupt and an RTI fetched right at its handler leave every processor register as it was. -/
def Obligations.InterruptThenReturn : Prop :=
  ∀ (s : State) (k : Interrupt), s.Inv → CanStep s → pendingInterrupt s.chip = some k →
    (0x40 : Byte) ∉ s.chip.params.corruptSet →
    ∃ t u, exec .clockInstr s = .next t ∧
      exec (.execute 0x40) { t with chip := (fetchOpcode t.chip).1 } = .next u ∧
      u.chip.cpu.regs = s.chip.cpu.regs ∧ SameDeck s u

/-- R213: an opcode in `CorruptSet`, whichever row of the table its byte has, sets `corrupted`, lets the rest of
`JamStepCycles` pass, changes no register, and its command fails with `CpuCorrupted`. The twelve JAM rows are the bytes of
the decided set. -/
def Obligations.CorruptingOpcodes : Prop :=
  ∀ (s : State), s.chip.Inv →
    let corrupts := fun (i : Instr) => ∃ t, exec i s = .next t ∧
      t.chip = ticks (s.chip.params.jamStepCycles - 1) { s.chip with cpu := { s.chip.cpu with corrupted := true } } ∧
      t.chip.cpu.corrupted = true ∧ t.chip.cpu.regs = s.chip.cpu.regs ∧
      t.chip.cpu.cycle + 1 = s.chip.cpu.cycle + BitVec.ofNat 64 s.chip.params.jamStepCycles ∧
      t.result = some (.err .cpuCorrupted) ∧ SameDeck s t ∧ OpcodeFrame s.chip t.chip
    (∀ r ∈ ([(0x02, .jam02), (0x12, .jam12), (0x22, .jam22), (0x32, .jam32), (0x42, .jam42), (0x52, .jam52),
        (0x62, .jam62), (0x72, .jam72), (0x92, .jam92), (0xB2, .jamB2), (0xD2, .jamD2), (0xF2, .jamF2)] :
          List (Byte × Instr)),
      r.1 ∈ s.chip.params.corruptSet → decodeOpc r.1 = r.2 ∧ corrupts r.2) ∧
    (∀ b, b ∈ s.chip.params.corruptSet → corrupts (decodeOpc b))

/-! ## The reference opcodes (40_deck_clocking.md section 3), each after its fetch and outside `CorruptSet`, whose bytes
`CorruptingOpcodes` covers -/

/-- R231: NOP reads at `pc`, drops the byte, and changes nothing but what that read changes; two cycles. -/
def Obligations.NopResult : Prop :=
  decode (.opc 0xEA) = .ok .nop ∧
  ∀ s : State, Ready s.chip → (0xEA : Byte) ∉ s.chip.params.corruptSet →
    ∃ t, exec .nop s = .next t ∧ OpcodeEnds s t 2 ∧ OpcodeFrame s.chip t.chip ∧
      t.chip = (cycleRead s.chip.cpu.regs.pc s.chip).1 ∧ t.chip.cpu.regs = s.chip.cpu.regs ∧
      t.chip.bus.openBus = (cycleRead s.chip.cpu.regs.pc s.chip).2

/-- R232: JMP reads its target, low byte first, and jumps; three cycles, no flag. -/
def Obligations.JmpResult : Prop :=
  decode (.opc 0x4C) = .ok .jmpAbs ∧
  ∀ s : State, Ready s.chip → (0x4C : Byte) ∉ s.chip.params.corruptSet →
    let lo := cycleRead s.chip.cpu.regs.pc s.chip
    let hi := cycleRead (s.chip.cpu.regs.pc + 1) lo.1
    ∃ t, exec .jmpAbs s = .next t ∧ OpcodeEnds s t 3 ∧ OpcodeFrame s.chip t.chip ∧
      t.chip = hi.1.setRegs { s.chip.cpu.regs with pc := word16 lo.2 hi.2 }

/-- R233: LDA loads the byte at `pc`, and N and Z from it; two cycles. -/
def Obligations.LdaResult : Prop :=
  decode (.opc 0xA9) = .ok .ldaImm ∧
  ∀ s : State, Ready s.chip → (0xA9 : Byte) ∉ s.chip.params.corruptSet →
    let v := cycleRead s.chip.cpu.regs.pc s.chip
    ∃ t, exec .ldaImm s = .next t ∧ OpcodeEnds s t 2 ∧ OpcodeFrame s.chip t.chip ∧
      t.chip = v.1.setRegs
        { s.chip.cpu.regs with
          pc := s.chip.cpu.regs.pc + 1
          a := v.2
          p := { s.chip.cpu.regs.p with n := v.2.getLsbD 7, z := decide (v.2 = 0) } }

/-- R235: INX adds one modulo 256 and sets N and Z from the sum; two cycles. -/
def Obligations.InxResult : Prop :=
  decode (.opc 0xE8) = .ok .inx ∧
  ∀ s : State, Ready s.chip → (0xE8 : Byte) ∉ s.chip.params.corruptSet →
    ∃ t, exec .inx s = .next t ∧ OpcodeEnds s t 2 ∧ OpcodeFrame s.chip t.chip ∧
      t.chip = (cycleRead s.chip.cpu.regs.pc s.chip).1.setRegs
        { s.chip.cpu.regs with
          x := BitVec.ofNat 8 ((s.chip.cpu.regs.x.toNat + 1) % 256)
          p := { s.chip.cpu.regs.p with
            n := decide (127 ≤ s.chip.cpu.regs.x.toNat ∧ s.chip.cpu.regs.x.toNat < 255)
            z := decide (s.chip.cpu.regs.x.toNat = 255) } }

/-- R236: BNE, not taken in two cycles, taken within the page in three, across a page in four with its second dummy
read on the old page; no flag. -/
def Obligations.BneResult : Prop :=
  decode (.opc 0xD0) = .ok .bneRel ∧
  ∀ s : State, Ready s.chip → (0xD0 : Byte) ∉ s.chip.params.corruptSet →
    let off := cycleRead s.chip.cpu.regs.pc s.chip
    let next := s.chip.cpu.regs.pc + 1
    let target := BitVec.ofInt 16 (next.toNat + off.2.toInt)
    let dummy := cycleRead next off.1
    let page := cycleRead (hiByte next ++ loByte target) dummy.1
    ∃ t, exec .bneRel s = .next t ∧ OpcodeFrame s.chip t.chip ∧
      (s.chip.cpu.regs.p.z = true →
        OpcodeEnds s t 2 ∧ t.chip = off.1.setRegs { s.chip.cpu.regs with pc := next }) ∧
      (s.chip.cpu.regs.p.z = false → hiByte target = hiByte next →
        OpcodeEnds s t 3 ∧ t.chip = dummy.1.setRegs { s.chip.cpu.regs with pc := target }) ∧
      (s.chip.cpu.regs.p.z = false → hiByte target ≠ hiByte next →
        OpcodeEnds s t 4 ∧ t.chip = page.1.setRegs { s.chip.cpu.regs with pc := target })

/-- STA (40_deck_clocking.md section 3) to any address but the sprite-DMA register: four cycles, the write of `a` to the target its
operand bytes give, no flag. Of the processor's memory only the cell the write stores to changes. To the sprite-DMA register (R99) the stall's
cycles are this instruction's; how many they are, and what they access, is free (log 17), so that part leaves the memory
open. -/
def Obligations.StaResult : Prop :=
  (∀ s : State, Ready s.chip → (0x8D : Byte) ∉ s.chip.params.corruptSet →
      let lo := cycleRead s.chip.cpu.regs.pc s.chip
      let hi := cycleRead (s.chip.cpu.regs.pc + 1) lo.1
      let target := word16 lo.2 hi.2
      let v := s.chip.cpu.regs.a
      target ≠ 0x4014 →
      ∃ t, exec .staAbs s = .next t ∧ OpcodeEnds s t 4 ∧
        t.chip = (cycleWrite target v hi.1).setRegs { s.chip.cpu.regs with pc := s.chip.cpu.regs.pc + 2 } ∧
        t.chip.bus.openBus = v ∧
        (∀ i, t.chip.bus.wram.read i = if wramStored target = some i then v else s.chip.bus.wram.read i) ∧
        (∀ i, i < s.chip.cart.prgRam.size → t.chip.cart.prgRam.read i =
          if prgRamStored target v s.chip = some i then v else s.chip.cart.prgRam.read i) ∧
        t.chip.cart.prgRom = s.chip.cart.prgRom ∧ t.chip.bus.genie = s.chip.bus.genie ∧
        t.chip.config = s.chip.config ∧ boardIdentity t.chip.mapper = boardIdentity s.chip.mapper ∧
        (target.toNat < 0x8000 → ∀ n a, t.chip.mapper.cpuRead n a = s.chip.mapper.cpuRead n a)) ∧
  (∀ s : State, Ready s.chip → (0x8D : Byte) ∉ s.chip.params.corruptSet →
      let lo := cycleRead s.chip.cpu.regs.pc s.chip
      let hi := cycleRead (s.chip.cpu.regs.pc + 1) lo.1
      word16 lo.2 hi.2 = 0x4014 →
      ∃ t n, exec .staAbs s = .next t ∧ 4 ≤ n ∧ n ≤ s.chip.params.maxStepCycles ∧ OpcodeEnds s t n ∧
        t.chip.cpu.regs = { s.chip.cpu.regs with pc := s.chip.cpu.regs.pc + 2 } ∧
        t.chip.cart.prgRom = s.chip.cart.prgRom ∧ t.chip.bus.genie = s.chip.bus.genie ∧ t.chip.config = s.chip.config)

/-- An opcode of the execute class (R219), with a row of its own or not: it completes in at least two cycles, within the bound,
and cannot corrupt the processor. What an opcode that no rule fixes does to registers and memory is the parameter's
(log 14), a JAM row's too when its byte is outside `CorruptSet`. -/
def Obligations.ExecuteCompletes : Prop :=
  ∀ (s : State) (b : Byte), Ready s.chip → b ∉ s.chip.params.corruptSet →
    let completes := fun (i : Instr) => ∃ t n, exec i s = .next t ∧ 2 ≤ n ∧ n ≤ s.chip.params.maxStepCycles ∧
      OpcodeEnds s t n ∧ t.chip.cart.prgRom = s.chip.cart.prgRom ∧ t.chip.bus.genie = s.chip.bus.genie ∧
      t.chip.config = s.chip.config ∧ boardIdentity t.chip.mapper = boardIdentity s.chip.mapper
    completes (decodeOpc b) ∧ completes (.execute b)

/-! ## The buses (20_memory.md, 43_bus.md) -/

/-- R320, R326 and R330: the ranges of the CPU address map that a read, a write and a peek decode to. A read and a peek go
through the Genie filter after the decode, a read updates the latch and a peek does not. A write to the cartridge range
goes to the board with the current cycle, its answer to the storage, and the mirror shift follows; the latch takes the
value whatever the route, and no filter applies. The two peripherals are the parameters' (log 9). -/
def Obligations.CpuBusRoutes : Prop :=
  ∀ (a : Addr) (c : Chip),
    (∀ d v, (d, v) =
        (if a.toNat ≤ 0x1FFF then (c, c.bus.wram.read (a.toNat % 0x800))
         else if a.toNat ≤ 0x3FFF then ppuRegRead (BitVec.ofNat 3 a.toNat) c
         else if a.toNat ≤ 0x4017 then apuIoRead a c
         else if a.toNat ≤ 0x401F then (c, c.bus.openBus)
         else (c, resolvePool c c.bus.openBus (c.mapper.cpuRead c.cart.prgRom.size a))) →
      cpuRead a c =
        ({ d with bus := { d.bus with openBus := genieFilter d.bus.genie a v } }, genieFilter d.bus.genie a v)) ∧
    (∀ d v, d =
        (if a.toNat ≤ 0x1FFF then { c with bus := { c.bus with wram := c.bus.wram.write (a.toNat % 0x800) v } }
         else if a.toNat ≤ 0x3FFF then ppuRegWrite (BitVec.ofNat 3 a.toNat) v c
         else if a.toNat ≤ 0x4017 then apuIoWrite a v c
         else if a.toNat ≤ 0x401F then c
         else (storePool { c with mapper := (c.mapper.cpuWrite a v c.cpu.cycle).1 } v
           (c.mapper.cpuWrite a v c.cpu.cycle).2).refreshMirror) →
      cpuWrite a v c = { d with bus := { d.bus with openBus := v } }) ∧
    cpuPeek a c = genieFilter c.bus.genie a
      (if a.toNat ≤ 0x1FFF then c.bus.wram.read (a.toNat % 0x800)
       else if a.toNat ≤ 0x3FFF then
         (Config.ppuRegPeek c.config.region c.ppu (BitVec.ofNat 3 a.toNat)).getD c.bus.openBus
       else if a.toNat ≤ 0x4017 then (Config.apuIoPeek c.ioView a).getD c.bus.openBus
       else if a.toNat ≤ 0x401F then c.bus.openBus
       else resolvePool c c.bus.openBus (c.mapper.cpuRead c.cart.prgRom.size a))

/-- The six BUS words complete on every legal state with the result of their transaction (R321, R327, R331, R336, R339,
R342). None moves the processor; the reads and the picture-unit words leave its memory, and the peeks leave everything. -/
def Obligations.BusWordsComplete : Prop :=
  ∀ (s : State) (a : Addr) (v : Byte), s.Inv →
    exec (.cpuRead a) s =
      .next { s with chip := (cpuRead a s.chip).1, result := some (.ok (.byte (cpuRead a s.chip).2)) } ∧
    exec (.cpuWrite a v) s = .next { s with chip := cpuWrite a v s.chip, result := some (.ok .unit) } ∧
    exec (.cpuPeek a) s = .next { s with result := some (.ok (.byte (cpuPeek a s.chip))) } ∧
    exec (.ppuRead a) s =
      .next { s with chip := (ppuRead a s.chip).1, result := some (.ok (.byte (ppuRead a s.chip).2)) } ∧
    exec (.ppuWrite a v) s = .next { s with chip := ppuWrite a v s.chip, result := some (.ok .unit) } ∧
    (∃ b, ppuPeek a s.chip = some b ∧ exec (.ppuPeek a) s = .next { s with result := some (.ok (.byte b)) }) ∧
    (∀ d ∈ [(cpuRead a s.chip).1, (ppuRead a s.chip).1, ppuWrite a v s.chip],
      OpcodeFrame s.chip d ∧ d.cpu = s.chip.cpu) ∧
    (cpuWrite a v s.chip).cpu = s.chip.cpu ∧ (cpuWrite a v s.chip).cart.prgRom = s.chip.cart.prgRom ∧
    (cpuWrite a v s.chip).bus.genie = s.chip.bus.genie ∧ (cpuWrite a v s.chip).config = s.chip.config ∧
    (∀ i, (cpuWrite a v s.chip).bus.wram.read i = if wramStored a = some i then v else s.chip.bus.wram.read i) ∧
    (∀ i, i < s.chip.cart.prgRam.size → (cpuWrite a v s.chip).cart.prgRam.read i =
      if prgRamStored a v s.chip = some i then v else s.chip.cart.prgRam.read i)

/-- R97: WRAM repeats through 0x0000..0x1FFF. What is written at one address is read at each of its mirrors, every other
cell reads as before, and the write changes nothing but its cell and the latch. -/
def Obligations.WramMirrors : Prop :=
  ∀ (s : State) (a b : Addr) (v : Byte), s.Inv → a.toNat ≤ 0x1FFF → b.toNat ≤ 0x1FFF →
    ∃ t u, exec (.cpuWrite a v) s = .next t ∧ exec (.cpuRead b) t = .next u ∧
      t = { s with
        chip := { s.chip with bus := { s.chip.bus with wram := t.chip.bus.wram, openBus := v } }
        result := some (.ok .unit) } ∧
      (∀ i, t.chip.bus.wram.read i = if i = a.toNat % 0x800 then v else s.chip.bus.wram.read i) ∧
      u.result = some (.ok (.byte
        (if b.toNat % 0x800 = a.toNat % 0x800 then v else s.chip.bus.wram.read (b.toNat % 0x800))))

/-- R115: every read leaves the value it returned in the latch of its bus, and every write the value written. -/
def Obligations.LatchUpdate : Prop :=
  ∀ (a : Addr) (v : Byte) (c : Chip),
    (cpuRead a c).1.bus.openBus = (cpuRead a c).2 ∧ (cpuWrite a v c).bus.openBus = v ∧
    (ppuRead a c).1.ppubus.openBus = (ppuRead a c).2 ∧ (ppuWrite a v c).ppubus.openBus = v

/-- R118 and R116: a read outside the peripherals changes nothing but the latch, gives what a peek gives, also after a cycle,
and gives it again. R335, R338 and R366: a read of the other bus changes its latch and, by the notification alone, the board,
whose banks stay; a write does to the board what its notification does. -/
def Obligations.ReadsOfStorage : Prop :=
  (∀ (a : Addr) (c : Chip), (a.toNat < 0x2000 ∨ 0x4018 ≤ a.toNat) →
    cpuRead a c = ({ c with bus := { c.bus with openBus := cpuPeek a c } }, cpuPeek a c) ∧
    (cpuRead a (cpuRead a c).1).2 = (cpuRead a c).2 ∧
    (cycleRead a c).2 = cpuPeek a c) ∧
  (∀ (a : Addr) (c : Chip) (v : Byte), ppuPeek a c = some v →
    ppuRead a c = ({ c with mapper := c.notified a, ppubus := { c.ppubus with openBus := v } }, v) ∧
    (ppuRead a (ppuRead a c).1).2 = v) ∧
  (∀ (a : Addr) (v : Byte) (c : Chip),
    (ppuWrite a v c).mapper = c.notified a ∧
    (∀ n b, (c.notified a).cpuRead n b = c.mapper.cpuRead n b) ∧ (∀ b, (c.notified a).ppuRead b = c.mapper.ppuRead b))

/-- R105 and R106: where a nametable address lies in CIRAM, by the mirroring table; always in range. -/
def Obligations.CiramIndexTable : Prop :=
  ∀ (m : MirrorShift) (a : Addr), 0x2000 ≤ a.toNat → a.toNat ≤ 0x3EFF →
    ciramIndex m a = (tableHalf m (a.toNat / 0x400 % 4)).map (fun half => half * 0x400 + a.toNat % 0x400) ∧
    (m = .fs ↔ ciramIndex m a = none) ∧ ∀ i, ciramIndex m a = some i → i < 0x800

/-- R103 and R106 on a board that does not resolve Four-Screen itself: a nametable byte written at one address is read at
every address on the same half and offset, and nowhere else. With no cartridge a write stores nothing (R375). -/
def Obligations.NametableReadBack : Prop :=
  ∀ (s : State) (a b : Addr) (v : Byte), s.Inv → s.chip.mapper.fourScreen = false → NametableAddr a → NametableAddr b →
    ∃ t u i j, exec (.ppuWrite a v) s = .next t ∧ exec (.ppuRead b) t = .next u ∧ SameDeck s t ∧ SameDeck t u ∧
      tableHalf s.chip.ppubus.mirrorShift (a.toNat / 0x400 % 4) = some i ∧
      tableHalf s.chip.ppubus.mirrorShift (b.toNat / 0x400 % 4) = some j ∧
      u.result = some (.ok (.byte
        (if s.chip.mapper.kind.isSome = true ∧ i = j ∧ a.toNat % 0x400 = b.toNat % 0x400 then v
         else s.chip.ppubus.ciram.read (j * 0x400 + b.toNat % 0x400)))) ∧
      (∀ k, t.chip.ppubus.ciram.read k =
        if s.chip.mapper.kind.isSome = true ∧ k = i * 0x400 + a.toNat % 0x400 then v
        else s.chip.ppubus.ciram.read k) ∧
      t.chip.ppubus.exram = s.chip.ppubus.exram ∧ t.chip.ppubus.chr = s.chip.ppubus.chr ∧
      t.chip.ppubus.palette = s.chip.ppubus.palette ∧ OpcodeFrame s.chip t.chip ∧ t.chip.cpu = s.chip.cpu

/-- R374: on a Four-Screen board the four nametables are four distinct 1 KiB cells, the first two in CIRAM and the others
in EXRAM; a byte written is read back at its own table and offset only. -/
def Obligations.FourScreenTables : Prop :=
  ∀ (s : State) (a b : Addr) (v : Byte), s.Inv → s.chip.mapper.fourScreen = true → NametableAddr a → NametableAddr b →
    ∃ t u, exec (.ppuWrite a v) s = .next t ∧ exec (.ppuRead b) t = .next u ∧ SameDeck s t ∧ SameDeck t u ∧
      u.result = some (.ok (.byte
        (if a.toNat % 0x1000 = b.toNat % 0x1000 then v
         else if b.toNat / 0x400 % 4 < 2 then s.chip.ppubus.ciram.read (b.toNat % 0x800)
         else s.chip.ppubus.exram.read (b.toNat % 0x800)))) ∧
      (∀ k, t.chip.ppubus.ciram.read k =
        if a.toNat / 0x400 % 4 < 2 ∧ k = a.toNat % 0x800 then v else s.chip.ppubus.ciram.read k) ∧
      (∀ k, t.chip.ppubus.exram.read k =
        if 2 ≤ a.toNat / 0x400 % 4 ∧ k = a.toNat % 0x800 then v else s.chip.ppubus.exram.read k) ∧
      t.chip.ppubus.chr = s.chip.ppubus.chr ∧ t.chip.ppubus.palette = s.chip.ppubus.palette ∧
      t.chip.ppubus.mirrorShift = .fs ∧ OpcodeFrame s.chip t.chip ∧ t.chip.cpu = s.chip.cpu

/-- R113: four palette offsets name the cell 0x10 below them, on writes and reads alike, and no other two offsets name one
cell. -/
def Obligations.PaletteAliases : Prop :=
  (∀ a : Addr, 0x3F00 ≤ a.toNat → a.toNat ≤ 0x3FFF → a.toNat % 32 ∈ [0x10, 0x14, 0x18, 0x1C] →
    paletteIndex a = paletteIndex (a - 0x10)) ∧
  (∀ i j : Nat, i < 32 → j < 32 → paletteIndex (BitVec.ofNat 16 (0x3F00 + i)) = paletteIndex (BitVec.ofNat 16 (0x3F00 + j)) →
    i = j ∨ (i ∈ [0x10, 0x14, 0x18, 0x1C] ∧ j + 0x10 = i) ∨ (j ∈ [0x10, 0x14, 0x18, 0x1C] ∧ i + 0x10 = j)) ∧
  (∀ (s : State) (a b : Addr) (v : Byte), s.Inv →
    0x3F00 ≤ a.toNat % 0x4000 → 0x3F00 ≤ b.toNat % 0x4000 →
    ∃ t u, exec (.ppuWrite a v) s = .next t ∧ exec (.ppuRead b) t = .next u ∧
      t = { s with
        chip := { s.chip with ppubus := { s.chip.ppubus with palette := t.chip.ppubus.palette, openBus := v } }
        result := some (.ok .unit) } ∧
      u.result = some (.ok (.byte
        (if paletteIndex b = paletteIndex a then v else s.chip.ppubus.palette.read (paletteIndex b)))))

/-- R109 and R364: a pattern-memory write stores into CHR RAM at the cell the board names, and into CHR ROM never; a read
gives the byte of that cell. Without a cartridge nothing is stored and a read gives the latch (R375). -/
def Obligations.PatternMemory : Prop :=
  (∀ (s : State) (a b : Addr) (v : Byte) (info : BoardInfo) (regs : BoardRegs), s.Inv →
    s.chip.mapper = .board info regs → a.toNat % 0x4000 < 0x2000 → b.toNat % 0x4000 < 0x2000 →
    ∃ t u, exec (.ppuWrite a v) s = .next t ∧ exec (.ppuPeek b) t = .next u ∧ SameDeck s t ∧ SameDeck t u ∧
      s.chip.ppubus.chr.size ≠ 0 ∧
      u.result = some (.ok (.byte (t.chip.ppubus.chr.read (boardChrIndex (b &&& 0x3FFF) regs % s.chip.ppubus.chr.size)))) ∧
      (∀ k, t.chip.ppubus.chr.read k =
        if s.chip.ppubus.chrIsRam = true ∧ k = boardChrIndex (a &&& 0x3FFF) regs % s.chip.ppubus.chr.size then v
        else s.chip.ppubus.chr.read k) ∧
      t.chip.ppubus.ciram = s.chip.ppubus.ciram ∧ t.chip.ppubus.exram = s.chip.ppubus.exram ∧
      t.chip.ppubus.palette = s.chip.ppubus.palette ∧ OpcodeFrame s.chip t.chip ∧ t.chip.cpu = s.chip.cpu) ∧
  (∀ (s : State) (a b : Addr) (v : Byte), s.Inv → s.chip.mapper = .empty → a.toNat % 0x4000 < 0x2000 →
    b.toNat % 0x4000 < 0x2000 →
    exec (.ppuWrite a v) s = .next { s with
      chip := { s.chip with ppubus := { s.chip.ppubus with openBus := v } }
      result := some (.ok .unit) } ∧
    exec (.ppuRead b) s = .next { s with result := some (.ok (.byte s.chip.ppubus.openBus)) } ∧
    exec (.ppuPeek b) s = .next { s with result := some (.ok (.byte s.chip.ppubus.openBus)) })

/-! ## The boards (44_mapper.md, 45_mapper_boards.md) -/

/-- Which PRG-ROM byte a CPU address at or above 0x8000 reads on each board, through its banks and the reduction by the ROM's
size (R402, R412, R422, R427, R434, R454, R108), before the Genie filter. -/
def Obligations.PrgWindows : Prop :=
  ∀ (c : Chip) (a : Addr) (info : BoardInfo) (regs : BoardRegs), c.Inv → c.mapper = .board info regs →
    0x8000 ≤ a.toNat →
    let rom := fun i => c.cart.prgRom.read (i % c.cart.prgRom.size)
    let peek := fun v => cpuPeek a c = genieFilter c.bus.genie a v
    let last16 := c.cart.prgRom.size / 0x4000 - 1
    let last8 := c.cart.prgRom.size / 0x2000 - 1
    c.cart.prgRom.size ≠ 0 ∧
    match regs with
    | .nrom => peek (rom (a.toNat % 0x8000))
    | .uxrom bank => peek (rom ((if a.toNat < 0xC000 then bank.toNat else last16) * 0x4000 + a.toNat % 0x4000))
    | .cnrom _ => peek (rom (a.toNat % 0x8000))
    | .axrom reg => peek (rom (reg.toNat % 8 * 0x8000 + a.toNat % 0x8000))
    | .mmc1 m =>
      let b := m.prg.toNat % 16
      let mode := m.control.toNat / 4 % 4
      (mode < 2 → peek (rom (b / 2 * 0x8000 + a.toNat % 0x8000))) ∧
      (mode = 2 → peek (rom ((if a.toNat < 0xC000 then 0 else b) * 0x4000 + a.toNat % 0x4000))) ∧
      (mode = 3 → peek (rom ((if a.toNat < 0xC000 then b else last16) * 0x4000 + a.toNat % 0x4000)))
    | .mmc3 m =>
      let fixed := m.bankSelect.toNat / 64 % 2 = 1
      let window := a.toNat / 0x2000 % 4
      let bank :=
        if window = 1 then m.r7.toNat % 64
        else if window = 3 then last8
        else if (window = 0 ∧ fixed) ∨ (window = 2 ∧ ¬ fixed) then last8 - 1
        else m.r6.toNat % 64
      peek (rom (bank * 0x2000 + a.toNat % 0x2000))

/-- Below 0x8000 a board has its 8 KiB of PRG RAM at 0x6000, where it has any and while its enable lets it answer; every
other address there reads as the latch (R361, R402, R412, R422, R427, R441, R457). -/
def Obligations.PrgRamWindows : Prop :=
  ∀ (c : Chip) (a : Addr) (v : Byte) (info : BoardInfo) (regs : BoardRegs), c.Inv → c.mapper = .board info regs →
    0x4020 ≤ a.toNat → a.toNat < 0x8000 →
    let answers : Bool := decide (0x6000 ≤ a.toNat) &&
      match regs with
      | .nrom => true
      | .uxrom _ => false
      | .cnrom _ => false
      | .axrom _ => false
      | .mmc1 m => !m.prg.getLsbD 4
      | .mmc3 m => m.prgRamCtl.getLsbD 7
    let takes : Bool := answers &&
      match regs with
      | .nrom => true
      | .uxrom _ => false
      | .cnrom _ => false
      | .axrom _ => false
      | .mmc1 _ => true
      | .mmc3 m => !m.prgRamCtl.getLsbD 6
    (answers = true → cpuPeek a c = c.cart.prgRam.read (a.toNat - 0x6000)) ∧
    (answers = false → cpuPeek a c = c.bus.openBus) ∧
    (cpuWrite a v c).mapper = c.mapper ∧ (cpuWrite a v c).cart.prgRam.size = c.cart.prgRam.size ∧
    (∀ i, (cpuWrite a v c).cart.prgRam.read i =
      if takes = true ∧ i = a.toNat - 0x6000 then v else c.cart.prgRam.read i)

/-- Which CHR byte a pattern address reads on each board, through its banks and the reduction by the pool's size (R403, R413,
R423, R428, R435, R455, R108). -/
def Obligations.ChrWindows : Prop :=
  ∀ (c : Chip) (a : Addr) (info : BoardInfo) (regs : BoardRegs), c.Inv → c.mapper = .board info regs →
    a.toNat < 0x2000 →
    let peek := fun i => ppuPeek a c = some (c.ppubus.chr.read (i % c.ppubus.chr.size))
    c.ppubus.chr.size ≠ 0 ∧
    match regs with
    | .nrom => peek a.toNat
    | .uxrom _ => peek a.toNat
    | .cnrom bank => peek (bank.toNat * 0x2000 + a.toNat)
    | .axrom _ => peek a.toNat
    | .mmc1 m =>
      (m.control.getLsbD 4 = false → peek (m.chr0.toNat / 2 * 0x2000 + a.toNat)) ∧
      (m.control.getLsbD 4 = true →
        peek ((if a.toNat < 0x1000 then m.chr0.toNat else m.chr1.toNat) * 0x1000 + a.toNat % 0x1000))
    | .mmc3 m =>
      let slot := (a.toNat / 0x400 + (if m.bankSelect.getLsbD 7 then 4 else 0)) % 8
      (slot < 2 → peek (m.r0.toNat / 2 * 0x800 + slot * 0x400 + a.toNat % 0x400)) ∧
      (2 ≤ slot → slot < 4 → peek (m.r1.toNat / 2 * 0x800 + (slot - 2) * 0x400 + a.toNat % 0x400)) ∧
      (slot = 4 → peek (m.r2.toNat * 0x400 + a.toNat % 0x400)) ∧
      (slot = 5 → peek (m.r3.toNat * 0x400 + a.toNat % 0x400)) ∧
      (slot = 6 → peek (m.r4.toNat * 0x400 + a.toNat % 0x400)) ∧
      (slot = 7 → peek (m.r5.toNat * 0x400 + a.toNat % 0x400))

/-- R463, R464, R465: a register write of UxROM, CNROM and AxROM stores the byte, anywhere in 0x8000..0xFFFF, and changes
nothing else but the latch and the mirror shift, which follows AxROM's bit 4. A register row of the table is a CPU write,
whatever board is in place. -/
def Obligations.PlainBoardWrites : Prop :=
  (∀ (s : State) (a : Addr) (v : Byte) (info : BoardInfo) (regs : BoardRegs), s.Inv → 0x8000 ≤ a.toNat →
    s.chip.mapper = .board info regs →
    (∀ bank, regs = .uxrom bank → exec (.uxromBank a v) s = .next (boardWritten s info (.uxrom v) v)) ∧
    (∀ bank, regs = .cnrom bank → exec (.cnromChrBank a v) s = .next (boardWritten s info (.cnrom v) v)) ∧
    (∀ reg, regs = .axrom reg → exec (.axromReg a v) s = .next (boardWritten s info (.axrom v) v) ∧
      (info.fourScreen = false →
        (boardWritten s info (.axrom v) v).chip.ppubus.mirrorShift = if v.getLsbD 4 then .sb else .sa))) ∧
  (∀ (s : State) (a : Addr) (v : Byte),
    ∀ i ∈ [Instr.uxromBank a v, .cnromChrBank a v, .axromReg a v, .mmc1Control a v, .mmc1Chr0 a v, .mmc1Chr1 a v,
      .mmc1Prg a v, .mmc3BankSelect a v, .mmc3BankData a v, .mmc3Mirroring a v, .mmc3PrgRamProtect a v,
      .mmc3IrqLatch a v, .mmc3IrqReload a v, .mmc3IrqDisable a v, .mmc3IrqEnable a v],
      exec i s = exec (.cpuWrite a v) s)

/-- R466 to R469 with R432: the MMC1 serial port. A write on the cycle after the last one only records its cycle; a write with
bit 7 set clears the sequence and ORs 0x0C into `control`; the first four bits shift in, lowest first; the fifth stores
the five bits into the register of its own address. Nothing else changes but the latch and the mirror shift. That the cycle
after 2^64 - 1 is 0 is the model's (log 34). -/
def Obligations.Mmc1Writes : Prop :=
  ∀ (s : State) (info : BoardInfo) (m : Mmc1) (a : Addr) (v : Byte), s.Inv → s.chip.mapper = .board info (.mmc1 m) →
    let now := s.chip.cpu.cycle
    let x := BitVec.ofNat 5 (m.shift.toNat ||| v.toNat % 2 * 2 ^ m.count.val)
    let lands := fun m' => Host.Outcome.next (boardWritten s info (.mmc1 m') v)
    let row := fun (i : Instr) (fifth : Mmc1) =>
      (m.lastWriteCycle.map (· + 1) = some now → exec i s = lands { m with lastWriteCycle := some now }) ∧
      (m.lastWriteCycle.map (· + 1) ≠ some now →
        (v.getLsbD 7 = true →
          exec i s =
            lands { m with lastWriteCycle := some now, shift := 0, count := 0, control := m.control ||| 0x0C }) ∧
        (v.getLsbD 7 = false → m.count.val < 4 →
          exec i s = lands { m with lastWriteCycle := some now, shift := x, count := m.count + 1 }) ∧
        (v.getLsbD 7 = false → m.count.val = 4 →
          exec i s = lands { fifth with lastWriteCycle := some now, shift := 0, count := 0 }))
    (a &&& 0xE000 = 0x8000 → row (.mmc1Control a v) { m with control := x }) ∧
    (a &&& 0xE000 = 0xA000 → row (.mmc1Chr0 a v) { m with chr0 := x }) ∧
    (a &&& 0xE000 = 0xC000 → row (.mmc1Chr1 a v) { m with chr1 := x }) ∧
    (a &&& 0xE000 = 0xE000 → row (.mmc1Prg a v) { m with prg := x })

/-- R470 to R477: each MMC3 register write does its action of the table of R452, at every address with the same
`a & 0xE001`, and changes nothing else but the latch and the mirror shift. -/
def Obligations.Mmc3Writes : Prop :=
  ∀ (s : State) (info : BoardInfo) (m : Mmc3) (a : Addr) (v : Byte), s.Inv → s.chip.mapper = .board info (.mmc3 m) →
    let lands := fun m' => Host.Outcome.next (boardWritten s info (.mmc3 m') v)
    let data := fun m' => exec (.mmc3BankData a v) s = lands m'
    (a &&& 0xE001 = 0x8000 → exec (.mmc3BankSelect a v) s = lands { m with bankSelect := v }) ∧
    (a &&& 0xE001 = 0x8001 →
      (m.bankSelect.toNat % 8 = 0 → data { m with r0 := v }) ∧ (m.bankSelect.toNat % 8 = 1 → data { m with r1 := v }) ∧
      (m.bankSelect.toNat % 8 = 2 → data { m with r2 := v }) ∧ (m.bankSelect.toNat % 8 = 3 → data { m with r3 := v }) ∧
      (m.bankSelect.toNat % 8 = 4 → data { m with r4 := v }) ∧ (m.bankSelect.toNat % 8 = 5 → data { m with r5 := v }) ∧
      (m.bankSelect.toNat % 8 = 6 → data { m with r6 := v }) ∧ (m.bankSelect.toNat % 8 = 7 → data { m with r7 := v })) ∧
    (a &&& 0xE001 = 0xA000 →
      exec (.mmc3Mirroring a v) s = lands { m with mirroringReg := BitVec.ofBool (v.getLsbD 0) }) ∧
    (a &&& 0xE001 = 0xA001 → exec (.mmc3PrgRamProtect a v) s = lands { m with prgRamCtl := v }) ∧
    (a &&& 0xE001 = 0xC000 → exec (.mmc3IrqLatch a v) s = lands { m with irqLatch := v }) ∧
    (a &&& 0xE001 = 0xC001 → exec (.mmc3IrqReload a v) s = lands { m with irqCounter := 0, irqReload := true }) ∧
    (a &&& 0xE001 = 0xE000 → exec (.mmc3IrqDisable a v) s = lands { m with irqEnabled := false, irqOut := false }) ∧
    (a &&& 0xE001 = 0xE001 → exec (.mmc3IrqEnable a v) s = lands { m with irqEnabled := true })

/-- R459 and R460: which notifications clock MMC3's counter, and what a clock does, by revision. Nothing else of the board
changes, and a notification leaves every other board as it was (R366). That the filter counts cycles modulo 2^64 is the
model's (log 34). -/
def Obligations.Mmc3ScanlineCounter : Prop :=
  (∀ (filter : Nat) (m : Mapper) (a : Addr) (now : Stamp), m.kind ≠ some .mmc3 → m.notify filter a now = m) ∧
  ∀ (info : BoardInfo) (filter : Nat) (m : Mmc3) (a : Addr) (now : Stamp),
    let notified := (Mapper.board info (.mmc3 m)).notify filter a now
    let board := fun m' => Mapper.board info (.mmc3 m')
    let rev := info.revision
    let a12 := a.toNat / 0x1000 % 2 = 1
    let clocks := a12 ∧ m.a12Prev = false ∧
      (m.a12HighCycle = none ∨ ∃ c, m.a12HighCycle = some c ∧ filter ≤ (now - c).toNat)
    let next := if m.irqCounter = 0 ∨ m.irqReload = true then m.irqLatch else m.irqCounter - 1
    let fires := next = 0 ∧ (rev = .standard ∨ (rev = .revA ∧ (m.irqCounter ≠ 0 ∨ m.irqReload = true)))
    (¬ clocks →
      notified = board { m with a12HighCycle := if a12 then some now else m.a12HighCycle, a12Prev := decide a12 }) ∧
    (clocks →
      notified = board
        { m with
          irqCounter := next
          irqReload := false
          irqOut := m.irqOut || (decide fires && m.irqEnabled)
          a12HighCycle := some now
          a12Prev := true })

/-- R371 with R404, R414, R424, R429, R439, R461: what a hard reset makes of each board's registers, and that a soft reset
changes nothing. Neither changes the revision, the region, the header or Four-Screen. Under a Four-Screen header MMC3's
`mirroring_reg` is free (log 27). -/
def Obligations.BoardResets : Prop :=
  (∀ m : Mapper, m.softReset = m ∧ boardIdentity m.hardReset = boardIdentity m) ∧
  Mapper.empty.hardReset = .empty ∧
  (∀ info : BoardInfo,
    (Mapper.board info .nrom).hardReset = .board info .nrom ∧
    (∀ b, (Mapper.board info (.uxrom b)).hardReset = .board info (.uxrom 0)) ∧
    (∀ b, (Mapper.board info (.cnrom b)).hardReset = .board info (.cnrom 0)) ∧
    (∀ r, (Mapper.board info (.axrom r)).hardReset = .board info (.axrom 0)) ∧
    (∀ m, (Mapper.board info (.mmc1 m)).hardReset =
      .board info (.mmc1 { shift := 0, count := 0, control := 0x0C, chr0 := 0, chr1 := 0, prg := 0,
                           lastWriteCycle := none })) ∧
    (∀ m, info.header ≠ .fourScreen → (Mapper.board info (.mmc3 m)).hardReset =
      .board info (.mmc3 { bankSelect := 0, r0 := 0, r1 := 2, r2 := 4, r3 := 5, r4 := 6, r5 := 7, r6 := 0, r7 := 1,
                           mirroringReg := if info.header = .vertical then 0 else 1, prgRamCtl := 0x80, irqLatch := 0,
                           irqCounter := 0, irqReload := false, irqEnabled := false, irqOut := false,
                           a12Prev := false, a12HighCycle := none })) ∧
    (∀ m, ∃ g, (Mapper.board info (.mmc3 m)).hardReset =
      .board info (.mmc3 { bankSelect := 0, r0 := 0, r1 := 2, r2 := 4, r3 := 5, r4 := 6, r5 := 7, r6 := 0, r7 := 1,
                           mirroringReg := g, prgRamCtl := 0x80, irqLatch := 0, irqCounter := 0, irqReload := false,
                           irqEnabled := false, irqOut := false, a12Prev := false, a12HighCycle := none })))

/-! ## Lifecycle (41_deck_lifecycle.md, 70_reset_and_hazards.md) -/

/-- R251 and R254: a descriptor is rejected for the first check it fails, with its reason, and nothing but the result
changes. -/
def Obligations.LoadRejects : Prop :=
  ∀ (s : State) (name : Text) (d : Descriptor) (e : RomProblem), FirstFailure (loadChecks d) (some e) →
    exec (.loadRom name d) s = .next { s with result := some (.err (.romFormat e)) }

/-- R250, R252, R253, R373: a descriptor that passes every check is loaded: the old cartridge's battery RAM is the result, the
board of its id has its power-on registers, the pools are the cartridge's and the RAM pools filled by the policy (R64), the
deck runs, and a hard reset has started the program at the RESET vector. The picture unit runs through the seven cycles of
that reset and may write its bus, so the pools and registers are stated as the reset sequence finds them, on `h`; after it
the board maps both buses as there. Up to that sequence the picture unit keeps its counters and its frame, the audio unit its
samples and channel enables, and the inputs stay (R574, R578); what its seven cycles do to them is as in any cycle, which
is the model's reading (log 35). -/
def Obligations.LoadSucceeds : Prop :=
  ∀ (s : State) (name : Text) (d : Descriptor), s.Inv → Loadable d →
    ∃ t, exec (.loadRom name d) s = .next t ∧ CanStep t ∧
      t.running = true ∧ t.loadedRom = some name ∧ t.batteryBacked = d.battery ∧ t.cyclesRemaining = 0 ∧
      t.refused = s.refused ∧ t.pending = s.pending ∧
      t.result = some (.ok (.flushed
        (if s.loadedRom.isSome && s.batteryBacked then some s.chip.cart.prgRam else none))) ∧
      t.chip.config = { s.chip.config with region := d.regionHint.getD s.chip.config.region } ∧
      (∃ h regs info, t.chip = resetSequence h ∧ h = hardResetStart d.battery (s.chip.load d) ∧
        PoolsFilled s.chip.config.ramState h ∧ FilledBy s.chip.config.ramState h.cart.prgRam ∧
        h.ppubus.ciram.size = 2048 ∧ h.ppubus.palette.size = 32 ∧ UnitsReset s.chip h ∧
        h.cpu.nmiLatch = false ∧ h.cpu.nmiPrev = false ∧ t.chip.cpu.nmiLatch = sawEdge (resetProg h.cpu.regs) h ∧
        (d.mapperId, regs) ∈
          ([(0, .nrom), (1, .mmc1 mmc1PowerOn), (2, .uxrom 0), (3, .cnrom 0), (4, .mmc3 (mmc3PowerOn d.mirroring)),
            (7, .axrom 0)] : List (BitVec 16 × BoardRegs)) ∧
        info = { header := d.mirroring, fourScreen := decide (d.mirroring = .fourScreen),
                 region := d.regionHint.getD s.chip.config.region, revision := .standard } ∧
        h.mapper = .board info regs ∧ boardIdentity t.chip.mapper = some (info, regs.kind) ∧
        MapsAs t.chip.mapper h.mapper ∧
        t.chip.cart.prgRam.size = if regs.kind ∈ [.nrom, .mmc1, .mmc3] then 8192 else 0) ∧
      t.chip.cart.desc = some d ∧ t.chip.cart.prgRom = d.prgRom ∧
      (d.chrRom.size = 0 → t.chip.ppubus.chrIsRam = true ∧ t.chip.ppubus.chr.size = 8192) ∧
      (d.chrRom.size ≠ 0 → t.chip.ppubus.chrIsRam = false ∧ t.chip.ppubus.chr = d.chrRom) ∧
      t.chip.ppubus.exram.size = (if d.mirroring = .fourScreen then 2048 else 0) ∧
      FilledBy s.chip.config.ramState t.chip.bus.wram ∧ FilledBy s.chip.config.ramState t.chip.cart.prgRam ∧
      t.chip.cpu.regs =
        { pc := word16 (cpuPeek 0xFFFC t.chip) (cpuPeek 0xFFFD t.chip), a := 0, x := 0, y := 0, s := 0xFD,
          p := { n := false, v := false, d := false, i := true, z := false, c := false } } ∧
      t.chip.cpu.cycle = 7 ∧ t.chip.bus.genie = s.chip.bus.genie ∧
      t.chip.apu.channelEnabled = s.chip.apu.channelEnabled

/-- R256: UNLOAD_ROM empties the cartridge state and returns the battery RAM exactly when a battery-backed cartridge was loaded;
everything else stays, and a second one changes nothing. -/
def Obligations.Unload : Prop :=
  decode (.host 0x11000000 .none) = .ok .unloadRom ∧
  (∀ s : State, exec .unloadRom s = .next
    { s with
      chip := { s.chip with
        mapper := .empty
        cart := { prgRom := { size := 0, cells := [] }, prgRam := { size := 0, cells := [] }, desc := none }
        ppubus := { s.chip.ppubus with
          chr := { size := 0, cells := [] }
          chrIsRam := false
          exram := { size := 0, cells := [] }
          mirrorShift := .h } }
      loadedRom := none
      running := false
      batteryBacked := false
      result := some (.ok (.flushed
        (if s.loadedRom.isSome && s.batteryBacked then some s.chip.cart.prgRam else none))) }) ∧
  (∀ s : State, s.Inv → s.loadedRom = none → exec .unloadRom s = .next { s with result := some (.ok (.flushed none)) })

/-- R571 with R572: a soft reset clears the corrupted flag and the budget, takes seven cycles, moves `s` down by three, sets I
and starts at the RESET vector; everything a soft reset leaves alone is as before, and stepping can go on (R261).
With no cartridge it is refused (R260). The seven cycles of the reset sequence run the units, so what they may touch is stated
as that sequence finds it, on `h`: the NMI latch is clear and the last level seen is kept, and the board's registers, both
buses, the counters, the frame, the samples, the channel enables and the inputs are as before (R461, R574, R578; log 35); after
it the NMI latch is an edge of those cycles (R577). -/
def Obligations.SoftReset : Prop :=
  (∀ (s : State) (k : ResetKind), s.loadedRom = none →
    exec (.reset k) s = .next { s with refused := true, result := some (.refused .noCartridge) }) ∧
  (∀ s : State, s.Inv → s.loadedRom.isSome = true →
    ∃ t, exec (.reset .soft) s = .next t ∧ CanStep t ∧ t.result = some (.ok .unit) ∧ t.cyclesRemaining = 0 ∧
      t.running = s.running ∧ t.loadedRom = s.loadedRom ∧ t.batteryBacked = s.batteryBacked ∧ t.refused = s.refused ∧
      t.pending = s.pending ∧ t.chip.cpu.corrupted = false ∧
      t.chip.cpu.regs =
        { s.chip.cpu.regs with
          s := s.chip.cpu.regs.s - 3
          p := { s.chip.cpu.regs.p with i := true }
          pc := word16 (cpuPeek 0xFFFC s.chip) (cpuPeek 0xFFFD s.chip) } ∧
      t.chip.cpu.cycle = s.chip.cpu.cycle + 7 ∧ t.chip.bus.openBus = cpuPeek 0xFFFD s.chip ∧
      OpcodeFrame s.chip t.chip ∧
      (∃ h, t.chip = resetSequence h ∧ h = softResetStart s.chip ∧ UnitsReset s.chip h ∧
        h.cpu = { s.chip.cpu with corrupted := false, nmiLatch := false } ∧ h.mapper = s.chip.mapper ∧
        h.ppubus = s.chip.ppubus ∧ h.bus = s.chip.bus ∧ h.cart = s.chip.cart ∧ h.config = s.chip.config ∧
        t.chip.cpu.nmiLatch = sawEdge (resetProg h.cpu.regs) h))

/-- R573 with R572 and R64: a hard reset fills the RAM pools by the policy, but a battery-backed PRG RAM, gives the processor its
reset values and the board its power-on registers, and starts at the RESET vector; the cartridge, the configuration and
the cheat table stay. The picture unit runs through the seven cycles of the reset sequence, so the pools and registers are
stated as that sequence finds them, on `h`; after it the board maps both buses as its power-on registers do, and the NMI latch
is an edge of those cycles (R577). Up to that sequence the counters, the frame, the samples, the channel enables and the
inputs stay (R574, R578; log 35). -/
def Obligations.HardReset : Prop :=
  ∀ s : State, s.Inv → s.loadedRom.isSome = true →
    ∃ t, exec (.reset .hard) s = .next t ∧ CanStep t ∧ t.result = some (.ok .unit) ∧ t.cyclesRemaining = 0 ∧
      t.running = s.running ∧ t.loadedRom = s.loadedRom ∧ t.batteryBacked = s.batteryBacked ∧ t.refused = s.refused ∧
      t.pending = s.pending ∧
      t.chip.cpu.regs =
        { pc := word16 (cpuPeek 0xFFFC t.chip) (cpuPeek 0xFFFD t.chip), a := 0, x := 0, y := 0, s := 0xFD,
          p := { n := false, v := false, d := false, i := true, z := false, c := false } } ∧
      t.chip.cpu.cycle = 7 ∧ t.chip.cpu.corrupted = false ∧ t.chip.bus.openBus = cpuPeek 0xFFFD t.chip ∧
      FilledBy s.chip.config.ramState t.chip.bus.wram ∧
      (s.batteryBacked = true → t.chip.cart.prgRam = s.chip.cart.prgRam) ∧
      (s.batteryBacked = false → FilledBy s.chip.config.ramState t.chip.cart.prgRam) ∧
      t.chip.cart.prgRom = s.chip.cart.prgRom ∧ t.chip.cart.desc = s.chip.cart.desc ∧
      (s.chip.ppubus.chrIsRam = false → t.chip.ppubus.chr = s.chip.ppubus.chr) ∧
      boardIdentity t.chip.mapper = boardIdentity s.chip.mapper ∧
      MapsAs t.chip.mapper s.chip.mapper.hardReset ∧
      (∃ h, t.chip = resetSequence h ∧ h = hardResetStart s.batteryBacked s.chip ∧
        PoolsFilled s.chip.config.ramState h ∧ h.mapper = s.chip.mapper.hardReset ∧
        h.bus.wram.size = 2048 ∧ h.ppubus.ciram.size = 2048 ∧ h.ppubus.palette.size = 32 ∧
        h.ppubus.exram.size = s.chip.ppubus.exram.size ∧ h.ppubus.chr.size = s.chip.ppubus.chr.size ∧
        h.ppubus.chrIsRam = s.chip.ppubus.chrIsRam ∧ h.bus.openBus = 0 ∧ h.ppubus.openBus = 0 ∧
        h.cpu.nmiLatch = false ∧ h.cpu.nmiPrev = false ∧ UnitsReset s.chip h ∧
        t.chip.cpu.nmiLatch = sawEdge (resetProg h.cpu.regs) h) ∧
      t.chip.config = s.chip.config ∧ t.chip.bus.genie = s.chip.bus.genie ∧
      t.chip.apu.channelEnabled = s.chip.apu.channelEnabled

/-- R262 to R267: the accessors complete in every state with their value and change nothing else; LOAD_SRAM stores exactly when the
cartridge is battery-backed and the length fits. The bytes of the filtered frame are the parameter's. -/
def Obligations.Accessors : Prop :=
  ∀ s : State,
    exec .readSram s = .next { s with
      result := some (.ok (.bytes (if s.batteryBacked then s.chip.cart.prgRam else { size := 0, cells := [] }))) } ∧
    exec .readWram s = .next { s with result := some (.ok (.bytes s.chip.bus.wram)) } ∧
    exec .queryStatus s = .next { s with
      result := some (.ok (.status
        { running := s.running, loadedRom := s.loadedRom, corrupted := s.chip.cpu.corrupted,
          region := s.chip.config.region, frameNumber := s.chip.ppu.frameNumber, scanline := s.chip.ppu.scanline,
          cycle := s.chip.cpu.cycle })) } ∧
    (∃ m, exec .readFrameBuffer s = .next { s with result := some (.ok (.bytes m)) } ∧ m.wf = true ∧
      m.size = 256 * 240 * 4 ∧
      ∀ i, i < m.size → m.read i = Config.filterByte s.chip.config.filter s.chip.ppu.frame i) ∧
    exec .readAudioSamples s = .next { s with result := some (.ok (.samples s.chip.apu.samples)) } ∧
    (∀ b : Memory, s.batteryBacked = true → b.size = s.chip.cart.prgRam.size →
      exec (.loadSram b) s = .next { s with
        chip := { s.chip with cart := { s.chip.cart with prgRam := b } }
        result := some (.ok .unit) }) ∧
    (∀ b : Memory, (s.batteryBacked = false ∨ b.size ≠ s.chip.cart.prgRam.size) →
      exec (.loadSram b) s = .next { s with result := some (.ok .unit) })

/-! ## Settings and cheat codes (42_deck_config.md, 44_mapper.md R370, 46_genie.md) -/

/-- R291 to R300 and R370: each setting writes its fields at once, in every state, and nothing else but the result. A joypad's
mask is the buttons its player holds, by the bits of R166. -/
def Obligations.SettingCommands : Prop :=
  ∀ s : State,
    let done := fun c => Host.Outcome.next { s with chip := c, result := some (.ok .unit) }
    let config := fun k => done { s.chip with config := k }
    let input := fun i => done { s.chip with input := i }
    let gun := fun z => input { s.chip.input with zapper := z }
    let channels := fun k => done { s.chip with apu := { s.chip.apu with channelEnabled := k } }
    (∀ r, exec (.setRegion r) s = done { s.chip with
      config := { s.chip.config with region := r }
      mapper := match s.chip.mapper with
        | .empty => .empty
        | .board info regs => .board { info with region := r } regs }) ∧
    (∀ m, exec (.setFourPlayer m) s = config { s.chip.config with fourPlayer := m }) ∧
    (∀ f, exec (.setFilter f) s = config { s.chip.config with filter := f }) ∧
    (∀ p, exec (.setRamState p) s = config { s.chip.config with ramState := p }) ∧
    (∀ e, exec (.connectZapper e) s = done { s.chip with
      config := { s.chip.config with zapperEnabled := e }
      input := { s.chip.input with zapper := { s.chip.input.zapper with connected := e } } }) ∧
    (∀ x y, exec (.aimZapper x y) s = gun { s.chip.input.zapper with x := x, y := y }) ∧
    exec .triggerZapper s = gun { s.chip.input.zapper with trigger := true } ∧
    exec (.toggleApuChannel .pulse1) s = channels
      { s.chip.apu.channelEnabled with pulse1 := !s.chip.apu.channelEnabled.pulse1 } ∧
    exec (.toggleApuChannel .pulse2) s = channels
      { s.chip.apu.channelEnabled with pulse2 := !s.chip.apu.channelEnabled.pulse2 } ∧
    exec (.toggleApuChannel .triangle) s = channels
      { s.chip.apu.channelEnabled with triangle := !s.chip.apu.channelEnabled.triangle } ∧
    exec (.toggleApuChannel .noise) s = channels
      { s.chip.apu.channelEnabled with noise := !s.chip.apu.channelEnabled.noise } ∧
    exec (.toggleApuChannel .dmc) s = channels
      { s.chip.apu.channelEnabled with dmc := !s.chip.apu.channelEnabled.dmc } ∧
    exec .clearAudioSamples s = done { s.chip with apu := { s.chip.apu with samples := [] } } ∧
    (∀ mask, exec (.setJoypad 0 mask) s = input { s.chip.input with joypad0 := BitVec.ofNat 16 mask.toNat }) ∧
    (∀ mask, exec (.setJoypad 1 mask) s = input { s.chip.input with joypad1 := BitVec.ofNat 16 mask.toNat }) ∧
    (∀ mask, exec (.setJoypad 2 mask) s = input { s.chip.input with joypad2 := BitVec.ofNat 16 mask.toNat }) ∧
    (∀ mask, exec (.setJoypad 3 mask) s = input { s.chip.input with joypad3 := BitVec.ofNat 16 mask.toNat }) ∧
    (∀ player mask button, ∃ t, exec (.setJoypad player mask) s = .next t ∧
      Input.pressed t.chip.input player button = Button.inMask button mask ∧
      ∀ other, other ≠ player → Input.joypad t.chip.input other = Input.joypad s.chip.input other) ∧
    (s.Inv → ∀ r, exec (.setMapperRevision r) s = done { s.chip with
      mapper := match s.chip.mapper with
        | .empty => .empty
        | .board info regs => .board { info with revision := r } regs })

/-- R480, R481, R491: adding a code parses it first, moves it to the end of the table and copies the texts into the
configuration; a malformed code changes nothing; removing takes out the code of that exact text; adding and removing an
absent code gives the table back. -/
def Obligations.GenieCommands : Prop :=
  ∀ (s : State) (code : Text),
    let tables := fun (l : List GenieEntry) => Host.Outcome.next { s with
      chip := { s.chip with
        bus := { s.chip.bus with genie := l }
        config := { s.chip.config with genie := l.map GenieEntry.text } }
      result := some (.ok .unit) }
    let others := s.chip.bus.genie.filter fun e => e.text ≠ code
    (∀ g, parseGenie code = .ok g → exec (.addGenie code) s = tables (others ++ [g]) ∧ g.text = code) ∧
    (∀ e, parseGenie code = .error e →
      exec (.addGenie code) s = .next { s with result := some (.err (.invalidCode e)) }) ∧
    exec (.removeGenie code) s = tables others ∧
    (s.Inv → code ∉ s.chip.bus.genie.map GenieEntry.text → ∀ t, exec (.addGenie code) s = .next t →
      exec (.removeGenie code) t = .next { s with result := some (.ok .unit) })

/-- R482: a code of another length than 6 or 8 fails with its length, before its characters are looked at; the first
character outside the alphabet fails with its place; and every other code parses, to the address of R174 and the data and
compare bytes of R175, `n0` to `n7` being the values of its letters in the alphabet of R173. R483 and R484: the worked
codes. -/
def Obligations.GenieParsing : Prop :=
  let alphabet : List Char := ['A', 'P', 'Z', 'L', 'G', 'I', 'T', 'Y', 'E', 'O', 'X', 'U', 'K', 'S', 'V', 'N']
  let letter := fun (n : Fin 16) => alphabet.getD n.val 'A'
  let addr := fun (n1 n2 n3 n4 n5 : Fin 16) => BitVec.ofNat 16
    (0x8000 ||| ((n3.val &&& 7) <<< 12) ||| ((n5.val &&& 7) <<< 8) ||| ((n4.val &&& 8) <<< 8) |||
      ((n2.val &&& 7) <<< 4) ||| ((n1.val &&& 8) <<< 4) ||| (n4.val &&& 7) ||| (n3.val &&& 8))
  let byte := fun (hi lo last : Fin 16) => BitVec.ofNat 8
    (((hi.val &&& 7) <<< 4) ||| ((lo.val &&& 8) <<< 4) ||| (lo.val &&& 7) ||| (last.val &&& 8))
  (∀ code : Text, code.length ≠ 6 → code.length ≠ 8 → parseGenie code = .error (.wrongLength code.length)) ∧
  (∀ (good bad : Text) (x : Char), (∀ y ∈ good, y ∈ alphabet) → x ∉ alphabet →
    (good.length + 1 + bad.length = 6 ∨ good.length + 1 + bad.length = 8) →
    parseGenie (good ++ x :: bad) = .error (.badChar good.length x)) ∧
  (∀ code : Text, (∀ y ∈ code, y ∈ alphabet) → (code.length = 6 ∨ code.length = 8) →
    ∃ g, parseGenie code = .ok g ∧ g.text = code ∧ 0x8000 ≤ g.addr.toNat ∧
      (g.compare = none ↔ code.length = 6)) ∧
  (∀ n0 n1 n2 n3 n4 n5 : Fin 16,
    let text := [letter n0, letter n1, letter n2, letter n3, letter n4, letter n5]
    parseGenie text =
      .ok { text := text, addr := addr n1 n2 n3 n4 n5, data := byte n1 n0 n5, compare := none }) ∧
  (∀ n0 n1 n2 n3 n4 n5 n6 n7 : Fin 16,
    let text := [letter n0, letter n1, letter n2, letter n3, letter n4, letter n5, letter n6, letter n7]
    parseGenie text =
      .ok { text := text, addr := addr n1 n2 n3 n4 n5, data := byte n1 n0 n7, compare := some (byte n7 n6 n5) }) ∧
  parseGenie ['S', 'X', 'I', 'O', 'P', 'O'] =
    .ok { text := ['S', 'X', 'I', 'O', 'P', 'O'], addr := 0x91D9, data := 0xAD, compare := none } ∧
  parseGenie ['A', 'A', 'A', 'A', 'A', 'A', 'A', 'A'] =
    .ok { text := ['A', 'A', 'A', 'A', 'A', 'A', 'A', 'A'], addr := 0x8000, data := 0x00, compare := some 0x00 } ∧
  parseGenie ['N', 'N', 'N', 'N', 'N', 'N', 'N', 'N'] =
    .ok { text := ['N', 'N', 'N', 'N', 'N', 'N', 'N', 'N'], addr := 0xFFFF, data := 0xFF, compare := some 0xFF }

/-- R489 and R490: below 0x8000 the filter passes a value through; above, only the last code at the address decides, and
codes at other addresses never matter, wherever they stand in the table: not to the filter, and not to a peek or a read,
whatever unit answers it. -/
def Obligations.GenieFilter : Prop :=
  ∀ (a : Addr) (v : Byte) (before after : List GenieEntry) (g : GenieEntry),
    (a.toNat < 0x8000 → genieFilter before a v = v) ∧
    ((∀ e ∈ before, e.addr ≠ a) → genieFilter before a v = v) ∧
    (0x8000 ≤ a.toNat → g.addr = a → (∀ e ∈ after, e.addr ≠ a) →
      genieFilter (before ++ g :: after) a v =
        if g.compare = none ∨ g.compare = some v then g.data else v) ∧
    (g.addr ≠ a → genieFilter (before ++ g :: after) a v = genieFilter (before ++ after) a v) ∧
    (g.addr ≠ a → ∀ c : Chip,
      let set := fun (table : List GenieEntry) => { c with
        bus := { c.bus with genie := table }
        config := { c.config with genie := table.map GenieEntry.text } }
      cpuPeek a (set (before ++ g :: after)) = cpuPeek a (set (before ++ after)) ∧
      (cpuRead a (set (before ++ g :: after))).2 = (cpuRead a (set (before ++ after))).2)

/-! ## The clock commands (40_deck_clocking.md section 1, 60_exceptions.md section 4) -/

/-- R202: CLOCK_SECONDS adds to the budget and steps until it is first spent or the processor is corrupted; it ends with the
cycles of its steps or the error, and the rest of the budget is kept. After `Ok` less than `MaxStepCycles` is owed. -/
def Obligations.ClockSeconds : Prop :=
  ∀ (s : State) (num den : Word32), s.Inv → CanStep s → den ≠ 0 →
    let budget : Rat := s.cyclesRemaining +
      (s.chip.params.region s.chip.config.region).clockRate * (num.toNat / den.toNat)
    let run := fun k => stepsFrom k { chip := s.chip, cycles := 0 }
    ∃ k, FirstAt 0 (fun j => (run j).chip.cpu.corrupted = true ∨ budget ≤ (run j).cycles) k ∧
      exec (.clockSeconds num den) s = .next { s with
        chip := (run k).chip
        cyclesRemaining := budget - (run k).cycles
        result := some (if (run k).chip.cpu.corrupted then .err .cpuCorrupted else .ok (.cycles (run k).cycles)) } ∧
      ((run k).chip.cpu.corrupted = false →
        -(s.chip.params.maxStepCycles : Rat) < budget - (run k).cycles ∧ budget - (run k).cycles ≤ 0)

/-- Phase accuracy (40_deck_clocking.md section 1): where calls of CLOCK_SECONDS in a row all return `Ok`, one call with the
sum of their fractions returns the sum of their counts and leaves the same state, to the last bit. -/
def Obligations.PhaseAccuracy : Prop :=
  ∀ (s t : State) (calls : List (Word32 × Word32)) (n : Nat) (num den : Word32), s.Inv → calls ≠ [] →
    secondsRun calls s = some (n, t) → den ≠ 0 → (num.toNat : Rat) / den.toNat = secondsSum calls →
    exec (.clockSeconds num den) s = .next { t with result := some (.ok (.cycles n)) }

/-- R203: CLOCK_FRAME steps, at least once, until the frame counter first differs or the processor is corrupted, however long that
takes; unless it was corrupted, the counter is then one on, and the light gun's trigger is over. The budget is not touched. Where
that never comes, the command never ends. The machine may take several of its own steps for it, taking no word in between
(log 25); where dots come, it takes one, and the command does end. -/
def Obligations.ClockFrame : Prop :=
  ∀ s : State, s.Inv → CanStep s →
    let run := fun k => stepsFrom k { chip := s.chip, cycles := 0 }
    let ends := fun j => (run j).chip.cpu.corrupted = true ∨ (run j).chip.ppu.frameNumber ≠ s.chip.ppu.frameNumber
    let done := fun k => { s with
      chip := (run k).chip
      result := some (if (run k).chip.cpu.corrupted then .err .cpuCorrupted else .ok (.cycles (run k).cycles))
      ongoing := none }
    ∃ t, exec .clockFrame s = .next t ∧ t.pending = s.pending ∧
      (∀ k, FirstAt 1 ends k → EndsIn t (done k) ∧
        ((run k).chip.cpu.corrupted = false → 0 < (run k).cycles ∧
          (run k).chip.ppu.frameNumber = s.chip.ppu.frameNumber + 1 ∧ (run k).chip.input.zapper.trigger = false)) ∧
      ((∀ k, ¬ FirstAt 1 ends k) → GoesOn t) ∧
      ((s.chip.params.region s.chip.config.region).dotsCome = true → ∃ k, FirstAt 1 ends k ∧ t = done k)

/-- R204: CLOCK_SCANLINE steps, at least once, until the scanline counter first differs or the processor is corrupted, however
long that takes; where that never comes, the command never ends. The machine may take several of its own steps for it, taking no
word in between (log 25); where dots come and no step is as long as a frame less one scanline and two dots, it takes one, and
the command does end. -/
def Obligations.ClockScanline : Prop :=
  ∀ s : State, s.Inv → CanStep s →
    let run := fun k => stepsFrom k { chip := s.chip, cycles := 0 }
    let ends := fun j => (run j).chip.cpu.corrupted = true ∨ (run j).chip.ppu.scanline ≠ s.chip.ppu.scanline
    let done := fun k => { s with
      chip := (run k).chip
      result := some (if (run k).chip.cpu.corrupted then .err .cpuCorrupted else .ok (.cycles (run k).cycles))
      ongoing := none }
    ∃ t, exec .clockScanline s = .next t ∧ t.pending = s.pending ∧
      (∀ k, FirstAt 1 ends k → EndsIn t (done k)) ∧
      ((∀ k, ¬ FirstAt 1 ends k) → GoesOn t) ∧
      ((s.chip.params.region s.chip.config.region).dotsCome = true →
        (s.chip.params.region s.chip.config.region).scanlineOk s.chip.params = true →
        ∃ k, FirstAt 1 ends k ∧ t = done k)

/-- Frames in dots (60_exceptions.md section 4; the dot counter and the frame's one dropped dot are the model's, log 10):
from the start of a frame the next boundary comes after `ScanlinesPerFrame · DotsPerScanline` dots or one fewer, with no
boundary before it, and the picture unit is at the start of a frame again. -/
def Obligations.FrameBoundaries : Prop :=
  ∀ c : Chip, c.Inv → AtFrameStart c.ppu →
    let size := (c.params.region c.config.region).scanlinesPerFrame * c.params.dotsPerScanline
    ∃ n, (n = size ∨ n + 1 = size) ∧
      (∀ m, m < n → (ppuDots m c).ppu.frameNumber = c.ppu.frameNumber ∧
        (ppuDots m c).ppu.scanline < (c.params.region c.config.region).scanlinesPerFrame) ∧
      (ppuDots n c).ppu.frameNumber = c.ppu.frameNumber + 1 ∧ AtFrameStart (ppuDots n c).ppu

/-! ## Rules of the whole machine -/

/-- R52: no word the host issues changes PRG ROM, but LOAD_ROM and UNLOAD_ROM; nor CHR ROM, the descriptor or which board
stands (R49, R54, R55). So no program can. -/
def Obligations.RomNeverWritten : Prop :=
  ∀ (s t : State), step s = .next t →
    (s.ongoing = none → ∀ h ∈ s.pending.head?, opField h.word ≠ 0x10 ∧ opField h.word ≠ 0x11) →
    t.chip.cart.prgRom = s.chip.cart.prgRom ∧ t.chip.cart.desc = s.chip.cart.desc ∧
    t.chip.ppubus.chrIsRam = s.chip.ppubus.chrIsRam ∧
    (s.chip.ppubus.chrIsRam = false → t.chip.ppubus.chr = s.chip.ppubus.chr) ∧
    (boardIdentity t.chip.mapper).map Prod.snd = (boardIdentity s.chip.mapper).map Prod.snd

/-- Who writes the deck's own state: the refusal mark is never cleared (R35); the running flag, the cartridge's name and the
battery flag move only with LOAD_ROM and UNLOAD_ROM (R31); the corrupted flag is set only by a stepping command and
cleared only by LOAD_ROM and RESET (R39); the budget moves only with CLOCK_SECONDS and those two (R34); the sample buffer only
grows at its end, but on CLEAR_AUDIO_SAMPLES (R60). Only CLOCK_FRAME and CLOCK_SCANLINE can be in progress after their step,
and a step that goes on with one writes as they do (log 25). -/
def Obligations.DeckWriters : Prop :=
  (∀ (s t : State) (o : Ongoing), s.ongoing = some o → step s = .next t →
    t.pending = s.pending ∧ t.chip.params = s.chip.params ∧ (s.refused = true → t.refused = true) ∧
    t.running = s.running ∧ t.loadedRom = s.loadedRom ∧ t.batteryBacked = s.batteryBacked ∧
    t.cyclesRemaining = s.cyclesRemaining ∧ (s.chip.cpu.corrupted = true → t.chip.cpu.corrupted = true) ∧
    ∃ l, t.chip.apu.samples = s.chip.apu.samples ++ l) ∧
  ∀ (s t : State) (h : HostWord) (rest : List HostWord), s.ongoing = none → s.pending = h :: rest → step s = .next t →
    t.pending = rest ∧ t.chip.params = s.chip.params ∧
    (s.refused = true → t.refused = true) ∧
    (opField h.word ∉ ([0x10, 0x11] : List Byte) →
      t.running = s.running ∧ t.loadedRom = s.loadedRom ∧ t.batteryBacked = s.batteryBacked) ∧
    (opField h.word ∉ ([0x01, 0x02, 0x03, 0x04] : List Byte) → t.chip.cpu.corrupted = true →
      s.chip.cpu.corrupted = true) ∧
    (opField h.word ∉ ([0x10, 0x12] : List Byte) → s.chip.cpu.corrupted = true → t.chip.cpu.corrupted = true) ∧
    (opField h.word ∉ ([0x02, 0x10, 0x12] : List Byte) → t.cyclesRemaining = s.cyclesRemaining) ∧
    (opField h.word ≠ 0x28 → ∃ l, t.chip.apu.samples = s.chip.apu.samples ++ l) ∧
    (opField h.word ∉ ([0x03, 0x04] : List Byte) → t.ongoing = none)

/-- Deck construction (R80, R31 to R35, R57, R60, R61, R66). With the default configuration of R63: the values of the reset
state, which meets the invariant. With any configuration: the same but for the configuration, the three RAM pools, filled
by its policy, and the cheat table, which is what adding its codes one by one leaves (R491); the invariant again. The
parameters in force at reset and the draw counter are the model's (log 12, log 13; log 9). -/
def Obligations.Construction : Prop :=
  State.reset.Inv ∧ State.reset.chip.params = Params.suggested ∧
  State.reset.running = false ∧ State.reset.loadedRom = none ∧ State.reset.batteryBacked = false ∧
  State.reset.cyclesRemaining = 0 ∧ State.reset.refused = false ∧ State.reset.ongoing = none ∧
  State.reset.chip.config =
    { region := .ntsc, filter := .pixellate, ramState := .allZeros, fourPlayer := .disabled, zapperEnabled := false,
      genie := [] } ∧
  State.reset.chip.cpu.corrupted = false ∧ State.reset.chip.cpu.cycle = 0 ∧
  State.reset.chip.cpu.nmiLatch = false ∧ State.reset.chip.cpu.nmiPrev = false ∧
  (∀ i, State.reset.chip.bus.wram.read i = 0 ∧ State.reset.chip.ppubus.ciram.read i = 0 ∧
    State.reset.chip.ppubus.palette.read i = 0) ∧
  State.reset.chip.bus.openBus = 0 ∧ State.reset.chip.ppubus.openBus = 0 ∧ State.reset.chip.bus.genie = [] ∧
  State.reset.chip.mapper = .empty ∧ State.reset.chip.cart.prgRom.size = 0 ∧ State.reset.chip.ppubus.chr.size = 0 ∧
  State.reset.chip.ppubus.mirrorShift = mirrorShiftOf .horizontal ∧ State.reset.chip.ppu.frameNumber = 0 ∧
  State.reset.chip.apu.channelEnabled = { pulse1 := true, pulse2 := true, triangle := true, noise := true, dmc := true } ∧
  State.reset.chip.apu.samples = [] ∧
  (∀ player, Input.joypad State.reset.chip.input player = 0) ∧
  State.reset.chip.input.zapper = { connected := false, x := 0, y := 0, trigger := false } ∧
  constructDeck State.reset.chip.config = { State.reset with chip := { State.reset.chip with
    draws := (constructDeck State.reset.chip.config).chip.draws } } ∧
  (∀ cfg : DeckConfig,
    let t := constructDeck cfg
    t.Inv ∧
    (∃ u, commandsRun (cfg.genie.map .addGenie) State.reset = some u ∧ t.chip.bus.genie = u.chip.bus.genie) ∧
    t.chip.config = { cfg with genie := t.chip.bus.genie.map GenieEntry.text } ∧
    FilledBy cfg.ramState t.chip.bus.wram ∧ FilledBy cfg.ramState t.chip.ppubus.ciram ∧
    FilledBy cfg.ramState t.chip.ppubus.palette ∧
    t = { State.reset with chip := { State.reset.chip with
      config := t.chip.config
      bus := { State.reset.chip.bus with wram := t.chip.bus.wram, genie := t.chip.bus.genie }
      ppubus := { State.reset.chip.ppubus with ciram := t.chip.ppubus.ciram, palette := t.chip.ppubus.palette }
      draws := t.chip.draws } })

/-- The invariant is kept by every step: the pools' sizes and canonical form, the mirror shift (R50), the cartridge's
agreement with its descriptor, the running flag (R31), the budget between commands (R34), the cheat tables' agreement
(R491), the picture unit's counters in range, and that a command in progress has a cartridge and a processor that can step
(R200; log 25). -/
def Obligations.StepKeepsInvariant : Prop :=
  ∀ s t : State, s.Inv → step s = .next t → t.Inv

/-- The machine never stops: every instruction has a next state on every state, and every step of a legal state answers a legal
state again, whatever the host issued. This is the model's choice, not a rule's words: a refused command is a next state with the
mark set (log 1), an instruction that no encoding carries runs all the same (log 29), and a clock command whose loop has not
ended answers a state in which it is in progress (log 25). -/
def Obligations.StepNeverStops : Prop :=
  (∀ (i : Instr) (s : State), ∃ t, exec i s = .next t) ∧
  ∀ s : State, s.Inv → ∃ t, step s = .next t ∧ t.Inv ∧ t.chip.params = s.chip.params
end

