-- ==== Sys2Proof/Laws/Memory.lean ====
section
/-! SUPPORT. The laws of a pool of bytes: read after write, the canonical form that every operation keeps, and that two
canonical pools with the same bytes are equal. -/

namespace Sys2Proof

open Sys2Proof.Machine

/-! ## Cells -/

theorem cellsWf_mono {size lo lo' : Nat} {l : List Host.Cell} (h : cellsWf size lo l = true) (hl : lo' ≤ lo) :
    cellsWf size lo' l = true := by
  cases l with
  | nil => rfl
  | cons c rest =>
    obtain ⟨j, w⟩ := c
    simp only [cellsWf, Bool.and_eq_true, decide_eq_true_eq] at h ⊢
    exact ⟨⟨⟨by omega, h.1.1.2⟩, h.1.2⟩, h.2⟩

theorem cellAt_below {size : Nat} (l : List Host.Cell) : ∀ {lo i : Nat}, cellsWf size lo l = true → i < lo →
    cellAt i l = 0 := by
  induction l with
  | nil => intros; rfl
  | cons c rest ih =>
    obtain ⟨j, w⟩ := c
    intro lo i h hi
    simp only [cellsWf, Bool.and_eq_true, decide_eq_true_eq] at h
    simp only [cellAt]
    rw [if_neg (by omega)]
    exact ih h.2 (by omega)

theorem cellAt_above {size : Nat} (l : List Host.Cell) : ∀ {lo i : Nat}, cellsWf size lo l = true → size ≤ i →
    cellAt i l = 0 := by
  induction l with
  | nil => intros; rfl
  | cons c rest ih =>
    obtain ⟨j, w⟩ := c
    intro lo i h hi
    simp only [cellsWf, Bool.and_eq_true, decide_eq_true_eq] at h
    simp only [cellAt]
    rw [if_neg (by omega)]
    exact ih h.2 (by omega)

theorem putCell_wf {size : Nat} (i : Nat) (v : Byte) (hi : i < size) (l : List Host.Cell) :
    ∀ {lo : Nat}, cellsWf size lo l = true → cellsWf size (min lo i) (putCell i v l) = true := by
  induction l with
  | nil =>
    intro lo _
    simp only [putCell]
    split
    · rfl
    · simp only [cellsWf, Bool.and_eq_true, decide_eq_true_eq]
      exact ⟨⟨⟨by omega, hi⟩, by assumption⟩, trivial⟩
  | cons c rest ih =>
    obtain ⟨j, w⟩ := c
    intro lo h
    have h' := h
    simp only [cellsWf, Bool.and_eq_true, decide_eq_true_eq] at h
    obtain ⟨⟨⟨h1, h2⟩, h3⟩, h4⟩ := h
    simp only [putCell]
    split
    · split
      · exact cellsWf_mono h' (by omega)
      · simp only [cellsWf, Bool.and_eq_true, decide_eq_true_eq]
        exact ⟨⟨⟨by omega, hi⟩, by assumption⟩, ⟨⟨by omega, h2⟩, h3⟩, h4⟩
    · split
      · subst_vars
        split
        · exact cellsWf_mono h4 (by omega)
        · simp only [cellsWf, Bool.and_eq_true, decide_eq_true_eq]
          exact ⟨⟨⟨by omega, hi⟩, by assumption⟩, h4⟩
      · simp only [cellsWf, Bool.and_eq_true, decide_eq_true_eq]
        exact ⟨⟨⟨by omega, h2⟩, h3⟩, cellsWf_mono (ih h4) (by omega)⟩

theorem cellAt_putCell_same {size : Nat} (i : Nat) (v : Byte) (l : List Host.Cell) :
    ∀ {lo : Nat}, cellsWf size lo l = true → cellAt i (putCell i v l) = v := by
  induction l with
  | nil =>
    intro lo _
    simp only [putCell]
    split <;> simp_all [cellAt]
  | cons c rest ih =>
    obtain ⟨j, w⟩ := c
    intro lo h
    have h' := h
    simp only [cellsWf, Bool.and_eq_true, decide_eq_true_eq] at h
    simp only [putCell]
    split
    · split
      · rename_i hv
        rw [hv]
        simp only [cellAt]
        rw [if_neg (by omega)]
        exact cellAt_below rest h.2 (by omega)
      · simp [cellAt]
    · split
      · subst_vars
        split
        · rename_i hv
          rw [hv]
          exact cellAt_below rest h.2 (by omega)
        · simp [cellAt]
      · simp only [cellAt]
        rw [if_neg (by assumption)]
        exact ih h.2

theorem cellAt_putCell_other (i k : Nat) (v : Byte) (hk : k ≠ i) (l : List Host.Cell) :
    cellAt k (putCell i v l) = cellAt k l := by
  induction l with
  | nil =>
    simp only [putCell]
    split <;> simp [cellAt, hk]
  | cons c rest ih =>
    obtain ⟨j, w⟩ := c
    simp only [putCell]
    split
    · split
      · rfl
      · simp [cellAt, hk]
    · split
      · subst_vars
        split
        · simp [cellAt, hk]
        · simp [cellAt, hk]
      · simp only [cellAt, ih]

theorem tabulateCells_wf (f : Nat → Byte) : ∀ (n i : Nat), cellsWf (i + n) i (tabulateCells f i n) = true := by
  intro n
  induction n with
  | zero => intro i; rfl
  | succ n ih =>
    intro i
    have h := ih (i + 1)
    rw [show i + 1 + n = i + (n + 1) by omega] at h
    simp only [tabulateCells]
    split
    · exact cellsWf_mono h (by omega)
    · simp only [cellsWf, Bool.and_eq_true, decide_eq_true_eq]
      exact ⟨⟨⟨Nat.le_refl _, by omega⟩, by assumption⟩, h⟩

theorem cellAt_tabulateCells (f : Nat → Byte) : ∀ (n i k : Nat), i ≤ k → k < i + n →
    cellAt k (tabulateCells f i n) = f k := by
  intro n
  induction n with
  | zero => intros; omega
  | succ n ih =>
    intro i k h1 h2
    have below : ∀ m, cellAt i (tabulateCells f (i + 1) m) = 0 := fun m =>
      cellAt_below _ (tabulateCells_wf f m (i + 1)) (by omega)
    simp only [tabulateCells]
    split
    · by_cases hk : k = i
      · subst hk; rw [below]; symm; assumption
      · exact ih (i + 1) k (by omega) (by omega)
    · simp only [cellAt]
      by_cases hk : k = i
      · subst hk; simp
      · rw [if_neg hk]; exact ih (i + 1) k (by omega) (by omega)

/-- Two lists of cells in canonical form that give every index the same byte are equal. -/
theorem cells_ext {size : Nat} (l : List Host.Cell) : ∀ (l' : List Host.Cell) {lo : Nat},
    cellsWf size lo l = true → cellsWf size lo l' = true → (∀ i, cellAt i l = cellAt i l') → l = l' := by
  induction l with
  | nil =>
    intro l' lo _ h' he
    cases l' with
    | nil => rfl
    | cons c rest =>
      obtain ⟨j, w⟩ := c
      simp only [cellsWf, Bool.and_eq_true, decide_eq_true_eq] at h'
      have := he j
      simp only [cellAt, if_true] at this
      exact absurd this.symm h'.1.2
  | cons c rest ih =>
    obtain ⟨j, w⟩ := c
    intro l' lo h h' he
    simp only [cellsWf, Bool.and_eq_true, decide_eq_true_eq] at h
    cases l' with
    | nil =>
      have := he j
      simp only [cellAt, if_true] at this
      exact absurd this h.1.2
    | cons c' rest' =>
      obtain ⟨j', w'⟩ := c'
      simp only [cellsWf, Bool.and_eq_true, decide_eq_true_eq] at h'
      have hj : j = j' := by
        rcases Nat.lt_trichotomy j j' with hlt | heq | hgt
        · have := he j
          simp only [cellAt, if_true] at this
          rw [if_neg (by omega), cellAt_below rest' h'.2 (by omega)] at this
          exact absurd this h.1.2
        · exact heq
        · have := he j'
          simp only [cellAt, if_true] at this
          rw [if_neg (by omega), cellAt_below rest h.2 (by omega)] at this
          exact absurd this.symm h'.1.2
      subst hj
      have hw : w = w' := by simpa [cellAt] using he j
      subst hw
      congr 1
      refine ih rest' h.2 h'.2 fun i => ?_
      have hi := he i
      simp only [cellAt] at hi
      by_cases hij : i = j
      · subst hij
        rw [cellAt_below rest h.2 (by omega), cellAt_below rest' h'.2 (by omega)]
      · simpa [hij] using hi

/-! ## Pools -/

@[simp] theorem Memory.write_size (m : Memory) (i : Nat) (v : Byte) : (m.write i v).size = m.size := by
  unfold Memory.write; split <;> rfl

theorem Memory.write_wf {m : Memory} (h : m.wf = true) (i : Nat) (v : Byte) : (m.write i v).wf = true := by
  unfold Memory.write
  split
  · have := putCell_wf (lo := 0) i v ‹_› m.cells h
    simpa [Memory.wf] using this
  · exact h

theorem Memory.read_write_same {m : Memory} (h : m.wf = true) {i : Nat} (hi : i < m.size) (v : Byte) :
    (m.write i v).read i = v := by
  simp only [Memory.write, hi, if_true, Memory.read]
  exact cellAt_putCell_same i v m.cells h

theorem Memory.read_write_other (m : Memory) {i k : Nat} (hk : k ≠ i) (v : Byte) :
    (m.write i v).read k = m.read k := by
  unfold Memory.write
  split
  · exact cellAt_putCell_other i k v hk m.cells
  · rfl

theorem Memory.read_out_of_range {m : Memory} (h : m.wf = true) {i : Nat} (hi : m.size ≤ i) : m.read i = 0 :=
  cellAt_above m.cells h hi

/-- Equal bytes make equal pools. -/
theorem Memory.ext_of_read {m m' : Memory} (h : m.wf = true) (h' : m'.wf = true) (hs : m.size = m'.size)
    (he : ∀ i, i < m.size → m.read i = m'.read i) : m = m' := by
  cases m with
  | mk size cells =>
    cases m' with
    | mk size' cells' =>
      cases hs
      congr 1
      refine cells_ext cells cells' h h' fun i => ?_
      by_cases hi : i < size
      · exact he i hi
      · rw [cellAt_above cells h (Nat.le_of_not_lt hi), cellAt_above cells' h' (Nat.le_of_not_lt hi)]

@[simp] theorem Memory.tabulate_size (n : Nat) (f : Nat → Byte) : (Memory.tabulate n f).size = n := rfl

theorem Memory.tabulate_wf (n : Nat) (f : Nat → Byte) : (Memory.tabulate n f).wf = true := by
  have := tabulateCells_wf f n 0
  simpa [Memory.wf, Memory.tabulate] using this

theorem Memory.read_tabulate {n i : Nat} (f : Nat → Byte) (hi : i < n) : (Memory.tabulate n f).read i = f i :=
  cellAt_tabulateCells f n 0 i (by omega) (by omega)

@[simp] theorem initRam_size (p : RamPolicy) (d n : Nat) : (initRam p d n).size = n := by cases p <;> rfl

theorem initRam_wf (p : RamPolicy) (d n : Nat) : (initRam p d n).wf = true := by
  cases p
  · rfl
  · exact Memory.tabulate_wf _ _
  · exact Memory.tabulate_wf _ _

@[simp] theorem Memory.writeMod_size (m : Memory) (i : Nat) (v : Byte) : (m.writeMod i v).size = m.size := by
  unfold Memory.writeMod; split <;> simp

theorem Memory.writeMod_wf {m : Memory} (h : m.wf = true) (i : Nat) (v : Byte) : (m.writeMod i v).wf = true := by
  unfold Memory.writeMod
  split
  · exact h
  · exact Memory.write_wf h _ _

theorem Memory.readMod_writeMod_same {m : Memory} (h : m.wf = true) (hs : m.size ≠ 0) (i : Nat) (v latch : Byte) :
    (m.writeMod i v).readMod i latch = v := by
  simp only [Memory.writeMod, hs, if_false, Memory.readMod, Memory.write_size]
  exact Memory.read_write_same h (Nat.mod_lt _ (by omega)) v

@[simp] theorem Memory.writeAll_size (l : List Host.Cell) : ∀ m : Memory, (m.writeAll l).size = m.size := by
  induction l with
  | nil => intro m; rfl
  | cons c rest ih => intro m; simp [Memory.writeAll, ih]

theorem Memory.writeAll_wf (l : List Host.Cell) : ∀ {m : Memory}, m.wf = true → (m.writeAll l).wf = true := by
  induction l with
  | nil => intro m h; exact h
  | cons c rest ih => intro m h; exact ih (Memory.write_wf h _ _)

@[simp] theorem zeroPool_wf (n : Nat) : (zeroPool n).wf = true := rfl

@[simp] theorem zeroPool_size (n : Nat) : (zeroPool n).size = n := rfl

@[simp] theorem zeroPool_read (n i : Nat) : (zeroPool n).read i = 0 := rfl

end Sys2Proof

namespace Sys2Proof.Machine

open Sys2Proof

theorem PoolOk.write {m : Memory} {n : Nat} (h : PoolOk m n) (i : Nat) (v : Byte) : PoolOk (m.write i v) n :=
  ⟨Memory.write_wf h.1 i v, by simp [h.2]⟩

theorem PoolOk.writeMod {m : Memory} {n : Nat} (h : PoolOk m n) (i : Nat) (v : Byte) : PoolOk (m.writeMod i v) n :=
  ⟨Memory.writeMod_wf h.1 i v, by simp [h.2]⟩

theorem PoolOk.writeAll {m : Memory} {n : Nat} (h : PoolOk m n) (l : List Host.Cell) : PoolOk (m.writeAll l) n :=
  ⟨Memory.writeAll_wf l h.1, by simp [h.2]⟩

theorem PoolOk.initRam (p : RamPolicy) (d n : Nat) : PoolOk (Sys2Proof.initRam p d n) n :=
  ⟨initRam_wf p d n, initRam_size p d n⟩

theorem PoolOk.zeroPool (n : Nat) : PoolOk (Machine.zeroPool n) n := ⟨rfl, rfl⟩

/-- Every pool of the reset state is in canonical form. -/
theorem reset_pools_wf : State.reset.chip.bus.wram.wf = true ∧ State.reset.chip.ppubus.ciram.wf = true ∧
    State.reset.chip.ppubus.palette.wf = true ∧ State.reset.chip.ppubus.exram.wf = true ∧
    State.reset.chip.ppubus.chr.wf = true ∧ State.reset.chip.cart.prgRom.wf = true ∧
    State.reset.chip.cart.prgRam.wf = true ∧ State.reset.chip.ppu.frame.wf = true :=
  ⟨rfl, rfl, rfl, rfl, rfl, rfl, rfl, rfl⟩

end Sys2Proof.Machine
end

