-- ==== Sys2Proof/Laws/State.lean ====
section
/-! SUPPORT. One lemma per field per named update of the chip and of the state: no later proof unfolds a record update. -/

namespace Sys2Proof.Machine

open Sys2Proof

/-! ## The chip -/

@[simp] theorem begin_params (c : Chip) : (c.begin).params = c.params := rfl
@[simp] theorem begin_config (c : Chip) : (c.begin).config = c.config := rfl
@[simp] theorem begin_cpu (c : Chip) : (c.begin).cpu = c.cpu := rfl
@[simp] theorem begin_bus (c : Chip) : (c.begin).bus = c.bus := rfl
@[simp] theorem begin_ppubus (c : Chip) : (c.begin).ppubus = c.ppubus := rfl
@[simp] theorem begin_cart (c : Chip) : (c.begin).cart = c.cart := rfl
@[simp] theorem begin_mapper (c : Chip) : (c.begin).mapper = c.mapper := rfl
@[simp] theorem begin_ppu (c : Chip) : (c.begin).ppu = c.ppu := rfl
@[simp] theorem begin_apu (c : Chip) : (c.begin).apu = c.apu := rfl
@[simp] theorem begin_input (c : Chip) : (c.begin).input = c.input := rfl
@[simp] theorem begin_draws (c : Chip) : (c.begin).draws = c.draws := rfl
@[simp] theorem begin_fsDefault (c : Chip) : (c.begin).fsDefault = false := rfl

@[simp] theorem drawn_params (c : Chip) : (c.drawn).params = c.params := rfl
@[simp] theorem drawn_config (c : Chip) : (c.drawn).config = c.config := rfl
@[simp] theorem drawn_cpu (c : Chip) : (c.drawn).cpu = c.cpu := rfl
@[simp] theorem drawn_bus (c : Chip) : (c.drawn).bus = c.bus := rfl
@[simp] theorem drawn_ppubus (c : Chip) : (c.drawn).ppubus = c.ppubus := rfl
@[simp] theorem drawn_cart (c : Chip) : (c.drawn).cart = c.cart := rfl
@[simp] theorem drawn_mapper (c : Chip) : (c.drawn).mapper = c.mapper := rfl
@[simp] theorem drawn_ppu (c : Chip) : (c.drawn).ppu = c.ppu := rfl
@[simp] theorem drawn_apu (c : Chip) : (c.drawn).apu = c.apu := rfl
@[simp] theorem drawn_input (c : Chip) : (c.drawn).input = c.input := rfl
@[simp] theorem drawn_draws (c : Chip) : (c.drawn).draws = c.draws + 1 := rfl
@[simp] theorem drawn_fsDefault (c : Chip) : (c.drawn).fsDefault = c.fsDefault := rfl

@[simp] theorem setRegs_params (c : Chip) (r : CpuRegs) : (c.setRegs r).params = c.params := rfl
@[simp] theorem setRegs_config (c : Chip) (r : CpuRegs) : (c.setRegs r).config = c.config := rfl
@[simp] theorem setRegs_cpu (c : Chip) (r : CpuRegs) : (c.setRegs r).cpu = { c.cpu with regs := r } := rfl
@[simp] theorem setRegs_bus (c : Chip) (r : CpuRegs) : (c.setRegs r).bus = c.bus := rfl
@[simp] theorem setRegs_ppubus (c : Chip) (r : CpuRegs) : (c.setRegs r).ppubus = c.ppubus := rfl
@[simp] theorem setRegs_cart (c : Chip) (r : CpuRegs) : (c.setRegs r).cart = c.cart := rfl
@[simp] theorem setRegs_mapper (c : Chip) (r : CpuRegs) : (c.setRegs r).mapper = c.mapper := rfl
@[simp] theorem setRegs_ppu (c : Chip) (r : CpuRegs) : (c.setRegs r).ppu = c.ppu := rfl
@[simp] theorem setRegs_apu (c : Chip) (r : CpuRegs) : (c.setRegs r).apu = c.apu := rfl
@[simp] theorem setRegs_input (c : Chip) (r : CpuRegs) : (c.setRegs r).input = c.input := rfl
@[simp] theorem setRegs_draws (c : Chip) (r : CpuRegs) : (c.setRegs r).draws = c.draws := rfl
@[simp] theorem setRegs_fsDefault (c : Chip) (r : CpuRegs) : (c.setRegs r).fsDefault = c.fsDefault := rfl

@[simp] theorem setConfig_params (c : Chip) (g : DeckConfig) : (c.setConfig g).params = c.params := rfl
@[simp] theorem setConfig_config (c : Chip) (g : DeckConfig) : (c.setConfig g).config = g := rfl
@[simp] theorem setConfig_cpu (c : Chip) (g : DeckConfig) : (c.setConfig g).cpu = c.cpu := rfl
@[simp] theorem setConfig_bus (c : Chip) (g : DeckConfig) : (c.setConfig g).bus = c.bus := rfl
@[simp] theorem setConfig_ppubus (c : Chip) (g : DeckConfig) : (c.setConfig g).ppubus = c.ppubus := rfl
@[simp] theorem setConfig_cart (c : Chip) (g : DeckConfig) : (c.setConfig g).cart = c.cart := rfl
@[simp] theorem setConfig_mapper (c : Chip) (g : DeckConfig) : (c.setConfig g).mapper = c.mapper := rfl
@[simp] theorem setConfig_ppu (c : Chip) (g : DeckConfig) : (c.setConfig g).ppu = c.ppu := rfl
@[simp] theorem setConfig_apu (c : Chip) (g : DeckConfig) : (c.setConfig g).apu = c.apu := rfl
@[simp] theorem setConfig_input (c : Chip) (g : DeckConfig) : (c.setConfig g).input = c.input := rfl
@[simp] theorem setConfig_draws (c : Chip) (g : DeckConfig) : (c.setConfig g).draws = c.draws := rfl
@[simp] theorem setConfig_fsDefault (c : Chip) (g : DeckConfig) : (c.setConfig g).fsDefault = c.fsDefault := rfl

@[simp] theorem setInput_params (c : Chip) (i : Input) : (c.setInput i).params = c.params := rfl
@[simp] theorem setInput_config (c : Chip) (i : Input) : (c.setInput i).config = c.config := rfl
@[simp] theorem setInput_cpu (c : Chip) (i : Input) : (c.setInput i).cpu = c.cpu := rfl
@[simp] theorem setInput_bus (c : Chip) (i : Input) : (c.setInput i).bus = c.bus := rfl
@[simp] theorem setInput_ppubus (c : Chip) (i : Input) : (c.setInput i).ppubus = c.ppubus := rfl
@[simp] theorem setInput_cart (c : Chip) (i : Input) : (c.setInput i).cart = c.cart := rfl
@[simp] theorem setInput_mapper (c : Chip) (i : Input) : (c.setInput i).mapper = c.mapper := rfl
@[simp] theorem setInput_ppu (c : Chip) (i : Input) : (c.setInput i).ppu = c.ppu := rfl
@[simp] theorem setInput_apu (c : Chip) (i : Input) : (c.setInput i).apu = c.apu := rfl
@[simp] theorem setInput_input (c : Chip) (i : Input) : (c.setInput i).input = i := rfl
@[simp] theorem setInput_draws (c : Chip) (i : Input) : (c.setInput i).draws = c.draws := rfl
@[simp] theorem setInput_fsDefault (c : Chip) (i : Input) : (c.setInput i).fsDefault = c.fsDefault := rfl

@[simp] theorem setGenie_params (c : Chip) (l : List GenieEntry) : (c.setGenie l).params = c.params := rfl
@[simp] theorem setGenie_config (c : Chip) (l : List GenieEntry) : (c.setGenie l).config = { c.config with genie := l.map GenieEntry.text } := rfl
@[simp] theorem setGenie_cpu (c : Chip) (l : List GenieEntry) : (c.setGenie l).cpu = c.cpu := rfl
@[simp] theorem setGenie_bus (c : Chip) (l : List GenieEntry) : (c.setGenie l).bus = { c.bus with genie := l } := rfl
@[simp] theorem setGenie_ppubus (c : Chip) (l : List GenieEntry) : (c.setGenie l).ppubus = c.ppubus := rfl
@[simp] theorem setGenie_cart (c : Chip) (l : List GenieEntry) : (c.setGenie l).cart = c.cart := rfl
@[simp] theorem setGenie_mapper (c : Chip) (l : List GenieEntry) : (c.setGenie l).mapper = c.mapper := rfl
@[simp] theorem setGenie_ppu (c : Chip) (l : List GenieEntry) : (c.setGenie l).ppu = c.ppu := rfl
@[simp] theorem setGenie_apu (c : Chip) (l : List GenieEntry) : (c.setGenie l).apu = c.apu := rfl
@[simp] theorem setGenie_input (c : Chip) (l : List GenieEntry) : (c.setGenie l).input = c.input := rfl
@[simp] theorem setGenie_draws (c : Chip) (l : List GenieEntry) : (c.setGenie l).draws = c.draws := rfl
@[simp] theorem setGenie_fsDefault (c : Chip) (l : List GenieEntry) : (c.setGenie l).fsDefault = c.fsDefault := rfl

@[simp] theorem latchCpu_params (c : Chip) (v : Byte) : (c.latchCpu v).params = c.params := rfl
@[simp] theorem latchCpu_config (c : Chip) (v : Byte) : (c.latchCpu v).config = c.config := rfl
@[simp] theorem latchCpu_cpu (c : Chip) (v : Byte) : (c.latchCpu v).cpu = c.cpu := rfl
@[simp] theorem latchCpu_bus (c : Chip) (v : Byte) : (c.latchCpu v).bus = { c.bus with openBus := v } := rfl
@[simp] theorem latchCpu_ppubus (c : Chip) (v : Byte) : (c.latchCpu v).ppubus = c.ppubus := rfl
@[simp] theorem latchCpu_cart (c : Chip) (v : Byte) : (c.latchCpu v).cart = c.cart := rfl
@[simp] theorem latchCpu_mapper (c : Chip) (v : Byte) : (c.latchCpu v).mapper = c.mapper := rfl
@[simp] theorem latchCpu_ppu (c : Chip) (v : Byte) : (c.latchCpu v).ppu = c.ppu := rfl
@[simp] theorem latchCpu_apu (c : Chip) (v : Byte) : (c.latchCpu v).apu = c.apu := rfl
@[simp] theorem latchCpu_input (c : Chip) (v : Byte) : (c.latchCpu v).input = c.input := rfl
@[simp] theorem latchCpu_draws (c : Chip) (v : Byte) : (c.latchCpu v).draws = c.draws := rfl
@[simp] theorem latchCpu_fsDefault (c : Chip) (v : Byte) : (c.latchCpu v).fsDefault = c.fsDefault := rfl

@[simp] theorem latchPpu_params (c : Chip) (v : Byte) : (c.latchPpu v).params = c.params := rfl
@[simp] theorem latchPpu_config (c : Chip) (v : Byte) : (c.latchPpu v).config = c.config := rfl
@[simp] theorem latchPpu_cpu (c : Chip) (v : Byte) : (c.latchPpu v).cpu = c.cpu := rfl
@[simp] theorem latchPpu_bus (c : Chip) (v : Byte) : (c.latchPpu v).bus = c.bus := rfl
@[simp] theorem latchPpu_ppubus (c : Chip) (v : Byte) : (c.latchPpu v).ppubus = { c.ppubus with openBus := v } := rfl
@[simp] theorem latchPpu_cart (c : Chip) (v : Byte) : (c.latchPpu v).cart = c.cart := rfl
@[simp] theorem latchPpu_mapper (c : Chip) (v : Byte) : (c.latchPpu v).mapper = c.mapper := rfl
@[simp] theorem latchPpu_ppu (c : Chip) (v : Byte) : (c.latchPpu v).ppu = c.ppu := rfl
@[simp] theorem latchPpu_apu (c : Chip) (v : Byte) : (c.latchPpu v).apu = c.apu := rfl
@[simp] theorem latchPpu_input (c : Chip) (v : Byte) : (c.latchPpu v).input = c.input := rfl
@[simp] theorem latchPpu_draws (c : Chip) (v : Byte) : (c.latchPpu v).draws = c.draws := rfl
@[simp] theorem latchPpu_fsDefault (c : Chip) (v : Byte) : (c.latchPpu v).fsDefault = c.fsDefault := rfl

@[simp] theorem notify_params (c : Chip) (a : Addr) : (c.notify a).params = c.params := rfl
@[simp] theorem notify_config (c : Chip) (a : Addr) : (c.notify a).config = c.config := rfl
@[simp] theorem notify_cpu (c : Chip) (a : Addr) : (c.notify a).cpu = c.cpu := rfl
@[simp] theorem notify_bus (c : Chip) (a : Addr) : (c.notify a).bus = c.bus := rfl
@[simp] theorem notify_ppubus (c : Chip) (a : Addr) : (c.notify a).ppubus = c.ppubus := rfl
@[simp] theorem notify_cart (c : Chip) (a : Addr) : (c.notify a).cart = c.cart := rfl
@[simp] theorem notify_mapper (c : Chip) (a : Addr) : (c.notify a).mapper = c.mapper.notify c.params.a12FilterCycles a c.cpu.cycle := rfl
@[simp] theorem notify_ppu (c : Chip) (a : Addr) : (c.notify a).ppu = c.ppu := rfl
@[simp] theorem notify_apu (c : Chip) (a : Addr) : (c.notify a).apu = c.apu := rfl
@[simp] theorem notify_input (c : Chip) (a : Addr) : (c.notify a).input = c.input := rfl
@[simp] theorem notify_draws (c : Chip) (a : Addr) : (c.notify a).draws = c.draws := rfl
@[simp] theorem notify_fsDefault (c : Chip) (a : Addr) : (c.notify a).fsDefault = c.fsDefault := rfl

@[simp] theorem refreshMirror_params (c : Chip) : (c.refreshMirror).params = c.params := rfl
@[simp] theorem refreshMirror_config (c : Chip) : (c.refreshMirror).config = c.config := rfl
@[simp] theorem refreshMirror_cpu (c : Chip) : (c.refreshMirror).cpu = c.cpu := rfl
@[simp] theorem refreshMirror_bus (c : Chip) : (c.refreshMirror).bus = c.bus := rfl
@[simp] theorem refreshMirror_ppubus (c : Chip) : (c.refreshMirror).ppubus = { c.ppubus with mirrorShift := mirrorShiftOf c.mapper.mirroring } := rfl
@[simp] theorem refreshMirror_cart (c : Chip) : (c.refreshMirror).cart = c.cart := rfl
@[simp] theorem refreshMirror_mapper (c : Chip) : (c.refreshMirror).mapper = c.mapper := rfl
@[simp] theorem refreshMirror_ppu (c : Chip) : (c.refreshMirror).ppu = c.ppu := rfl
@[simp] theorem refreshMirror_apu (c : Chip) : (c.refreshMirror).apu = c.apu := rfl
@[simp] theorem refreshMirror_input (c : Chip) : (c.refreshMirror).input = c.input := rfl
@[simp] theorem refreshMirror_draws (c : Chip) : (c.refreshMirror).draws = c.draws := rfl
@[simp] theorem refreshMirror_fsDefault (c : Chip) : (c.refreshMirror).fsDefault = c.fsDefault := rfl

@[simp] theorem markFourScreen_params (c : Chip) : (c.markFourScreen).params = c.params := rfl
@[simp] theorem markFourScreen_config (c : Chip) : (c.markFourScreen).config = c.config := rfl
@[simp] theorem markFourScreen_cpu (c : Chip) : (c.markFourScreen).cpu = c.cpu := rfl
@[simp] theorem markFourScreen_bus (c : Chip) : (c.markFourScreen).bus = c.bus := rfl
@[simp] theorem markFourScreen_ppubus (c : Chip) : (c.markFourScreen).ppubus = c.ppubus := rfl
@[simp] theorem markFourScreen_cart (c : Chip) : (c.markFourScreen).cart = c.cart := rfl
@[simp] theorem markFourScreen_mapper (c : Chip) : (c.markFourScreen).mapper = c.mapper := rfl
@[simp] theorem markFourScreen_ppu (c : Chip) : (c.markFourScreen).ppu = c.ppu := rfl
@[simp] theorem markFourScreen_apu (c : Chip) : (c.markFourScreen).apu = c.apu := rfl
@[simp] theorem markFourScreen_input (c : Chip) : (c.markFourScreen).input = c.input := rfl
@[simp] theorem markFourScreen_draws (c : Chip) : (c.markFourScreen).draws = c.draws + 1 := rfl
@[simp] theorem markFourScreen_fsDefault (c : Chip) : (c.markFourScreen).fsDefault = true := rfl

@[simp] theorem keepPpuSide_params (c : Chip) (d : Chip) : (c.keepPpuSide d).params = c.params := rfl
@[simp] theorem keepPpuSide_config (c : Chip) (d : Chip) : (c.keepPpuSide d).config = c.config := rfl
@[simp] theorem keepPpuSide_cpu (c : Chip) (d : Chip) : (c.keepPpuSide d).cpu = c.cpu := rfl
@[simp] theorem keepPpuSide_bus (c : Chip) (d : Chip) : (c.keepPpuSide d).bus = c.bus := rfl
@[simp] theorem keepPpuSide_ppubus (c : Chip) (d : Chip) : (c.keepPpuSide d).ppubus = d.ppubus := rfl
@[simp] theorem keepPpuSide_cart (c : Chip) (d : Chip) : (c.keepPpuSide d).cart = d.cart := rfl
@[simp] theorem keepPpuSide_mapper (c : Chip) (d : Chip) : (c.keepPpuSide d).mapper = d.mapper := rfl
@[simp] theorem keepPpuSide_ppu (c : Chip) (d : Chip) : (c.keepPpuSide d).ppu = d.ppu := rfl
@[simp] theorem keepPpuSide_apu (c : Chip) (d : Chip) : (c.keepPpuSide d).apu = c.apu := rfl
@[simp] theorem keepPpuSide_input (c : Chip) (d : Chip) : (c.keepPpuSide d).input = c.input := rfl
@[simp] theorem keepPpuSide_draws (c : Chip) (d : Chip) : (c.keepPpuSide d).draws = d.draws := rfl
@[simp] theorem keepPpuSide_fsDefault (c : Chip) (d : Chip) : (c.keepPpuSide d).fsDefault = d.fsDefault := rfl

@[simp] theorem endTrigger_params (c : Chip) (n : BitVec 32) : (endTrigger n c).params = c.params := rfl
@[simp] theorem endTrigger_config (c : Chip) (n : BitVec 32) : (endTrigger n c).config = c.config := rfl
@[simp] theorem endTrigger_cpu (c : Chip) (n : BitVec 32) : (endTrigger n c).cpu = c.cpu := rfl
@[simp] theorem endTrigger_bus (c : Chip) (n : BitVec 32) : (endTrigger n c).bus = c.bus := rfl
@[simp] theorem endTrigger_ppubus (c : Chip) (n : BitVec 32) : (endTrigger n c).ppubus = c.ppubus := rfl
@[simp] theorem endTrigger_cart (c : Chip) (n : BitVec 32) : (endTrigger n c).cart = c.cart := rfl
@[simp] theorem endTrigger_mapper (c : Chip) (n : BitVec 32) : (endTrigger n c).mapper = c.mapper := rfl
@[simp] theorem endTrigger_ppu (c : Chip) (n : BitVec 32) : (endTrigger n c).ppu = c.ppu := rfl
@[simp] theorem endTrigger_apu (c : Chip) (n : BitVec 32) : (endTrigger n c).apu = c.apu := rfl
@[simp] theorem endTrigger_input (c : Chip) (n : BitVec 32) : (endTrigger n c).input = { c.input with zapper := { c.input.zapper with
      trigger := c.input.zapper.trigger && c.ppu.frameNumber == n } } := rfl
@[simp] theorem endTrigger_draws (c : Chip) (n : BitVec 32) : (endTrigger n c).draws = c.draws := rfl
@[simp] theorem endTrigger_fsDefault (c : Chip) (n : BitVec 32) : (endTrigger n c).fsDefault = c.fsDefault := rfl

@[simp] theorem sampleNmi_params (c : Chip) : (sampleNmi c).params = c.params := rfl
@[simp] theorem sampleNmi_config (c : Chip) : (sampleNmi c).config = c.config := rfl
@[simp] theorem sampleNmi_cpu (c : Chip) : (sampleNmi c).cpu = { c.cpu with
      nmiLatch := c.cpu.nmiLatch || (c.ppu.nmiOut && !c.cpu.nmiPrev), nmiPrev := c.ppu.nmiOut } := rfl
@[simp] theorem sampleNmi_bus (c : Chip) : (sampleNmi c).bus = c.bus := rfl
@[simp] theorem sampleNmi_ppubus (c : Chip) : (sampleNmi c).ppubus = c.ppubus := rfl
@[simp] theorem sampleNmi_cart (c : Chip) : (sampleNmi c).cart = c.cart := rfl
@[simp] theorem sampleNmi_mapper (c : Chip) : (sampleNmi c).mapper = c.mapper := rfl
@[simp] theorem sampleNmi_ppu (c : Chip) : (sampleNmi c).ppu = c.ppu := rfl
@[simp] theorem sampleNmi_apu (c : Chip) : (sampleNmi c).apu = c.apu := rfl
@[simp] theorem sampleNmi_input (c : Chip) : (sampleNmi c).input = c.input := rfl
@[simp] theorem sampleNmi_draws (c : Chip) : (sampleNmi c).draws = c.draws := rfl
@[simp] theorem sampleNmi_fsDefault (c : Chip) : (sampleNmi c).fsDefault = c.fsDefault := rfl

@[simp] theorem clockMapper_params (c : Chip) : (clockMapper c).params = c.params := rfl
@[simp] theorem clockMapper_config (c : Chip) : (clockMapper c).config = c.config := rfl
@[simp] theorem clockMapper_cpu (c : Chip) : (clockMapper c).cpu = c.cpu := rfl
@[simp] theorem clockMapper_bus (c : Chip) : (clockMapper c).bus = c.bus := rfl
@[simp] theorem clockMapper_ppubus (c : Chip) : (clockMapper c).ppubus = c.ppubus := rfl
@[simp] theorem clockMapper_cart (c : Chip) : (clockMapper c).cart = c.cart := rfl
@[simp] theorem clockMapper_mapper (c : Chip) : (clockMapper c).mapper = c.mapper := rfl
@[simp] theorem clockMapper_ppu (c : Chip) : (clockMapper c).ppu = c.ppu := rfl
@[simp] theorem clockMapper_apu (c : Chip) : (clockMapper c).apu = c.apu := rfl
@[simp] theorem clockMapper_input (c : Chip) : (clockMapper c).input = c.input := rfl
@[simp] theorem clockMapper_draws (c : Chip) : (clockMapper c).draws = c.draws := rfl
@[simp] theorem clockMapper_fsDefault (c : Chip) : (clockMapper c).fsDefault = c.fsDefault := rfl

/-! ## The state -/

@[simp] theorem finish_chip (s : State) (r : Result) : (s.finish r).chip = s.chip := rfl
@[simp] theorem finish_running (s : State) (r : Result) : (s.finish r).running = s.running := rfl
@[simp] theorem finish_loadedRom (s : State) (r : Result) : (s.finish r).loadedRom = s.loadedRom := rfl
@[simp] theorem finish_batteryBacked (s : State) (r : Result) : (s.finish r).batteryBacked = s.batteryBacked := rfl
@[simp] theorem finish_cyclesRemaining (s : State) (r : Result) : (s.finish r).cyclesRemaining = s.cyclesRemaining := rfl
@[simp] theorem finish_refused (s : State) (r : Result) : (s.finish r).refused = s.refused := rfl
@[simp] theorem finish_pending (s : State) (r : Result) : (s.finish r).pending = s.pending := rfl
@[simp] theorem finish_result (s : State) (r : Result) : (s.finish r).result = some r := rfl
@[simp] theorem finish_ongoing (s : State) (r : Result) : (s.finish r).ongoing = s.ongoing := rfl

@[simp] theorem refuse_chip (s : State) (r : RefuseReason) : (s.refuse r).chip = s.chip := rfl
@[simp] theorem refuse_running (s : State) (r : RefuseReason) : (s.refuse r).running = s.running := rfl
@[simp] theorem refuse_loadedRom (s : State) (r : RefuseReason) : (s.refuse r).loadedRom = s.loadedRom := rfl
@[simp] theorem refuse_batteryBacked (s : State) (r : RefuseReason) : (s.refuse r).batteryBacked = s.batteryBacked := rfl
@[simp] theorem refuse_cyclesRemaining (s : State) (r : RefuseReason) : (s.refuse r).cyclesRemaining = s.cyclesRemaining := rfl
@[simp] theorem refuse_refused (s : State) (r : RefuseReason) : (s.refuse r).refused = true := rfl
@[simp] theorem refuse_pending (s : State) (r : RefuseReason) : (s.refuse r).pending = s.pending := rfl
@[simp] theorem refuse_result (s : State) (r : RefuseReason) : (s.refuse r).result = some (.refused r) := rfl
@[simp] theorem refuse_ongoing (s : State) (r : RefuseReason) : (s.refuse r).ongoing = s.ongoing := rfl

@[simp] theorem setChip_chip (s : State) (c : Chip) : (s.setChip c).chip = c := rfl
@[simp] theorem setChip_running (s : State) (c : Chip) : (s.setChip c).running = s.running := rfl
@[simp] theorem setChip_loadedRom (s : State) (c : Chip) : (s.setChip c).loadedRom = s.loadedRom := rfl
@[simp] theorem setChip_batteryBacked (s : State) (c : Chip) : (s.setChip c).batteryBacked = s.batteryBacked := rfl
@[simp] theorem setChip_cyclesRemaining (s : State) (c : Chip) : (s.setChip c).cyclesRemaining = s.cyclesRemaining := rfl
@[simp] theorem setChip_refused (s : State) (c : Chip) : (s.setChip c).refused = s.refused := rfl
@[simp] theorem setChip_pending (s : State) (c : Chip) : (s.setChip c).pending = s.pending := rfl
@[simp] theorem setChip_result (s : State) (c : Chip) : (s.setChip c).result = some (.ok .unit) := rfl
@[simp] theorem setChip_ongoing (s : State) (c : Chip) : (s.setChip c).ongoing = s.ongoing := rfl

@[simp] theorem commit_chip (s : State) (c : Chip) (r : Result) : (s.commit c r).chip = c.begin := rfl
@[simp] theorem commit_running (s : State) (c : Chip) (r : Result) : (s.commit c r).running = s.running := rfl
@[simp] theorem commit_loadedRom (s : State) (c : Chip) (r : Result) : (s.commit c r).loadedRom = s.loadedRom := rfl
@[simp] theorem commit_batteryBacked (s : State) (c : Chip) (r : Result) : (s.commit c r).batteryBacked = s.batteryBacked := rfl
@[simp] theorem commit_cyclesRemaining (s : State) (c : Chip) (r : Result) : (s.commit c r).cyclesRemaining = s.cyclesRemaining := rfl
@[simp] theorem commit_refused (s : State) (c : Chip) (r : Result) : (s.commit c r).refused = (s.refused || c.fsDefault) := rfl
@[simp] theorem commit_pending (s : State) (c : Chip) (r : Result) : (s.commit c r).pending = s.pending := rfl
@[simp] theorem commit_result (s : State) (c : Chip) (r : Result) : (s.commit c r).result = some (if c.fsDefault then .refused .fourScreenDefault else r) := rfl
@[simp] theorem commit_ongoing (s : State) (c : Chip) (r : Result) : (s.commit c r).ongoing = s.ongoing := rfl

@[simp] theorem pushWord_chip (s : State) (h : HostWord) : (s.pushWord h).chip = s.chip := rfl
@[simp] theorem pushWord_running (s : State) (h : HostWord) : (s.pushWord h).running = s.running := rfl
@[simp] theorem pushWord_loadedRom (s : State) (h : HostWord) : (s.pushWord h).loadedRom = s.loadedRom := rfl
@[simp] theorem pushWord_batteryBacked (s : State) (h : HostWord) : (s.pushWord h).batteryBacked = s.batteryBacked := rfl
@[simp] theorem pushWord_cyclesRemaining (s : State) (h : HostWord) : (s.pushWord h).cyclesRemaining = s.cyclesRemaining := rfl
@[simp] theorem pushWord_refused (s : State) (h : HostWord) : (s.pushWord h).refused = s.refused := rfl
@[simp] theorem pushWord_pending (s : State) (h : HostWord) : (s.pushWord h).pending = h :: s.pending := rfl
@[simp] theorem pushWord_result (s : State) (h : HostWord) : (s.pushWord h).result = s.result := rfl
@[simp] theorem pushWord_ongoing (s : State) (h : HostWord) : (s.pushWord h).ongoing = none := rfl

/-- A command that met no refusal commits the chip as it is. -/
theorem begin_of_noRefusal {c : Chip} (h : c.fsDefault = false) : c.begin = c := by
  cases c; cases h; rfl

/-- A command that met no refusal ends with its chip and its result. -/
theorem commit_of_noRefusal (s : State) {c : Chip} (h : c.fsDefault = false) (r : Result) :
    s.commit c r = { s with chip := c, result := some r } := by
  cases s; simp [State.commit, begin_of_noRefusal h, h]

end Sys2Proof.Machine
end

