-- ==== Sys2Proof/Laws/Mapper.lean ====
section
/-! SUPPORT. What a board can do at a transaction, a notification or a clock: its variant and its selection never change
(R55), and a notification leaves its mirroring (R459). -/

namespace Sys2Proof.Machine

open Sys2Proof

@[simp] theorem notify_identity (f : Nat) (a : Addr) (t : Stamp) (m : Mapper) :
    boardIdentity (m.notify f a t) = boardIdentity m := by
  rcases m with _ | ⟨info, regs⟩
  · rfl
  · cases regs <;> rfl

@[simp] theorem cpuWrite_identity (a : Addr) (v : Byte) (t : Stamp) (m : Mapper) :
    boardIdentity (m.cpuWrite a v t).1 = boardIdentity m := by
  rcases m with _ | ⟨info, regs⟩
  · rfl
  · cases regs <;> rfl

@[simp] theorem ppuWrite_fst (a : Addr) (v : Byte) (m : Mapper) : (m.ppuWrite a v).1 = m := by
  rcases m with _ | ⟨info, regs⟩ <;> rfl

@[simp] theorem clock_eq (t : Stamp) (m : Mapper) : m.clock t = m := rfl

@[simp] theorem softReset_eq (m : Mapper) : m.softReset = m := rfl

@[simp] theorem hardReset_identity (m : Mapper) : boardIdentity m.hardReset = boardIdentity m := by
  rcases m with _ | ⟨info, regs⟩
  · rfl
  · cases regs <;> rfl

theorem mmc3ClockIrq_mirroringReg (rev : Revision) (m : Mmc3) : (mmc3ClockIrq rev m).mirroringReg = m.mirroringReg := rfl

theorem mmc3Notify_mirroringReg (rev : Revision) (f : Nat) (m : Mmc3) (a : Addr) (t : Stamp) :
    (mmc3Notify rev f m a t).mirroringReg = m.mirroringReg := by
  unfold mmc3Notify
  simp only
  split <;> rfl

@[simp] theorem notify_mirroring (f : Nat) (a : Addr) (t : Stamp) (m : Mapper) :
    (m.notify f a t).mirroring = m.mirroring := by
  rcases m with _ | ⟨info, regs⟩
  · rfl
  · cases regs <;> simp [Mapper.notify, Mapper.mirroring, boardMirroring, mmc3Mirroring, mmc3Notify_mirroringReg]

/-! ## What the identity decides -/

theorem kind_of_identity {m m' : Mapper} (h : boardIdentity m = boardIdentity m') : m.kind = m'.kind := by
  rcases m with _ | ⟨info, regs⟩ <;> rcases m' with _ | ⟨info', regs'⟩ <;>
    simp_all [boardIdentity, Mapper.kind]

theorem fourScreen_of_identity {m m' : Mapper} (h : boardIdentity m = boardIdentity m') :
    m.fourScreen = m'.fourScreen := by
  rcases m with _ | ⟨info, regs⟩ <;> rcases m' with _ | ⟨info', regs'⟩ <;>
    simp_all [boardIdentity, Mapper.fourScreen]

theorem prgRamSize_of_identity {m m' : Mapper} (h : boardIdentity m = boardIdentity m') :
    m.prgRamSize = m'.prgRamSize := by
  rcases m with _ | ⟨info, regs⟩ <;> rcases m' with _ | ⟨info', regs'⟩
  · rfl
  · simp [boardIdentity] at h
  · simp [boardIdentity] at h
  · cases regs <;> cases regs' <;> simp_all [boardIdentity, BoardRegs.kind, Mapper.prgRamSize]

/-- The mirroring of a board whose header is not Four-Screen is never Four-Screen. -/
theorem mirroring_fourScreen {info : BoardInfo} {regs : BoardRegs}
    (hf : info.fourScreen = decide (info.header = .fourScreen))
    (h : (Mapper.board info regs).mirroring = .fourScreen) : info.fourScreen = true := by
  by_contra hn
  simp only [Mapper.mirroring, hn] at h
  have hh : info.header ≠ .fourScreen := by
    intro e; rw [e] at hf; simp at hf; exact hn hf
  cases regs <;> simp [boardMirroring, axromMirroring, mmc1Mirroring, mmc3Mirroring] at h
  case nrom => cases hi : info.header <;> simp_all [headerMode]
  case uxrom => cases hi : info.header <;> simp_all [headerMode]
  case cnrom => cases hi : info.header <;> simp_all [headerMode]
  all_goals (repeat' (split at h)) <;> simp_all

end Sys2Proof.Machine
end

