-- ==== Sys2Proof/Laws/Runs.lean ====
section
/-! SUPPORT. Everything that processor activity can do to the chip, said once: what stays (`Runs`, `Quiet`), and that the
invariant of the chip is kept. One lemma per transaction. -/

namespace Sys2Proof.Machine

open Sys2Proof

/-- What any step of the control unit keeps. -/
structure Runs (c d : Chip) : Prop where
  params   : d.params = c.params := by rfl
  config   : d.config = c.config := by rfl
  genie    : d.bus.genie = c.bus.genie := by rfl
  prgRom   : d.cart.prgRom = c.cart.prgRom := by rfl
  desc     : d.cart.desc = c.cart.desc := by rfl
  chrIsRam : d.ppubus.chrIsRam = c.ppubus.chrIsRam := by rfl
  chrRom   : c.ppubus.chrIsRam = false → d.ppubus.chr = c.ppubus.chr := by exact fun _ => rfl
  chrSize  : d.ppubus.chr.size = c.ppubus.chr.size := by rfl
  identity : boardIdentity d.mapper = boardIdentity c.mapper := by rfl
  channels : d.apu.channelEnabled = c.apu.channelEnabled := by rfl
  samples  : ∃ l, d.apu.samples = c.apu.samples ++ l := by exact ⟨[], (List.append_nil _).symm⟩
  joypads  : d.input.joypad0 = c.input.joypad0 ∧ d.input.joypad1 = c.input.joypad1 ∧
             d.input.joypad2 = c.input.joypad2 ∧ d.input.joypad3 = c.input.joypad3 := by exact ⟨rfl, rfl, rfl, rfl⟩
  zapper   : d.input.zapper.connected = c.input.zapper.connected ∧ d.input.zapper.x = c.input.zapper.x ∧
             d.input.zapper.y = c.input.zapper.y := by exact ⟨rfl, rfl, rfl⟩
  inv      : c.Inv → d.Inv

/-- What a transaction or a cycle keeps besides: the processor's registers and its corrupted flag. -/
structure Quiet (c d : Chip) : Prop extends Runs c d where
  regs      : d.cpu.regs = c.cpu.regs := by rfl
  corrupted : d.cpu.corrupted = c.cpu.corrupted := by rfl

theorem Runs.refl (c : Chip) : Runs c c :=
  ⟨rfl, rfl, rfl, rfl, rfl, rfl, fun _ => rfl, rfl, rfl, rfl, ⟨[], by simp⟩, ⟨rfl, rfl, rfl, rfl⟩, ⟨rfl, rfl, rfl⟩, id⟩

theorem Runs.trans {c d e : Chip} (h : Runs c d) (k : Runs d e) : Runs c e where
  params := k.params.trans h.params
  config := k.config.trans h.config
  genie := k.genie.trans h.genie
  prgRom := k.prgRom.trans h.prgRom
  desc := k.desc.trans h.desc
  chrIsRam := k.chrIsRam.trans h.chrIsRam
  chrRom := fun hr => (k.chrRom (h.chrIsRam.trans hr)).trans (h.chrRom hr)
  chrSize := k.chrSize.trans h.chrSize
  identity := k.identity.trans h.identity
  channels := k.channels.trans h.channels
  samples := by
    obtain ⟨l, hl⟩ := h.samples
    obtain ⟨l', hl'⟩ := k.samples
    exact ⟨l ++ l', by rw [hl', hl, List.append_assoc]⟩
  joypads := ⟨k.joypads.1.trans h.joypads.1, k.joypads.2.1.trans h.joypads.2.1,
    k.joypads.2.2.1.trans h.joypads.2.2.1, k.joypads.2.2.2.trans h.joypads.2.2.2⟩
  zapper := ⟨k.zapper.1.trans h.zapper.1, k.zapper.2.1.trans h.zapper.2.1, k.zapper.2.2.trans h.zapper.2.2⟩
  inv := fun i => k.inv (h.inv i)

theorem Quiet.refl (c : Chip) : Quiet c c := ⟨Runs.refl c, rfl, rfl⟩

theorem Quiet.trans {c d e : Chip} (h : Quiet c d) (k : Quiet d e) : Quiet c e :=
  ⟨h.toRuns.trans k.toRuns, k.regs.trans h.regs, k.corrupted.trans h.corrupted⟩

/-! ## The invariant from what stays -/

theorem CartridgeOk.congr {c d : Chip} (h : CartridgeOk c) (hi : boardIdentity d.mapper = boardIdentity c.mapper)
    (hd : d.cart.desc = c.cart.desc) (hp : d.cart.prgRom = c.cart.prgRom)
    (hr : d.config.region = c.config.region) (hc : d.ppubus.chrIsRam = c.ppubus.chrIsRam)
    (hrom : c.ppubus.chrIsRam = false → d.ppubus.chr = c.ppubus.chr)
    (hs : d.ppubus.chr.size = c.ppubus.chr.size) : CartridgeOk d := by
  unfold CartridgeOk at h ⊢
  rcases hm : c.mapper with _ | ⟨info, regs⟩ <;> rcases hm' : d.mapper with _ | ⟨info', regs'⟩ <;>
    rw [hm, hm'] at hi <;> rw [hm] at h
  · exact ⟨hd.trans h.desc, hp.trans h.prgRom, (hrom h.chrIsRam).trans h.chr, hc.trans h.chrIsRam⟩
  · simp [boardIdentity] at hi
  · simp [boardIdentity] at hi
  · simp only [boardIdentity, Option.some.injEq, Prod.mk.injEq] at hi
    obtain ⟨rfl, hk⟩ := hi
    obtain ⟨e, he⟩ := h
    exact ⟨e, {
      desc := hd.trans he.desc
      descWf := he.descWf
      valid := he.valid
      variant := by rw [hk]; exact he.variant
      header := he.header
      fourScreen := he.fourScreen
      region := by rw [hr]; exact he.region
      prgRom := hp.trans he.prgRom
      chrIsRam := hc.trans he.chrIsRam
      chrRom := fun hn => (hrom (by rw [he.chrIsRam]; simpa using hn)).trans (he.chrRom hn)
      chrRam := fun hz => hs.trans (he.chrRam hz) }⟩

/-- The invariant after a change that keeps the cartridge, the pools' form, the counters and the cheat table. -/
theorem Chip.Inv.congr {c d : Chip} (h : c.Inv) (hpar : d.params = c.params := by rfl)
    (hcfg : d.config = c.config := by rfl) (hgen : d.bus.genie = c.bus.genie := by rfl)
    (hw : PoolOk d.bus.wram 2048 := by exact h.wram) (hci : PoolOk d.ppubus.ciram 2048 := by exact h.ciram)
    (hpal : PoolOk d.ppubus.palette 32 := by exact h.palette)
    (hex : d.ppubus.exram.wf = true ∧ d.ppubus.exram.size = c.ppubus.exram.size := by exact ⟨h.exram.1, rfl⟩)
    (hchr : d.ppubus.chr.wf = true := by exact h.chr) (hchrs : d.ppubus.chr.size = c.ppubus.chr.size := by rfl)
    (hram : d.cart.prgRam.wf = true ∧ d.cart.prgRam.size = c.cart.prgRam.size := by exact ⟨h.prgRam.1, rfl⟩)
    (hfr : PoolOk d.ppu.frame 61440 := by exact h.frame)
    (hmir : d.ppubus.mirrorShift = mirrorShiftOf d.mapper.mirroring := by exact h.mirror)
    (hid : boardIdentity d.mapper = boardIdentity c.mapper := by rfl) (hdesc : d.cart.desc = c.cart.desc := by rfl)
    (hrom : d.cart.prgRom = c.cart.prgRom := by rfl) (hisram : d.ppubus.chrIsRam = c.ppubus.chrIsRam := by rfl)
    (hchrrom : c.ppubus.chrIsRam = false → d.ppubus.chr = c.ppubus.chr := by exact fun _ => rfl)
    (hdot : d.ppu.dot < c.params.dotsPerScanline := by exact h.dot)
    (hline : d.ppu.scanline < maxScanlines c.params := by exact h.scanline)
    (hfs : d.fsDefault = false := by exact h.noRefusal) : d.Inv where
  params := by rw [hpar]; exact h.params
  wram := hw
  ciram := hci
  palette := hpal
  exram := ⟨hex.1, by rw [hex.2, fourScreen_of_identity hid]; exact h.exram.2⟩
  chr := hchr
  prgRam := ⟨hram.1, by rw [hram.2, prgRamSize_of_identity hid]; exact h.prgRam.2⟩
  frame := hfr
  mirror := hmir
  cartridge := h.cartridge.congr hid hdesc hrom (by rw [hcfg]) hisram hchrrom hchrs
  dot := by rw [hpar]; exact hdot
  scanline := by rw [hpar]; exact hline
  genieList := by rw [hcfg, hgen]; exact h.genieList
  genieOnce := by rw [hgen]; exact h.genieOnce
  genieCodes := by rw [hgen]; exact h.genieCodes
  noRefusal := hfs

/-! ## The PPU bus -/

theorem mirrorShiftOf_fs {m : Mirroring} (h : mirrorShiftOf m = .fs) : m = .fourScreen := by
  cases m <;> simp [mirrorShiftOf] at h ⊢

/-- Under the invariant the mirror shift is Four-Screen only on a board that resolves Four-Screen itself. -/
theorem Chip.Inv.fs_board {c : Chip} (h : c.Inv) (hs : c.ppubus.mirrorShift = .fs) : c.mapper.fourScreen = true := by
  have hm := h.mirror
  rw [hs] at hm
  have hmode := mirrorShiftOf_fs hm.symm
  have hc := h.cartridge
  unfold CartridgeOk at hc
  rcases hb : c.mapper with _ | ⟨info, regs⟩
  · rw [hb] at hmode; simp [Mapper.mirroring] at hmode
  · rw [hb] at hc hmode
    obtain ⟨d, hd⟩ := hc
    exact mirroring_fourScreen (by rw [hd.fourScreen, hd.header]) hmode

theorem ciramIndex_isSome {m : MirrorShift} (h : m ≠ .fs) (a : Addr) : ∃ i, ciramIndex m a = some i := by
  cases m <;> simp [ciramIndex, halfBit] at h ⊢

/-- Rule R107's refusal never happens under the invariant, at a read. -/
theorem resolvePpu_isSome {c : Chip} (h : c.Inv) (a : Addr) :
    ∃ v, resolvePpu c a (c.mapper.ppuRead a) = some v := by
  unfold resolvePpu
  split
  · rename_i hd
    split
    · exact ⟨_, rfl⟩
    · rename_i ha
      have hs : c.ppubus.mirrorShift ≠ .fs := by
        intro hs
        have hf := h.fs_board hs
        rcases hb : c.mapper with _ | ⟨info, regs⟩
        · rw [hb] at hf; simp [Mapper.fourScreen] at hf
        · rw [hb] at hf hd
          simp only [Mapper.fourScreen] at hf
          simp [Mapper.ppuRead, ha, hf, fourScreenRead] at hd
          split at hd <;> simp at hd
      obtain ⟨i, hi⟩ := ciramIndex_isSome hs a
      exact ⟨_, by rw [hi]; rfl⟩
  · exact ⟨_, rfl⟩

/-- Rule R107's refusal never happens under the invariant, at a write. -/
theorem applyPpu_isSome {c : Chip} (h : c.Inv) (a : Addr) (v : Byte) :
    ∃ d, applyPpu c a v (c.mapper.ppuWrite a v).2 = some d := by
  unfold applyPpu
  split
  · rename_i hd
    split
    · exact ⟨_, rfl⟩
    · rename_i ha
      have hs : c.ppubus.mirrorShift ≠ .fs := by
        intro hs
        have hf := h.fs_board hs
        rcases hb : c.mapper with _ | ⟨info, regs⟩
        · rw [hb] at hf; simp [Mapper.fourScreen] at hf
        · rw [hb] at hf hd
          simp only [Mapper.fourScreen] at hf
          simp [Mapper.ppuWrite, ha, hf, fourScreenWrite] at hd
          split at hd <;> simp at hd
      obtain ⟨i, hi⟩ := ciramIndex_isSome hs a
      exact ⟨_, by rw [hi]; rfl⟩
  · exact ⟨_, rfl⟩

theorem notify_quiet (a : Addr) (c : Chip) : Quiet c (c.notify a) where
  identity := notify_identity _ _ _ _
  inv := fun h => h.congr (hid := notify_identity _ _ _ _) (hmir := by simpa using h.mirror)

theorem latchPpu_quiet (v : Byte) (c : Chip) : Quiet c (c.latchPpu v) where
  inv := fun h => h.congr

theorem latchCpu_quiet (v : Byte) (c : Chip) : Quiet c (c.latchCpu v) where
  inv := fun h => h.congr

theorem drawn_quiet (c : Chip) : Quiet c c.drawn where
  inv := fun h => h.congr

/-- The storage half of a write (R109): PRG ROM and CHR ROM are never written. -/
theorem storePool_quiet (c : Chip) (v : Byte) (w : MappedWrite) : Quiet c (storePool c v w) := by
  cases w with
  | dflt => exact Quiet.refl c
  | none => exact Quiet.refl c
  | prgRam i =>
    exact { inv := fun h => h.congr (hram := ⟨Memory.writeMod_wf h.prgRam.1 i v, Memory.writeMod_size _ i v⟩) }
  | chr i =>
    have hs : (if c.ppubus.chrIsRam then c.ppubus.chr.writeMod i v else c.ppubus.chr).size = c.ppubus.chr.size := by
      split <;> simp
    have hr : c.ppubus.chrIsRam = false →
        (if c.ppubus.chrIsRam then c.ppubus.chr.writeMod i v else c.ppubus.chr) = c.ppubus.chr := fun hf => by simp [hf]
    refine { chrRom := hr, chrSize := hs, inv := fun h => h.congr (hchr := ?_) (hchrs := hs) (hchrrom := hr) }
    simp only [storePool]
    split
    · exact Memory.writeMod_wf h.chr i v
    · exact h.chr
  | ciRam i =>
    exact { inv := fun h => h.congr (hci := h.ciram.writeMod i v) }
  | exRam i =>
    exact { inv := fun h => h.congr (hex := ⟨Memory.writeMod_wf h.exram.1 i v, Memory.writeMod_size _ i v⟩) }

theorem markFourScreen_runs {c : Chip} (h : ¬ c.Inv) : Quiet c c.markFourScreen where
  inv := fun i => absurd i h

theorem refreshMirror_quiet (c : Chip) : Quiet c c.refreshMirror where
  inv := fun h => h.congr (hmir := rfl)

theorem ppuMappedRead_quiet (a : Addr) (c : Chip) : Quiet c (ppuMappedRead a c).1 := by
  unfold ppuMappedRead
  split
  · exact (notify_quiet a c).trans (latchPpu_quiet _ _)
  · rename_i hn
    refine (notify_quiet a c).trans (Quiet.trans (markFourScreen_runs fun h => ?_) (latchPpu_quiet _ _))
    obtain ⟨v, hv⟩ := resolvePpu_isSome h a
    rw [hn] at hv
    cases hv

theorem ppuMappedWrite_quiet (a : Addr) (v : Byte) (c : Chip) : Quiet c (ppuMappedWrite a v c) := by
  have hm : ∀ n : Chip, { n with mapper := (n.mapper.ppuWrite a v).1 } = n := fun n => by
    cases n; simp
  unfold ppuMappedWrite
  simp only [hm]
  split
  · rename_i t ht
    refine (notify_quiet a c).trans (Quiet.trans ?_ ((refreshMirror_quiet t).trans (latchPpu_quiet v _)))
    unfold applyPpu at ht
    split at ht
    · split at ht
      · cases ht; exact storePool_quiet _ _ _
      · cases hi : ciramIndex (c.notify a).ppubus.mirrorShift a with
        | none => rw [hi] at ht; cases ht
        | some i =>
          rw [hi] at ht
          cases ht
          exact { inv := fun h => h.congr (hci := h.ciram.write i v) }
    · cases ht; exact storePool_quiet _ _ _
  · rename_i hn
    refine (notify_quiet a c).trans (Quiet.trans (markFourScreen_runs fun h => ?_)
      ((refreshMirror_quiet _).trans (latchPpu_quiet v _)))
    obtain ⟨d, hd⟩ := applyPpu_isSome h a v
    rw [hn] at hd
    cases hd

theorem ppuRead_quiet (a : Addr) (c : Chip) : Quiet c (ppuRead a c).1 := by
  unfold ppuRead
  split
  · exact ppuMappedRead_quiet _ c
  · exact ppuMappedRead_quiet _ c
  · exact latchPpu_quiet _ c

theorem ppuWrite_quiet (a : Addr) (v : Byte) (c : Chip) : Quiet c (ppuWrite a v c) := by
  unfold ppuWrite
  split
  · exact ppuMappedWrite_quiet _ v c
  · exact ppuMappedWrite_quiet _ v c
  · refine Quiet.trans ?_ (latchPpu_quiet v _)
    exact { inv := fun h => h.congr (hpal := h.palette.write _ v) }

/-! ## What the picture unit's programs leave alone -/

/-- Everything the picture unit cannot reach (R14, R94). -/
structure DotFrame (c d : Chip) : Prop where
  params : d.params = c.params := by rfl
  config : d.config = c.config := by rfl
  cpu    : d.cpu = c.cpu := by rfl
  bus    : d.bus = c.bus := by rfl
  apu    : d.apu = c.apu := by rfl
  input  : d.input = c.input := by rfl

/-- What a program on the PPU bus leaves: besides, the unit's own state. -/
structure PpuFrame (c d : Chip) : Prop extends DotFrame c d where
  ppu    : d.ppu = c.ppu := by rfl

theorem DotFrame.trans {c d e : Chip} (h : DotFrame c d) (k : DotFrame d e) : DotFrame c e :=
  ⟨k.params.trans h.params, k.config.trans h.config, k.cpu.trans h.cpu, k.bus.trans h.bus,
    k.apu.trans h.apu, k.input.trans h.input⟩

theorem PpuFrame.trans {c d e : Chip} (h : PpuFrame c d) (k : PpuFrame d e) : PpuFrame c e :=
  ⟨h.toDotFrame.trans k.toDotFrame, k.ppu.trans h.ppu⟩

theorem PpuFrame.refl (c : Chip) : PpuFrame c c := {}

theorem storePool_frame (c : Chip) (v : Byte) (w : MappedWrite) : PpuFrame c (storePool c v w) := by
  cases w <;> exact {}

theorem ppuMappedRead_frame (a : Addr) (c : Chip) : PpuFrame c (ppuMappedRead a c).1 := by
  unfold ppuMappedRead; split <;> exact {}

theorem applyPpu_frame {c d : Chip} {a : Addr} {v : Byte} {w : MappedWrite} (h : applyPpu c a v w = some d) :
    PpuFrame c d := by
  unfold applyPpu at h
  split at h
  · split at h
    · cases h; exact storePool_frame _ _ _
    · cases hi : ciramIndex c.ppubus.mirrorShift a with
      | none => rw [hi] at h; cases h
      | some i => rw [hi] at h; cases h; exact {}
  · cases h; exact storePool_frame _ _ _

theorem ppuMappedWrite_frame (a : Addr) (v : Byte) (c : Chip) : PpuFrame c (ppuMappedWrite a v c) := by
  unfold ppuMappedWrite
  simp only
  split
  · rename_i t ht
    exact PpuFrame.trans (d := t) (PpuFrame.trans {} (applyPpu_frame ht)) {}
  · exact {}

theorem ppuRead_frame (a : Addr) (c : Chip) : PpuFrame c (ppuRead a c).1 := by
  unfold ppuRead
  split
  · exact ppuMappedRead_frame _ c
  · exact ppuMappedRead_frame _ c
  · exact {}

theorem ppuWrite_frame (a : Addr) (v : Byte) (c : Chip) : PpuFrame c (ppuWrite a v c) := by
  unfold ppuWrite
  split
  · exact ppuMappedWrite_frame _ v c
  · exact ppuMappedWrite_frame _ v c
  · exact {}

theorem ppuProg_run {α : Type} (p : PpuProg α) : ∀ c : Chip, Quiet c (p.run c).1 ∧ PpuFrame c (p.run c).1 := by
  induction p with
  | done x => exact fun c => ⟨Quiet.refl c, {}⟩
  | read a k ih =>
    intro c
    have h := ih (ppuRead a c).2 (ppuRead a c).1
    exact ⟨(ppuRead_quiet a c).trans h.1, (ppuRead_frame a c).trans h.2⟩
  | write a v k ih =>
    intro c
    have h := ih (ppuWrite a v c)
    exact ⟨(ppuWrite_quiet a v c).trans h.1, (ppuWrite_frame a v c).trans h.2⟩
  | addrOut a k ih =>
    intro c
    have h := ih (c.notify (reducePpu a))
    exact ⟨(notify_quiet _ c).trans h.1, PpuFrame.trans {} h.2⟩

/-! ## The CPU bus -/

theorem keepPpuSide_eq {c d : Chip} (h : DotFrame c d) : c.keepPpuSide d = d := by
  obtain ⟨h1, h2, h3, h4, h5, h6⟩ := h
  cases c; cases d
  simp_all [Chip.keepPpuSide]

/-- A change of the picture unit that keeps its counters in range and its frame a frame. -/
theorem setPpu_quiet (c : Chip) (p : Ppu) (hf : PoolOk c.ppu.frame 61440 → PoolOk p.frame 61440)
    (hd : c.ppu.dot < c.params.dotsPerScanline → p.dot < c.params.dotsPerScanline)
    (hl : c.ppu.scanline < maxScanlines c.params → p.scanline < maxScanlines c.params) :
    Quiet c { c with ppu := p } where
  inv := fun h => h.congr (hfr := hf h.frame) (hdot := hd h.dot) (hline := hl h.scanline)

theorem ppuRegRead_quiet (r : BitVec 3) (c : Chip) : Quiet c (ppuRegRead r c).1 := by
  unfold ppuRegRead
  have h := ppuProg_run (Config.ppuRegRead c.draws c.config.region c.ppu r) c.drawn
  simp only
  rw [keepPpuSide_eq (DotFrame.trans (DotFrame.trans {} h.2.toDotFrame) {})]
  exact ((drawn_quiet c).trans h.1).trans (setPpu_quiet _ _ id id id)

theorem ppuRegWrite_quiet (r : BitVec 3) (v : Byte) (c : Chip) : Quiet c (ppuRegWrite r v c) := by
  unfold ppuRegWrite
  have h := ppuProg_run (Config.ppuRegWrite c.draws c.config.region c.ppu r v) c.drawn
  simp only
  rw [keepPpuSide_eq (DotFrame.trans (DotFrame.trans {} h.2.toDotFrame) {})]
  exact ((drawn_quiet c).trans h.1).trans (setPpu_quiet _ _ id id id)

theorem apuIoRead_quiet (a : Addr) (c : Chip) : Quiet c (apuIoRead a c).1 where
  inv := fun h => h.congr

theorem apuIoWrite_quiet (a : Addr) (v : Byte) (c : Chip) : Quiet c (apuIoWrite a v c) where
  inv := fun h => h.congr

/-- The mapper's half of a CPU write, with the refresh that follows it. -/
theorem cartWrite_quiet (a : Addr) (v : Byte) (c : Chip) : Quiet c (cartWrite a v c) := by
  have hq : Quiet c { c with mapper := (c.mapper.cpuWrite a v c.cpu.cycle).1 }.refreshMirror :=
    { identity := cpuWrite_identity a v c.cpu.cycle c.mapper
      inv := fun h => h.congr (hmir := rfl) (hid := cpuWrite_identity a v c.cpu.cycle c.mapper) }
  have hs : cartWrite a v c = storePool { c with mapper := (c.mapper.cpuWrite a v c.cpu.cycle).1 }.refreshMirror v
      (c.mapper.cpuWrite a v c.cpu.cycle).2 := by
    unfold cartWrite
    simp only
    cases (c.mapper.cpuWrite a v c.cpu.cycle).2 <;> rfl
  rw [hs]
  exact hq.trans (storePool_quiet _ _ _)

theorem cpuDecodeRead_quiet (a : Addr) (c : Chip) : Quiet c (cpuDecodeRead a c).1 := by
  unfold cpuDecodeRead
  split
  · exact Quiet.refl c
  · exact ppuRegRead_quiet _ c
  · exact apuIoRead_quiet a c
  · exact Quiet.refl c
  · exact Quiet.refl c

theorem cpuRead_quiet (a : Addr) (c : Chip) : Quiet c (cpuRead a c).1 :=
  (cpuDecodeRead_quiet a c).trans (latchCpu_quiet _ _)

theorem cpuDecodeWrite_quiet (a : Addr) (v : Byte) (c : Chip) : Quiet c (cpuDecodeWrite a v c) := by
  unfold cpuDecodeWrite
  split
  · exact { inv := fun h => h.congr (hw := h.wram.write _ v) }
  · exact ppuRegWrite_quiet _ v c
  · exact apuIoWrite_quiet a v c
  · exact Quiet.refl c
  · exact cartWrite_quiet a v c

theorem cpuWrite_quiet (a : Addr) (v : Byte) (c : Chip) : Quiet c (cpuWrite a v c) :=
  (cpuDecodeWrite_quiet a v c).trans (latchCpu_quiet v _)

end Sys2Proof.Machine
end

