-- ==== Sys2Proof/Laws/Time.lean ====
section
/-! SUPPORT. What a cycle, a processor program and a step can do: the cycle counter counts (R40, R216), the counters of the
picture unit stay in range, and the invariant of the chip is kept. -/

namespace Sys2Proof.Machine

open Sys2Proof

/-! ## Parameters -/

theorem Params.ok_bounds {p : Params} (h : p.ok = true) :
    1 ≤ p.jamStepCycles ∧ p.jamStepCycles ≤ p.maxStepCycles ∧ 7 ≤ p.maxStepCycles ∧ 2 ≤ p.dotsPerScanline := by
  simp only [Params.ok, Bool.and_eq_true, decide_eq_true_eq] at h
  exact ⟨h.1.1.1.1.1.1, h.1.1.1.1.1.2, h.1.1.1.1.2, h.1.1.1.2⟩

theorem Params.ok_region {p : Params} (h : p.ok = true) (r : Region) : (p.region r).ok p = true := by
  simp only [Params.ok, Bool.and_eq_true] at h
  cases r
  · exact h.1.1.2
  · exact h.1.2
  · exact h.2

theorem RegionParams.ok_bounds {r : RegionParams} {p : Params} (h : r.ok p = true) :
    0 < r.dotsDen ∧ 2 ≤ r.scanlinesPerFrame ∧
      p.maxStepCycles * r.dotsNum < p.dotsPerScanline * (r.scanlinesPerFrame - 1) * r.dotsDen := by
  simp only [RegionParams.ok, Bool.and_eq_true, decide_eq_true_eq] at h
  refine ⟨h.1, ?_, h.2⟩
  by_contra hs
  have hz : r.scanlinesPerFrame - 1 = 0 := by omega
  have h2 := h.2
  rw [hz, Nat.mul_zero, Nat.zero_mul] at h2
  exact absurd h2 (Nat.not_lt_zero _)

theorem scanlines_le_max (p : Params) (r : Region) : (p.region r).scanlinesPerFrame ≤ maxScanlines p := by
  cases r <;> simp only [Params.region, maxScanlines] <;> omega

/-! ## One dot -/

theorem ppuOwnDot_quiet (c : Chip) : Quiet c (ppuOwnDot c).1 := by
  unfold ppuOwnDot
  split
  · exact Quiet.refl c
  · have h := ppuProg_run (Config.ppuDot c.draws c.config.region c.ppu) c.drawn
    exact ((drawn_quiet c).trans h.1).trans (setPpu_quiet _ _ (fun hf => hf.writeAll _) id id)

/-- A dot of the unit's own leaves the counters. -/
theorem ppuOwnDot_frame (c : Chip) : DotFrame c (ppuOwnDot c).1 ∧
    (ppuOwnDot c).1.ppu.frameNumber = c.ppu.frameNumber ∧ (ppuOwnDot c).1.ppu.scanline = c.ppu.scanline ∧
    (ppuOwnDot c).1.ppu.dot = c.ppu.dot ∧ (ppuOwnDot c).1.ppu.shortened = c.ppu.shortened := by
  unfold ppuOwnDot
  split
  · exact ⟨{}, rfl, rfl, rfl, rfl⟩
  · have h := (ppuProg_run (Config.ppuDot c.draws c.config.region c.ppu) c.drawn).2
    exact ⟨DotFrame.trans (DotFrame.trans (c := c) {} h.toDotFrame) {}, by simp [h.ppu], by simp [h.ppu],
      by simp [h.ppu], by simp [h.ppu]⟩

theorem nextDot_le (p : Ppu) (skip : Bool) : p.dot + 1 ≤ nextDot p skip ∧ nextDot p skip ≤ p.dot + 2 := by
  unfold nextDot; split <;> omega

theorem advanceCounters_inRange {S L m : Nat} (skip : Bool) (p : Ppu) (hL : 2 ≤ L) (_ : 0 < S) (hm : S ≤ m)
    (hd : p.dot < L) (hl : p.scanline < m) :
    (advanceCounters S L skip p).dot < L ∧ (advanceCounters S L skip p).scanline < m := by
  have := nextDot_le p skip
  unfold advanceCounters
  simp only
  split
  · exact ⟨by assumption, hl⟩
  · split
    · exact ⟨by simp only; omega, by simp only; omega⟩
    · exact ⟨by simp only; omega, by simp only; omega⟩

theorem advanceCounters_frame (S L : Nat) (skip : Bool) (p : Ppu) :
    (advanceCounters S L skip p).frame = p.frame ∧ (advanceCounters S L skip p).nmiOut = p.nmiOut ∧
    (advanceCounters S L skip p).priv = p.priv := by
  unfold advanceCounters
  simp only
  split
  · exact ⟨rfl, rfl, rfl⟩
  · split <;> exact ⟨rfl, rfl, rfl⟩

theorem relocateCounters_frame (S : Nat) (t : Nat × Bool) (p : Ppu) :
    (relocateCounters S t p).frame = p.frame ∧ (relocateCounters S t p).nmiOut = p.nmiOut ∧
    (relocateCounters S t p).priv = p.priv := by
  unfold relocateCounters
  split <;> exact ⟨rfl, rfl, rfl⟩

theorem relocateCounters_inRange {S : Nat} (t : Nat × Bool) (p : Ppu) (hS : 0 < S) :
    (relocateCounters S t p).dot = 0 ∧ (relocateCounters S t p).scanline < S := by
  unfold relocateCounters
  split
  · exact ⟨rfl, hS⟩
  · exact ⟨rfl, Nat.mod_lt _ hS⟩

theorem ppuTick_quiet (c : Chip) : Quiet c (ppuTick c) := by
  have hq := ppuOwnDot_quiet c
  have hf := ppuOwnDot_frame c
  unfold ppuTick
  simp only
  split
  · refine hq.trans { inv := fun h => ?_ }
    have hp := h.params
    rw [hf.1.params] at hp
    have hb := Params.ok_bounds hp
    have hr := RegionParams.ok_bounds (Params.ok_region hp c.config.region)
    have hm := scanlines_le_max c.params c.config.region
    have hd := h.dot
    have hl := h.scanline
    rw [hf.1.params] at hd hl
    have := advanceCounters_inRange (ppuOwnDot c).2 (ppuOwnDot c).1.ppu hb.2.2.2 (by omega : 0 < c.regionParams.scanlinesPerFrame) hm hd hl
    exact h.congr (hfr := by rw [(advanceCounters_frame _ _ _ _).1]; exact h.frame)
      (hdot := by rw [hf.1.params]; exact this.1) (hline := by rw [hf.1.params]; exact this.2)
  · refine hq.trans { inv := fun h => ?_ }
    have hp := h.params
    rw [hf.1.params] at hp
    have hb := Params.ok_bounds hp
    have hr := RegionParams.ok_bounds (Params.ok_region hp c.config.region)
    have hm := scanlines_le_max c.params c.config.region
    have := relocateCounters_inRange (S := c.regionParams.scanlinesPerFrame) (Config.ppuRelocate (ppuOwnDot c).1.draws c.config.region (ppuOwnDot c).1.ppu) (ppuOwnDot c).1.ppu (by unfold Chip.regionParams; omega)
    exact h.congr (hfr := by rw [(relocateCounters_frame _ _ _).1]; exact h.frame)
      (hdot := by rw [hf.1.params]; simp only [this.1]; omega)
      (hline := by rw [hf.1.params]; exact Nat.lt_of_lt_of_le this.2 hm)

theorem ppuTick_frame (c : Chip) : DotFrame c (ppuTick c) := by
  have hf := (ppuOwnDot_frame c).1
  unfold ppuTick
  simp only
  split <;> exact hf.trans {}

theorem ppuDots_quiet (n : Nat) : ∀ c : Chip, Quiet c (ppuDots n c) := by
  induction n with
  | zero => exact Quiet.refl
  | succ n ih => exact fun c => (ppuTick_quiet c).trans (ih _)

theorem ppuDots_frame (n : Nat) : ∀ c : Chip, DotFrame c (ppuDots n c) := by
  induction n with
  | zero => exact fun c => {}
  | succ n ih => exact fun c => (ppuTick_frame c).trans (ih _)

/-! ## One cycle -/

theorem apuTick_quiet (c : Chip) : Quiet c (apuTick c) := by
  unfold apuTick
  split
  · exact Quiet.refl c
  · exact { samples := ⟨_, rfl⟩, inv := fun h => h.congr }

theorem endTrigger_quiet (n : BitVec 32) (c : Chip) : Quiet c (endTrigger n c) where
  inv := fun h => h.congr

theorem clockMapper_quiet (c : Chip) : Quiet c (clockMapper c) := Quiet.refl c

theorem sampleNmi_quiet (c : Chip) : Quiet c (sampleNmi c) where
  inv := fun h => h.congr

theorem tickPpu_quiet (c : Chip) : Quiet c (tickPpu c) := by
  unfold tickPpu
  simp only
  rw [keepPpuSide_eq (ppuDots_frame _ _)]
  refine Quiet.trans ?_ (ppuDots_quiet _ _)
  exact { inv := fun h => h.congr }

theorem tick_quiet (c : Chip) : Quiet c (tick c) :=
  ((((tickPpu_quiet c).trans (endTrigger_quiet _ _)).trans (apuTick_quiet _)).trans (clockMapper_quiet _)).trans
    (sampleNmi_quiet _)

@[simp] theorem apuTick_cpu (c : Chip) : (apuTick c).cpu = c.cpu := by unfold apuTick; split <;> rfl

@[simp] theorem apuTick_bus (c : Chip) : (apuTick c).bus = c.bus := by unfold apuTick; split <;> rfl

@[simp] theorem apuTick_ppu (c : Chip) : (apuTick c).ppu = c.ppu := by unfold apuTick; split <;> rfl

@[simp] theorem tickPpu_cpu (c : Chip) : (tickPpu c).cpu = { c.cpu with cycle := c.cpu.cycle + 1 } := rfl

@[simp] theorem tickPpu_bus (c : Chip) : (tickPpu c).bus = c.bus := rfl

/-- A cycle advances the cycle counter by one (R40, R214). -/
@[simp] theorem tick_cycle (c : Chip) : (tick c).cpu.cycle = c.cpu.cycle + 1 := by
  simp [tick]

@[simp] theorem tick_regs (c : Chip) : (tick c).cpu.regs = c.cpu.regs := (tick_quiet c).regs

@[simp] theorem tick_corrupted (c : Chip) : (tick c).cpu.corrupted = c.cpu.corrupted := (tick_quiet c).corrupted

/-- A cycle leaves WRAM, the CPU latch and the cheat table. -/
@[simp] theorem tick_bus (c : Chip) : (tick c).bus = c.bus := by
  simp [tick]

/-- The NMI latch after a cycle: an edge sets it, and nothing in a cycle clears it (R41, R521). -/
theorem tick_nmi (c : Chip) :
    (tick c).cpu.nmiLatch = (c.cpu.nmiLatch || ((tick c).ppu.nmiOut && !c.cpu.nmiPrev)) ∧
    (tick c).cpu.nmiPrev = (tick c).ppu.nmiOut := by
  simp [tick]

theorem ticks_quiet (n : Nat) : ∀ c : Chip, Quiet c (ticks n c) := by
  induction n with
  | zero => exact Quiet.refl
  | succ n ih => exact fun c => (tick_quiet c).trans (ih _)

theorem stamp_succ (n : Nat) (x : Stamp) : x + 1 + BitVec.ofNat 64 n = x + BitVec.ofNat 64 (n + 1) := by
  rw [BitVec.add_assoc, Nat.add_comm n 1, BitVec.ofNat_add]
  rfl

theorem ticks_cycle (n : Nat) : ∀ c : Chip, (ticks n c).cpu.cycle = c.cpu.cycle + BitVec.ofNat 64 n := by
  induction n with
  | zero => intro c; simp [ticks]
  | succ n ih =>
    intro c
    simp only [ticks, ih, tick_cycle, stamp_succ]

/-! ## Transactions leave the processor -/

@[simp] theorem cpuRead_cpu (a : Addr) (c : Chip) : (cpuRead a c).1.cpu = c.cpu := by
  unfold cpuRead cpuDecodeRead
  simp only [latchCpu_cpu]
  split <;> rfl

@[simp] theorem cpuWrite_cpu (a : Addr) (v : Byte) (c : Chip) : (cpuWrite a v c).cpu = c.cpu := by
  unfold cpuWrite cpuDecodeWrite
  simp only [latchCpu_cpu]
  split
  · rfl
  · rfl
  · rfl
  · rfl
  · unfold cartWrite
    simp only [refreshMirror_cpu]
    cases (c.mapper.cpuWrite a v c.cpu.cycle).2 <;> rfl

/-! ## Processor programs -/

theorem cpuProg_run {α : Type} (p : CpuProg α) : ∀ c : Chip, Quiet c (p.run c).chip ∧
    (p.run c).chip.cpu.cycle = c.cpu.cycle + BitVec.ofNat 64 (p.run c).ops := by
  induction p with
  | done x => exact fun c => ⟨Quiet.refl c, by simp [CpuProg.run]⟩
  | read a k ih =>
    intro c
    have h := ih (cpuRead a (tick c)).2 (cpuRead a (tick c)).1
    exact ⟨((tick_quiet c).trans (cpuRead_quiet a _)).trans h.1, by
      simp only [CpuProg.run]; rw [h.2, cpuRead_cpu, tick_cycle, stamp_succ]⟩
  | write a v k ih =>
    intro c
    have h := ih (cpuWrite a v (tick c))
    exact ⟨((tick_quiet c).trans (cpuWrite_quiet a v _)).trans h.1, by
      simp only [CpuProg.run]; rw [h.2, cpuWrite_cpu, tick_cycle, stamp_succ]⟩
  | idle k ih =>
    intro c
    have h := ih (tick c)
    exact ⟨(tick_quiet c).trans h.1, by simp only [CpuProg.run]; rw [h.2, tick_cycle, stamp_succ]⟩

end Sys2Proof.Machine
end

