-- ==== Sys2Proof/Laws/Step.lean ====
section
/-! SUPPORT. What one step of the control unit can do (R210 to R217): its cycle count, its bounds, and what it keeps. -/

namespace Sys2Proof.Machine

open Sys2Proof

/-! ## How many operations a program makes -/

theorem andThen_run {α β : Type} (p : CpuProg α) (k : α → CpuProg β) : ∀ c : Chip,
    ((p.andThen k).run c).chip = ((k (p.run c).value).run (p.run c).chip).chip ∧
    ((p.andThen k).run c).ops = (p.run c).ops + ((k (p.run c).value).run (p.run c).chip).ops ∧
    ((p.andThen k).run c).value = ((k (p.run c).value).run (p.run c).chip).value := by
  induction p with
  | done x => intro c; simp [CpuProg.andThen, CpuProg.run]
  | read a f ih =>
    intro c
    have h := ih (cpuRead a (tick c)).2 (cpuRead a (tick c)).1
    simp only [CpuProg.andThen, CpuProg.run]
    exact ⟨h.1, by rw [h.2.1]; omega, h.2.2⟩
  | write a v p ih =>
    intro c
    have h := ih (cpuWrite a v (tick c))
    simp only [CpuProg.andThen, CpuProg.run]
    exact ⟨h.1, by rw [h.2.1]; omega, h.2.2⟩
  | idle p ih =>
    intro c
    have h := ih (tick c)
    simp only [CpuProg.andThen, CpuProg.run]
    exact ⟨h.1, by rw [h.2.1]; omega, h.2.2⟩

/-- A cut program makes at most as many operations as it is cut after (R217). -/
theorem cut_ops_le {α : Type} (x : α) (p : CpuProg α) : ∀ (n : Nat) (c : Chip), ((CpuProg.cut x n p).run c).ops ≤ n := by
  induction p with
  | done y => intro n c; cases n <;> simp [CpuProg.cut, CpuProg.run]
  | read a f ih =>
    intro n c
    cases n with
    | zero => simp [CpuProg.cut, CpuProg.run]
    | succ n => simpa [CpuProg.cut, CpuProg.run] using ih _ n _
  | write a v p ih =>
    intro n c
    cases n with
    | zero => simp [CpuProg.cut, CpuProg.run]
    | succ n => simpa [CpuProg.cut, CpuProg.run] using ih n _
  | idle p ih =>
    intro n c
    cases n with
    | zero => simp [CpuProg.cut, CpuProg.run]
    | succ n => simpa [CpuProg.cut, CpuProg.run] using ih n _

/-- The parameter's program, cut, still makes an operation (law (c) of R215). -/
theorem freeProg_ops (b : Byte) (m : Nat) (r : CpuRegs) (c : Chip) :
    1 ≤ ((freeProg b m r).run c).ops ∧ ((freeProg b m r).run c).ops ≤ max 1 (m - 1) := by
  refine ⟨?_, cut_ops_le _ _ _ _⟩
  unfold freeProg
  obtain ⟨n, hn⟩ : ∃ n, Nat.max 1 (m - 1) = n + 1 := ⟨Nat.max 1 (m - 1) - 1, by
    have : 1 ≤ Nat.max 1 (m - 1) := Nat.le_max_left _ _
    omega⟩
  rw [hn]
  cases Config.execute b r <;> simp [CpuFirst.prog, CpuProg.cut, CpuProg.run]

@[simp] theorem takeException_ops (r : CpuRegs) (ret : Addr) (brk : Bool) (vec : Addr) (c : Chip) :
    ((takeException r ret brk vec).run c).ops = 5 := rfl

/-- An interrupt entry takes seven cycles (R526). -/
@[simp] theorem interruptProg_ops (k : Interrupt) (r : CpuRegs) (c : Chip) : ((interruptProg k r).run c).ops = 7 := rfl

/-- BRK takes six operations after its fetch (R525). -/
@[simp] theorem brkProg_ops (r : CpuRegs) (c : Chip) : ((brkProg r).run c).ops = 6 := rfl

theorem dummy_ops {α : Type} (op : DummyOp) (k : CpuProg α) (c : Chip) :
    ∃ d, ((op.prog k).run c).ops = (k.run d).ops + 1 ∧ ((op.prog k).run c).value = (k.run d).value ∧
      ((op.prog k).run c).chip = (k.run d).chip := by
  cases op with
  | idle => exact ⟨tick c, rfl, rfl, rfl⟩
  | read a => exact ⟨(cpuRead a (tick c)).1, rfl, rfl, rfl⟩

/-- RTI takes five operations after its fetch (R529). -/
@[simp] theorem rtiProg_ops (r : CpuRegs) (c : Chip) : ((rtiProg r).run c).ops = 5 := by
  unfold rtiProg
  obtain ⟨d, hd, -⟩ := dummy_ops (Config.rtiCycle2 r) _ c
  rw [hd]
  obtain ⟨e, he, -⟩ := dummy_ops (Config.rtiCycle3 r) _ d
  rw [he]
  rfl

/-- The reset sequence takes seven cycles (R572). -/
@[simp] theorem resetProg_ops (r : CpuRegs) (c : Chip) : ((resetProg r).run c).ops = 7 := rfl

theorem staProg_ops (m : Nat) (r : CpuRegs) (c : Chip) :
    3 ≤ ((staProg m r).run c).ops ∧ ((staProg m r).run c).ops ≤ 3 + (m - 4) := by
  simp only [staProg, staStore, CpuProg.run]
  split
  · have h := andThen_run (CpuProg.cut () (m - 4) (Config.dmaStall r.a)) (fun _ => CpuProg.done
      { r with pc := r.pc + 2 }) (cpuWrite (word16 (cpuRead r.pc (tick c)).2
        (cpuRead (r.pc + 1) (tick (cpuRead r.pc (tick c)).1)).2) r.a
        (tick (cpuRead (r.pc + 1) (tick (cpuRead r.pc (tick c)).1)).1))
    rw [h.2.1]
    have := cut_ops_le () (Config.dmaStall r.a) (m - 4) (cpuWrite (word16 (cpuRead r.pc (tick c)).2
        (cpuRead (r.pc + 1) (tick (cpuRead r.pc (tick c)).1)).2) r.a
        (tick (cpuRead (r.pc + 1) (tick (cpuRead r.pc (tick c)).1)).1))
    simp only [CpuProg.run]
    omega
  · simp only [CpuProg.run]; omega

theorem bneProg_ops (r : CpuRegs) (c : Chip) : 1 ≤ ((bneProg r).run c).ops ∧ ((bneProg r).run c).ops ≤ 3 := by
  simp only [bneProg, CpuProg.run]
  split
  · simp [CpuProg.run]
  · simp only [branchTaken, CpuProg.run]
    split <;> simp [CpuProg.run]

/-- Every executed opcode makes at least one operation, and at most what rule R217 leaves it. -/
theorem opcodeProg_ops (b : Byte) {m : Nat} (hm : 7 ≤ m) (r : CpuRegs) (c : Chip) :
    1 ≤ ((opcodeProg b m r).run c).ops ∧ ((opcodeProg b m r).run c).ops ≤ m - 1 := by
  unfold opcodeProg
  split
  · simp only [nopProg, CpuProg.run]; omega
  split
  · simp only [jmpProg, CpuProg.run]; omega
  split
  · simp only [ldaProg, CpuProg.run]; omega
  split
  · have := staProg_ops m r c; omega
  split
  · simp only [inxProg, CpuProg.run]; omega
  split
  · have := bneProg_ops r c; omega
  unfold executeProg
  split
  · rw [brkProg_ops]; omega
  split
  · rw [rtiProg_ops]; omega
  · have := freeProg_ops b m r c; omega

/-! ## One step -/

theorem setRegs_runs (c : Chip) (r : CpuRegs) : Runs c (c.setRegs r) where
  inv := fun h => h.congr

theorem clearLatch_runs (k : Interrupt) (c : Chip) : Quiet c (clearLatch k c) := by
  cases k
  · exact { inv := fun h => h.congr }
  · exact Quiet.refl c

@[simp] theorem clearLatch_cycle (k : Interrupt) (c : Chip) : (clearLatch k c).cpu.cycle = c.cpu.cycle := by
  cases k <;> rfl

/-- The fetch: one cycle, and `pc` moves by one (R212). -/
theorem fetchOpcode_spec (c : Chip) : Runs c (fetchOpcode c).1 ∧
    (fetchOpcode c).1.cpu.cycle = c.cpu.cycle + 1 ∧
    (fetchOpcode c).1.cpu.regs = { c.cpu.regs with pc := c.cpu.regs.pc + 1 } ∧
    (fetchOpcode c).1.cpu.corrupted = c.cpu.corrupted := by
  refine ⟨?_, ?_, ?_, ?_⟩
  · exact ((tick_quiet c).toRuns.trans (cpuRead_quiet _ _).toRuns).trans (setRegs_runs _ _)
  · simp [fetchOpcode]
  · simp [fetchOpcode]
  · simp [fetchOpcode]

theorem setCorrupted_runs (c : Chip) : Runs c { c with cpu := { c.cpu with corrupted := true } } where
  inv := fun h => h.congr

/-- What a step does, once: it keeps what `Runs` says, counts its cycles (R216), and its count is between 1 and
`MaxStepCycles` (R216, R217). -/
structure StepSpec (c : Chip) (r : Stepped) : Prop where
  runs      : Runs c r.chip
  cycle     : r.chip.cpu.cycle = c.cpu.cycle + BitVec.ofNat 64 r.cycles
  positive  : 1 ≤ r.cycles
  bounded   : r.cycles ≤ c.params.maxStepCycles

theorem interruptEntry_spec (k : Interrupt) {c : Chip} (hp : c.params.ok = true) : StepSpec c (interruptEntry k c) := by
  have h := cpuProg_run (interruptProg k c.cpu.regs) (clearLatch k c)
  have hb := Params.ok_bounds hp
  exact {
    runs := ((clearLatch_runs k c).toRuns.trans h.1.toRuns).trans (setRegs_runs _ _)
    cycle := by simpa [interruptEntry] using h.2
    positive := by simp [interruptEntry]
    bounded := by simp only [interruptEntry, interruptProg_ops]; omega }

/-- An opcode in `CorruptSet` corrupts (R157, R210). -/
theorem opcodeStep_in {b : Byte} {c : Chip} (h : b ∈ c.params.corruptSet) (prog : CpuRegs → CpuProg CpuRegs) :
    opcodeStep b prog c = corruptStep c := by
  simp [opcodeStep, Chip.corrupts, h]

/-- An opcode outside `CorruptSet` runs its program (R157, R210). -/
theorem opcodeStep_out {b : Byte} {c : Chip} (h : b ∉ c.params.corruptSet) (prog : CpuRegs → CpuProg CpuRegs) :
    opcodeStep b prog c = dispatch prog c := by
  simp [opcodeStep, Chip.corrupts, h]

theorem runOpcode_spec (b : Byte) {c : Chip} (hp : c.params.ok = true) :
    Runs c (runOpcode b c).chip ∧
    (runOpcode b c).chip.cpu.cycle + 1 = c.cpu.cycle + BitVec.ofNat 64 (runOpcode b c).cycles ∧
    1 ≤ (runOpcode b c).cycles ∧ (runOpcode b c).cycles ≤ c.params.maxStepCycles := by
  have hb := Params.ok_bounds hp
  unfold runOpcode opcodeStep
  split
  · refine ⟨(setCorrupted_runs c).trans (ticks_quiet _ _).toRuns, ?_, hb.1, hb.2.1⟩
    simp only [corruptStep, ticks_cycle]
    obtain ⟨n, hn⟩ : ∃ n, c.params.jamStepCycles = n + 1 := ⟨c.params.jamStepCycles - 1, by omega⟩
    rw [hn, Nat.add_sub_cancel, ← stamp_succ]
    rw [BitVec.add_assoc, BitVec.add_assoc, BitVec.add_comm 1]
  · have h := cpuProg_run (opcodeProg b c.params.maxStepCycles c.cpu.regs) c
    have ho := opcodeProg_ops b hb.2.2.1 c.cpu.regs c
    refine ⟨h.1.toRuns.trans (setRegs_runs _ _), ?_, ?_, ?_⟩
    · simp only [dispatch, setRegs_cpu]
      rw [h.2, Nat.add_comm 1, ← stamp_succ, BitVec.add_assoc, BitVec.add_assoc, BitVec.add_comm 1]
    · simp only [dispatch]; omega
    · simp only [dispatch]; omega

theorem cpuStep_spec {c : Chip} (hp : c.params.ok = true) : StepSpec c (cpuStep c) := by
  unfold cpuStep
  split
  · exact interruptEntry_spec _ hp
  · have hf := fetchOpcode_spec c
    have hr := runOpcode_spec (fetchOpcode c).2 (c := (fetchOpcode c).1) (by rw [hf.1.params]; exact hp)
    refine { runs := hf.1.trans hr.1, cycle := ?_, positive := hr.2.2.1, bounded := ?_ }
    · have := hr.2.1
      rw [hf.2.1, BitVec.add_assoc, BitVec.add_comm 1, ← BitVec.add_assoc] at this
      exact add_right_cancel this
    · rw [← hf.1.params]; exact hr.2.2.2

/-- Under the invariant a step keeps it, whatever the step is. -/
theorem cpuStep_inv {c : Chip} (h : c.Inv) : (cpuStep c).chip.Inv := (cpuStep_spec h.params).runs.inv h

/-- A step corrupts the processor exactly when it takes no interrupt and its opcode is in `CorruptSet`, and nothing in it clears the
flag (R210, R213). -/
theorem cpuStep_corrupted (c : Chip) : (cpuStep c).chip.cpu.corrupted =
    (c.cpu.corrupted || (pendingInterrupt c).isNone && decide ((fetchOpcode c).2 ∈ c.params.corruptSet)) := by
  unfold cpuStep
  cases pendingInterrupt c with
  | some k =>
    have h := (cpuProg_run (interruptProg k c.cpu.regs) (clearLatch k c)).1.corrupted
    simp only [interruptEntry, setRegs_cpu, h, Option.isNone_some, Bool.false_and, Bool.or_false]
    cases k <;> rfl
  | none =>
    have hf := fetchOpcode_spec c
    rw [← hf.1.params, ← hf.2.2.2]
    by_cases hb : (fetchOpcode c).2 ∈ (fetchOpcode c).1.params.corruptSet
    · simp only [runOpcode, opcodeStep_in hb, corruptStep, (ticks_quiet _ _).corrupted, hb, decide_true, Option.isNone_none,
        Bool.and_self, Bool.or_true]
    · simp only [runOpcode, opcodeStep_out hb, dispatch, setRegs_cpu, (cpuProg_run _ _).1.corrupted, hb, decide_false,
        Bool.and_false, Bool.or_false]

end Sys2Proof.Machine
end

