-- ==== Sys2Proof/Laws/Settled.lean ====
section
/-! SUPPORT. What the processor's memory keeps through a cycle (R92, R101, R214): no picture-unit transaction and no cycle
of peripheral time changes PRG RAM or the way the board maps the processor's addresses, and no read changes WRAM. -/

namespace Sys2Proof.Machine

open Sys2Proof

/-- The processor's memory, and how the board maps either bus, are as before, and a board's IRQ stays up. -/
structure Settled (c d : Chip) : Prop where
  wram      : d.bus.wram = c.bus.wram := by rfl
  prgRam    : d.cart.prgRam = c.cart.prgRam := by rfl
  reads     : ∀ n a, d.mapper.cpuRead n a = c.mapper.cpuRead n a := by exact fun _ _ => rfl
  stores    : ∀ a v t, (d.mapper.cpuWrite a v t).2 = (c.mapper.cpuWrite a v t).2 := by exact fun _ _ _ => rfl
  mirroring : d.mapper.mirroring = c.mapper.mirroring := by rfl
  ppuReads  : ∀ a, d.mapper.ppuRead a = c.mapper.ppuRead a := by exact fun _ => rfl
  irqStays  : c.mapper.irqOut = true → d.mapper.irqOut = true := by exact id

theorem Settled.refl (c : Chip) : Settled c c := {}

theorem Settled.trans {c d e : Chip} (h : Settled c d) (k : Settled d e) : Settled c e where
  wram := k.wram.trans h.wram
  prgRam := k.prgRam.trans h.prgRam
  reads := fun n a => (k.reads n a).trans (h.reads n a)
  stores := fun a v t => (k.stores a v t).trans (h.stores a v t)
  mirroring := k.mirroring.trans h.mirroring
  ppuReads := fun a => (k.ppuReads a).trans (h.ppuReads a)
  irqStays := fun e => k.irqStays (h.irqStays e)

/-- A snoop changes none of MMC3's bank or protection registers. -/
theorem mmc3Notify_banks (rev : Revision) (f : Nat) (m : Mmc3) (a : Addr) (t : Stamp) :
    ∃ k r o p h, mmc3Notify rev f m a t =
      { m with irqCounter := k, irqReload := r, irqOut := o, a12Prev := p, a12HighCycle := h } := by
  unfold mmc3Notify
  simp only
  split
  · exact ⟨_, _, _, _, _, rfl⟩
  · exact ⟨_, _, _, _, _, rfl⟩

theorem notify_reads (f : Nat) (a : Addr) (t : Stamp) (m : Mapper) (n : Nat) (b : Addr) :
    (m.notify f a t).cpuRead n b = m.cpuRead n b := by
  rcases m with _ | ⟨info, regs⟩
  · rfl
  · cases regs with
    | nrom => rfl
    | uxrom b => rfl
    | cnrom b => rfl
    | axrom b => rfl
    | mmc1 m => rfl
    | mmc3 m =>
      obtain ⟨k, r, o, p, h, hm⟩ := mmc3Notify_banks info.revision f m a t
      simp only [Mapper.notify, Mapper.cpuRead, hm]
      rfl

theorem notify_stores (f : Nat) (a : Addr) (t : Stamp) (m : Mapper) (b : Addr) (v : Byte) (u : Stamp) :
    ((m.notify f a t).cpuWrite b v u).2 = (m.cpuWrite b v u).2 := by
  rcases m with _ | ⟨info, regs⟩
  · rfl
  · cases regs with
    | nrom => rfl
    | uxrom b => rfl
    | cnrom b => rfl
    | axrom b => rfl
    | mmc1 m => rfl
    | mmc3 m =>
      obtain ⟨k, r, o, p, h, hm⟩ := mmc3Notify_banks info.revision f m a t
      simp only [Mapper.notify, Mapper.cpuWrite, mmc3CpuWrite, hm]
      split
      · rfl
      · split <;> rfl

theorem notify_ppuRead (f : Nat) (a : Addr) (t : Stamp) (m : Mapper) (b : Addr) :
    (m.notify f a t).ppuRead b = m.ppuRead b := by
  rcases m with _ | ⟨info, regs⟩
  · rfl
  · cases regs with
    | nrom => rfl
    | uxrom b => rfl
    | cnrom b => rfl
    | axrom b => rfl
    | mmc1 m => rfl
    | mmc3 m =>
      obtain ⟨k, r, o, p, h, hm⟩ := mmc3Notify_banks info.revision f m a t
      simp only [Mapper.notify, Mapper.ppuRead, hm]
      rfl

/-- A snoop never lowers a board's IRQ output (R459, R460). -/
theorem notify_irqStays (f : Nat) (a : Addr) (t : Stamp) {m : Mapper} (h : m.irqOut = true) :
    (m.notify f a t).irqOut = true := by
  rcases m with _ | ⟨info, regs⟩
  · exact h
  · cases regs with
    | nrom => exact h
    | uxrom b => exact h
    | cnrom b => exact h
    | axrom b => exact h
    | mmc1 m => exact h
    | mmc3 m =>
      have h' : m.irqOut = true := h
      simp only [Mapper.notify, Mapper.irqOut, mmc3Notify]
      split <;> simp [h', mmc3ClockIrq]

theorem notify_settled (a : Addr) (c : Chip) : Settled c (c.notify a) where
  reads := fun n b => notify_reads _ _ _ _ n b
  stores := fun b v u => notify_stores _ _ _ _ b v u
  mirroring := notify_mirroring _ _ _ _
  ppuReads := fun b => notify_ppuRead _ _ _ _ b
  irqStays := notify_irqStays _ _ _

/-- No answer of a board to a PPU write names PRG RAM (R365). -/
theorem ppuWrite_noPrgRam (a : Addr) (v : Byte) (m : Mapper) (i : Nat) : (m.ppuWrite a v).2 ≠ .prgRam i := by
  rcases m with _ | ⟨info, regs⟩
  · simp [Mapper.ppuWrite]
  · simp only [Mapper.ppuWrite, fourScreenWrite]
    repeat' split
    all_goals simp

theorem storePool_settled (c : Chip) (v : Byte) {w : MappedWrite} (h : ∀ i, w ≠ .prgRam i) :
    Settled c (storePool c v w) := by
  cases w with
  | prgRam i => exact absurd rfl (h i)
  | dflt => exact {}
  | chr i => exact {}
  | ciRam i => exact {}
  | exRam i => exact {}
  | none => exact {}

theorem applyPpu_settled {c d : Chip} {a : Addr} {v : Byte} {w : MappedWrite} (hw : ∀ i, w ≠ .prgRam i)
    (h : applyPpu c a v w = some d) : Settled c d := by
  unfold applyPpu at h
  split at h
  · split at h
    · cases h; exact storePool_settled _ _ (by simp)
    · cases hi : ciramIndex c.ppubus.mirrorShift a with
      | none => rw [hi] at h; cases h
      | some i => rw [hi] at h; cases h; exact {}
  · cases h; exact storePool_settled _ _ hw

theorem ppuMappedRead_settled (a : Addr) (c : Chip) : Settled c (ppuMappedRead a c).1 := by
  unfold ppuMappedRead
  split
  · exact (notify_settled a c).trans {}
  · exact (notify_settled a c).trans {}

theorem ppuMappedWrite_settled (a : Addr) (v : Byte) (c : Chip) : Settled c (ppuMappedWrite a v c) := by
  unfold ppuMappedWrite
  simp only [ppuWrite_fst]
  split
  · rename_i t ht
    have h := applyPpu_settled (ppuWrite_noPrgRam a v _) ht
    exact (notify_settled a c).trans (Settled.trans (d := { c.notify a with mapper := (c.notify a).mapper }) {}
      (h.trans {}))
  · exact (notify_settled a c).trans {}

theorem ppuRead_settled (a : Addr) (c : Chip) : Settled c (ppuRead a c).1 := by
  unfold ppuRead
  split
  · exact ppuMappedRead_settled _ c
  · exact ppuMappedRead_settled _ c
  · exact {}

theorem ppuWrite_settled (a : Addr) (v : Byte) (c : Chip) : Settled c (ppuWrite a v c) := by
  unfold ppuWrite
  split
  · exact ppuMappedWrite_settled _ v c
  · exact ppuMappedWrite_settled _ v c
  · exact {}

theorem ppuProg_settled {α : Type} (p : PpuProg α) : ∀ c : Chip, Settled c (p.run c).1 := by
  induction p with
  | done x => exact fun c => {}
  | read a k ih => exact fun c => (ppuRead_settled a c).trans (ih _ _)
  | write a v k ih => exact fun c => (ppuWrite_settled a v c).trans (ih _)
  | addrOut a k ih => exact fun c => (notify_settled _ c).trans (ih _)

theorem ppuOwnDot_settled (c : Chip) : Settled c (ppuOwnDot c).1 := by
  unfold ppuOwnDot
  split
  · exact {}
  · have h := ppuProg_settled (Config.ppuDot c.draws c.config.region c.ppu) c.drawn
    exact Settled.trans (d := c.drawn) {} (h.trans {})

theorem ppuTick_settled (c : Chip) : Settled c (ppuTick c) := by
  have h := ppuOwnDot_settled c
  unfold ppuTick
  simp only
  split <;> exact h.trans {}

theorem ppuDots_settled (n : Nat) : ∀ c : Chip, Settled c (ppuDots n c) := by
  induction n with
  | zero => exact fun c => {}
  | succ n ih => exact fun c => (ppuTick_settled c).trans (ih _)

theorem tickPpu_settled (c : Chip) : Settled c (tickPpu c) := by
  unfold tickPpu
  simp only
  rw [keepPpuSide_eq (ppuDots_frame _ _)]
  exact Settled.trans (d := { c with cpu := { c.cpu with cycle := c.cpu.cycle + 1 } }) {} (ppuDots_settled _ _)

theorem apuTick_settled (c : Chip) : Settled c (apuTick c) := by
  unfold apuTick
  split <;> exact {}

theorem tick_settled (c : Chip) : Settled c (tick c) :=
  (tickPpu_settled c).trans (Settled.trans (d := endTrigger c.ppu.frameNumber (tickPpu c)) {}
    ((apuTick_settled _).trans {}))

theorem ticks_settled (n : Nat) : ∀ c : Chip, Settled c (ticks n c) := by
  induction n with
  | zero => exact fun c => {}
  | succ n ih => exact fun c => (tick_settled c).trans (ih _)

/-! ## CPU reads -/

theorem ppuRegRead_settled (r : BitVec 3) (c : Chip) : Settled c (ppuRegRead r c).1 := by
  have h := ppuProg_settled (Config.ppuRegRead c.draws c.config.region c.ppu r) c.drawn
  have hf := (ppuProg_run (Config.ppuRegRead c.draws c.config.region c.ppu r) c.drawn).2
  unfold ppuRegRead
  simp only
  rw [keepPpuSide_eq (DotFrame.trans (DotFrame.trans {} hf.toDotFrame) {})]
  exact Settled.trans (d := c.drawn) {} (h.trans {})

theorem ppuRegWrite_settled (r : BitVec 3) (v : Byte) (c : Chip) : Settled c (ppuRegWrite r v c) := by
  have h := ppuProg_settled (Config.ppuRegWrite c.draws c.config.region c.ppu r v) c.drawn
  have hf := (ppuProg_run (Config.ppuRegWrite c.draws c.config.region c.ppu r v) c.drawn).2
  unfold ppuRegWrite
  simp only
  rw [keepPpuSide_eq (DotFrame.trans (DotFrame.trans {} hf.toDotFrame) {})]
  exact Settled.trans (d := c.drawn) {} (h.trans {})

theorem cpuRead_settled (a : Addr) (c : Chip) : Settled c (cpuRead a c).1 := by
  unfold cpuRead cpuDecodeRead
  split
  · exact {}
  · exact (ppuRegRead_settled _ c).trans {}
  · exact {}
  · exact {}
  · exact {}

/-- A cycle that reads leaves the processor's memory. -/
theorem cycleRead_settled (a : Addr) (c : Chip) : Settled c (cycleRead a c).1 :=
  (tick_settled c).trans (cpuRead_settled a _)

theorem setRegs_settled (c : Chip) (r : CpuRegs) : Settled c (c.setRegs r) := {}

theorem Settled.memory {c d : Chip} (h : Settled c d) (hr : d.cart.prgRom = c.cart.prgRom) : SameCpuMemory c d where
  wram := fun i => by rw [h.wram]
  prgRam := h.prgRam
  prgRom := hr
  banks := h.reads

/-- The frame of an opcode that stores nothing. -/
theorem opcodeFrame {c d : Chip} (h : Settled c d) (k : Runs c d) : OpcodeFrame c d where
  memory := h.memory k.prgRom
  params := k.params
  config := k.config
  genie := k.genie
  desc := k.desc
  identity := k.identity
  mirroring := h.mirroring
  chrIsRam := k.chrIsRam
  chrRom := k.chrRom
  channels := k.channels
  joypads := k.joypads
  aim := k.zapper

/-! ## A read's value -/

/-- A read outside the peripherals changes the latch alone, and gives what a peek gives (R118, R363). -/
theorem cpuRead_storage {a : Addr} (ha : cpuRoute a ≠ .ppuReg ∧ cpuRoute a ≠ .apuIo) (c : Chip) :
    cpuRead a c = (c.latchCpu (cpuPeek a c), cpuPeek a c) := by
  unfold cpuRead cpuDecodeRead cpuPeek
  cases h : cpuRoute a <;> simp_all

/-- A peek outside the peripherals is the same after a cycle. -/
theorem cpuPeek_settled {a : Addr} (ha : cpuRoute a ≠ .ppuReg ∧ cpuRoute a ≠ .apuIo) {c d : Chip} (h : Settled c d)
    (hg : d.bus.genie = c.bus.genie) (ho : d.bus.openBus = c.bus.openBus) (hr : d.cart.prgRom = c.cart.prgRom)
    (hc : ∀ i, c.mapper.cpuRead c.cart.prgRom.size a ≠ .chr i ∧ c.mapper.cpuRead c.cart.prgRom.size a ≠ .ciRam i ∧
      c.mapper.cpuRead c.cart.prgRom.size a ≠ .exRam i) : cpuPeek a d = cpuPeek a c := by
  unfold cpuPeek
  rw [hg]
  cases hroute : cpuRoute a <;> simp_all [cartRead, h.wram, h.reads]
  · congr 1
    cases hm : c.mapper.cpuRead c.cart.prgRom.size a <;> simp_all [resolvePool, h.prgRam]

/-- No answer of a board to a CPU read names a pool of the PPU bus (R361). -/
theorem cpuRead_cpuPools (n : Nat) (a : Addr) (m : Mapper) (i : Nat) :
    m.cpuRead n a ≠ .chr i ∧ m.cpuRead n a ≠ .ciRam i ∧ m.cpuRead n a ≠ .exRam i := by
  rcases m with _ | ⟨info, regs⟩
  · simp [Mapper.cpuRead]
  · cases regs <;> simp only [Mapper.cpuRead, nromCpuRead, uxromCpuRead, cnromCpuRead, axromCpuRead, mmc1CpuRead,
      mmc3CpuRead] <;> (repeat' split) <;> simp

theorem cpuPeek_tick {a : Addr} (ha : cpuRoute a ≠ .ppuReg ∧ cpuRoute a ≠ .apuIo) (c : Chip) :
    cpuPeek a (tick c) = cpuPeek a c :=
  cpuPeek_settled ha (tick_settled c) (by simp) (by simp) (tick_quiet c).prgRom (cpuRead_cpuPools _ _ _)

end Sys2Proof.Machine
end

