-- ==== Sys2Proof/Laws/Fields.lean ====
section
/-! SUPPORT. The masks and fields of addresses and registers as numbers (20_memory.md R94 to R112, 45_mapper_boards.md): what the
rules write with `&` and `>>`, said with `%` and `/`. -/

namespace Sys2Proof.Machine

open Sys2Proof

/-! ## Addresses -/

/-- A mask of the low `k` bits. -/
theorem and_mask_toNat (a : Addr) (k : Nat) (m : Addr) (h : m.toNat = 2^k - 1) : (a &&& m).toNat = a.toNat % 2^k := by
  rw [BitVec.toNat_and, h, Nat.and_two_pow_sub_one_eq_mod]

/-- R97. -/
theorem wramIndex_nat (a : Addr) : wramIndex a = a.toNat % 0x800 := and_mask_toNat a 11 _ rfl

/-- R98. -/
theorem ppuRegIndex_nat (a : Addr) : ppuRegIndex a = BitVec.ofNat 3 a.toNat := by
  apply BitVec.eq_of_toNat_eq; simp [ppuRegIndex]

/-- R94. -/
theorem reducePpu_nat (a : Addr) : (reducePpu a).toNat = a.toNat % 0x4000 := and_mask_toNat a 14 _ rfl

/-- The low 15 bits. -/
theorem mask_7FFF (a : Addr) : (a &&& 0x7FFF).toNat = a.toNat % 0x8000 := and_mask_toNat a 15 _ rfl

/-- The low 14 bits. -/
theorem mask_3FFF (a : Addr) : (a &&& 0x3FFF).toNat = a.toNat % 0x4000 := and_mask_toNat a 14 _ rfl

/-- The low 13 bits. -/
theorem mask_1FFF (a : Addr) : (a &&& 0x1FFF).toNat = a.toNat % 0x2000 := and_mask_toNat a 13 _ rfl

/-- The low 10 bits. -/
theorem mask_03FF (a : Addr) : (a &&& 0x3FF).toNat = a.toNat % 0x400 := and_mask_toNat a 10 _ rfl

/-- Address bits 14:13 (R437, R454). -/
theorem window_nat (a : Addr) : ((a >>> 13) &&& 3).toNat = a.toNat / 0x2000 % 4 := by
  rw [and_mask_toNat _ 2 _ rfl]; simp [Nat.shiftRight_eq_div_pow]

/-- An address of an MMC1 row is in the upper half. -/
theorem upper_of_mmc1Row {a : Addr} {k : Addr} (h : a &&& 0xE000 = k) (hk : 0x8000 ≤ k.toNat) : 0x8000 ≤ a.toNat := by
  have : (a &&& 0xE000).toNat ≤ a.toNat := by rw [BitVec.toNat_and]; exact Nat.and_le_left
  rw [h] at this; omega

/-- An address of an MMC3 row is in the upper half. -/
theorem upper_of_mmc3Row {a : Addr} {k : Addr} (h : a &&& 0xE001 = k) (hk : 0x8000 ≤ k.toNat) : 0x8000 ≤ a.toNat := by
  have : (a &&& 0xE001).toNat ≤ a.toNat := by rw [BitVec.toNat_and]; exact Nat.and_le_left
  rw [h] at this; omega

/-! ## Nametables and the palette -/

/-- R106. -/
theorem nametable_nat (a : Addr) : nametable a = a.toNat / 0x400 % 4 := by
  unfold nametable
  rw [and_mask_toNat _ 2 _ rfl]
  simp [Nat.shiftRight_eq_div_pow]

/-- The offset in a table (R105). -/
theorem offset_field (a : Addr) : (a &&& (0x03FF : Addr) : Addr) = (a.setWidth 10).setWidth 16 := by
  apply BitVec.eq_of_toNat_eq
  rw [and_mask_toNat a 10 _ rfl]; simp; omega

/-- The table-select bits, in place (R104). -/
theorem table_field (a : Addr) : (a &&& (0x0C00 : Addr) : Addr) = ((a.extractLsb' 10 2).setWidth 16) <<< 10 := by
  apply BitVec.eq_of_getLsbD_eq
  intro i hi
  have hm : (0x0C00 : Addr).getLsbD i = decide (i = 10 ∨ i = 11) := by
    have : ∀ i : Fin 16, (0x0C00 : Addr).getLsbD i.val = decide (i.val = 10 ∨ i.val = 11) := by decide
    exact this ⟨i, hi⟩
  simp only [BitVec.getLsbD_and, hm, BitVec.getLsbD_shiftLeft, BitVec.getLsbD_setWidth, BitVec.getLsbD_extractLsb']
  by_cases h : i < 10
  · have : ¬ (i = 10 ∨ i = 11) := by omega
    simp [h, this]
  · by_cases h2 : i - 10 < 2
    · have : i = 10 ∨ i = 11 := by omega
      have e : 10 + (i - 10) = i := by omega
      simp [h, h2, this, e, hi]; try (intro _; omega)
    · have : ¬ (i = 10 ∨ i = 11) := by omega
      simp [h2, this]

/-- The table number (R106). -/
theorem table_number (a : Addr) : (a.extractLsb' 10 2).toNat = a.toNat / 0x400 % 4 := by
  simp [BitVec.extractLsb'_toNat, Nat.shiftRight_eq_div_pow]

/-- The source formula of R105 on its two halves. -/
theorem half_or_offset : ∀ y : BitVec 10, (0x400#16 ||| (~~~0x400#16 &&& y.setWidth 16)).toNat = 0x400 + y.toNat ∧ (0x000#16 ||| (~~~0x000#16 &&& y.setWidth 16)).toNat = y.toNat := by decide +kernel

/-- R112. -/
theorem paletteIndex_nat (a : Addr) : paletteIndex a = if a.toNat % 32 = 16 ∨ a.toNat % 32 = 20 ∨ a.toNat % 32 = 24 ∨ a.toNat % 32 = 28 then a.toNat % 32 - 16 else a.toNat % 32 := by
  unfold paletteIndex; rw [and_mask_toNat a 5 _ rfl]; rfl

/-- R112. -/
theorem paletteIndex_lt (a : Addr) : paletteIndex a < 32 := by rw [paletteIndex_nat]; split <;> omega

/-- The reduction of R94 changes no palette cell. -/
theorem paletteIndex_reduce (a : Addr) : paletteIndex (reducePpu a) = paletteIndex a := by
  rw [paletteIndex_nat, paletteIndex_nat, reducePpu_nat, show a.toNat % 0x4000 % 32 = a.toNat % 32 by omega]

/-! ## Routes -/

/-- Neither peripheral range. -/
theorem route_storage {a : Addr} (h : a.toNat < 0x2000 ∨ 0x4018 ≤ a.toNat) : cpuRoute a ≠ .ppuReg ∧ cpuRoute a ≠ .apuIo := by
  unfold cpuRoute
  split_ifs <;> first | omega | exact ⟨by simp, by simp⟩

/-- R101. -/
theorem route_cartridge {a : Addr} (h : 0x4020 ≤ a.toNat) : cpuRoute a = .cartridge := by
  unfold cpuRoute; split_ifs <;> first | rfl | omega

/-- R103. -/
theorem route_pattern {a : Addr} (h : a.toNat % 0x4000 < 0x2000) : ppuRoute (reducePpu a) = .pattern := by
  unfold ppuRoute; rw [reducePpu_nat, if_pos h]

/-- R103. -/
theorem route_nametable {a : Addr} (h : NametableAddr a) : ppuRoute (reducePpu a) = .nametable := by
  unfold ppuRoute
  rw [if_neg (by have := h.1; omega), if_pos (by exact h.2)]

/-! ## Register fields -/

/-- R434. -/
theorem mmc1_bank (x : BitVec 5) : (x &&& 0x0F).toNat = x.toNat % 16 := by revert x; decide

/-- R434. -/
theorem mmc1_bankPair (x : BitVec 5) : (x &&& 0x0E).toNat = x.toNat % 16 / 2 * 2 := by revert x; decide

/-- R435. -/
theorem mmc1_chrPair (x : BitVec 5) : (x &&& 0x1E).toNat = x.toNat / 2 * 2 := by revert x; decide

/-- R433. -/
theorem mmc1_mode (x : BitVec 5) : ((x >>> 2) &&& 3).toNat = x.toNat / 4 % 4 := by revert x; decide

/-- Bits 2:0. -/
theorem low_three (x : Byte) : (x &&& 7).toNat = x.toNat % 8 := by revert x; decide

/-- Bits 5:0. -/
theorem low_six (x : Byte) : (x &&& 0x3F).toNat = x.toNat % 64 := by revert x; decide

/-- Bit 0 cleared. -/
theorem even_part (x : Byte) : (x &&& 0xFE).toNat = x.toNat / 2 * 2 := by revert x; decide

/-- Bit 6. -/
theorem bit_six (x : Byte) : x.getLsbD 6 = decide (x.toNat / 64 % 2 = 1) := by revert x; decide

/-- R472. -/
theorem mirroring_bit : ∀ v : Byte, (v &&& 1).setWidth 1 = BitVec.ofBool (v.getLsbD 0) := by decide

end Sys2Proof.Machine
end

