-- ==== Sys2Proof/Laws/Counters.lean ====
section
/-! SUPPORT. Peripheral time counted in dots (R214, R540, R541): how many dots a step has, that a transaction has none, how the
picture unit's counters move with them, and that the light gun's pulse does not outlive a frame. -/

namespace Sys2Proof.Machine

open Sys2Proof

/-! ## Dots -/

/-- The counters of a picture unit. -/
def counters (p : Ppu) : BitVec 32 × Nat × Nat × Bool := (p.frameNumber, p.scanline, p.dot, p.shortened)

/-- One dot of a picture unit with `S` scanlines of `L` dots, as far as its counters go. -/
def Dot (S L : Nat) (p q : Ppu) : Prop :=
  (p.scanline < S ∧ ∃ skip, counters q = counters (advanceCounters S L skip p)) ∨
  (S ≤ p.scanline ∧ ∃ t, counters q = counters (relocateCounters S t p))

/-- `n` dots. -/
inductive Dots (S L : Nat) : Nat → Ppu → Ppu → Prop where
  | none {p q : Ppu} (h : counters q = counters p) : Dots S L 0 p q
  | more {n : Nat} {p q r : Ppu} (h : Dot S L p q) (k : Dots S L n q r) : Dots S L (n + 1) p r

theorem counters_eq {p q : Ppu} (h : counters q = counters p) :
    q.frameNumber = p.frameNumber ∧ q.scanline = p.scanline ∧ q.dot = p.dot ∧ q.shortened = p.shortened := by
  simpa [counters] using h

theorem advanceCounters_congr {S L : Nat} {skip : Bool} {p q : Ppu} (h : counters q = counters p) :
    counters (advanceCounters S L skip q) = counters (advanceCounters S L skip p) := by
  obtain ⟨h1, h2, h3, h4⟩ := counters_eq h
  unfold advanceCounters nextDot
  rw [h2, h3, h4]
  simp only
  repeat' split
  all_goals simp [counters, *]

theorem Dot.congr {S L : Nat} {p p' q : Ppu} (h : Dot S L p q) (e : counters p' = counters p) : Dot S L p' q := by
  obtain ⟨h1, h2, h3, h4⟩ := counters_eq e
  rcases h with ⟨hs, k, hk⟩ | ⟨hs, t, ht⟩
  · exact Or.inl ⟨by rw [h2]; exact hs, k, by rw [hk, advanceCounters_congr e]⟩
  · refine Or.inr ⟨by rw [h2]; exact hs, t, ?_⟩
    rw [ht]
    unfold relocateCounters
    split <;> simp [counters, h1, h4]

theorem Dots.congr {S L n : Nat} {p p' q : Ppu} (h : Dots S L n p q) (e : counters p' = counters p) :
    Dots S L n p' q := by
  cases h with
  | none h => exact .none (h.trans e.symm)
  | more h k => exact .more (h.congr e) k

theorem Dots.trans {S L : Nat} {m : Nat} : ∀ {n : Nat} {p q r : Ppu}, Dots S L n p q → Dots S L m q r →
    Dots S L (n + m) p r := by
  intro n
  induction n with
  | zero =>
    intro p q r h k
    cases h with
    | none h => rw [Nat.zero_add]; exact k.congr h.symm
  | succ n ih =>
    intro p q r h k
    cases h with
    | more h h' => rw [Nat.succ_add]; exact .more h (ih h' k)

theorem ppuTick_dot (c : Chip) :
    Dot c.regionParams.scanlinesPerFrame c.params.dotsPerScanline c.ppu (ppuTick c).ppu := by
  have f := ppuOwnDot_frame c
  have e : counters (ppuOwnDot c).1.ppu = counters c.ppu := by
    simp only [counters, f.2.1, f.2.2.1, f.2.2.2.1, f.2.2.2.2]
  unfold ppuTick
  simp only
  split
  · rename_i h
    exact Or.inl ⟨h, (ppuOwnDot c).2, advanceCounters_congr e⟩
  · rename_i h
    refine Or.inr ⟨by omega, Config.ppuRelocate (ppuOwnDot c).1.draws c.config.region (ppuOwnDot c).1.ppu, ?_⟩
    unfold relocateCounters
    split <;> simp [counters, f.2.1, f.2.2.2.2]

theorem regionParams_congr {c d : Chip} (hp : d.params = c.params) (hc : d.config = c.config) :
    d.regionParams = c.regionParams := by
  unfold Chip.regionParams; rw [hp, hc]

theorem ppuDots_dots (n : Nat) : ∀ c : Chip,
    Dots c.regionParams.scanlinesPerFrame c.params.dotsPerScanline n c.ppu (ppuDots n c).ppu := by
  induction n with
  | zero => exact fun c => .none rfl
  | succ n ih =>
    intro c
    have q := ppuTick_quiet c
    have := ih (ppuTick c)
    rw [regionParams_congr q.params q.config, q.params] at this
    exact .more (ppuTick_dot c) this

/-! ## Cycles -/

/-- The dots of `n` cycles from cycle count `k`, the count wrapping at 2^64 (log 24). -/
def dotsSpan (r : RegionParams) : (k n : Nat) → Nat
  | _, 0 => 0
  | k, n + 1 => dotsInCycle r k + dotsSpan r ((k + 1) % 2 ^ 64) n

theorem dotsInCycle_mul (r : RegionParams) (k : Nat) :
    dotsInCycle r k * r.dotsDen + (k + 1) * r.dotsNum % r.dotsDen = r.dotsNum + k * r.dotsNum % r.dotsDen := by
  unfold dotsInCycle
  have h1 := Nat.div_add_mod ((k + 1) * r.dotsNum) r.dotsDen
  have h2 := Nat.div_add_mod (k * r.dotsNum) r.dotsDen
  have hle : k * r.dotsNum / r.dotsDen ≤ (k + 1) * r.dotsNum / r.dotsDen :=
    Nat.div_le_div_right (Nat.mul_le_mul_right _ (Nat.le_succ k))
  rw [Nat.mul_comm, Nat.mul_sub]
  have hm : r.dotsDen * (k * r.dotsNum / r.dotsDen) ≤ r.dotsDen * ((k + 1) * r.dotsNum / r.dotsDen) :=
    Nat.mul_le_mul_left _ hle
  have e : (k + 1) * r.dotsNum = k * r.dotsNum + r.dotsNum := Nat.succ_mul _ _
  omega

theorem dotsSpan_bound (r : RegionParams) (n : Nat) : ∀ k : Nat, k < 2 ^ 64 →
    dotsSpan r k n * r.dotsDen ≤ n * r.dotsNum + k * r.dotsNum % r.dotsDen := by
  induction n with
  | zero => intro k _; simp [dotsSpan]
  | succ n ih =>
    intro k hk
    have h := dotsInCycle_mul r k
    have i := ih ((k + 1) % 2 ^ 64) (Nat.mod_lt _ (by decide))
    have hw : (k + 1) % 2 ^ 64 * r.dotsNum % r.dotsDen ≤ (k + 1) * r.dotsNum % r.dotsDen := by
      by_cases hk' : k + 1 < 2 ^ 64
      · rw [Nat.mod_eq_of_lt hk']
      · have : k + 1 = 2 ^ 64 := by omega
        rw [this, Nat.mod_self, Nat.zero_mul, Nat.zero_mod]
        exact Nat.zero_le _
    simp only [dotsSpan]
    rw [Nat.add_mul, Nat.succ_mul]
    omega

/-- At most the dots of `n` cycles (R214, R217). -/
theorem dotsSpan_lt {r : RegionParams} (hd : 0 < r.dotsDen) (n : Nat) {k : Nat} (hk : k < 2 ^ 64) :
    dotsSpan r k n * r.dotsDen < n * r.dotsNum + r.dotsDen := by
  have h := dotsSpan_bound r n k hk
  have := Nat.mod_lt (k * r.dotsNum) hd
  omega

theorem dotsSpan_add (r : RegionParams) (m n : Nat) : ∀ k : Nat, k < 2 ^ 64 →
    dotsSpan r k (m + n) = dotsSpan r k m + dotsSpan r ((k + m) % 2 ^ 64) n := by
  induction m with
  | zero => intro k hk; rw [Nat.zero_add, Nat.add_zero, Nat.mod_eq_of_lt hk]; exact (Nat.zero_add _).symm
  | succ m ih =>
    intro k hk
    rw [Nat.succ_add]
    simp only [dotsSpan]
    rw [ih _ (Nat.mod_lt _ (by decide)), Nat.mod_add_mod, Nat.add_assoc, Nat.add_comm m 1, Nat.add_assoc]

/-- Cycles before the count wraps have the dots of the formula (R214). -/
theorem dotsSpan_noWrap (r : RegionParams) (n : Nat) : ∀ k : Nat, k + n ≤ 2 ^ 64 →
    dotsSpan r k n * r.dotsDen + (k + n) * r.dotsNum % r.dotsDen = n * r.dotsNum + k * r.dotsNum % r.dotsDen := by
  induction n with
  | zero => intro k _; simp [dotsSpan]
  | succ n ih =>
    intro k hk
    have h := dotsInCycle_mul r k
    rcases Nat.eq_zero_or_pos n with rfl | hn
    · simp only [dotsSpan, Nat.add_zero, Nat.zero_add, Nat.one_mul]
      exact h
    · have i := ih (k + 1) (by omega)
      simp only [dotsSpan]
      rw [Nat.mod_eq_of_lt (by omega : k + 1 < 2 ^ 64), Nat.add_mul, Nat.succ_mul, (by omega : k + (n + 1) = k + 1 + n)]
      omega

/-- Dots come: at least one in every `2 * dotsDen` cycles. -/
theorem dotsSpan_window {r : RegionParams} (hd : 0 < r.dotsDen) (h : r.dotsCome = true) {k : Nat} (hk : k < 2 ^ 64) :
    1 ≤ dotsSpan r k (2 * r.dotsDen) := by
  simp only [RegionParams.dotsCome, Bool.and_eq_true, decide_eq_true_eq] at h
  have run : ∀ j, j + r.dotsDen ≤ 2 ^ 64 → 1 ≤ dotsSpan r j r.dotsDen := by
    intro j hj
    have e := dotsSpan_noWrap r r.dotsDen j hj
    rw [Nat.add_mul, Nat.add_mul_mod_self_left] at e
    have e' : dotsSpan r j r.dotsDen * r.dotsDen = r.dotsDen * r.dotsNum := by omega
    by_contra h0
    rw [show dotsSpan r j r.dotsDen = 0 by omega, Nat.zero_mul] at e'
    exact absurd e'.symm (Nat.mul_pos hd h.1).ne'
  by_cases hw : k + r.dotsDen ≤ 2 ^ 64
  · rw [Nat.two_mul, dotsSpan_add r _ _ k hk]
    exact Nat.le_trans (run k hw) (Nat.le_add_right _ _)
  · have e : 2 * r.dotsDen = (2 ^ 64 - k) + (r.dotsDen + (2 * r.dotsDen - (2 ^ 64 - k) - r.dotsDen)) := by omega
    rw [e, dotsSpan_add r _ _ k hk, (by omega : k + (2 ^ 64 - k) = 2 ^ 64), Nat.mod_self,
      dotsSpan_add r _ _ 0 (by decide)]
    have := run 0 (by omega)
    omega

/-- So `m` windows of `2 * dotsDen` cycles have at least `m` dots. -/
theorem dotsSpan_windows {r : RegionParams} (hd : 0 < r.dotsDen) (h : r.dotsCome = true) (m : Nat) : ∀ {k : Nat},
    k < 2 ^ 64 → ∀ {n : Nat}, m * (2 * r.dotsDen) ≤ n → m ≤ dotsSpan r k n := by
  induction m with
  | zero => exact fun _ _ _ => Nat.zero_le _
  | succ m ih =>
    intro k hk n hn
    rw [Nat.succ_mul] at hn
    obtain ⟨x, rfl⟩ : ∃ x, n = 2 * r.dotsDen + x := ⟨n - 2 * r.dotsDen, by omega⟩
    rw [dotsSpan_add r _ _ k hk]
    have h1 := dotsSpan_window hd h hk
    have h2 := ih (k := (k + 2 * r.dotsDen) % 2 ^ 64) (Nat.mod_lt _ (by decide)) (n := x) (by omega)
    omega

/-! ## Transactions take no dot, and leave the light gun's trigger -/

/-- The counters and the trigger are as before. -/
structure SameTime (c d : Chip) : Prop where
  counters : counters d.ppu = counters c.ppu := by rfl
  trigger  : d.input.zapper.trigger = c.input.zapper.trigger := by rfl

theorem SameTime.trans {c d e : Chip} (h : SameTime c d) (k : SameTime d e) : SameTime c e :=
  ⟨k.counters.trans h.counters, k.trigger.trans h.trigger⟩

theorem PpuFrame.sameTime {c d : Chip} (h : PpuFrame c d) : SameTime c d :=
  ⟨by rw [h.ppu], by rw [h.input]⟩

theorem ppuRegRead_sameTime (r : BitVec 3) (c : Chip) : SameTime c (ppuRegRead r c).1 := by
  have h := (ppuProg_run (Config.ppuRegRead c.draws c.config.region c.ppu r) c.drawn).2
  refine ⟨?_, rfl⟩
  unfold ppuRegRead
  simp only [keepPpuSide_ppu]
  show counters ((Config.ppuRegRead c.draws c.config.region c.ppu r).run c.drawn).1.ppu = _
  rw [h.ppu]; rfl

theorem ppuRegWrite_sameTime (r : BitVec 3) (v : Byte) (c : Chip) : SameTime c (ppuRegWrite r v c) := by
  have h := (ppuProg_run (Config.ppuRegWrite c.draws c.config.region c.ppu r v) c.drawn).2
  refine ⟨?_, rfl⟩
  unfold ppuRegWrite
  simp only [keepPpuSide_ppu]
  show counters ((Config.ppuRegWrite c.draws c.config.region c.ppu r v).run c.drawn).1.ppu = _
  rw [h.ppu]; rfl

theorem cpuRead_sameTime (a : Addr) (c : Chip) : SameTime c (cpuRead a c).1 := by
  have h : SameTime c (cpuDecodeRead a c).1 := by
    unfold cpuDecodeRead
    split
    · exact {}
    · exact ppuRegRead_sameTime _ c
    · exact {}
    · exact {}
    · exact {}
  exact h.trans {}

theorem storePool_sameTime (c : Chip) (v : Byte) (w : MappedWrite) : SameTime c (storePool c v w) :=
  (storePool_frame c v w).sameTime

theorem cpuWrite_sameTime (a : Addr) (v : Byte) (c : Chip) : SameTime c (cpuWrite a v c) := by
  have h : SameTime c (cpuDecodeWrite a v c) := by
    unfold cpuDecodeWrite
    split
    · exact {}
    · exact ppuRegWrite_sameTime _ v c
    · exact {}
    · exact {}
    · exact SameTime.trans (d := { c with mapper := (c.mapper.cpuWrite a v c.cpu.cycle).1 }) {}
        ((storePool_sameTime _ v _).trans {})
  exact h.trans {}

/-! ## A cycle, a program, a step -/

/-- `n` dots between two chips, the trigger ending with the frame (R214, R297). -/
structure Passed (S L n : Nat) (c d : Chip) : Prop where
  dots    : Dots S L n c.ppu d.ppu
  trigger : d.input.zapper.trigger = true →
    c.input.zapper.trigger = true ∧ d.ppu.frameNumber = c.ppu.frameNumber

theorem Passed.refl (S L : Nat) (c : Chip) : Passed S L 0 c c := ⟨.none rfl, fun h => ⟨h, rfl⟩⟩

theorem Passed.trans {S L m n : Nat} {c d e : Chip} (h : Passed S L n c d) (k : Passed S L m d e) :
    Passed S L (n + m) c e :=
  ⟨h.dots.trans k.dots, fun ht => by
    have h1 := k.trigger ht
    have h2 := h.trigger h1.1
    exact ⟨h2.1, h1.2.trans h2.2⟩⟩

theorem SameTime.passed {c d : Chip} (h : SameTime c d) (S L : Nat) : Passed S L 0 c d :=
  ⟨.none h.counters, fun ht => ⟨h.trigger ▸ ht, (counters_eq h.counters).1⟩⟩

/-- One cycle: its dots, and nothing else of the picture unit's time. -/
theorem tick_passed (c : Chip) :
    Passed c.regionParams.scanlinesPerFrame c.params.dotsPerScanline (dotsInCycle c.regionParams c.cpu.cycle.toNat) c
      (tick c) := by
  have hp : (tick c).ppu = (ppuDots (dotsInCycle c.regionParams c.cpu.cycle.toNat)
      { c with cpu := { c.cpu with cycle := c.cpu.cycle + 1 } }).ppu := by
    unfold tick
    simp [tickPpu]
  refine ⟨?_, ?_⟩
  · rw [hp]
    exact ppuDots_dots _ { c with cpu := { c.cpu with cycle := c.cpu.cycle + 1 } }
  · intro ht
    have e : (tick c).input.zapper.trigger =
        (c.input.zapper.trigger && (tick c).ppu.frameNumber == c.ppu.frameNumber) := by
      unfold tick
      simp only [sampleNmi_input, sampleNmi_ppu, clockMapper_input, clockMapper_ppu, apuTick_ppu]
      unfold apuTick
      split <;> rfl
    rw [e] at ht
    simpa using ht

/-- What fixes the length of a scanline, a frame and a cycle. -/
structure SameClock (c d : Chip) : Prop where
  params : d.params = c.params
  config : d.config = c.config

theorem Runs.sameClock {c d : Chip} (h : Runs c d) : SameClock c d := ⟨h.params, h.config⟩

theorem SameClock.region {c d : Chip} (h : SameClock c d) : d.regionParams = c.regionParams :=
  regionParams_congr h.params h.config

/-- `n` cycles between two chips. -/
def Cycles (c : Chip) (n : Nat) (d : Chip) : Prop :=
  Passed c.regionParams.scanlinesPerFrame c.params.dotsPerScanline (dotsSpan c.regionParams c.cpu.cycle.toNat n) c d

theorem stamp_next (x : Stamp) : (x + 1).toNat = (x.toNat + 1) % 2 ^ 64 := by
  rw [BitVec.toNat_add]; rfl

/-- A cycle, something that takes no time, and `n` cycles more. -/
theorem Cycles.tick {c d e : Chip} {n : Nat} (hd : SameTime (tick c) d) (hc : SameClock (tick c) d)
    (hs : d.cpu.cycle = (tick c).cpu.cycle) (h : Cycles d n e) : Cycles c (n + 1) e := by
  have q := tick_quiet c
  have hr : d.regionParams = c.regionParams := hc.region.trans (regionParams_congr q.params q.config)
  unfold Cycles at h ⊢
  rw [hr, hc.params, q.params, hs, tick_cycle, stamp_next] at h
  have := (tick_passed c).trans ((hd.passed _ _).trans h)
  rw [Nat.zero_add] at this
  exact this

theorem Cycles.ofSameTime {c d : Chip} (h : SameTime c d) : Cycles c 0 d := h.passed _ _

theorem cpuProg_cycles {α : Type} (p : CpuProg α) : ∀ c : Chip, Cycles c (p.run c).ops (p.run c).chip := by
  induction p with
  | done x => exact fun c => Passed.refl _ _ c
  | read a k ih =>
    intro c
    exact Cycles.tick (cpuRead_sameTime a (tick c)) (cpuRead_quiet a _).sameClock (by rw [cpuRead_cpu]) (ih _ _)
  | write a v k ih =>
    intro c
    exact Cycles.tick (cpuWrite_sameTime a v (tick c)) (cpuWrite_quiet a v _).sameClock (by rw [cpuWrite_cpu]) (ih _)
  | idle k ih =>
    intro c
    exact Cycles.tick (d := Machine.tick c) {} ⟨rfl, rfl⟩ rfl (ih _)

theorem ticks_cycles (n : Nat) : ∀ c : Chip, Cycles c n (ticks n c) := by
  induction n with
  | zero => exact fun c => Passed.refl _ _ c
  | succ n ih => exact fun c => Cycles.tick (d := Machine.tick c) {} ⟨rfl, rfl⟩ rfl (ih _)

/-- Cycles from a chip whose time and clock are another's. -/
theorem Cycles.congr {c c' d d' : Chip} {n : Nat} (h : Cycles c n d) (hc : SameTime c' c) (hk : SameClock c' c)
    (hs : c.cpu.cycle = c'.cpu.cycle) (hd : SameTime d d') : Cycles c' n d' := by
  unfold Cycles at h ⊢
  rw [hk.region, hk.params, hs] at h
  have := (hc.passed _ _).trans (h.trans (hd.passed _ _))
  rw [Nat.zero_add, Nat.add_zero] at this
  exact this

/-- A step passes as many cycles as it counts (R216). -/
theorem cpuStep_cycles {c : Chip} (hp : c.params.ok = true) : Cycles c (cpuStep c).cycles (cpuStep c).chip := by
  unfold cpuStep
  split
  · rename_i k _
    refine (cpuProg_cycles (interruptProg k c.cpu.regs) (clearLatch k c)).congr ?_ (clearLatch_runs k c).sameClock
      (clearLatch_cycle k c) {}
    cases k <;> exact {}
  · have hb := Params.ok_bounds hp
    have q := tick_quiet c
    have f1 : SameTime (tick c) (fetchOpcode c).1 := (cpuRead_sameTime _ _).trans {}
    have f2 : SameClock (tick c) (fetchOpcode c).1 :=
      ((cpuRead_quiet (tick c).cpu.regs.pc (tick c)).toRuns.trans (setRegs_runs _ _)).sameClock
    have f3 : (fetchOpcode c).1.cpu.cycle = (tick c).cpu.cycle := by simp [fetchOpcode]
    have hj : (fetchOpcode c).1.params.jamStepCycles = c.params.jamStepCycles := by rw [f2.params, q.params]
    unfold runOpcode opcodeStep
    split
    · have e : (corruptStep (fetchOpcode c).1).cycles = (c.params.jamStepCycles - 1) + 1 := by
        simp only [corruptStep, hj]; omega
      rw [e]
      refine Cycles.tick f1 f2 f3 ?_
      have h := ticks_cycles (c.params.jamStepCycles - 1)
        { (fetchOpcode c).1 with cpu := { (fetchOpcode c).1.cpu with corrupted := true } }
      have := h.congr (c' := (fetchOpcode c).1) (d' := (corruptStep (fetchOpcode c).1).chip) {} ⟨rfl, rfl⟩ rfl
        (by simp only [corruptStep, hj]; exact {})
      exact this
    · have h := cpuProg_cycles (opcodeProg (fetchOpcode c).2 (fetchOpcode c).1.params.maxStepCycles
        (fetchOpcode c).1.cpu.regs) (fetchOpcode c).1
      have e : (dispatch (opcodeProg (fetchOpcode c).2 (fetchOpcode c).1.params.maxStepCycles) (fetchOpcode c).1).cycles =
          ((opcodeProg (fetchOpcode c).2 (fetchOpcode c).1.params.maxStepCycles (fetchOpcode c).1.cpu.regs).run
            (fetchOpcode c).1).ops + 1 := by
        simp only [dispatch]; omega
      rw [e]
      exact Cycles.tick f1 f2 f3 (h.congr {} ⟨rfl, rfl⟩ rfl {})

/-! ## The counters after some dots -/

/-- The counters in range. -/
structure InRange (S L : Nat) (p : Ppu) : Prop where
  line : p.scanline < S
  dot  : p.dot < L

/-- How far into its frame a picture unit is, in dots, one more while the frame still has its one dot to drop. It
grows by one a dot. -/
def progress (L : Nat) (p : Ppu) : Nat := p.scanline * L + p.dot + if p.shortened then 0 else 1

/-- One dot from counters in range: on within the frame, or the frame boundary (R540). -/
theorem Dot.inRange {S L : Nat} {p q : Ppu} (hL : 2 ≤ L) (hS : 2 ≤ S) (h : Dot S L p q) (hp : InRange S L p) :
    InRange S L q ∧
    ((q.frameNumber = p.frameNumber ∧ progress L q = progress L p + 1 ∧
        p.scanline * L + p.dot < q.scanline * L + q.dot) ∨
     (q.frameNumber = p.frameNumber + 1 ∧ progress L q = 1 ∧ q.scanline = 0 ∧ p.scanline + 1 = S ∧
        S * L ≤ progress L p + 1)) := by
  rcases h with ⟨hs, skip, hk⟩ | ⟨hs, _⟩
  · obtain ⟨h1, h2, h3, h4⟩ := counters_eq hk
    have hl := hp.line
    have hd := hp.dot
    have hsl : p.scanline * L + L ≤ S * L := by
      have : (p.scanline + 1) * L ≤ S * L := Nat.mul_le_mul_right _ hl
      rw [Nat.add_mul, Nat.one_mul] at this; exact this
    obtain ⟨x, hx, hx1, hsh⟩ : ∃ x, nextDot p skip = p.dot + 1 + x ∧ x ≤ 1 ∧
        (x = if skip && !p.shortened then 1 else 0) := by
      refine ⟨if skip && !p.shortened then 1 else 0, ?_, ?_, rfl⟩
      · unfold nextDot; split <;> omega
      · split <;> omega
    have hor : (if p.shortened || skip then 0 else 1) + x = (if p.shortened then 0 else 1 : Nat) := by
      rw [hsh]; cases skip <;> cases p.shortened <;> rfl
    have hle : x ≤ (if p.shortened then 0 else 1 : Nat) := by omega
    unfold advanceCounters at h1 h2 h3 h4
    simp only [hx] at h1 h2 h3 h4
    unfold progress
    by_cases hA : p.dot + 1 + x < L
    · simp only [hA, if_true] at h1 h2 h3 h4
      refine ⟨⟨by rw [h2]; exact hl, by rw [h3]; exact hA⟩, Or.inl ⟨h1, ?_, ?_⟩⟩
      · rw [h2, h3, h4]; omega
      · rw [h2, h3]; omega
    · simp only [hA, if_false] at h1 h2 h3 h4
      by_cases hB : p.scanline + 1 < S
      · simp only [hB, if_true] at h1 h2 h3 h4
        refine ⟨⟨by rw [h2]; exact hB, by rw [h3]; omega⟩, Or.inl ⟨h1, ?_, ?_⟩⟩
        · rw [h2, h3, h4, Nat.add_mul]; omega
        · rw [h2, h3, Nat.add_mul]; omega
      · simp only [hB, if_false] at h1 h2 h3 h4
        have hpS : p.scanline + 1 = S := by omega
        have hSL : S * L = p.scanline * L + L := by rw [← hpS, Nat.add_mul, Nat.one_mul]
        refine ⟨⟨by rw [h2]; omega, by rw [h3]; omega⟩, Or.inr ⟨h1, ?_, h2, hpS, by rw [hSL]; omega⟩⟩
        rw [h2, h3, h4]
        by_cases he : p.dot + 1 + x = L
        · simp [he]
        · have : p.dot + 1 + x = L + 1 := by omega
          simp [this]
  · exact absurd hp.line (by omega)

/-- Dots from counters in range that cannot reach the end of the frame: none of them is a boundary. -/
theorem Dots.within {S L : Nat} (hL : 2 ≤ L) (hS : 2 ≤ S) : ∀ {n : Nat} {p q : Ppu}, Dots S L n p q → InRange S L p →
    progress L p + n + 1 ≤ S * L → InRange S L q ∧ q.frameNumber = p.frameNumber ∧ progress L q = progress L p + n := by
  intro n
  induction n with
  | zero =>
    intro p q h hp _
    cases h with
    | none h =>
      obtain ⟨h1, h2, h3, h4⟩ := counters_eq h
      exact ⟨⟨h2 ▸ hp.line, h3 ▸ hp.dot⟩, h1, by simp [progress, h2, h3, h4]⟩
  | succ n ih =>
    intro p r h hp hn
    cases h with
    | more h k =>
      obtain ⟨hq, ⟨f, g, _⟩ | ⟨_, _, _, _, g⟩⟩ := h.inRange hL hS hp
      · obtain ⟨hr, f', g'⟩ := ih k hq (by omega)
        exact ⟨hr, f'.trans f, by omega⟩
      · omega

/-- Fewer dots than a frame less one, from counters in range: no boundary, or exactly one, on the `k`-th dot. -/
theorem Dots.inRange {S L : Nat} (hL : 2 ≤ L) (hS : 2 ≤ S) : ∀ {n : Nat} {p q : Ppu}, Dots S L n p q → InRange S L p →
    n + 1 ≤ S * L → InRange S L q ∧
      ((q.frameNumber = p.frameNumber ∧ progress L q = progress L p + n) ∨
       (q.frameNumber = p.frameNumber + 1 ∧ ∃ k, 1 ≤ k ∧ k ≤ n ∧ progress L q = 1 + (n - k) ∧
          S * L ≤ progress L p + k)) := by
  intro n
  induction n with
  | zero =>
    intro p q h hp _
    have hle : progress L p ≤ S * L := by
      have : (p.scanline + 1) * L ≤ S * L := Nat.mul_le_mul_right _ hp.line
      rw [Nat.add_mul, Nat.one_mul] at this
      have := hp.dot
      unfold progress; split <;> omega
    cases h with
    | none h =>
      obtain ⟨h1, h2, h3, h4⟩ := counters_eq h
      exact ⟨⟨h2 ▸ hp.line, h3 ▸ hp.dot⟩, Or.inl ⟨h1, by simp [progress, h2, h3, h4]⟩⟩
  | succ n ih =>
    intro p r h hp hn
    cases h with
    | more h k =>
      obtain ⟨hq, ⟨f, g, _⟩ | ⟨f, g, _, _, g'⟩⟩ := h.inRange hL hS hp
      · obtain ⟨hr, ⟨f', e⟩ | ⟨f', m, m1, m2, e, e'⟩⟩ := ih k hq (by omega)
        · exact ⟨hr, Or.inl ⟨f'.trans f, by omega⟩⟩
        · exact ⟨hr, Or.inr ⟨by rw [f', f], m + 1, by omega, by omega, by omega, by omega⟩⟩
      · obtain ⟨hr, f', e⟩ := Dots.within hL hS k hq (by omega)
        exact ⟨hr, Or.inr ⟨by rw [f', f], 1, by omega, by omega, by omega, by omega⟩⟩

/-- The first dot from counters whose scanline is out of range brings them into range (R291). -/
theorem Dot.outOfRange {S L : Nat} (hL : 2 ≤ L) (hS : 2 ≤ S) {p q : Ppu} (h : Dot S L p q) (hp : S ≤ p.scanline) :
    InRange S L q ∧ (q.frameNumber = p.frameNumber ∨ (q.frameNumber = p.frameNumber + 1 ∧ progress L q = 1)) := by
  rcases h with ⟨hs, _⟩ | ⟨_, t, ht⟩
  · omega
  · obtain ⟨h1, h2, h3, h4⟩ := counters_eq ht
    unfold relocateCounters at h1 h2 h3 h4
    split at h1
    · rename_i hb
      simp only [hb, if_true] at h2 h3 h4
      exact ⟨⟨by omega, by omega⟩, Or.inr ⟨h1, by simp [progress, h2, h3, h4]⟩⟩
    · rename_i hb
      simp only [hb, if_false, Bool.false_eq_true] at h2 h3 h4
      exact ⟨⟨by rw [h2]; exact Nat.mod_lt _ (by omega), by omega⟩, Or.inl h1⟩

/-- At least one dot and fewer than a frame less one, from any counters: they end in range, and the frame counter has moved by
one, or has not moved and the unit has come on in its frame by the dots but one. -/
theorem Dots.any {S L : Nat} (hL : 2 ≤ L) (hS : 2 ≤ S) {n : Nat} {p q : Ppu} (h : Dots S L n p q) (hd : p.dot < L)
    (h1 : 1 ≤ n) (hn : n + 1 ≤ S * L) : InRange S L q ∧
      ((q.frameNumber = p.frameNumber ∧ n ≤ progress L q + 1) ∨ q.frameNumber = p.frameNumber + 1) := by
  by_cases hp : p.scanline < S
  · obtain ⟨hr, ⟨f, e⟩ | ⟨f, _⟩⟩ := Dots.inRange hL hS h ⟨hp, hd⟩ hn
    · exact ⟨hr, Or.inl ⟨f, by omega⟩⟩
    · exact ⟨hr, Or.inr f⟩
  · cases h with
    | none h => omega
    | @more n _ r _ h k =>
      obtain ⟨hr, f | ⟨f, g⟩⟩ := h.outOfRange hL hS (by omega)
      · obtain ⟨hq, ⟨f', e⟩ | ⟨f', _⟩⟩ := Dots.inRange hL hS k hr (by omega)
        · exact ⟨hq, Or.inl ⟨f'.trans f, by omega⟩⟩
        · exact ⟨hq, Or.inr (by rw [f', f])⟩
      · obtain ⟨hq, f', _⟩ := Dots.within hL hS k hr (by omega)
        exact ⟨hq, Or.inr (by rw [f', f])⟩

/-- A unit in range that ends on the scanline it started on, after fewer dots than a frame less a scanline less one, has not
left it: it has come on by the dots. -/
theorem Dots.sameLine {S L : Nat} (hL : 2 ≤ L) (hS : 2 ≤ S) {n : Nat} {p q : Ppu} (h : Dots S L n p q)
    (hp : InRange S L p) (hn : n + L + 2 ≤ S * L) (hq : q.scanline = p.scanline) :
    InRange S L q ∧ progress L q = progress L p + n := by
  obtain ⟨hr, ⟨_, g⟩ | ⟨_, k, k1, k2, g, g'⟩⟩ := Dots.inRange hL hS h hp (by omega)
  · exact ⟨hr, g⟩
  · have h1 := hp.dot
    have h2 := hr.dot
    unfold progress at g g'
    rw [hq] at g
    split at g <;> split at g' <;> omega

/-- The first dot from a scanline out of range leaves it (R291). -/
theorem Dots.leavesOutOfRange {S L : Nat} (hL : 2 ≤ L) (hS : 2 ≤ S) {n : Nat} {p q : Ppu} (h : Dots S L n p q)
    (h1 : 1 ≤ n) (hp : S ≤ p.scanline) (hn : n + 1 ≤ S * L) : q.scanline ≠ p.scanline := by
  have hd : InRange S L q := by
    cases h with
    | none h => omega
    | @more n _ r _ h k =>
      have hr := (h.outOfRange hL hS hp).1
      exact (Dots.inRange hL hS k hr (by omega)).1
  have := hd.line
  omega

end Sys2Proof.Machine
end

