-- ==== Sys2Proof/Laws/Loops.lean ====
section
/-! SUPPORT. The loops of the stepping commands (R202, R203, R204): steps in a row, where a loop stops, and that it does. -/

namespace Sys2Proof.Machine

open Sys2Proof

/-! ## Steps in a row -/

theorem stepsFrom_succ (k : Nat) : ∀ g : Stepped, stepsFrom (k + 1) g =
    { chip := (cpuStep (stepsFrom k g).chip).chip,
      cycles := (stepsFrom k g).cycles + (cpuStep (stepsFrom k g).chip).cycles } := by
  induction k with
  | zero => exact fun g => rfl
  | succ k ih => exact fun g => ih _

theorem stepsFrom_add (j k : Nat) : ∀ g : Stepped, stepsFrom (j + k) g = stepsFrom k (stepsFrom j g) := by
  induction j with
  | zero => intro g; rw [Nat.zero_add]; rfl
  | succ j ih => intro g; rw [Nat.succ_add]; exact ih _

/-- The cycles before do not matter to the steps. -/
theorem stepsFrom_cycles (k : Nat) : ∀ (c : Chip) (m n : Nat),
    (stepsFrom k { chip := c, cycles := m + n }).chip = (stepsFrom k { chip := c, cycles := n }).chip ∧
    (stepsFrom k { chip := c, cycles := m + n }).cycles = m + (stepsFrom k { chip := c, cycles := n }).cycles := by
  induction k with
  | zero => exact fun c m n => ⟨rfl, rfl⟩
  | succ k ih =>
    intro c m n
    simp only [stepsFrom, Nat.add_assoc]
    exact ih _ _ _

/-- What steps in a row keep, and how the cycle counter moves with their count (R216). -/
theorem stepsFrom_spec (k : Nat) {g : Stepped} (h : g.chip.Inv) :
    (stepsFrom k g).chip.Inv ∧ Runs g.chip (stepsFrom k g).chip ∧ g.cycles + k ≤ (stepsFrom k g).cycles ∧
    (stepsFrom k g).chip.cpu.cycle + BitVec.ofNat 64 g.cycles =
      g.chip.cpu.cycle + BitVec.ofNat 64 (stepsFrom k g).cycles := by
  induction k with
  | zero => exact ⟨h, Runs.refl _, Nat.le_refl _, rfl⟩
  | succ k ih =>
    obtain ⟨h1, h2, h3, h4⟩ := ih
    have s := cpuStep_spec h1.params
    rw [stepsFrom_succ]
    refine ⟨cpuStep_inv h1, h2.trans s.runs, ?_, ?_⟩
    · have := s.positive
      simp only; omega
    · simp only
      rw [s.cycle, BitVec.ofNat_add, ← BitVec.add_assoc, ← h4]
      simp only [BitVec.add_assoc, BitVec.add_comm (BitVec.ofNat 64 g.cycles)]

/-! ## Where a loop stops -/

/-- Two first numbers of one condition are the same. -/
theorem FirstAt.unique {least k l : Nat} {p : Nat → Prop} (h : FirstAt least p k) (h' : FirstAt least p l) : k = l := by
  rcases Nat.lt_trichotomy k l with g | g | g
  · exact absurd h.2.1 (h'.2.2 k h.1 g)
  · exact g
  · exact absurd h'.2.1 (h.2.2 l h'.1 g)

theorem FirstAt.congr {least k : Nat} {p q : Nat → Prop} (h : FirstAt least p k) (e : ∀ j, j ≤ k → (p j ↔ q j)) :
    FirstAt least q k :=
  ⟨h.1, (e k (Nat.le_refl k)).1 h.2.1, fun j h1 h2 hq => h.2.2 j h1 h2 ((e j (Nat.le_of_lt h2)).2 hq)⟩

/-- CLOCK_SECONDS's loop stops after the steps that first spend the budget or corrupt the processor (R202). -/
theorem secondsLoop_spec : ∀ (fuel : Nat) (c : Chip) (b : Rat) (n : Nat), c.Inv → c.cpu.corrupted = false →
    b ≤ (fuel : Rat) →
    ∃ k, FirstAt 0 (fun j => (stepsFrom j { chip := c, cycles := 0 }).chip.cpu.corrupted = true ∨
        b ≤ ((stepsFrom j { chip := c, cycles := 0 }).cycles : Rat)) k ∧
      secondsLoop fuel { chip := c, remain := b, total := n } =
        { chip := (stepsFrom k { chip := c, cycles := 0 }).chip
          remain := b - ((stepsFrom k { chip := c, cycles := 0 }).cycles : Rat)
          total := n + (stepsFrom k { chip := c, cycles := 0 }).cycles } := by
  intro fuel
  induction fuel with
  | zero =>
    intro c b n h hc hb
    refine ⟨0, ⟨Nat.le_refl 0, Or.inr hb, fun j _ hj => absurd hj (Nat.not_lt_zero j)⟩, ?_⟩
    simp only [secondsLoop, stepsFrom, Nat.add_zero]
    congr 1
    simp
  | succ fuel ih =>
    intro c b n h hc hb
    have s := cpuStep_spec h.params
    have hi := cpuStep_inv h
    by_cases hpos : 0 < b
    · simp only [secondsLoop, hpos, if_true]
      have e : ∀ j, stepsFrom (j + 1) { chip := c, cycles := 0 } =
          { chip := (stepsFrom j { chip := (cpuStep c).chip, cycles := 0 }).chip
            cycles := (cpuStep c).cycles + (stepsFrom j { chip := (cpuStep c).chip, cycles := 0 }).cycles } := by
        intro j
        have := stepsFrom_cycles j (cpuStep c).chip (cpuStep c).cycles 0
        simp only [Nat.add_zero] at this
        rw [← this.1, ← this.2]
        show stepsFrom j { chip := (cpuStep c).chip, cycles := 0 + (cpuStep c).cycles } = _
        rw [Nat.zero_add]
      have hno : ¬ (c.cpu.corrupted = true ∨ b ≤ ((0 : Nat) : Rat)) := by
        rw [hc]; rintro (g | g)
        · cases g
        · exact absurd hpos (not_lt.2 (by simpa using g))
      by_cases hk : (cpuStep c).chip.cpu.corrupted = true
      · refine ⟨1, ⟨Nat.zero_le 1, Or.inl (by simpa [stepsFrom] using hk), ?_⟩, ?_⟩
        · intro j _ hj
          obtain rfl : j = 0 := by omega
          exact hno
        · simp [loopStops, hk, stepsFrom]
      · have hk' : (cpuStep c).chip.cpu.corrupted = false := by simpa using hk
        have hl : loopStops (cpuStep c).chip = false := by simp [loopStops, hk', hi.noRefusal]
        have hb' : b - ((cpuStep c).cycles : Rat) ≤ (fuel : Rat) := by
          have h1 : (1 : Rat) ≤ ((cpuStep c).cycles : Rat) := by exact_mod_cast s.positive
          have h2 : b ≤ (fuel : Rat) + 1 := by exact_mod_cast hb
          linarith
        obtain ⟨k, hf, he⟩ := ih (cpuStep c).chip (b - ((cpuStep c).cycles : Rat)) (n + (cpuStep c).cycles) hi hk' hb'
        refine ⟨k + 1, ⟨Nat.zero_le _, ?_, ?_⟩, ?_⟩
        · simp only [e]
          rcases hf.2.1 with g | g
          · exact Or.inl g
          · right; push_cast; linarith
        · intro j _ hj
          cases j with
          | zero => exact hno
          | succ j =>
            have := hf.2.2 j (Nat.zero_le j) (by omega)
            simp only [e]
            intro g
            refine this (g.imp id fun g => ?_)
            push_cast at g; linarith
        · rw [hl]
          simp only [Bool.false_eq_true, if_false, he, e]
          congr 1
          · push_cast; ring
          · omega
    · refine ⟨0, ⟨Nat.le_refl 0, Or.inr (by simpa [stepsFrom] using not_lt.1 hpos), fun j _ hj =>
        absurd hj (Nat.not_lt_zero j)⟩, ?_⟩
      simp only [secondsLoop, hpos, if_false, stepsFrom, Nat.add_zero]
      congr 1
      simp

/-- The condition at which a CLOCK_FRAME or CLOCK_SCANLINE ends holds after `j` steps (R203, R204). -/
def LoopEnds (loop : ClockLoop) (g : Stepped) (j : Nat) : Prop :=
  (stepsFrom j g).chip.cpu.corrupted = true ∨ loop.moved (stepsFrom j g).chip = true

/-- The loop of CLOCK_FRAME and CLOCK_SCANLINE ends after the steps, at least one, that first meet its condition, when they come
within the fuel; else it has taken as many steps as the fuel, and none of them meets it (R203, R204). -/
theorem runUntil_spec (loop : ClockLoop) : ∀ (fuel : Nat) (g : Stepped), g.chip.Inv →
    (∃ k, k ≤ fuel ∧ FirstAt 1 (LoopEnds loop g) k ∧ runUntil loop fuel g = (stepsFrom k g, true)) ∨
    ((∀ j, 1 ≤ j → j ≤ fuel → ¬ LoopEnds loop g j) ∧ runUntil loop fuel g = (stepsFrom fuel g, false)) := by
  intro fuel
  induction fuel with
  | zero => exact fun g _ => Or.inr ⟨fun j h1 h2 => by omega, rfl⟩
  | succ fuel ih =>
    intro g h
    have hi := cpuStep_inv h
    have hl : loopStops (cpuStep g.chip).chip = (cpuStep g.chip).chip.cpu.corrupted := by
      simp [loopStops, hi.noRefusal]
    simp only [runUntil, hl]
    by_cases hs : LoopEnds loop g 1
    · refine Or.inl ⟨1, by omega, ⟨Nat.le_refl 1, hs, fun j h1 h2 => by omega⟩, ?_⟩
      rw [if_pos (by simpa [LoopEnds, stepsFrom] using hs)]
      rfl
    · rw [if_neg (by simpa [LoopEnds, stepsFrom] using hs)]
      have shift : ∀ j, 1 ≤ j → j = 1 ∨ ∃ i, j = i + 2 := fun j h1 => by
        rcases Nat.eq_or_lt_of_le h1 with g | g
        · exact Or.inl g.symm
        · exact Or.inr ⟨j - 2, by omega⟩
      rcases ih { chip := (cpuStep g.chip).chip, cycles := g.cycles + (cpuStep g.chip).cycles } hi with
        ⟨k, hk, hf, he⟩ | ⟨hn, he⟩
      · refine Or.inl ⟨k + 1, by omega, ⟨by omega, hf.2.1, ?_⟩, he⟩
        intro j h1 h2
        obtain rfl | ⟨j, rfl⟩ := shift j h1
        · exact hs
        · exact hf.2.2 (j + 1) (by omega) (by omega)
      · refine Or.inr ⟨fun j h1 h2 => ?_, he⟩
        obtain rfl | ⟨j, rfl⟩ := shift j h1
        · exact hs
        · exact hn (j + 1) (by omega) (by omega)

/-! ## The dots of a step -/

/-- What a step does to the picture unit's counters: its dots are fewer than a frame less a scanline (R217). -/
theorem cpuStep_dots {c : Chip} (h : c.Inv) :
    2 ≤ c.params.dotsPerScanline ∧ 2 ≤ c.regionParams.scanlinesPerFrame ∧
    ∃ n, n = dotsSpan c.regionParams c.cpu.cycle.toNat (cpuStep c).cycles ∧
      n + 1 ≤ c.regionParams.scanlinesPerFrame * c.params.dotsPerScanline ∧
      (c.regionParams.scanlineOk c.params = true →
        n + c.params.dotsPerScanline + 2 ≤ c.regionParams.scanlinesPerFrame * c.params.dotsPerScanline) ∧
      Passed c.regionParams.scanlinesPerFrame c.params.dotsPerScanline n c (cpuStep c).chip := by
  have hb := Params.ok_bounds h.params
  have hr := RegionParams.ok_bounds (Params.ok_region h.params c.config.region)
  have s := cpuStep_spec h.params
  have hd := dotsSpan_lt hr.1 (cpuStep c).cycles (k := c.cpu.cycle.toNat) c.cpu.cycle.isLt
  have hm : (cpuStep c).cycles * (c.params.region c.config.region).dotsNum ≤
      c.params.maxStepCycles * (c.params.region c.config.region).dotsNum := Nat.mul_le_mul_right _ s.bounded
  refine ⟨hb.2.2.2, hr.2.1, _, rfl, ?_, ?_, cpuStep_cycles h.params⟩
  · have key : dotsSpan c.regionParams c.cpu.cycle.toNat (cpuStep c).cycles <
        c.params.dotsPerScanline * ((c.params.region c.config.region).scanlinesPerFrame - 1) + 1 := by
      refine Nat.lt_of_mul_lt_mul_right (a := (c.params.region c.config.region).dotsDen) ?_
      rw [Nat.add_mul, Nat.one_mul]
      have := hr.2.2
      unfold Chip.regionParams
      omega
    obtain ⟨m, hm⟩ : ∃ m, (c.params.region c.config.region).scanlinesPerFrame = m + 1 :=
      ⟨(c.params.region c.config.region).scanlinesPerFrame - 1, by omega⟩
    unfold Chip.regionParams at key ⊢
    rw [hm] at key ⊢
    rw [Nat.add_sub_cancel] at key
    rw [Nat.add_mul, Nat.one_mul, Nat.mul_comm m]
    omega
  · intro ho
    unfold RegionParams.scanlineOk Chip.regionParams at ho
    have ho := of_decide_eq_true ho
    have key : dotsSpan c.regionParams c.cpu.cycle.toNat (cpuStep c).cycles + 1 <
        c.params.dotsPerScanline * ((c.params.region c.config.region).scanlinesPerFrame - 1) := by
      refine Nat.lt_of_mul_lt_mul_right (a := (c.params.region c.config.region).dotsDen) ?_
      rw [Nat.add_mul, Nat.one_mul]
      unfold Chip.regionParams
      omega
    obtain ⟨m, hm⟩ : ∃ m, (c.params.region c.config.region).scanlinesPerFrame = m + 1 :=
      ⟨(c.params.region c.config.region).scanlinesPerFrame - 1, by omega⟩
    unfold Chip.regionParams at key ⊢
    rw [hm] at key ⊢
    rw [Nat.add_sub_cancel] at key
    rw [Nat.add_mul, Nat.one_mul, Nat.mul_comm m]
    omega

theorem Runs.regionParams {c d : Chip} (h : Runs c d) : d.regionParams = c.regionParams :=
  regionParams_congr h.params h.config

/-! ## The loops end -/

theorem progress_le {S L : Nat} {p : Ppu} (h : InRange S L p) : progress L p ≤ S * L := by
  have h1 : (p.scanline + 1) * L ≤ S * L := Nat.mul_le_mul_right _ h.line
  rw [Nat.add_mul, Nat.one_mul] at h1
  have := h.dot
  unfold progress; split <;> omega

/-- Steps in a row pass as many cycles as they count, and in them the dots of those cycles (R214, R216). -/
theorem stepsFrom_span (j : Nat) {c : Chip} (h : c.Inv) (n : Nat) :
    dotsSpan c.regionParams c.cpu.cycle.toNat (stepsFrom j { chip := c, cycles := 0 }).cycles +
        dotsSpan c.regionParams (stepsFrom j { chip := c, cycles := 0 }).chip.cpu.cycle.toNat n =
      dotsSpan c.regionParams c.cpu.cycle.toNat ((stepsFrom j { chip := c, cycles := 0 }).cycles + n) := by
  have s := (stepsFrom_spec j (g := { chip := c, cycles := 0 }) h).2.2.2
  have e := congrArg BitVec.toNat s
  simp only [BitVec.toNat_add, BitVec.toNat_ofNat, Nat.zero_mod, Nat.add_zero,
    Nat.mod_eq_of_lt (BitVec.isLt _), Nat.add_mod_mod] at e
  rw [dotsSpan_add _ _ _ _ c.cpu.cycle.isLt, e]

/-- Steps that leave the counter of a loop: as long as no dot came the picture unit's counters are as before, and after the
first the unit is in range and has come on in its frame by the dots but one (R203, R204, R540). -/
theorem steps_stay {c : Chip} (h : c.Inv) (loop : ClockLoop)
    (hl : loop.moved c = false)
    (ho : ∀ l, loop = .scanline l → c.regionParams.scanlineOk c.params = true) : ∀ j,
    (∀ i, 1 ≤ i → i ≤ j → ¬ LoopEnds loop { chip := c, cycles := 0 } i) →
    let d := (stepsFrom j { chip := c, cycles := 0 }).chip
    let dots := dotsSpan c.regionParams c.cpu.cycle.toNat (stepsFrom j { chip := c, cycles := 0 }).cycles
    (dots = 0 ∧ counters d.ppu = counters c.ppu) ∨
    (InRange c.regionParams.scanlinesPerFrame c.params.dotsPerScanline d.ppu ∧
      dots ≤ progress c.params.dotsPerScanline d.ppu + 1) := by
  intro j
  induction j with
  | zero => exact fun _ => Or.inl ⟨rfl, rfl⟩
  | succ j ih =>
    intro hf
    have hj := ih fun i h1 h2 => hf i h1 (by omega)
    obtain ⟨hi, ru, _, _⟩ := stepsFrom_spec j (g := { chip := c, cycles := 0 }) h
    obtain ⟨hL, hS, n, hn, h2, h3, hp⟩ := cpuStep_dots hi
    simp only [ru.regionParams, ru.params] at hn h2 h3 hp hL hS
    have hsp := stepsFrom_span j h (cpuStep (stepsFrom j { chip := c, cycles := 0 }).chip).cycles
    have hm' : loop.moved (stepsFrom (j + 1) { chip := c, cycles := 0 }).chip = false := by
      have := hf (j + 1) (by omega) (Nat.le_refl _)
      unfold LoopEnds at this
      rw [not_or] at this
      simpa using this.2
    have hm : loop.moved (stepsFrom j { chip := c, cycles := 0 }).chip = false := by
      rcases Nat.eq_zero_or_pos j with rfl | hj0
      · exact hl
      · have := hf j hj0 (by omega)
        unfold LoopEnds at this
        rw [not_or] at this
        simpa using this.2
    rw [stepsFrom_succ] at hm' ⊢
    simp only at hm' ⊢
    rw [← hsp, ← hn]
    generalize (stepsFrom j { chip := c, cycles := 0 }).chip = d at *
    generalize dotsSpan c.regionParams c.cpu.cycle.toNat (stepsFrom j { chip := c, cycles := 0 }).cycles = k at *
    rcases Nat.eq_zero_or_pos n with hz | hz
    · rw [hz] at hp ⊢
      have e : counters (cpuStep d).chip.ppu = counters d.ppu := by
        cases hp.dots with
        | none e => exact e
      obtain ⟨_, e2, e3, e4⟩ := counters_eq e
      rcases hj with ⟨a1, a2⟩ | ⟨a1, a2⟩
      · exact Or.inl ⟨by omega, e.trans a2⟩
      · refine Or.inr ⟨⟨by rw [e2]; exact a1.line, by rw [e3]; exact a1.dot⟩, ?_⟩
        simp only [progress, e2, e3, e4, Nat.add_zero] at a2 ⊢
        exact a2
    · right
      rcases hj with ⟨a1, a2⟩ | ⟨a1, a2⟩
      · have hd : d.ppu.dot < c.params.dotsPerScanline := by
          have := hi.dot
          rw [ru.params] at this
          exact this
        obtain ⟨hq, ⟨_, g⟩ | g⟩ := Dots.any hL hS hp.dots hd hz h2
        · exact ⟨hq, by omega⟩
        · cases loop with
          | frame f =>
            simp only [ClockLoop.moved, decide_eq_false_iff_not, not_not] at hm hm'
            rw [hm, hm'] at g
            exact absurd g (by intro hc; have := congrArg BitVec.toNat hc; simp at this; have := f.isLt; omega)
          | scanline l =>
            simp only [ClockLoop.moved, decide_eq_false_iff_not, not_not] at hm hm'
            refine ⟨hq, ?_⟩
            by_cases hs : d.ppu.scanline < c.regionParams.scanlinesPerFrame
            · have := (Dots.sameLine hL hS hp.dots ⟨hs, hd⟩ (h3 (ho l rfl)) (hm'.trans hm.symm)).2
              omega
            · exact absurd (hm'.trans hm.symm) (Dots.leavesOutOfRange hL hS hp.dots hz (by omega) h2)
      · cases loop with
        | frame f =>
          simp only [ClockLoop.moved, decide_eq_false_iff_not, not_not] at hm hm'
          obtain ⟨hq, ⟨_, g⟩ | ⟨g, _⟩⟩ := Dots.inRange hL hS hp.dots a1 h2
          · exact ⟨hq, by omega⟩
          · rw [hm, hm'] at g
            exact absurd g (by intro hc; have := congrArg BitVec.toNat hc; simp at this; have := f.isLt; omega)
        | scanline l =>
          simp only [ClockLoop.moved, decide_eq_false_iff_not, not_not] at hm hm'
          obtain ⟨hq, g⟩ := Dots.sameLine hL hS hp.dots a1 (h3 (ho l rfl)) (hm'.trans hm.symm)
          exact ⟨hq, by omega⟩

/-- Where dots come, a loop meets its condition to end within the fuel (R203, R204); for a scanline's, where no step is as long as
a frame less one scanline and two dots. -/
theorem loop_ends {c : Chip} (h : c.Inv) (hd : c.regionParams.dotsCome = true) (loop : ClockLoop)
    (hl : loop.moved c = false) (ho : ∀ l, loop = .scanline l → c.regionParams.scanlineOk c.params = true) :
    ∃ k, FirstAt 1 (LoopEnds loop { chip := c, cycles := 0 }) k ∧
      runUntil loop (loopFuel c) { chip := c, cycles := 0 } = (stepsFrom k { chip := c, cycles := 0 }, true) := by
  rcases runUntil_spec loop (loopFuel c) { chip := c, cycles := 0 } h with ⟨k, _, hf, he⟩ | ⟨hn, _⟩
  · exact ⟨k, hf, he⟩
  · have hr := RegionParams.ok_bounds (Params.ok_region h.params c.config.region)
    have hc := (stepsFrom_spec (loopFuel c) (g := { chip := c, cycles := 0 }) h).2.2.1
    have hw := dotsSpan_windows hr.1 hd
      (c.regionParams.scanlinesPerFrame * c.params.dotsPerScanline + 2) (k := c.cpu.cycle.toNat) c.cpu.cycle.isLt
      (n := (stepsFrom (loopFuel c) { chip := c, cycles := 0 }).cycles)
      (by unfold loopFuel at hc ⊢; unfold Chip.regionParams at *; omega)
    rcases steps_stay h loop hl ho (loopFuel c) hn with ⟨g, _⟩ | ⟨g1, g2⟩
    · exact absurd (hw.trans_eq g) (Nat.not_succ_le_zero _)
    · exact absurd ((hw.trans g2).trans (Nat.succ_le_succ (progress_le g1))) (Nat.not_succ_le_self _)

end Sys2Proof.Machine
end

