-- ==== Sys2Proof/Laws/Opcode.lean ====
section
/-! SUPPORT. How an opcode's step ends, once for every opcode (R201, R215): on a chip that can run on, the state is the
program's chip with the program's registers, and the result is its cycle count. -/

namespace Sys2Proof.Machine

open Sys2Proof

/-- A program's step on a chip that can run on. -/
theorem dispatch_ends {s : State} (h : Ready s.chip) (prog : CpuRegs → CpuProg CpuRegs) :
    (endStep s (dispatch prog s.chip)).chip =
      ((prog s.chip.cpu.regs).run s.chip).chip.setRegs ((prog s.chip.cpu.regs).run s.chip).value ∧
    OpcodeEnds s (endStep s (dispatch prog s.chip)) (1 + ((prog s.chip.cpu.regs).run s.chip).ops) := by
  have hp := cpuProg_run (prog s.chip.cpu.regs) s.chip
  have hn : (dispatch prog s.chip).chip.fsDefault = false :=
    ((setRegs_runs _ _).inv (hp.1.toRuns.inv h.inv)).noRefusal
  have hk : (dispatch prog s.chip).chip.cpu.corrupted = false := by
    show (((prog s.chip.cpu.regs).run s.chip).chip).cpu.corrupted = false
    rw [hp.1.corrupted, h.corrupted]
  unfold endStep
  rw [commit_of_noRefusal s hn]
  refine ⟨rfl, ⟨hk, ?_, ?_, ⟨rfl, rfl, rfl, rfl, rfl, rfl, rfl⟩⟩⟩
  · simp only [hk, Bool.false_eq_true, if_false]
    rfl
  · show (((prog s.chip.cpu.regs).run s.chip).chip).cpu.cycle + 1 = _
    rw [hp.2, BitVec.add_assoc, Nat.add_comm 1, BitVec.ofNat_add]
    rfl

/-- The same for an opcode outside `CorruptSet`. -/
theorem opcode_ends {s : State} (h : Ready s.chip) {b : Byte} (hb : b ∉ s.chip.params.corruptSet)
    (prog : CpuRegs → CpuProg CpuRegs) :
    (endStep s (opcodeStep b prog s.chip)).chip =
      ((prog s.chip.cpu.regs).run s.chip).chip.setRegs ((prog s.chip.cpu.regs).run s.chip).value ∧
    OpcodeEnds s (endStep s (opcodeStep b prog s.chip)) (1 + ((prog s.chip.cpu.regs).run s.chip).ops) := by
  rw [opcodeStep_out hb]
  exact dispatch_ends h prog

/-- The same for the corrupting step (R213). -/
theorem corrupt_ends {s : State} (h : s.chip.Inv) :
    (endStep s (corruptStep s.chip)).chip =
      ticks (s.chip.params.jamStepCycles - 1) { s.chip with cpu := { s.chip.cpu with corrupted := true } } ∧
    (endStep s (corruptStep s.chip)).result = some (.err .cpuCorrupted) ∧
    SameDeck s (endStep s (corruptStep s.chip)) := by
  have hq := ticks_quiet (s.chip.params.jamStepCycles - 1) { s.chip with cpu := { s.chip.cpu with corrupted := true } }
  have hn : (corruptStep s.chip).chip.fsDefault = false := (hq.toRuns.inv ((setCorrupted_runs _).inv h)).noRefusal
  have hk : (corruptStep s.chip).chip.cpu.corrupted = true := hq.corrupted
  unfold endStep
  rw [commit_of_noRefusal s hn]
  exact ⟨rfl, by simp [hk], ⟨rfl, rfl, rfl, rfl, rfl, rfl, rfl⟩⟩

/-- The instruction of an opcode byte is what the control unit does with the byte (R157, R210; log 33). -/
theorem exec_decodeOpc (b : Byte) (s : State) : exec (decodeOpc b) s = .next (endStep s (runOpcode b s.chip)) := by
  by_cases h : b ∈ decidedCorruptSet
  · simp only [decidedCorruptSet, List.mem_cons, List.not_mem_nil, or_false] at h
    rcases h with h | h | h | h | h | h | h | h | h | h | h | h <;> subst h <;> rfl
  · by_cases hx : b ∈ referenceOpcodes
    · simp only [referenceOpcodes, List.mem_cons, List.not_mem_nil, or_false] at hx
      rcases hx with h | h | h | h | h | h <;> subst h <;> rfl
    · simp only [decidedCorruptSet, referenceOpcodes, List.mem_cons, List.not_mem_nil, or_false, not_or] at h hx
      have e : opcodeProg b s.chip.params.maxStepCycles = executeProg b s.chip.params.maxStepCycles := by
        funext r; simp only [opcodeProg, hx, if_false]
      simp only [decodeOpc, h, hx, if_false, runOpcode, e]
      rfl

/-- What a cycle that reads keeps. -/
theorem cycleRead_quiet (a : Addr) (c : Chip) : Quiet c (cycleRead a c).1 :=
  (tick_quiet c).trans (cpuRead_quiet a _)

theorem cycleWrite_quiet (a : Addr) (v : Byte) (c : Chip) : Quiet c (cycleWrite a v c) :=
  (tick_quiet c).trans (cpuWrite_quiet a v _)

/-- Setting the registers a chip has changes nothing. -/
theorem setRegs_self {c : Chip} {r : CpuRegs} (h : c.cpu.regs = r) : c.setRegs r = c := by
  cases c; cases h; rfl

/-- Programs of one operation, in the words of cycles. -/
theorem run_read {α : Type} (a : Addr) (k : Byte → CpuProg α) (c : Chip) :
    ((CpuProg.read a k).run c).chip = ((k (cycleRead a c).2).run (cycleRead a c).1).chip ∧
    ((CpuProg.read a k).run c).value = ((k (cycleRead a c).2).run (cycleRead a c).1).value ∧
    ((CpuProg.read a k).run c).ops = ((k (cycleRead a c).2).run (cycleRead a c).1).ops + 1 := ⟨rfl, rfl, rfl⟩

/-- The stack byte's place in WRAM. -/
theorem stack_cell (s : Byte) : cpuRoute (stackAddr s) = .wram ∧ wramIndex (stackAddr s) = 0x100 + s.toNat := by
  have h : (stackAddr s).toNat = 0x100 + s.toNat := by
    simp only [stackAddr, BitVec.toNat_append]
    have := s.isLt
    rw [← Nat.shiftLeft_add_eq_or_of_lt this]
    simp
  have hs := s.isLt
  constructor
  · simp [cpuRoute, h]; omega
  · simp only [wramIndex, BitVec.toNat_and, h]
    have : (0x07FF#16).toNat = 2 ^ 11 - 1 := rfl
    show (256 + s.toNat) &&& (0x07FF#16).toNat = _
    rw [this, Nat.and_two_pow_sub_one_eq_mod]
    omega

/-- One write read back. -/
theorem PoolOk.read_write {m : Memory} {n : Nat} (h : PoolOk m n) {i : Nat} (hi : i < n) (v : Byte) (k : Nat) :
    (m.write i v).read k = if k = i then v else m.read k := by
  split
  · subst_vars; exact Memory.read_write_same h.1 (by rw [h.2]; exact hi) v
  · rename_i hk; exact Memory.read_write_other m hk v

/-- A cycle that writes a stack byte. -/
theorem cycleWrite_stack (sp v : Byte) (c : Chip) : cycleWrite (stackAddr sp) v c =
    { tick c with bus := { c.bus with wram := c.bus.wram.write (0x100 + sp.toNat) v, openBus := v } } := by
  have h := stack_cell sp
  simp [cycleWrite, cpuWrite, cpuDecodeWrite, h.1, h.2, Chip.latchCpu]

theorem cycleWrite_stack_settled (sp v : Byte) (c : Chip) :
    (cycleWrite (stackAddr sp) v c).cart.prgRam = c.cart.prgRam ∧
    (∀ n a, (cycleWrite (stackAddr sp) v c).mapper.cpuRead n a = c.mapper.cpuRead n a) ∧
    (cycleWrite (stackAddr sp) v c).bus.wram = c.bus.wram.write (0x100 + sp.toNat) v ∧
    (c.mapper.irqOut = true → (cycleWrite (stackAddr sp) v c).mapper.irqOut = true) := by
  rw [cycleWrite_stack]
  exact ⟨(tick_settled c).prgRam, (tick_settled c).reads, rfl, (tick_settled c).irqStays⟩

/-- A read of the stack page. -/
theorem cycleRead_stack (sp : Byte) (c : Chip) :
    (cycleRead (stackAddr sp) c).2 = c.bus.wram.read (0x100 + sp.toNat) := by
  have h := stack_cell sp
  have hlt : (stackAddr sp).toNat < 0x8000 := by
    have := h.1
    unfold cpuRoute at this
    by_contra hc
    repeat' split at this
    all_goals first | omega | cases this
  simp [cycleRead, cpuRead, cpuDecodeRead, h.1, h.2, genieFilter, hlt]

/-! ## The vectors and the ROM window -/

/-- A board answers every read of the upper half from PRG ROM. -/
theorem upper_prgRom {m : Mapper} (hk : m.kind.isSome = true) (n : Nat) {a : Addr} (ha : 0x8000 ≤ a.toNat) :
    ∃ i, m.cpuRead n a = .prgRom i := by
  have h1 : ¬ a.toNat < 0x6000 := by omega
  have h2 : ¬ a.toNat < 0x8000 := by omega
  rcases m with _ | ⟨info, regs⟩
  · simp [Mapper.kind] at hk
  · cases regs
    · exact ⟨a.toNat - 0x8000, by simp [Mapper.cpuRead, nromCpuRead, h1, h2]⟩
    · rename_i b
      by_cases h3 : a.toNat < 0xC000
      · exact ⟨b.toNat * 0x4000 + (a &&& 0x3FFF).toNat, by simp [Mapper.cpuRead, uxromCpuRead, h2, h3]⟩
      · exact ⟨(n / 16384 - 1) * 0x4000 + (a &&& 0x3FFF).toNat, by simp [Mapper.cpuRead, uxromCpuRead, h2, h3]⟩
    · exact ⟨a.toNat - 0x8000, by simp [Mapper.cpuRead, cnromCpuRead, h2]⟩
    · rename_i b
      exact ⟨(b &&& 7).toNat * 0x8000 + (a &&& 0x7FFF).toNat, by simp [Mapper.cpuRead, axromCpuRead, h2]⟩
    · rename_i m
      exact ⟨mmc1PrgIndex m (n / 16384) a, by simp [Mapper.cpuRead, mmc1CpuRead, h1, h2]⟩
    · rename_i m
      exact ⟨mmc3PrgBank m (n / 8192) a * 0x2000 + (a &&& 0x1FFF).toNat, by
        simp [Mapper.cpuRead, mmc3CpuRead, h1, h2]⟩

/-- A valid descriptor has PRG bytes (R251). -/
theorem validate_prg {d : Descriptor} (h : validate d = none) : d.prgRom.size ≠ 0 := by
  unfold validate at h
  split at h
  · cases h
  · split at h
    · cases h
    · rename_i hn; exact fun e => hn (Or.inl e)

theorem Chip.Inv.prg_size {c : Chip} (h : c.Inv) (hk : c.mapper.kind.isSome = true) : c.cart.prgRom.size ≠ 0 := by
  have hc := h.cartridge
  unfold CartridgeOk at hc
  cases hm : c.mapper with
  | empty => rw [hm] at hk; simp [Mapper.kind] at hk
  | board info regs =>
    rw [hm] at hc
    obtain ⟨d, hd⟩ := hc
    rw [hd.prgRom]
    exact validate_prg hd.valid

theorem route_upper {a : Addr} (ha : 0x8000 ≤ a.toNat) : cpuRoute a = .cartridge := by
  unfold cpuRoute
  repeat' split
  all_goals first | omega | rfl

/-- A read of the ROM window gives what a peek gives, and neither depends on the latch. -/
theorem rom_peek {c d : Chip} (h : c.Inv) (hk : c.mapper.kind.isSome = true) {a : Addr} (ha : 0x8000 ≤ a.toNat)
    (hg : d.bus.genie = c.bus.genie) (hp : d.cart.prgRom = c.cart.prgRom)
    (hr : ∀ n b, d.mapper.cpuRead n b = c.mapper.cpuRead n b) :
    cpuPeek a d = cpuPeek a c ∧ (cpuRead a d).2 = cpuPeek a c := by
  have hroute := route_upper ha
  obtain ⟨i, hi⟩ := upper_prgRom hk c.cart.prgRom.size ha
  have hs := h.prg_size hk
  have hv : cartRead a d = cartRead a c := by
    simp [cartRead, hp, hr, hi, resolvePool, Memory.readMod, hs]
  have hpk : cpuPeek a d = cpuPeek a c := by simp [cpuPeek, hroute, hg, hv]
  refine ⟨hpk, ?_⟩
  rw [cpuRead_storage (by simp [hroute])]
  exact hpk

/-! ## Taking an exception -/

/-- What the stack page holds after three pushes (R526). -/
theorem three_pushes {m : Memory} (h : PoolOk m 2048) (s x y z : Byte) (i : Nat) :
    (((m.write (0x100 + s.toNat) x).write (0x100 + (s - 1).toNat) y).write (0x100 + (s - 2).toNat) z).read i =
      if i = 0x100 + s.toNat then x else if i = 0x100 + (s - 1).toNat then y
      else if i = 0x100 + (s - 2).toNat then z else m.read i := by
  have b0 := s.isLt
  have b1 := (s - 1).isLt
  have b2 := (s - 2).isLt
  have n01 : s.toNat ≠ (s - 1).toNat := by
    intro e; have := BitVec.eq_of_toNat_eq e; revert this; revert s; decide
  have n02 : s.toNat ≠ (s - 2).toNat := by
    intro e; have := BitVec.eq_of_toNat_eq e; revert this; revert s; decide
  have n12 : (s - 1).toNat ≠ (s - 2).toNat := by
    intro e; have := BitVec.eq_of_toNat_eq e; revert this; revert s; decide
  rw [((h.write _ x).write _ y).read_write (by omega), (h.write _ x).read_write (by omega), h.read_write (by omega)]
  by_cases e0 : i = 0x100 + s.toNat
  · have : i ≠ 0x100 + (s - 2).toNat := by omega
    have : i ≠ 0x100 + (s - 1).toNat := by omega
    simp_all
  · by_cases e1 : i = 0x100 + (s - 1).toNat
    · have : i ≠ 0x100 + (s - 2).toNat := by omega
      simp_all
    · rw [if_neg e0, if_neg e0, if_neg e1, if_neg e1]

/-- Everything taking an exception does (R526, R525). -/
structure ExceptionTaken (c : Chip) (r : CpuRegs) (ret : Addr) (brk : Bool) (vec : Addr) (d : Chip) (q : CpuRegs) : Prop where
  quiet  : Quiet c d
  regs   : q = { r with s := r.s - 3, p := setI r.p, pc := word16 (cpuPeek vec c) (cpuPeek (vec + 1) c) }
  wram   : ∀ i, d.bus.wram.read i =
    if i = 0x100 + r.s.toNat then hiByte ret else if i = 0x100 + (r.s - 1).toNat then loByte ret
    else if i = 0x100 + (r.s - 2).toNat then pushedStatus r.p brk else c.bus.wram.read i
  prgRam : d.cart.prgRam = c.cart.prgRam
  reads  : ∀ n a, d.mapper.cpuRead n a = c.mapper.cpuRead n a
  latch  : d.bus.openBus = cpuPeek (vec + 1) c
  irq    : c.mapper.irqOut = true → d.mapper.irqOut = true

theorem takeException_spec {c : Chip} (h : c.Inv) (hk : c.mapper.kind.isSome = true) (r : CpuRegs) (ret : Addr) (brk : Bool)
    {vec : Addr} (hv : 0x8000 ≤ vec.toNat) (hv' : 0x8000 ≤ (vec + 1).toNat) :
    ExceptionTaken c r ret brk vec ((takeException r ret brk vec).run c).chip ((takeException r ret brk vec).run c).value := by
  let c1 := cycleWrite (stackAddr r.s) (hiByte ret) c
  let c2 := cycleWrite (stackAddr (r.s - 1)) (loByte ret) c1
  let c3 := cycleWrite (stackAddr (r.s - 2)) (pushedStatus r.p brk) c2
  let c4 := cycleRead vec c3
  let c5 := cycleRead (vec + 1) c4.1
  have w1 := cycleWrite_stack_settled r.s (hiByte ret) c
  have w2 := cycleWrite_stack_settled (r.s - 1) (loByte ret) c1
  have w3 := cycleWrite_stack_settled (r.s - 2) (pushedStatus r.p brk) c2
  have q1 : Quiet c c1 := cycleWrite_quiet _ _ _
  have q2 : Quiet c c2 := q1.trans (cycleWrite_quiet _ _ _)
  have q3 : Quiet c c3 := q2.trans (cycleWrite_quiet _ _ _)
  have q4 : Quiet c c4.1 := q3.trans (cycleRead_quiet _ _)
  have q5 : Quiet c c5.1 := q4.trans (cycleRead_quiet _ _)
  have s4 : Settled c3 c4.1 := cycleRead_settled _ _
  have s5 : Settled c4.1 c5.1 := cycleRead_settled _ _
  have r3 : ∀ n a, c3.mapper.cpuRead n a = c.mapper.cpuRead n a := fun n a =>
    (w3.2.1 n a).trans ((w2.2.1 n a).trans (w1.2.1 n a))
  have p3 : c3.cart.prgRam = c.cart.prgRam := w3.1.trans (w2.1.trans w1.1)
  have v4 : c4.2 = cpuPeek vec c := (rom_peek h hk hv (by rw [(tick_quiet c3).genie]; exact q3.genie)
    (by rw [(tick_quiet c3).prgRom]; exact q3.prgRom) (fun n b => ((tick_settled c3).reads n b).trans (r3 n b))).2
  have v5 : c5.2 = cpuPeek (vec + 1) c := (rom_peek h hk hv' (by rw [(tick_quiet c4.1).genie]; exact q4.genie)
    (by rw [(tick_quiet c4.1).prgRom]; exact q4.prgRom)
    (fun n b => ((tick_settled c4.1).reads n b).trans ((s4.reads n b).trans (r3 n b)))).2
  refine ⟨q5, ?_, ?_, s5.prgRam.trans (s4.prgRam.trans p3),
    fun n a => (s5.reads n a).trans ((s4.reads n a).trans (r3 n a)), v5,
    fun e => s5.irqStays (s4.irqStays (w3.2.2.2 (w2.2.2.2 (w1.2.2.2 e))))⟩
  · show { r with s := r.s - 3, p := setI r.p, pc := word16 c4.2 c5.2 } = _
    rw [v4, v5]
  · intro i
    show c5.1.bus.wram.read i = _
    rw [s5.wram, s4.wram, w3.2.2.1, w2.2.2.1, w1.2.2.1]
    exact three_pushes h.wram _ _ _ _ i

/-- Both bytes of a vector lie in the ROM window. -/
theorem vector_upper (k : Interrupt) : 0x8000 ≤ k.vector.toNat ∧ 0x8000 ≤ (k.vector + 1).toNat := by
  cases k <;> decide

/-- Everything an interrupt entry does (R526). -/
theorem interruptEntry_taken {c : Chip} (h : c.Inv) (hk : c.mapper.kind.isSome = true) (k : Interrupt) :
    ∃ d, (interruptEntry k c).chip = d.setRegs (interruptEntry k c).chip.cpu.regs ∧
      ExceptionTaken c c.cpu.regs c.cpu.regs.pc false k.vector d (interruptEntry k c).chip.cpu.regs := by
  let c0 := clearLatch k c
  have q0 : Quiet c c0 := clearLatch_runs k c
  have s0 : Settled c c0 := by cases k <;> exact {}
  let c1 := (cycleRead c.cpu.regs.pc c0).1
  let c2 := (cycleRead c.cpu.regs.pc c1).1
  have q2 : Quiet c c2 := q0.trans ((cycleRead_quiet _ _).trans (cycleRead_quiet _ _))
  have s2 : Settled c c2 := s0.trans ((cycleRead_settled _ _).trans (cycleRead_settled _ _))
  have hv := vector_upper k
  have hk2 : c2.mapper.kind.isSome = true := by rw [kind_of_identity q2.identity]; exact hk
  have E := takeException_spec (q2.inv h) hk2 c.cpu.regs c.cpu.regs.pc false hv.1 hv.2
  refine ⟨((takeException c.cpu.regs c.cpu.regs.pc false k.vector).run c2).chip, rfl, ?_, ?_, ?_, ?_, ?_, ?_, ?_⟩
  · exact q2.trans E.quiet
  · have e := E.regs
    rw [(rom_peek h hk hv.1 q2.genie q2.prgRom s2.reads).1, (rom_peek h hk hv.2 q2.genie q2.prgRom s2.reads).1] at e
    exact e
  · intro i
    rw [E.wram i, s2.wram]
  · exact E.prgRam.trans s2.prgRam
  · exact fun n a => (E.reads n a).trans (s2.reads n a)
  · rw [E.latch, (rom_peek h hk hv.2 q2.genie q2.prgRom s2.reads).1]
  · exact fun e => E.irq (s2.irqStays e)

/-- The NMI latch after a program: what it was, or an edge of one of its cycles (R521). -/
theorem cpuProg_latch {α : Type} (p : CpuProg α) :
    ∀ c : Chip, (p.run c).chip.cpu.nmiLatch = (c.cpu.nmiLatch || sawEdge p c) := by
  induction p with
  | done x => exact fun c => (Bool.or_false _).symm
  | read a k ih =>
    intro c
    simp only [CpuProg.run, sawEdge, ih, cpuRead_cpu, (tick_nmi c).1, risingEdge, Bool.or_assoc]
  | write a v k ih =>
    intro c
    simp only [CpuProg.run, sawEdge, ih, cpuWrite_cpu, (tick_nmi c).1, risingEdge, Bool.or_assoc]
  | idle k ih =>
    intro c
    simp only [CpuProg.run, sawEdge, ih, (tick_nmi c).1, risingEdge, Bool.or_assoc]

/-! ## What a CPU write stores -/

@[simp] theorem storePool_bus (c : Chip) (v : Byte) (w : MappedWrite) : (storePool c v w).bus = c.bus := by
  cases w <;> rfl

@[simp] theorem storePool_mapper (c : Chip) (v : Byte) (w : MappedWrite) : (storePool c v w).mapper = c.mapper := by
  cases w <;> rfl

/-- WRAM after a CPU write (R97, R326): only the cell it names changes. -/
theorem cpuWrite_wram {c : Chip} (h : PoolOk c.bus.wram 2048) (a : Addr) (v : Byte) (i : Nat) :
    (cpuWrite a v c).bus.wram.read i = if wramStored a = some i then v else c.bus.wram.read i := by
  unfold cpuWrite cpuDecodeWrite wramStored
  cases hr : cpuRoute a with
  | wram =>
    have hi : wramIndex a < 2048 := by
      have : (0x07FF#16).toNat = 2 ^ 11 - 1 := rfl
      show (a &&& 0x07FF#16).toNat < 2048
      rw [BitVec.toNat_and, this, Nat.and_two_pow_sub_one_eq_mod]
      omega
    simp only [latchCpu_bus, if_true, Option.some.injEq]
    rw [h.read_write hi]
    by_cases e : i = wramIndex a
    · simp [e]
    · rw [if_neg e, if_neg (Ne.symm e)]
  | ppuReg => simp [(ppuRegWrite_settled _ v c).wram]
  | apuIo => simp [apuIoWrite]
  | openBus => simp
  | cartridge => simp [cartWrite]

/-- PRG RAM after a CPU write (R101, R109): only the cell the board names changes. -/
theorem cpuWrite_prgRam {c : Chip} (h : c.cart.prgRam.wf = true) (a : Addr) (v : Byte) {i : Nat}
    (hi : i < c.cart.prgRam.size) :
    (cpuWrite a v c).cart.prgRam.read i = if prgRamStored a v c = some i then v else c.cart.prgRam.read i := by
  unfold cpuWrite cpuDecodeWrite prgRamStored
  cases hr : cpuRoute a with
  | wram => simp
  | ppuReg => simp [(ppuRegWrite_settled _ v c).prgRam]
  | apuIo => simp [apuIoWrite]
  | openBus => simp
  | cartridge =>
    simp only [latchCpu_cart, cartWrite, refreshMirror_cart, if_true]
    cases hw : (c.mapper.cpuWrite a v c.cpu.cycle).2 with
    | prgRam k =>
      have hs : c.cart.prgRam.size ≠ 0 := by omega
      simp only [storePool, Memory.writeMod, hs, if_false, Option.some.injEq]
      have hp : PoolOk c.cart.prgRam c.cart.prgRam.size := ⟨h, rfl⟩
      rw [hp.read_write (Nat.mod_lt _ (by omega))]
      by_cases e : i = k % c.cart.prgRam.size
      · simp [e]
      · rw [if_neg e, if_neg (Ne.symm e)]
    | dflt => simp [storePool]
    | chr k => simp [storePool]
    | ciRam k => simp [storePool]
    | exRam k => simp [storePool]
    | none => simp [storePool]

/-- A write below the register window leaves the board's registers (R400 to R462). -/
theorem cpuWrite_low {a : Addr} (ha : a.toNat < 0x8000) (v : Byte) (t : Stamp) (m : Mapper) :
    (m.cpuWrite a v t).1 = m := by
  rcases m with _ | ⟨info, regs⟩
  · rfl
  · cases regs with
    | nrom => rfl
    | uxrom b => simp [Mapper.cpuWrite, uxromWrite, ha]
    | cnrom b => simp [Mapper.cpuWrite, cnromWrite, ha]
    | axrom b => simp [Mapper.cpuWrite, axromWrite, ha]
    | mmc1 m => simp only [Mapper.cpuWrite, mmc1CpuWrite, ha, if_true]; split <;> rfl
    | mmc3 m => simp only [Mapper.cpuWrite, mmc3CpuWrite, ha, if_true]; split <;> rfl

/-- A write below the register window leaves the way the board maps the processor's addresses. -/
theorem cpuWrite_banks {a : Addr} (ha : a.toNat < 0x8000) (v : Byte) (c : Chip) (n : Nat) (b : Addr) :
    (cpuWrite a v c).mapper.cpuRead n b = c.mapper.cpuRead n b := by
  unfold cpuWrite cpuDecodeWrite
  cases hr : cpuRoute a with
  | wram => rfl
  | ppuReg => exact (ppuRegWrite_settled _ v c).reads n b
  | apuIo => rfl
  | openBus => rfl
  | cartridge => simp [cartWrite, cpuWrite_low ha]

end Sys2Proof.Machine
end

