-- ==== Sys2Proof/Laws/Commands.lean ====
section
/-! SUPPORT. How commands end, said once: the gate, the end of a step, the transactions of the host, what the stepping loops
keep, and the invariant after a command (R19, R200, R320 to R342). -/

namespace Sys2Proof.Machine

open Sys2Proof

/-! ## The gate and the end of a step -/

/-- R200: a machine that can step passes the gate. -/
theorem gate_passes {s : State} (h : CanStep s) : gateStop s = none := by
  have h1 := h.loaded
  unfold gateStop
  cases h2 : s.loadedRom with
  | none => simp [h2] at h1
  | some n => simp [h.ready.corrupted]

/-- Only the host's side changed. -/
theorem inv_hostSide {s : State} (h : s.Inv) (r : Bool) (p : List HostWord) (res : Option Result) :
    State.Inv { s with refused := r, pending := p, result := res } :=
  ⟨h.chip, h.running, h.loaded, h.battery, h.budget, h.owed, h.ongoing⟩

/-- A chip in order with the same board, descriptor and corruption leaves the machine in order. -/
theorem inv_ofChip {s : State} (h : s.Inv) {c : Chip} (res : Option Result) (hi : c.Inv)
    (hk : c.mapper.kind = s.chip.mapper.kind) (hd : c.cart.desc = s.chip.cart.desc)
    (hc : c.cpu.corrupted = s.chip.cpu.corrupted) (hp : c.params = s.chip.params) :
    State.Inv { s with chip := c, result := res } where
  chip := hi
  running := h.running
  loaded := by rw [h.loaded]; exact congrArg _ hk.symm
  battery := by simp only [hd]; exact h.battery
  budget := by simpa [hc] using h.budget
  owed := by simpa [hp] using h.owed
  ongoing := by simpa [hc] using h.ongoing

/-- Processor activity leaves the machine in order, when it ends as corrupted as it began or no command is in progress. -/
theorem inv_ofRuns {s : State} (h : s.Inv) {c : Chip} (r : Runs s.chip c) (res : Option Result)
    (hc : (s.chip.cpu.corrupted = false ∧ s.ongoing = none) ∨ c.cpu.corrupted = s.chip.cpu.corrupted) :
    State.Inv { s with chip := c, result := res } where
  chip := r.inv h.chip
  running := h.running
  loaded := by rw [h.loaded]; exact congrArg _ (kind_of_identity r.identity).symm
  battery := by simp only [r.desc]; exact h.battery
  budget := by
    intro g
    have := h.budget g
    rcases hc with ⟨hc, _⟩ | hc
    · rw [hc] at this; cases this
    · exact hc.trans this
  owed := by simpa [r.params] using h.owed
  ongoing := by
    intro g
    rcases hc with ⟨_, hn⟩ | hc
    · simp [hn] at g
    · exact ⟨(h.ongoing g).1, hc.trans (h.ongoing g).2⟩

/-- A transaction leaves the machine in order. -/
theorem inv_ofQuiet {s : State} (h : s.Inv) {c : Chip} (hq : Quiet s.chip c) (r : Option Result) : State.Inv { s with chip := c, result := r } where
  chip := hq.inv h.chip
  running := h.running
  loaded := by rw [h.loaded]; exact congrArg _ (kind_of_identity hq.identity).symm
  battery := by simp only [hq.desc]; exact h.battery
  budget := by simpa [hq.corrupted] using h.budget
  owed := by simpa [hq.params] using h.owed
  ongoing := by simpa [hq.corrupted] using h.ongoing

/-- A command the gate stops leaves the machine in order. -/
theorem gateStop_inv {s t : State} (h : s.Inv) (hg : gateStop s = some t) : t.Inv := by
  unfold gateStop at hg
  split at hg
  · cases hg; exact inv_hostSide h _ _ _
  · split at hg <;> cases hg
    exact inv_hostSide h _ _ _

/-- A machine in order that passes the gate can step. -/
theorem canStep_of_gate {s : State} (h : s.Inv) (hg : gateStop s = none) : CanStep s := by
  unfold gateStop at hg
  split at hg
  · cases hg
  · rename_i n hn
    split at hg
    · cases hg
    · rename_i hc; exact ⟨by simp [hn], h.chip, by simpa using hc⟩

/-- R201: the end of a step that met no refusal. -/
theorem endStep_ok {s : State} {r : Stepped} (hn : r.chip.fsDefault = false) :
   endStep s r = { s with chip := r.chip, result := some (if r.chip.cpu.corrupted then .err .cpuCorrupted else .ok (.cycles r.cycles)) } := by
  unfold endStep; rw [commit_of_noRefusal s hn]

/-- The reset sequence corrupts nothing. -/
theorem resetSequence_corrupted (c : Chip) : (resetSequence c).cpu.corrupted = c.cpu.corrupted := by
  unfold resetSequence
  rw [setRegs_cpu]
  exact (cpuProg_run _ _).1.corrupted

/-! ## Transactions of the host -/

/-- A notification changes no byte a peek sees (R363). -/
theorem notify_ppuPeek (a b : Addr) (c : Chip) : ppuPeek b (c.notify a) = ppuPeek b c := by
  unfold ppuPeek
  split
  · unfold resolvePpu resolvePool; simp only [Chip.notify, notify_ppuRead]
  · unfold resolvePpu resolvePool; simp only [Chip.notify, notify_ppuRead]
  · rfl

/-- Under the invariant no peek is refused (R374). -/
theorem ppuPeek_some {c : Chip} (h : c.Inv) (a : Addr) : ∃ b, ppuPeek a c = some b := by
  unfold ppuPeek; split
  · exact resolvePpu_isSome h _
  · exact resolvePpu_isSome h _
  · exact ⟨_, rfl⟩

/-- The board after an access of the PPU bus: notified of every address up to 0x3EFF (R335, R338, R366), and of no other. -/
theorem notified_route (a : Addr) (c : Chip) : c.notified a =
    match ppuRoute (reducePpu a) with
    | .pattern => (c.notify (reducePpu a)).mapper
    | .nametable => (c.notify (reducePpu a)).mapper
    | .palette => c.mapper := by
  unfold Chip.notified ppuRoute
  by_cases h1 : (reducePpu a).toNat < 0x2000
  · rw [if_pos h1, if_pos (by omega)]; rfl
  · by_cases h2 : (reducePpu a).toNat ≤ 0x3EFF
    · rw [if_neg h1, if_pos (by omega), if_pos h2]; rfl
    · rw [if_neg h1, if_neg (by omega), if_neg h2]

/-- A notification moves no bank (R363). -/
theorem notified_banks (a : Addr) (c : Chip) :
    (∀ n b, (c.notified a).cpuRead n b = c.mapper.cpuRead n b) ∧ (∀ b, (c.notified a).ppuRead b = c.mapper.ppuRead b) := by
  rw [notified_route]
  split
  · exact ⟨fun n b => notify_reads _ _ _ _ n b, fun b => notify_ppuRead _ _ _ _ b⟩
  · exact ⟨fun n b => notify_reads _ _ _ _ n b, fun b => notify_ppuRead _ _ _ _ b⟩
  · exact ⟨fun _ _ => rfl, fun _ => rfl⟩

/-- R335: everything a read does to the chip. -/
theorem ppuRead_eq (a : Addr) (c : Chip) (v : Byte) (h : ppuPeek a c = some v) :
    ppuRead a c = ({ c with mapper := c.notified a, ppubus := { c.ppubus with openBus := v } }, v) := by
  have hn := notify_ppuPeek (reducePpu a) a c
  rw [h] at hn
  rw [notified_route]
  unfold ppuPeek at hn h
  unfold ppuRead
  split at h
  · rename_i e; rw [e] at hn; simp only [e] at hn ⊢
    simp only [ppuMappedRead]; rw [hn]; rfl
  · rename_i e; rw [e] at hn; simp only [e] at hn ⊢
    simp only [ppuMappedRead]; rw [hn]; rfl
  · rename_i e
    simp only [e]
    cases h; rfl

/-- R335, less the notification's own effect. -/
theorem ppuRead_spec (a : Addr) (c : Chip) (v : Byte) (h : ppuPeek a c = some v) :
   ∃ m, ppuRead a c = ({ c with mapper := m, ppubus := { c.ppubus with openBus := v } }, v) ∧
      (∀ n b, m.cpuRead n b = c.mapper.cpuRead n b) ∧ (∀ b, m.ppuRead b = c.mapper.ppuRead b) :=
  ⟨c.notified a, ppuRead_eq a c v h, notified_banks a c⟩

/-- R338: what a write does to the board is the notification. -/
theorem ppuWrite_mapper (a : Addr) (v : Byte) (c : Chip) : (ppuWrite a v c).mapper = c.notified a := by
  have hm : ∀ n : Chip, { n with mapper := (n.mapper.ppuWrite (reducePpu a) v).1 } = n := fun n => by cases n; simp
  have hw : (ppuMappedWrite (reducePpu a) v c).mapper = (c.notify (reducePpu a)).mapper := by
    unfold ppuMappedWrite
    simp only [hm]
    split
    · rename_i t ht
      have : t.mapper = (c.notify (reducePpu a)).mapper := by
        unfold applyPpu at ht
        split at ht
        · split at ht
          · cases ht; rfl
          · cases hi : ciramIndex (c.notify (reducePpu a)).ppubus.mirrorShift (reducePpu a) with
            | none => rw [hi] at ht; cases ht
            | some i => rw [hi] at ht; cases ht; rfl
        · cases ht; exact storePool_mapper _ _ _
      exact this
    · rfl
  rw [notified_route]
  unfold ppuWrite
  cases ppuRoute (reducePpu a)
  · exact hw
  · exact hw
  · rfl

/-- A notification changes no write answer. -/
theorem notify_ppuWrite (f : Nat) (a b : Addr) (v : Byte) (t : Stamp) (m : Mapper) : ((m.notify f a t).ppuWrite b v).2 = (m.ppuWrite b v).2 := by
  rcases m with _ | ⟨info, regs⟩
  · rfl
  · cases regs with
    | mmc3 m =>
      obtain ⟨k, r, o, p, h, e⟩ := mmc3Notify_banks info.revision f m a t
      simp only [Mapper.notify, e]; rfl
    | nrom => rfl
    | uxrom b => rfl
    | cnrom b => rfl
    | axrom r => rfl
    | mmc1 m => rfl

/-- R338: everything a mapped write does to the PPU bus. -/
theorem ppuMappedWrite_spec {c : Chip} (h : c.Inv) (r : Addr) (v : Byte) :
    ∃ t, applyPpu c r v (c.mapper.ppuWrite r v).2 = some t ∧
      (ppuMappedWrite r v c).ppubus = { t.ppubus with openBus := v } ∧ t.ppubus.mirrorShift = c.ppubus.mirrorShift := by
  have hn : (c.notify r).Inv := (notify_quiet r c).inv h
  have hw : ((c.notify r).mapper.ppuWrite r v).2 = (c.mapper.ppuWrite r v).2 := notify_ppuWrite _ _ _ _ _ _
  have hmir : (c.notify r).mapper.mirroring = c.mapper.mirroring := notify_mirroring _ _ _ _
  have hm : ∀ n : Chip, { n with mapper := (n.mapper.ppuWrite r v).1 } = n := fun n => by cases n; simp
  unfold ppuMappedWrite
  simp only [hm, hw]
  -- apply on notify vs on c
  have key : ∀ w : MappedWrite, (∃ t, applyPpu c r v w = some t ∧ applyPpu (c.notify r) r v w = some { t with mapper := (c.notify r).mapper } ∧ t.ppubus.mirrorShift = c.ppubus.mirrorShift ∧ t.mapper = c.mapper) ∨ applyPpu c r v w = none := by
    intro w
    unfold applyPpu
    by_cases hd : w = .dflt
    · simp only [hd, if_true]
      by_cases h2 : r.toNat < 0x2000
      · simp only [h2, if_true]; exact Or.inl ⟨_, rfl, rfl, rfl, rfl⟩
      · simp only [h2, if_false]
        have e : (c.notify r).ppubus = c.ppubus := rfl
        rw [e]
        cases hi : ciramIndex c.ppubus.mirrorShift r with
        | none => exact Or.inr rfl
        | some i => exact Or.inl ⟨_, rfl, rfl, rfl, rfl⟩
    · simp only [hd, if_false]
      refine Or.inl ⟨_, rfl, ?_, ?_, storePool_mapper _ _ _⟩
      · cases w <;> rfl
      · cases w <;> rfl
  have hs : ∃ t, applyPpu c r v (c.mapper.ppuWrite r v).2 = some t := by
    unfold applyPpu
    split
    · split
      · exact ⟨_, rfl⟩
      · rename_i hd hr
        have : c.ppubus.mirrorShift ≠ .fs := by
          intro hf
          have := h.fs_board hf
          rcases hmm : c.mapper with _ | ⟨info, regs⟩ <;> rw [hmm] at this hd
          · simp [Mapper.fourScreen] at this
          · simp only [Mapper.fourScreen] at this
            simp only [Mapper.ppuWrite, hr, if_false, this, if_true, fourScreenWrite] at hd
            split at hd <;> cases hd
        obtain ⟨i, hi⟩ := ciramIndex_isSome this r
        rw [hi]; exact ⟨_, rfl⟩
    · exact ⟨_, rfl⟩
  rcases key (c.mapper.ppuWrite r v).2 with ⟨t, h1, h2, h3, h4⟩ | h0
  · refine ⟨t, h1, ?_, h3⟩
    rw [h2]
    simp only [Chip.latchPpu, Chip.refreshMirror, hmir]
    rw [← h.mirror, ← h3]
  · obtain ⟨t, ht⟩ := hs; rw [h0] at ht; cases ht

/-- R321 on a machine in order. -/
theorem exec_cpuRead (s : State) (h : s.Inv) (a : Addr) : exec (.cpuRead a) s =
      .next { s with chip := (cpuRead a s.chip).1, result := some (.ok (.byte (cpuRead a s.chip).2)) } := by
  show execCpuRead a s = _
  unfold execCpuRead; rw [begin_of_noRefusal h.chip.noRefusal, commit_of_noRefusal _ ((cpuRead_quiet a s.chip).inv h.chip).noRefusal]

/-- R327 on a machine in order. -/
theorem exec_cpuWrite (s : State) (h : s.Inv) (a : Addr) (v : Byte) : exec (.cpuWrite a v) s = .next { s with chip := cpuWrite a v s.chip, result := some (.ok .unit) } := by
  show execCpuWrite a v s = _
  unfold execCpuWrite hostCpuWrite; rw [begin_of_noRefusal h.chip.noRefusal, commit_of_noRefusal _ ((cpuWrite_quiet a v s.chip).inv h.chip).noRefusal]

/-- R336 on a machine in order. -/
theorem exec_ppuRead (s : State) (h : s.Inv) (a : Addr) : exec (.ppuRead a) s =
      .next { s with chip := (ppuRead a s.chip).1, result := some (.ok (.byte (ppuRead a s.chip).2)) } := by
  show execPpuRead a s = _
  unfold execPpuRead; rw [begin_of_noRefusal h.chip.noRefusal, commit_of_noRefusal _ ((ppuRead_quiet a s.chip).inv h.chip).noRefusal]

/-- R339 on a machine in order. -/
theorem exec_ppuWrite (s : State) (h : s.Inv) (a : Addr) (v : Byte) : exec (.ppuWrite a v) s = .next { s with chip := ppuWrite a v s.chip, result := some (.ok .unit) } := by
  show execPpuWrite a v s = _
  unfold execPpuWrite; rw [begin_of_noRefusal h.chip.noRefusal, commit_of_noRefusal _ ((ppuWrite_quiet a v s.chip).inv h.chip).noRefusal]

/-- A register write on a machine in order (45_mapper_boards.md section 7). -/
theorem hostWrite_board (s : State) (h : s.Inv) (a : Addr) (v : Byte) (info : BoardInfo) (regs regs' : BoardRegs) (hm : s.chip.mapper = .board info regs)
    (ha : 0x8000 ≤ a.toNat) (hw : Mapper.cpuWrite a v s.chip.cpu.cycle (.board info regs) = (.board info regs', .none)) :
    Host.Outcome.next (hostCpuWrite a v s) = (.next (boardWritten s info regs' v) : Host.Outcome State Fault Refusal) := by
  have := exec_cpuWrite s h a v
  have e : (Host.Outcome.next (hostCpuWrite a v s) : Host.Outcome State Fault Refusal) = exec (.cpuWrite a v) s := rfl
  rw [e, this]
  unfold cpuWrite cpuDecodeWrite; rw [route_upper ha]
  simp only [cartWrite, hm, hw, storePool, Chip.latchCpu, Chip.refreshMirror, boardWritten]
  rfl

/-- A peek of PRG ROM (R108). -/
theorem cpuPeek_prgRom {c : Chip} {a : Addr} (ha : 0x8000 ≤ a.toNat) (hz : c.cart.prgRom.size ≠ 0) {i : Nat} (h : c.mapper.cpuRead c.cart.prgRom.size a = .prgRom i) :
   cpuPeek a c = genieFilter c.bus.genie a (c.cart.prgRom.read (i % c.cart.prgRom.size)) := by
  unfold cpuPeek; rw [route_upper ha]; simp only [cartRead, h, resolvePool, Memory.readMod, hz, if_false]

/-- The filter twice is the filter once (R489). -/
theorem genieFilter_idem (t : List GenieEntry) (a : Addr) (v : Byte) : genieFilter t a (genieFilter t a v) = genieFilter t a v := by
  unfold genieFilter
  split
  · rfl
  · split
    · rfl
    · split
      · rfl
      · split <;> split <;> simp_all
        all_goals (intro hh; split at hh; exact hh; contradiction)

/-- A register row is the CPU write it is (log 28). -/
theorem exec_asMapReg (m : Mapper) (a : Addr) (v : Byte) (s : State) : exec (asMapReg m a v) s = exec (.cpuWrite a v) s := by
  unfold asMapReg
  split
  · rfl
  · rename_i b _
    split
    · rfl
    · rename_i i hi
      cases b <;> simp only [decodeMapReg, decodeMmc1, decodeMmc3] at hi <;> (repeat' (split at hi)) <;> cases hi <;> rfl

/-! ## What the stepping loops keep -/

/-- One step. -/
theorem cpuStep_runs (c : Chip) : Runs c (cpuStep c).chip := by
  unfold cpuStep
  split
  · rename_i k _
    exact ((clearLatch_runs k c).toRuns.trans (cpuProg_run (interruptProg k c.cpu.regs) (clearLatch k c)).1.toRuns).trans (setRegs_runs _ _)
  · refine (fetchOpcode_spec c).1.trans ?_
    unfold runOpcode opcodeStep
    split
    · exact (setCorrupted_runs _).trans (ticks_quiet _ _).toRuns
    · exact (cpuProg_run _ _).1.toRuns.trans (setRegs_runs _ _)

/-- CLOCK_FRAME and CLOCK_SCANLINE. -/
theorem runUntil_runs (loop : ClockLoop) : ∀ (fuel : Nat) (g : Stepped), Runs g.chip (runUntil loop fuel g).1.chip := by
  intro fuel
  induction fuel with
  | zero => exact fun g => Runs.refl _
  | succ n ih =>
    intro g
    simp only [runUntil]
    split
    · exact cpuStep_runs _
    · exact (cpuStep_runs g.chip).trans (ih { chip := (cpuStep g.chip).chip, cycles := g.cycles + (cpuStep g.chip).cycles })

/-- What one step of the machine does to a loop on a chip in order: it has ended after its first `k` steps, or it has taken the
fuel's steps and goes on, not corrupted (R203, R204; log 25). -/
theorem runLoop_spec (loop : ClockLoop) (n : Nat) {s : State} (h : s.chip.Inv) :
    let g : Stepped := { chip := s.chip, cycles := n }
    (∃ k, k ≤ loopFuel s.chip ∧ FirstAt 1 (LoopEnds loop g) k ∧
      runLoop loop n s = { s with
        chip := (stepsFrom k g).chip
        result := some (if (stepsFrom k g).chip.cpu.corrupted then .err .cpuCorrupted else .ok (.cycles (stepsFrom k g).cycles))
        ongoing := none }) ∨
    ((∀ j, 1 ≤ j → j ≤ loopFuel s.chip → ¬ LoopEnds loop g j) ∧
      runLoop loop n s = { s with
        chip := (stepsFrom (loopFuel s.chip) g).chip
        result := none
        ongoing := some { loop := loop, cycles := (stepsFrom (loopFuel s.chip) g).cycles } }) := by
  intro g
  unfold runLoop
  rw [begin_of_noRefusal h.noRefusal]
  rcases runUntil_spec loop (loopFuel s.chip) g h with ⟨k, hk, hf, he⟩ | ⟨hn, he⟩
  · refine Or.inl ⟨k, hk, hf, ?_⟩
    simp only [g] at he
    simp only [he, if_true]
    exact endStep_ok (stepsFrom_spec k (g := g) h).1.noRefusal
  · refine Or.inr ⟨hn, ?_⟩
    simp only [g] at he
    simp only [he, Bool.false_eq_true, if_false]
    rfl

/-- A run whose first step answers a next state. -/
theorem run_next (M : Host.Core) {s t : M.State} (h : M.step s = .next t) (n : Nat) : M.run (n + 1) s = M.run n t := by
  simp only [Host.Core.run, h]

/-- A step of the machine goes on with the command in progress (log 25). -/
theorem run_ongoing {s : State} {o : Ongoing} (h : s.ongoing = some o) (n : Nat) :
    Sys2Proof.core.run (n + 1) s = Sys2Proof.core.run n (runLoop o.loop o.cycles s) :=
  run_next Sys2Proof.core (show step s = _ by unfold step; rw [h]; rfl) n

/-- A step of the machine takes at least one step of a loop. -/
theorem loopFuel_pos (c : Chip) : 1 ≤ loopFuel c := Nat.succ_le_succ (Nat.zero_le _)

/-- A loop takes no word. -/
theorem runLoop_pending (loop : ClockLoop) (n : Nat) (s : State) : (runLoop loop n s).pending = s.pending := by
  unfold runLoop endStep
  simp only
  split <;> rfl

/-- A loop that meets its condition ends there, after however many steps of the machine (R203, R204; log 25). -/
theorem runLoop_endsIn (loop : ClockLoop) : ∀ (k n : Nat) (s : State), s.chip.Inv →
    FirstAt 1 (LoopEnds loop { chip := s.chip, cycles := n }) k →
    EndsIn (runLoop loop n s) { s with
      chip := (stepsFrom k { chip := s.chip, cycles := n }).chip
      result := some (if (stepsFrom k { chip := s.chip, cycles := n }).chip.cpu.corrupted then .err .cpuCorrupted
        else .ok (.cycles (stepsFrom k { chip := s.chip, cycles := n }).cycles))
      ongoing := none } := by
  intro k
  induction k using Nat.strongRecOn with
  | _ k ih =>
    intro n s h hf
    rcases runLoop_spec loop n h with ⟨l, _, hl, he⟩ | ⟨hn, he⟩
    · obtain rfl := hf.unique hl
      exact ⟨0, congrArg _ he, rfl, fun m hm => absurd hm (Nat.not_lt_zero m)⟩
    · have hF := loopFuel_pos s.chip
      have hlt : loopFuel s.chip < k := by
        by_contra hc
        exact hn k hf.1 (by omega) hf.2.1
      obtain ⟨j, rfl⟩ : ∃ j, k = loopFuel s.chip + j := ⟨k - loopFuel s.chip, by omega⟩
      have hi := (stepsFrom_spec (loopFuel s.chip) (g := { chip := s.chip, cycles := n }) h).1
      have hr : FirstAt 1 (LoopEnds loop (stepsFrom (loopFuel s.chip) { chip := s.chip, cycles := n })) j := by
        refine ⟨by omega, ?_, fun i h1 h2 => ?_⟩
        · have := hf.2.1; unfold LoopEnds at this ⊢; rwa [stepsFrom_add] at this
        · have := hf.2.2 (loopFuel s.chip + i) (by omega) (by omega)
          unfold LoopEnds at this ⊢; rwa [stepsFrom_add] at this
      have := ih j (by omega) (stepsFrom (loopFuel s.chip) { chip := s.chip, cycles := n }).cycles
        (s := runLoop loop n s) (by rw [he]; exact hi) (by rw [he]; exact hr)
      obtain ⟨m, h1, h2, h3⟩ := this
      have ho : (runLoop loop n s).ongoing = some
          { loop := loop, cycles := (stepsFrom (loopFuel s.chip) { chip := s.chip, cycles := n }).cycles } := by rw [he]
      refine ⟨m + 1, ?_, rfl, fun i hm => ?_⟩
      · rw [run_ongoing ho, h1, he, stepsFrom_add]
      · cases i with
        | zero => exact ⟨_, rfl, by rw [he]; rfl, by rw [he], rfl⟩
        | succ i =>
          obtain ⟨v, g1, g2, g3, g4⟩ := h3 i (by omega)
          refine ⟨v, (run_ongoing ho i).trans g1, g2, g3, ?_⟩
          rw [g4, runLoop_pending]

/-- A loop that never meets its condition goes on for ever (R203, R204; log 25). -/
theorem runLoop_goesOn (loop : ClockLoop) (n : Nat) {s : State} (h : s.chip.Inv)
    (hn : ∀ k, ¬ FirstAt 1 (LoopEnds loop { chip := s.chip, cycles := n }) k) : GoesOn (runLoop loop n s) := by
  intro m
  induction m generalizing s n with
  | zero =>
    rcases runLoop_spec loop n h with ⟨l, _, hl, _⟩ | ⟨_, he⟩
    · exact absurd hl (hn l)
    · exact ⟨_, rfl, by rw [he]; rfl, by rw [he], rfl⟩
  | succ m ih =>
    rcases runLoop_spec loop n h with ⟨l, _, hl, _⟩ | ⟨hne, he⟩
    · exact absurd hl (hn l)
    · have hi := (stepsFrom_spec (loopFuel s.chip) (g := { chip := s.chip, cycles := n }) h).1
      obtain ⟨v, g1, g2, g3, g4⟩ := ih (stepsFrom (loopFuel s.chip) { chip := s.chip, cycles := n }).cycles
        (s := runLoop loop n s) (by rw [he]; exact hi) (by
          rw [he]
          intro j hj
          refine hn (loopFuel s.chip + j) ⟨by have := hj.1; omega, ?_, fun i h1 h2 => ?_⟩
          · have := hj.2.1; unfold LoopEnds at this ⊢; rwa [stepsFrom_add]
          · by_cases hl : i ≤ loopFuel s.chip
            · exact hne i h1 hl
            · obtain ⟨x, rfl⟩ : ∃ x, i = loopFuel s.chip + x := ⟨i - loopFuel s.chip, by omega⟩
              have := hj.2.2 x (by omega) (by omega)
              unfold LoopEnds at this ⊢; rwa [stepsFrom_add])
      have ho : (runLoop loop n s).ongoing = some
          { loop := loop, cycles := (stepsFrom (loopFuel s.chip) { chip := s.chip, cycles := n }).cycles } := by rw [he]
      exact ⟨v, (run_ongoing ho m).trans g1, g2, g3, by rw [g4, runLoop_pending]⟩

/-- CLOCK_SECONDS. -/
theorem secondsLoop_runs : ∀ (fuel : Nat) (g : Budget), Runs g.chip (secondsLoop fuel g).chip := by
  intro fuel
  induction fuel with
  | zero => exact fun g => Runs.refl _
  | succ n ih =>
    intro g
    simp only [secondsLoop]
    split
    · split
      · exact cpuStep_runs _
      · have := ih { chip := (cpuStep g.chip).chip, remain := g.remain - ((cpuStep g.chip).cycles : Rat), total := g.total + (cpuStep g.chip).cycles }
        exact (cpuStep_runs g.chip).trans this
    · exact Runs.refl _

/-! ## Frames in dots -/

/-- The last dot of a run. -/
theorem ppuDots_succ (n : Nat) : ∀ c, ppuDots (n + 1) c = ppuTick (ppuDots n c) := by
  induction n with
  | zero => exact fun c => rfl
  | succ n ih => exact fun c => ih _

/-- A dot that changes the frame number leaves the unit at a frame start (R540). -/
theorem boundary_atStart {S L : Nat} {p q : Ppu} (h : Dot S L p q) (hp : InRange S L p)
    (hf : q.frameNumber ≠ p.frameNumber) : AtFrameStart q := by
  rcases h with ⟨hs, skip, hk⟩ | ⟨hs, _⟩
  · obtain ⟨h1, h2, h3, h4⟩ := counters_eq hk
    have hd := hp.dot
    have hn := nextDot_le p skip
    unfold advanceCounters at h1 h2 h3 h4
    simp only at h1 h2 h3 h4
    by_cases hA : nextDot p skip < L
    · simp only [hA, if_true] at h1; exact absurd h1 hf
    · simp only [hA, if_false] at h1 h2 h3 h4
      by_cases hB : p.scanline + 1 < S
      · simp only [hB, if_true] at h1; exact absurd h1 hf
      · simp only [hB, if_false] at h1 h2 h3 h4
        refine ⟨h2, ?_⟩
        rw [h3, h4]
        by_cases he : nextDot p skip = L
        · simp [he]
        · have : nextDot p skip = L + 1 := by omega
          simp [this]
  · exact absurd hp.line (by omega)

/-- Progress at a frame start. -/
theorem atStart_progress {L : Nat} {p : Ppu} (h : AtFrameStart p) : progress L p = 1 := by
  obtain ⟨h1, h2⟩ := h
  unfold progress; rw [h1, h2]; split <;> omega

/-- No boundary within a frame of a frame start (R540). -/
theorem frame_within {c : Chip} (h : c.Inv) (hr : InRange c.regionParams.scanlinesPerFrame c.params.dotsPerScanline c.ppu)
    (h1 : progress c.params.dotsPerScanline c.ppu = 1) : ∀ n,
    n + 2 ≤ c.regionParams.scanlinesPerFrame * c.params.dotsPerScanline →
    InRange c.regionParams.scanlinesPerFrame c.params.dotsPerScanline (ppuDots n c).ppu ∧
    (ppuDots n c).ppu.frameNumber = c.ppu.frameNumber ∧
    progress c.params.dotsPerScanline (ppuDots n c).ppu = 1 + n := by
  intro n hn
  have hb := Params.ok_bounds h.params
  have hb2 := RegionParams.ok_bounds (Params.ok_region h.params c.config.region)
  have := Dots.within hb.2.2.2 hb2.2.1 (ppuDots_dots n c) hr (by unfold Chip.regionParams at hn; omega)
  rw [h1] at this
  exact this

end Sys2Proof.Machine
end

