-- ==== Sys2Proof/Laws/Decode.lean ====
section
/-! SUPPORT. The fields of a word that is put together from fields, and the codes of the enumerated operands. -/

namespace Sys2Proof

/-- A bit of two bytes put together. -/
theorem getLsbD_bytes (x y : Byte) (i : Nat) :
    (x ++ y : BitVec 16).getLsbD i = if i < 8 then y.getLsbD i else x.getLsbD (i - 8) :=
  BitVec.getLsbD_append

/-- A bit of a word put together from its fields. -/
theorem getLsbD_mkWord (op sub : Byte) (imm : Addr) (i : Nat) :
    (mkWord op sub imm).getLsbD i =
      if i < 16 then imm.getLsbD i else if i - 16 < 8 then sub.getLsbD (i - 16) else op.getLsbD (i - 16 - 8) := by
  unfold mkWord
  rw [BitVec.getLsbD_append, getLsbD_bytes]

@[simp] theorem opField_mkWord (op sub : Byte) (imm : Addr) : opField (mkWord op sub imm) = op := by
  apply BitVec.eq_of_getLsbD_eq
  intro i hi
  have h : ¬ 24 + i < 16 := by omega
  have h' : ¬ 24 + i - 16 < 8 := by omega
  simp only [opField, BitVec.getLsbD_extractLsb', getLsbD_mkWord, hi, h, h', if_false,
    show 24 + i - 16 - 8 = i by omega, decide_true, Bool.true_and]

@[simp] theorem subField_mkWord (op sub : Byte) (imm : Addr) : subField (mkWord op sub imm) = sub := by
  apply BitVec.eq_of_getLsbD_eq
  intro i hi
  have h : ¬ 16 + i < 16 := by omega
  simp only [subField, BitVec.getLsbD_extractLsb', getLsbD_mkWord, hi, h, if_false, if_true,
    show 16 + i - 16 = i by omega, decide_true, Bool.true_and]

@[simp] theorem immField_mkWord (op sub : Byte) (imm : Addr) : immField (mkWord op sub imm) = imm := by
  apply BitVec.eq_of_getLsbD_eq
  intro i hi
  simp only [immField, BitVec.getLsbD_extractLsb', getLsbD_mkWord, hi, if_true, Nat.zero_add, decide_true,
    Bool.true_and]

/-- A word is its three fields. -/
theorem mkWord_fields (w : Word32) : mkWord (opField w) (subField w) (immField w) = w := by
  apply BitVec.eq_of_getLsbD_eq
  intro i hi
  simp only [getLsbD_mkWord, opField, subField, immField, BitVec.getLsbD_extractLsb']
  by_cases h : i < 16
  · simp [h]
  · by_cases h' : i - 16 < 8
    · simp [h, h', show 16 + (i - 16) = i by omega]
    · simp [h, h', show 24 + (i - 16 - 8) = i by omega, show i - 16 - 8 < 8 by omega]

@[simp] theorem Region.ofCode_code (r : Region) : Region.ofCode r.code = some r := by cases r <;> rfl
@[simp] theorem VideoFilter.ofCode_code (f : VideoFilter) : VideoFilter.ofCode f.code = some f := by cases f <;> rfl
@[simp] theorem RamPolicy.ofCode_code (p : RamPolicy) : RamPolicy.ofCode p.code = some p := by cases p <;> rfl
@[simp] theorem FourPlayer.ofCode_code (m : FourPlayer) : FourPlayer.ofCode m.code = some m := by cases m <;> rfl
@[simp] theorem Revision.ofCode_code (r : Revision) : Revision.ofCode r.code = some r := by cases r <;> rfl
@[simp] theorem ResetKind.ofCode_code (k : ResetKind) : ResetKind.ofCode k.code = some k := by cases k <;> rfl
@[simp] theorem Channel.ofCode_code (c : Channel) : Channel.ofCode c.code = some c := by cases c <;> rfl
@[simp] theorem connectOfCode_code (e : Bool) : connectOfCode (connectCode e) = some e := by cases e <;> rfl

@[simp] theorem playerOfCode_setWidth (p : BitVec 2) : playerOfCode (p.setWidth 8) = some p := by
  revert p; decide

@[simp] theorem setJoypad_mask (m : BitVec 10) : (m.setWidth 16).setWidth 10 = m := by
  rw [BitVec.setWidth_setWidth_of_le _ (by omega)]; simp

@[simp] theorem setJoypad_reserved (m : BitVec 10) : m.setWidth 16 &&& 0xFC00 = 0 := by
  apply BitVec.eq_of_getLsbD_eq
  intro i hi
  simp only [BitVec.getLsbD_and, BitVec.getLsbD_setWidth]
  by_cases h : i < 10
  · interval_cases i <;> simp
  · simp [BitVec.getLsbD_of_ge m i (by omega)]

@[simp] theorem hiByte_append (x y : Byte) : hiByte (x ++ y : BitVec 16) = x := by
  apply BitVec.eq_of_getLsbD_eq
  intro i hi
  simp only [hiByte, BitVec.getLsbD_extractLsb', getLsbD_bytes, hi, show ¬ 8 + i < 8 by omega, if_false,
    show 8 + i - 8 = i by omega, decide_true, Bool.true_and]

@[simp] theorem loByte_append (x y : Byte) : loByte (x ++ y : BitVec 16) = y := by
  apply BitVec.eq_of_getLsbD_eq
  intro i hi
  simp only [loByte, BitVec.getLsbD_extractLsb', getLsbD_bytes, hi, if_true, Nat.zero_add, decide_true, Bool.true_and]

theorem append_bytes (a : Addr) : (hiByte a ++ loByte a : BitVec 16) = a := by
  apply BitVec.eq_of_getLsbD_eq
  intro i hi
  simp only [getLsbD_bytes, hiByte, loByte, BitVec.getLsbD_extractLsb']
  by_cases h : i < 8
  · simp [h]
  · simp [h, show 8 + (i - 8) = i by omega, show i - 8 < 8 by omega]

end Sys2Proof
end

