-- ==== Sys2Proof/Laws/Lifecycle.lean ====
section
/-! SUPPORT. Everything the reset sequence, the two resets, the loading of a cartridge and its removal do to the chip, said
once each (R250, R256, R571 to R573). -/

namespace Sys2Proof.Machine

open Sys2Proof

/-! ## The peripherals' resets -/

theorem resetPpu_quiet (k : ResetKind) (c : Chip) : Quiet c (resetPpu k c) := by
  unfold resetPpu
  split
  · exact Quiet.refl c
  · exact { inv := fun h => h.congr }

theorem resetApu_quiet (k : ResetKind) (c : Chip) : Quiet c (resetApu k c) := by
  unfold resetApu
  split
  · exact Quiet.refl c
  · exact { inv := fun h => h.congr }

theorem resetPpu_settled (k : ResetKind) (c : Chip) : Settled c (resetPpu k c) := by
  unfold resetPpu; split <;> exact {}

theorem resetApu_settled (k : ResetKind) (c : Chip) : Settled c (resetApu k c) := by
  unfold resetApu; split <;> exact {}

@[simp] theorem resetPpu_cpu (k : ResetKind) (c : Chip) : (resetPpu k c).cpu = c.cpu := by
  unfold resetPpu; split <;> rfl

@[simp] theorem resetApu_cpu (k : ResetKind) (c : Chip) : (resetApu k c).cpu = c.cpu := by
  unfold resetApu; split <;> rfl

@[simp] theorem resetPpu_bus (k : ResetKind) (c : Chip) : (resetPpu k c).bus = c.bus := by
  unfold resetPpu; split <;> rfl

@[simp] theorem resetApu_bus (k : ResetKind) (c : Chip) : (resetApu k c).bus = c.bus := by
  unfold resetApu; split <;> rfl

@[simp] theorem resetPpu_ppubus (k : ResetKind) (c : Chip) : (resetPpu k c).ppubus = c.ppubus := by
  unfold resetPpu; split <;> rfl

@[simp] theorem resetApu_ppubus (k : ResetKind) (c : Chip) : (resetApu k c).ppubus = c.ppubus := by
  unfold resetApu; split <;> rfl

@[simp] theorem resetPpu_cart (k : ResetKind) (c : Chip) : (resetPpu k c).cart = c.cart := by
  unfold resetPpu; split <;> rfl

@[simp] theorem resetApu_cart (k : ResetKind) (c : Chip) : (resetApu k c).cart = c.cart := by
  unfold resetApu; split <;> rfl

@[simp] theorem resetPpu_mapper (k : ResetKind) (c : Chip) : (resetPpu k c).mapper = c.mapper := by
  unfold resetPpu; split <;> rfl

@[simp] theorem resetApu_mapper (k : ResetKind) (c : Chip) : (resetApu k c).mapper = c.mapper := by
  unfold resetApu; split <;> rfl

/-! ## The reset sequence -/

/-- Everything the reset sequence does (R572). -/
structure ResetSequenced (c d : Chip) : Prop where
  runs      : Runs c d
  settled   : Settled c d
  regs      : d.cpu.regs =
    { c.cpu.regs with
      s := c.cpu.regs.s - 3
      p := setI c.cpu.regs.p
      pc := word16 (cpuPeek 0xFFFC c) (cpuPeek 0xFFFD c) }
  corrupted : d.cpu.corrupted = c.cpu.corrupted
  cycle     : d.cpu.cycle = c.cpu.cycle + 7
  latch     : d.bus.openBus = cpuPeek 0xFFFD c
  peeks     : ∀ a : Addr, 0x8000 ≤ a.toNat → cpuPeek a d = cpuPeek a c

theorem resetSequence_spec {c : Chip} (h : c.Inv) (hk : c.mapper.kind.isSome = true) :
    ResetSequenced c (resetSequence c) := by
  let r := c.cpu.regs
  let c1 := (cycleRead r.pc c).1
  let c2 := (cycleRead r.pc c1).1
  let c3 := (cycleRead (stackAddr r.s) c2).1
  let c4 := (cycleRead (stackAddr (r.s - 1)) c3).1
  let c5 := (cycleRead (stackAddr (r.s - 2)) c4).1
  let c6 := cycleRead 0xFFFC c5
  let c7 := cycleRead 0xFFFD c6.1
  have q5 : Quiet c c5 := (cycleRead_quiet _ _).trans ((cycleRead_quiet _ _).trans ((cycleRead_quiet _ _).trans
    ((cycleRead_quiet _ _).trans (cycleRead_quiet _ _))))
  have s5 : Settled c c5 := (cycleRead_settled _ _).trans ((cycleRead_settled _ _).trans ((cycleRead_settled _ _).trans
    ((cycleRead_settled _ _).trans (cycleRead_settled _ _))))
  have q6 : Quiet c c6.1 := q5.trans (cycleRead_quiet _ _)
  have s6 : Settled c c6.1 := s5.trans (cycleRead_settled _ _)
  have q7 : Quiet c c7.1 := q6.trans (cycleRead_quiet _ _)
  have s7 : Settled c c7.1 := s6.trans (cycleRead_settled _ _)
  have v6 : c6.2 = cpuPeek 0xFFFC c := (rom_peek h hk (by decide) (by rw [(tick_quiet c5).genie]; exact q5.genie)
    (by rw [(tick_quiet c5).prgRom]; exact q5.prgRom) (fun n b => ((tick_settled c5).reads n b).trans (s5.reads n b))).2
  have v7 : c7.2 = cpuPeek 0xFFFD c := (rom_peek h hk (by decide) (by rw [(tick_quiet c6.1).genie]; exact q6.genie)
    (by rw [(tick_quiet c6.1).prgRom]; exact q6.prgRom)
    (fun n b => ((tick_settled c6.1).reads n b).trans (s6.reads n b))).2
  have hrun := (cpuProg_run (resetProg r) c).2
  rw [resetProg_ops] at hrun
  have hq : ((resetProg r).run c).value =
      { r with s := r.s - 3, p := setI r.p, pc := word16 (cpuPeek 0xFFFC c) (cpuPeek 0xFFFD c) } := by
    show { r with s := r.s - 3, p := setI r.p, pc := word16 c6.2 c7.2 } = _
    rw [v6, v7]
  exact {
    runs := q7.toRuns.trans (setRegs_runs _ _)
    settled := s7.trans (setRegs_settled _ _)
    regs := hq
    corrupted := q7.corrupted
    cycle := hrun
    latch := v7
    peeks := fun a ha => (rom_peek h hk ha q7.genie q7.prgRom (fun n b => s7.reads n b)).1 }

/-! ## The soft reset -/

theorem softResetStart_runs (c : Chip) : Runs c (softResetStart c) := by
  have h0 : Runs c { c with cpu := { c.cpu with corrupted := false, nmiLatch := false }, mapper := c.mapper.softReset } :=
    { inv := fun h => h.congr }
  exact h0.trans (((resetPpu_quiet _ _).trans (resetApu_quiet _ _)).trans (refreshMirror_quiet _)).toRuns

theorem softResetStart_settled (c : Chip) : Settled c (softResetStart c) := by
  have h0 : Settled c { c with cpu := { c.cpu with corrupted := false, nmiLatch := false }, mapper := c.mapper.softReset } :=
    {}
  exact h0.trans (((resetPpu_settled _ _).trans (resetApu_settled _ _)).trans {})

@[simp] theorem softResetStart_cpu (c : Chip) :
    (softResetStart c).cpu = { c.cpu with corrupted := false, nmiLatch := false } := by
  simp [softResetStart, Chip.refreshMirror]

@[simp] theorem softResetStart_bus (c : Chip) : (softResetStart c).bus = c.bus := by
  simp [softResetStart, Chip.refreshMirror]

@[simp] theorem softResetStart_mapper (c : Chip) : (softResetStart c).mapper = c.mapper := by
  simp [softResetStart, Chip.refreshMirror, Mapper.softReset]

@[simp] theorem softResetStart_ppubus {c : Chip} (h : c.Inv) : (softResetStart c).ppubus = c.ppubus := by
  simp [softResetStart, Chip.refreshMirror, Mapper.softReset, ← h.mirror]

@[simp] theorem softResetStart_cart (c : Chip) : (softResetStart c).cart = c.cart := by
  simp [softResetStart, Chip.refreshMirror]

/-- Everything a soft reset does (R571). -/
theorem softReset_spec {c : Chip} (h : c.Inv) (hk : c.mapper.kind.isSome = true) :
    Runs c (softReset c) ∧ Settled c (softReset c) ∧
    (softReset c).cpu.regs =
      { c.cpu.regs with
        s := c.cpu.regs.s - 3
        p := setI c.cpu.regs.p
        pc := word16 (cpuPeek 0xFFFC c) (cpuPeek 0xFFFD c) } ∧
    (softReset c).cpu.corrupted = false ∧ (softReset c).cpu.cycle = c.cpu.cycle + 7 ∧
    (softReset c).bus.openBus = cpuPeek 0xFFFD c := by
  have r := softResetStart_runs c
  have st := softResetStart_settled c
  have S := resetSequence_spec (r.inv h) (by rw [kind_of_identity r.identity]; exact hk)
  have pk : ∀ a : Addr, 0x8000 ≤ a.toNat → cpuPeek a (softResetStart c) = cpuPeek a c := fun a ha =>
    (rom_peek h hk ha r.genie r.prgRom st.reads).1
  refine ⟨r.trans S.runs, st.trans S.settled, ?_, ?_, ?_, ?_⟩
  · rw [← pk 0xFFFC (by decide), ← pk 0xFFFD (by decide)]
    have := S.regs
    rw [softResetStart_cpu] at this
    exact this
  · exact S.corrupted.trans (by rw [softResetStart_cpu])
  · exact S.cycle.trans (by rw [softResetStart_cpu])
  · exact S.latch.trans (pk 0xFFFD (by decide))

/-! ## The hard reset -/

theorem hardResetPools_inv (b : Bool) {c : Chip} (h : c.Inv) : (hardResetPools b c).Inv := by
  have hc : CartridgeOk (hardResetPools b c) :=
    h.cartridge.congr rfl rfl rfl rfl rfl (fun hr => by simp [hardResetPools, hr])
      (by simp only [hardResetPools]; split <;> simp)
  exact {
    params := h.params
    wram := by simp only [hardResetPools, h.wram.2]; exact PoolOk.initRam _ _ _
    ciram := by simp only [hardResetPools, h.ciram.2]; exact PoolOk.initRam _ _ _
    palette := by simp only [hardResetPools, h.palette.2]; exact PoolOk.initRam _ _ _
    exram := by
      have e := h.exram.2
      simp only [hardResetPools, e]
      exact PoolOk.initRam _ _ _
    chr := by simp only [hardResetPools]; split; exacts [initRam_wf _ _ _, h.chr]
    prgRam := by
      have e := h.prgRam.2
      simp only [hardResetPools]
      split
      · exact h.prgRam
      · rw [e]; exact PoolOk.initRam _ _ _
    frame := h.frame
    mirror := h.mirror
    cartridge := hc
    dot := h.dot
    scanline := h.scanline
    genieList := h.genieList
    genieOnce := h.genieOnce
    genieCodes := h.genieCodes
    noRefusal := h.noRefusal }

/-- The chip a hard reset hands to its reset sequence, less the peripherals' own resets (R573). -/
def hardResetBoard (b : Bool) (c : Chip) : Chip :=
  { hardResetPools b c with cpu := hardResetCpu c.cpu.regs.pc, mapper := c.mapper.hardReset }.refreshMirror

theorem hardResetBoard_inv (b : Bool) {c : Chip} (hc : c.Inv) : (hardResetBoard b c).Inv := by
  have h := hardResetPools_inv b hc
  exact h.congr (hmir := rfl) (hid := by simp [hardResetBoard, Chip.refreshMirror, hardResetPools])

theorem hardResetStart_eq (b : Bool) (c : Chip) :
    hardResetStart b c = (resetApu .hard (resetPpu .hard (hardResetBoard b c))).refreshMirror := by
  unfold hardResetStart hardResetBoard resetApu resetPpu
  simp only
  repeat' split
  all_goals first | rfl | simp_all [Chip.refreshMirror, Chip.drawn, hardResetPools]

theorem hardResetBoard_refresh (b : Bool) (c : Chip) : hardResetBoard b c.refreshMirror = hardResetBoard b c := rfl

theorem hardResetStart_quiet (b : Bool) (c : Chip) : Quiet (hardResetBoard b c) (hardResetStart b c) := by
  rw [hardResetStart_eq]
  exact ((resetPpu_quiet .hard _).trans (resetApu_quiet .hard _)).trans (refreshMirror_quiet _)

theorem hardResetStart_settled (b : Bool) (c : Chip) : Settled (hardResetBoard b c) (hardResetStart b c) := by
  rw [hardResetStart_eq]
  exact ((resetPpu_settled .hard _).trans (resetApu_settled .hard _)).trans {}

@[simp] theorem hardResetStart_cpu (b : Bool) (c : Chip) : (hardResetStart b c).cpu = hardResetCpu c.cpu.regs.pc := by
  rw [hardResetStart_eq]; simp [Chip.refreshMirror, hardResetBoard]

@[simp] theorem hardResetStart_bus (b : Bool) (c : Chip) : (hardResetStart b c).bus = (hardResetBoard b c).bus := by
  rw [hardResetStart_eq]; simp [Chip.refreshMirror]

@[simp] theorem hardResetStart_ppubus (b : Bool) (c : Chip) :
    (hardResetStart b c).ppubus = (hardResetBoard b c).ppubus := by
  rw [hardResetStart_eq]; simp [Chip.refreshMirror, hardResetBoard]

@[simp] theorem hardResetStart_cart (b : Bool) (c : Chip) : (hardResetStart b c).cart = (hardResetBoard b c).cart := by
  rw [hardResetStart_eq]; simp [Chip.refreshMirror]

@[simp] theorem hardResetStart_mapper (b : Bool) (c : Chip) : (hardResetStart b c).mapper = c.mapper.hardReset := by
  rw [hardResetStart_eq]; simp [Chip.refreshMirror, hardResetBoard]

/-! What the units' own resets leave, up to the reset sequence (R574, R578). -/

theorem resetUnits (k : ResetKind) (c : Chip) : UnitsReset c (resetApu k (resetPpu k c)) := by
  unfold resetApu resetPpu Chip.drawn
  by_cases h : c.params.idleUnits = true
  · simp only [h, if_true]; exact ⟨rfl, rfl, rfl⟩
  · simp only [h, Bool.false_eq_true, if_false]; exact ⟨rfl, rfl, rfl⟩

theorem softResetStart_units (c : Chip) : UnitsReset c (softResetStart c) :=
  let h := resetUnits .soft
    { c with cpu := { c.cpu with corrupted := false, nmiLatch := false }, mapper := c.mapper.softReset }
  ⟨h.ppu, h.apu, h.input⟩

theorem hardResetStart_units (b : Bool) (c : Chip) : UnitsReset c (hardResetStart b c) :=
  let h := resetUnits .hard
    { hardResetPools b c with cpu := hardResetCpu c.cpu.regs.pc, mapper := c.mapper.hardReset }
  ⟨h.ppu, h.apu, h.input⟩

theorem loadStart_units (d : Descriptor) (c : Chip) : UnitsReset c (hardResetStart d.battery (c.load d)) :=
  let h := hardResetStart_units d.battery (c.load d)
  ⟨h.ppu, h.apu, h.input⟩

/-- The NMI latch after a reset sequence that found it clear: an edge of one of its cycles (R521, R577). -/
theorem resetSequence_latch {c : Chip} (h : c.cpu.nmiLatch = false) :
    (resetSequence c).cpu.nmiLatch = sawEdge (resetProg c.cpu.regs) c := by
  show ((resetProg c.cpu.regs).run c).chip.cpu.nmiLatch = _
  rw [cpuProg_latch, h, Bool.false_or]

/-- `InitRam` fills by its policy (R64). -/
theorem filledBy_initRam (p : RamPolicy) (d n : Nat) : FilledBy p (initRam p d n) := by
  refine ⟨fun h i hi => ?_, fun h i hi => ?_, fun h => ⟨d, fun i hi => ?_⟩⟩ <;> subst h
  · rfl
  · exact Memory.read_tabulate _ hi
  · exact Memory.read_tabulate _ hi

/-- The pools the reset sequence of a hard reset finds (R573). -/
theorem hardResetStart_filled (b : Bool) (c : Chip) : PoolsFilled c.config.ramState (hardResetStart b c) where
  wram := by rw [hardResetStart_bus]; exact filledBy_initRam _ _ _
  ciram := by rw [hardResetStart_ppubus]; exact filledBy_initRam _ _ _
  palette := by rw [hardResetStart_ppubus]; exact filledBy_initRam _ _ _
  exram := by rw [hardResetStart_ppubus]; exact filledBy_initRam _ _ _
  chrRam := by
    rw [hardResetStart_ppubus]
    intro h
    have h' : c.ppubus.chrIsRam = true := h
    show FilledBy _ (if c.ppubus.chrIsRam then _ else _)
    rw [if_pos h']
    exact filledBy_initRam _ _ _

/-- Everything a hard reset does, from the chip its `InitRam` calls and register writes leave (R573). -/
structure HardResetDone (c d : Chip) : Prop where
  runs      : Runs c d
  settled   : Settled c d
  regs      : d.cpu.regs =
    { pc := word16 (cpuPeek 0xFFFC d) (cpuPeek 0xFFFD d), a := 0, x := 0, y := 0, s := 0xFD, p := hardResetStatus }
  corrupted : d.cpu.corrupted = false
  cycle     : d.cpu.cycle = 7
  latch     : d.bus.openBus = cpuPeek 0xFFFD d

theorem hardReset_spec (b : Bool) {c : Chip} (h : (hardResetBoard b c).Inv) (hk : c.mapper.kind.isSome = true) :
    HardResetDone (hardResetBoard b c) (hardReset b c) := by
  have q := hardResetStart_quiet b c
  have st := hardResetStart_settled b c
  have hkb : (hardResetBoard b c).mapper.kind.isSome = true := by
    rw [kind_of_identity (show boardIdentity (hardResetBoard b c).mapper = boardIdentity c.mapper by
      simp [hardResetBoard, Chip.refreshMirror])]
    exact hk
  have S := resetSequence_spec (q.inv h) (by rw [kind_of_identity q.identity]; exact hkb)
  have e1 : cpuPeek 0xFFFC (hardReset b c) = cpuPeek 0xFFFC (hardResetStart b c) := S.peeks _ (by decide)
  have e2 : cpuPeek 0xFFFD (hardReset b c) = cpuPeek 0xFFFD (hardResetStart b c) := S.peeks _ (by decide)
  refine ⟨q.toRuns.trans S.runs, st.trans S.settled, ?_, ?_, ?_, ?_⟩
  · rw [e1, e2]
    have := S.regs
    rw [hardResetStart_cpu] at this
    exact this
  · exact S.corrupted.trans (by rw [hardResetStart_cpu]; rfl)
  · exact S.cycle.trans (by rw [hardResetStart_cpu]; rfl)
  · rw [e2]; exact S.latch

/-! ## Loading and unloading a cartridge -/

theorem unload_inv {c : Chip} (h : c.Inv) : c.unload.Inv where
  params := h.params
  wram := h.wram
  ciram := h.ciram
  palette := h.palette
  exram := PoolOk.zeroPool 0
  chr := rfl
  prgRam := PoolOk.zeroPool 0
  frame := h.frame
  mirror := rfl
  cartridge := ⟨rfl, rfl, rfl, rfl⟩
  dot := h.dot
  scanline := h.scanline
  genieList := h.genieList
  genieOnce := h.genieOnce
  genieCodes := h.genieCodes
  noRefusal := h.noRefusal

/-- A valid descriptor names a board (R251, R373). -/
theorem validate_board {d : Descriptor} (h : validate d = none) : ∃ regs, boardOfId d.mapperId d.mirroring = some regs := by
  unfold validate at h
  split at h
  · cases h
  · exact ⟨_, ‹_›⟩

theorem Descriptor.wf_parts {d : Descriptor} (h : d.wf = true) : d.prgRom.wf = true ∧ d.chrRom.wf = true := by
  simp only [Descriptor.wf, Bool.and_eq_true] at h
  exact ⟨h.1.1.2, h.1.2⟩

/-- A cartridge in its place, before its hard reset, and once the mirror shift follows its board (R250, R590). -/
theorem load_inv {c : Chip} (h : c.Inv) {d : Descriptor} (hw : d.wf = true) (hv : validate d = none) :
    (c.load d).refreshMirror.Inv := by
  obtain ⟨regs, hr⟩ := validate_board hv
  have hwf := Descriptor.wf_parts hw
  have hm : (c.load d).mapper =
      .board { header := d.mirroring, fourScreen := decide (d.mirroring = .fourScreen),
               region := d.regionHint.getD c.config.region, revision := .standard } regs := by
    simp [Chip.load, Chip.insert, Chip.selectRegion, Chip.initPrgRam, selectBoard, hr, Mapper.setRegion, Chip.unload]
  have hp : (c.load d).cart.prgRam = initRam c.config.ramState c.draws (c.load d).mapper.prgRamSize := by
    rw [hm]
    simp [Chip.load, Chip.insert, Chip.selectRegion, Chip.initPrgRam, selectBoard, hr, Chip.unload]
    cases regs <;> rfl
  exact {
    params := h.params
    wram := h.wram
    ciram := h.ciram
    palette := h.palette
    exram := by
      show PoolOk (if d.mirroring = .fourScreen then zeroPool 2048 else zeroPool 0) (if (c.load d).mapper.fourScreen = true then 2048 else 0)
      rw [hm]
      by_cases hf : d.mirroring = .fourScreen
      · simp only [hf, if_true, Mapper.fourScreen, decide_true]; exact PoolOk.zeroPool _
      · simp only [hf, if_false, Mapper.fourScreen, decide_false, Bool.false_eq_true]; exact PoolOk.zeroPool _
    chr := by
      show (if d.chrRom.size = 0 then zeroPool 8192 else d.chrRom).wf = true
      split; exacts [rfl, hwf.2]
    prgRam := by
      show PoolOk (c.load d).cart.prgRam (c.load d).mapper.prgRamSize
      rw [hp]; exact PoolOk.initRam _ _ _
    frame := h.frame
    mirror := rfl
    cartridge := by
      show CartridgeOk (c.load d).refreshMirror
      have hm' : (c.load d).refreshMirror.mapper = (c.load d).mapper := rfl
      unfold CartridgeOk
      rw [hm', hm]
      exact ⟨d, {
        desc := rfl
        descWf := hw
        valid := hv
        variant := by rw [hr]; rfl
        header := rfl
        fourScreen := rfl
        region := rfl
        prgRom := rfl
        chrIsRam := rfl
        chrRom := fun hn => by
          show (if d.chrRom.size = 0 then zeroPool 8192 else d.chrRom) = _
          rw [if_neg hn]
        chrRam := fun hz => by
          show (if d.chrRom.size = 0 then zeroPool 8192 else d.chrRom).size = _
          rw [if_pos hz]; rfl }⟩
    dot := h.dot
    scanline := h.scanline
    genieList := h.genieList
    genieOnce := h.genieOnce
    genieCodes := h.genieCodes
    noRefusal := h.noRefusal }

/-- Everything LOAD_ROM does to the chip past its validation (R250). -/
theorem load_spec {c : Chip} (h : c.Inv) {d : Descriptor} (hw : d.wf = true) (hv : validate d = none) :
    HardResetDone (hardResetBoard d.battery (c.load d)) (hardReset d.battery (c.load d)) ∧
    (hardReset d.battery (c.load d)).Inv := by
  have hi : (hardResetBoard d.battery (c.load d)).Inv := by
    rw [← hardResetBoard_refresh]; exact hardResetBoard_inv _ (load_inv h hw hv)
  obtain ⟨regs, hr⟩ := validate_board hv
  have hk : (c.load d).mapper.kind.isSome = true := by
    simp [Chip.load, Chip.insert, Chip.selectRegion, Chip.initPrgRam, selectBoard, hr, Mapper.setRegion, Chip.unload,
      Mapper.kind]
  have S := hardReset_spec d.battery hi hk
  exact ⟨S, S.runs.inv hi⟩

/-! ## The settings -/

/-- A change of configuration other than the region and the cheat list keeps the invariant. -/
theorem setConfig_inv {c : Chip} (h : c.Inv) (cfg : DeckConfig) (hr : cfg.region = c.config.region)
    (hg : cfg.genie = c.config.genie) : (c.setConfig cfg).Inv where
  params := h.params
  wram := h.wram
  ciram := h.ciram
  palette := h.palette
  exram := h.exram
  chr := h.chr
  prgRam := h.prgRam
  frame := h.frame
  mirror := h.mirror
  cartridge := h.cartridge.congr rfl rfl rfl hr rfl (fun _ => rfl) rfl
  dot := h.dot
  scanline := h.scanline
  genieList := hg.trans h.genieList
  genieOnce := h.genieOnce
  genieCodes := h.genieCodes
  noRefusal := h.noRefusal

theorem setRegion_mirroring (m : Mapper) (r : Region) : (m.setRegion r).mirroring = m.mirroring := by
  rcases m with _ | ⟨info, regs⟩
  · rfl
  · cases regs <;> rfl

theorem setRevision_mirroring (m : Mapper) (r : Revision) : (m.setRevision r).mirroring = m.mirroring := by
  rcases m with _ | ⟨info, regs⟩
  · rfl
  · cases regs <;> rfl

/-- SET_REGION keeps the invariant (R291). -/
theorem setRegion_inv {c : Chip} (h : c.Inv) (r : Region) :
    Chip.Inv { c with config := { c.config with region := r }, mapper := c.mapper.setRegion r } where
  params := h.params
  wram := h.wram
  ciram := h.ciram
  palette := h.palette
  exram := by
    have := h.exram
    rcases hm : c.mapper with _ | ⟨info, regs⟩ <;> rw [hm] at this <;> exact this
  chr := h.chr
  prgRam := by
    have := h.prgRam
    rcases hm : c.mapper with _ | ⟨info, regs⟩ <;> rw [hm] at this
    · exact this
    · cases regs <;> exact this
  frame := h.frame
  mirror := by rw [setRegion_mirroring]; exact h.mirror
  cartridge := by
    have := h.cartridge
    unfold CartridgeOk at this ⊢
    rcases hm : c.mapper with _ | ⟨info, regs⟩ <;> rw [hm] at this
    · exact ⟨this.desc, this.prgRom, this.chr, this.chrIsRam⟩
    · obtain ⟨d, hd⟩ := this
      exact ⟨d, ⟨hd.desc, hd.descWf, hd.valid, hd.variant, hd.header, hd.fourScreen, rfl, hd.prgRom, hd.chrIsRam,
        hd.chrRom, hd.chrRam⟩⟩
  dot := h.dot
  scanline := h.scanline
  genieList := h.genieList
  genieOnce := h.genieOnce
  genieCodes := h.genieCodes
  noRefusal := h.noRefusal

/-- SET_MAPPER_REVISION keeps the invariant (R370). -/
theorem setRevision_inv {c : Chip} (h : c.Inv) (r : Revision) :
    Chip.Inv { c with mapper := c.mapper.setRevision r }.refreshMirror where
  params := h.params
  wram := h.wram
  ciram := h.ciram
  palette := h.palette
  exram := by
    have := h.exram
    rcases hm : c.mapper with _ | ⟨info, regs⟩ <;> rw [hm] at this <;> exact this
  chr := h.chr
  prgRam := by
    have := h.prgRam
    rcases hm : c.mapper with _ | ⟨info, regs⟩ <;> rw [hm] at this
    · exact this
    · cases regs <;> exact this
  frame := h.frame
  mirror := rfl
  cartridge := by
    have := h.cartridge
    unfold CartridgeOk at this
    show match c.mapper.setRevision r with
      | .empty => NoCartridge { c with mapper := c.mapper.setRevision r }.refreshMirror
      | .board info regs => ∃ d, CartridgeMatches { c with mapper := c.mapper.setRevision r }.refreshMirror info regs d
    rcases hm : c.mapper with _ | ⟨info, regs⟩ <;> rw [hm] at this
    · exact ⟨this.desc, this.prgRom, this.chr, this.chrIsRam⟩
    · obtain ⟨d, hd⟩ := this
      exact ⟨d, ⟨hd.desc, hd.descWf, hd.valid, hd.variant, hd.header, hd.fourScreen, hd.region, hd.prgRom, hd.chrIsRam,
        hd.chrRom, hd.chrRam⟩⟩
  dot := h.dot
  scanline := h.scanline
  genieList := h.genieList
  genieOnce := h.genieOnce
  genieCodes := h.genieCodes
  noRefusal := h.noRefusal

/-! ## The cheat table -/

theorem parseGenie_text {code : Text} {g : GenieEntry} (h : parseGenie code = .ok g) : g.text = code := by
  unfold parseGenie at h
  repeat' (split at h)
  all_goals cases h
  rename_i ns _ g' he
  unfold genieEntry at he
  repeat' (split at he)
  all_goals first | (cases he; done) | (cases he; rfl)

theorem genieWithout_nodup {table : List GenieEntry} (h : (table.map GenieEntry.text).Nodup) (code : Text) :
    ((genieWithout code table).map GenieEntry.text).Nodup :=
  (List.filter_sublist.map _).nodup h

/-- The cheat table after a code is added or removed keeps the invariant (R480, R481, R491). -/
theorem setGenie_inv {c : Chip} (h : c.Inv) {table : List GenieEntry} (hn : (table.map GenieEntry.text).Nodup)
    (hp : ∀ e ∈ table, parseGenie e.text = .ok e) : (c.setGenie table).Inv where
  params := h.params
  wram := h.wram
  ciram := h.ciram
  palette := h.palette
  exram := h.exram
  chr := h.chr
  prgRam := h.prgRam
  frame := h.frame
  mirror := h.mirror
  cartridge := h.cartridge.congr rfl rfl rfl rfl rfl (fun _ => rfl) rfl
  dot := h.dot
  scanline := h.scanline
  genieList := rfl
  genieOnce := hn
  genieCodes := hp
  noRefusal := h.noRefusal

theorem genieAdd_nodup {table : List GenieEntry} (h : (table.map GenieEntry.text).Nodup) (g : GenieEntry) :
    ((genieAdd g table).map GenieEntry.text).Nodup := by
  unfold genieAdd
  rw [List.map_append]
  refine List.Nodup.append (genieWithout_nodup h _) (by simp) ?_
  intro x hx hy
  simp only [List.map_cons, List.map_nil, List.mem_singleton] at hy
  subst hy
  simp only [genieWithout, List.mem_map, List.mem_filter] at hx
  obtain ⟨e, ⟨_, hne⟩, he⟩ := hx
  simp [he] at hne

theorem genieAdd_codes {table : List GenieEntry} (h : ∀ e ∈ table, parseGenie e.text = .ok e) {code : Text}
    {g : GenieEntry} (hg : parseGenie code = .ok g) : ∀ e ∈ genieAdd g table, parseGenie e.text = .ok e := by
  intro e he
  unfold genieAdd at he
  rcases List.mem_append.mp he with he | he
  · exact h e (List.mem_of_mem_filter he)
  · simp only [List.mem_singleton] at he
    subst he
    rw [parseGenie_text hg]; exact hg

end Sys2Proof.Machine
end

