-- ==== Sys2Proof/Laws/PerInstr.lean ====
section
/-! SUPPORT. The per-instruction family `RoundTrip`: an instruction that its encoding can carry is read back from its
code. One lemma per constructor of `Instr`. -/

namespace Sys2Proof.Laws.RoundTrip

open Sys2Proof

@[simp] theorem decode_host (op sub : Byte) (imm : Addr) (p : Payload) :
    decode (.host (mkWord op sub imm) p) = decodeFields op sub imm p := by
  simp [decode, decodeHost]

@[simp] theorem decode_opWord (op : Byte) (p : Payload) : decode (.host (opWord op) p) = decodeFields op 0 0 p :=
  decode_host op 0 0 p

/-- Decoding the code of a well-formed instruction gives the instruction. -/
def Statement (i : Instr) : Prop := i.wf = true → decode (encode i) = .ok i

theorem clockInstr : Statement .clockInstr := by
  intro _
  simp [encode, decodeFields, plainCmd]

theorem clockSeconds (num den : Word32) : Statement (.clockSeconds num den) := by
  intro h
  simp only [Instr.wf, decide_eq_true_eq] at h
  simp only [encode, decode_opWord]
  simp [decodeFields, payloadCmd, secondsPayload]
  exact h

theorem clockFrame : Statement .clockFrame := by
  intro _
  simp [encode, decodeFields, plainCmd]

theorem clockScanline : Statement .clockScanline := by
  intro _
  simp [encode, decodeFields, plainCmd]

theorem loadRom (name : Text) (desc : Descriptor) : Statement (.loadRom name desc) := by
  intro h
  simp only [Instr.wf] at h
  simp [encode, decodeFields, payloadCmd, romPayload, h]

theorem unloadRom : Statement .unloadRom := by
  intro _
  simp [encode, decodeFields, plainCmd]

theorem reset (kind : ResetKind) : Statement (.reset kind) := by
  intro _
  simp [encode, decodeFields, enumCmd]

theorem loadSram (b : Memory) : Statement (.loadSram b) := by
  intro h
  simp only [Instr.wf] at h
  simp [encode, decodeFields, payloadCmd, sramPayload, h]

theorem readSram : Statement .readSram := by
  intro _
  simp [encode, decodeFields, plainCmd]

theorem readWram : Statement .readWram := by
  intro _
  simp [encode, decodeFields, plainCmd]

theorem queryStatus : Statement .queryStatus := by
  intro _
  simp [encode, decodeFields, plainCmd]

theorem readFrameBuffer : Statement .readFrameBuffer := by
  intro _
  simp [encode, decodeFields, plainCmd]

theorem readAudioSamples : Statement .readAudioSamples := by
  intro _
  simp [encode, decodeFields, plainCmd]

theorem setRegion (r : Region) : Statement (.setRegion r) := by
  intro _
  simp [encode, decodeFields, enumCmd]

theorem setFourPlayer (m : FourPlayer) : Statement (.setFourPlayer m) := by
  intro _
  simp [encode, decodeFields, enumCmd]

theorem setFilter (f : VideoFilter) : Statement (.setFilter f) := by
  intro _
  simp [encode, decodeFields, enumCmd]

theorem setRamState (p : RamPolicy) : Statement (.setRamState p) := by
  intro _
  simp [encode, decodeFields, enumCmd]

theorem connectZapper (e : Bool) : Statement (.connectZapper e) := by
  intro _
  simp [encode, decodeFields, enumCmd]

theorem aimZapper (x y : Byte) : Statement (.aimZapper x y) := by
  intro _
  simp [encode, decodeFields, busNoData]

theorem triggerZapper : Statement .triggerZapper := by
  intro _
  simp [encode, decodeFields, plainCmd]

theorem toggleApuChannel (c : Channel) : Statement (.toggleApuChannel c) := by
  intro _
  simp [encode, decodeFields, enumCmd]

theorem clearAudioSamples : Statement .clearAudioSamples := by
  intro _
  simp [encode, decodeFields, plainCmd]

theorem setJoypad (player : BitVec 2) (mask : BitVec 10) : Statement (.setJoypad player mask) := by
  intro _
  have hm := setJoypad_reserved mask
  simp only [BitVec.ofNat_eq_ofNat] at hm
  simp [encode, decodeFields, enumCmd, hm]

theorem setMapperRevision (r : Revision) : Statement (.setMapperRevision r) := by
  intro _
  simp [encode, decodeFields, enumCmd]

theorem addGenie (code : Text) : Statement (.addGenie code) := by
  intro _
  simp [encode, decodeFields, payloadCmd, codePayload]

theorem removeGenie (code : Text) : Statement (.removeGenie code) := by
  intro _
  simp [encode, decodeFields, payloadCmd, codePayload]

theorem cpuRead (a : Addr) : Statement (.cpuRead a) := by
  intro _
  simp [encode, decodeFields, busNoData]

theorem cpuWrite (a : Addr) (v : Byte) : Statement (.cpuWrite a v) := by
  intro _
  simp [encode, decodeFields, busData]

theorem cpuPeek (a : Addr) : Statement (.cpuPeek a) := by
  intro _
  simp [encode, decodeFields, busNoData]

theorem ppuRead (a : Addr) : Statement (.ppuRead a) := by
  intro _
  simp [encode, decodeFields, busNoData]

theorem ppuWrite (a : Addr) (v : Byte) : Statement (.ppuWrite a v) := by
  intro _
  simp [encode, decodeFields, busData]

theorem ppuPeek (a : Addr) : Statement (.ppuPeek a) := by
  intro _
  simp [encode, decodeFields, busNoData]

theorem jam02 : Statement .jam02 := fun _ => rfl

theorem jam12 : Statement .jam12 := fun _ => rfl

theorem jam22 : Statement .jam22 := fun _ => rfl

theorem jam32 : Statement .jam32 := fun _ => rfl

theorem jam42 : Statement .jam42 := fun _ => rfl

theorem jam52 : Statement .jam52 := fun _ => rfl

theorem jam62 : Statement .jam62 := fun _ => rfl

theorem jam72 : Statement .jam72 := fun _ => rfl

theorem jam92 : Statement .jam92 := fun _ => rfl

theorem jamB2 : Statement .jamB2 := fun _ => rfl

theorem jamD2 : Statement .jamD2 := fun _ => rfl

theorem jamF2 : Statement .jamF2 := fun _ => rfl

theorem nop : Statement .nop := fun _ => rfl

theorem jmpAbs : Statement .jmpAbs := fun _ => rfl

theorem ldaImm : Statement .ldaImm := fun _ => rfl

theorem staAbs : Statement .staAbs := fun _ => rfl

theorem inx : Statement .inx := fun _ => rfl

theorem bneRel : Statement .bneRel := fun _ => rfl

/-- A byte of the execute class that is no reference opcode. -/
theorem execute (b : Byte) : Statement (.execute b) := by
  intro h
  simp only [Instr.wf, isJamRow, decidedCorruptSet, referenceOpcodes, Bool.and_eq_true, Bool.not_eq_true',
    List.contains_eq_mem, List.mem_cons, List.not_mem_nil, or_false, decide_eq_false_iff_not, not_or] at h
  simp only [encode, decode, decodeOpc, h, if_false]

theorem uxromBank (a : Addr) (v : Byte) : Statement (.uxromBank a v) := by
  intro h
  simp only [Instr.wf] at h
  simp [encode, decode, decodeMapReg, h]

theorem cnromChrBank (a : Addr) (v : Byte) : Statement (.cnromChrBank a v) := by
  intro h
  simp only [Instr.wf] at h
  simp [encode, decode, decodeMapReg, h]

theorem axromReg (a : Addr) (v : Byte) : Statement (.axromReg a v) := by
  intro h
  simp only [Instr.wf] at h
  simp [encode, decode, decodeMapReg, h]

theorem mmc1Control (a : Addr) (v : Byte) : Statement (.mmc1Control a v) := by
  intro h
  simp only [Instr.wf, mmc1Row, beq_iff_eq] at h
  simp only [encode, decode, decodeMapReg, decodeMmc1, mmc1Row, h]
  rfl

theorem mmc1Chr0 (a : Addr) (v : Byte) : Statement (.mmc1Chr0 a v) := by
  intro h
  simp only [Instr.wf, mmc1Row, beq_iff_eq] at h
  simp only [encode, decode, decodeMapReg, decodeMmc1, mmc1Row, h]
  rfl

theorem mmc1Chr1 (a : Addr) (v : Byte) : Statement (.mmc1Chr1 a v) := by
  intro h
  simp only [Instr.wf, mmc1Row, beq_iff_eq] at h
  simp only [encode, decode, decodeMapReg, decodeMmc1, mmc1Row, h]
  rfl

theorem mmc1Prg (a : Addr) (v : Byte) : Statement (.mmc1Prg a v) := by
  intro h
  simp only [Instr.wf, mmc1Row, beq_iff_eq] at h
  simp only [encode, decode, decodeMapReg, decodeMmc1, mmc1Row, h]
  rfl

theorem mmc3BankSelect (a : Addr) (v : Byte) : Statement (.mmc3BankSelect a v) := by
  intro h
  simp only [Instr.wf, mmc3Row, beq_iff_eq] at h
  simp only [encode, decode, decodeMapReg, decodeMmc3, mmc3Row, h]
  rfl

theorem mmc3BankData (a : Addr) (v : Byte) : Statement (.mmc3BankData a v) := by
  intro h
  simp only [Instr.wf, mmc3Row, beq_iff_eq] at h
  simp only [encode, decode, decodeMapReg, decodeMmc3, mmc3Row, h]
  rfl

theorem mmc3Mirroring (a : Addr) (v : Byte) : Statement (.mmc3Mirroring a v) := by
  intro h
  simp only [Instr.wf, mmc3Row, beq_iff_eq] at h
  simp only [encode, decode, decodeMapReg, decodeMmc3, mmc3Row, h]
  rfl

theorem mmc3PrgRamProtect (a : Addr) (v : Byte) : Statement (.mmc3PrgRamProtect a v) := by
  intro h
  simp only [Instr.wf, mmc3Row, beq_iff_eq] at h
  simp only [encode, decode, decodeMapReg, decodeMmc3, mmc3Row, h]
  rfl

theorem mmc3IrqLatch (a : Addr) (v : Byte) : Statement (.mmc3IrqLatch a v) := by
  intro h
  simp only [Instr.wf, mmc3Row, beq_iff_eq] at h
  simp only [encode, decode, decodeMapReg, decodeMmc3, mmc3Row, h]
  rfl

theorem mmc3IrqReload (a : Addr) (v : Byte) : Statement (.mmc3IrqReload a v) := by
  intro h
  simp only [Instr.wf, mmc3Row, beq_iff_eq] at h
  simp only [encode, decode, decodeMapReg, decodeMmc3, mmc3Row, h]
  rfl

theorem mmc3IrqDisable (a : Addr) (v : Byte) : Statement (.mmc3IrqDisable a v) := by
  intro h
  simp only [Instr.wf, mmc3Row, beq_iff_eq] at h
  simp only [encode, decode, decodeMapReg, decodeMmc3, mmc3Row, h]
  rfl

theorem mmc3IrqEnable (a : Addr) (v : Byte) : Statement (.mmc3IrqEnable a v) := by
  intro h
  simp only [Instr.wf, mmc3Row, beq_iff_eq] at h
  simp only [encode, decode, decodeMapReg, decodeMmc3, mmc3Row, h]
  rfl

end Sys2Proof.Laws.RoundTrip
end

