-- ==== Sys2Proof/Tests/Slice0.lean ====
section
/-! SUPPORT. The model's own tests: ill-formed terms refused, words written out from the encodings, one step on small machines
with expected values from 95_test_vectors.md and the rules' own examples, and for each statement of
Certificates/Slice0/Obligations.lean a concrete state and operands that meet its hypotheses. -/

namespace Sys2Proof.Tests

open Sys2Proof Sys2Proof.Machine

/-! ## Small machines -/

/-- The suggested numbers with idle peripherals (95_test_vectors.md A2 to A7). -/
def idle : Params := { Params.suggested with idleUnits := true }

/-- A 32 KiB cartridge. -/
def image (id : BitVec 16) (mirroring : HeaderMirroring) (chr : Nat) (code : List Host.Cell) : Descriptor :=
  { mapperId := id, submapper := 0, prgRom := { size := 32768, cells := code }, chrRom := { size := chr, cells := [] },
    mirroring := mirroring, battery := false, regionHint := none, trainer := none }

/-- A board for a cartridge. -/
def boardFor (d : Descriptor) (regs : BoardRegs) : Mapper :=
  .board { header := d.mirroring, fourScreen := decide (d.mirroring = .fourScreen), region := .ntsc,
           revision := .standard } regs

/-- The machine that LOAD_ROM leaves (95_test_vectors.md, Common assumptions), with the given registers on its board. -/
def machine (d : Descriptor) (regs : BoardRegs) : State :=
  { State.reset with
    chip := { Chip.construction with
      params := idle
      cpu := { Chip.construction.cpu with
        regs := { pc := 0x8000, a := 0, x := 0, y := 0, s := 0xFD,
                  p := { n := false, v := false, d := false, i := true, z := false, c := false } }
        cycle := 7 }
      bus := { Chip.construction.bus with openBus := 0x80 }
      ppubus := { Chip.construction.ppubus with
        chr := if d.chrRom.size = 0 then zeroPool 8192 else d.chrRom
        chrIsRam := decide (d.chrRom.size = 0)
        exram := zeroPool (if d.mirroring = .fourScreen then 2048 else 0)
        mirrorShift := mirrorShiftOf (boardFor d regs).mirroring }
      cart := { prgRom := d.prgRom, prgRam := zeroPool (boardFor d regs).prgRamSize, desc := some d }
      mapper := boardFor d regs }
    running := true
    loadedRom := some ['p']
    batteryBacked := d.battery }

/-- The machine with other processor registers. -/
def at_ (s : State) (r : CpuRegs) : State := { s with chip := { s.chip with cpu := { s.chip.cpu with regs := r } } }

/-- Registers with a given pc, a, x and flags; s is 0xFD. -/
def regs (pc : Addr) (a x : Byte) (n z i : Bool) : CpuRegs :=
  { pc := pc, a := a, x := x, y := 0, s := 0xFD, p := { n := n, v := false, d := false, i := i, z := z, c := false } }

/-- The chip after an instruction. -/
def chipOf : Host.Outcome State Fault Refusal → Option Chip
  | .next t => some t.chip
  | .fault _ => none
  | .refused _ => none

/-- The result of an instruction. -/
def resultOf : Host.Outcome State Fault Refusal → Option Result
  | .next t => t.result
  | .fault _ => none
  | .refused _ => none

/-- The state after an instruction, or the one before when it stops. -/
def then_ (s : State) (i : Instr) : State :=
  match exec i s with
  | .next t => t
  | .fault _ => s
  | .refused _ => s

/-- IMG_P1 of 95_test_vectors.md, with the bytes that the tests reach. -/
def p1 : Descriptor := image 0 .vertical 8192
  [(0, 0xA9), (1, 0x05), (2, 0x8D), (4, 0x02), (5, 0x4C), (6, 0x05), (7, 0x80), (0x7FFB, 0x80), (0x7FFD, 0x80),
   (0x7FFF, 0x80)]

/-- A cartridge with opcodes for single steps, from 0x8010 and 0x80FD, and vectors 0xA000, 0x8000, 0x9000. -/
def p9 : Descriptor := image 0 .horizontal 8192
  [(0x0, 0xEA), (0x1, 0xEA), (0x2, 0xEA), (0x3, 0xEA), (0x4, 0x02), (0x10, 0xD0), (0x11, 0xFE), (0x20, 0xA9),
   (0x21, 0x80), (0x30, 0xE8), (0x38, 0x82), (0x40, 0x8D), (0x42, 0x08), (0x48, 0x8D), (0x49, 0x14), (0x4A, 0x40),
   (0xFD, 0xD0), (0xFE, 0x10), (0x7FFB, 0xA0), (0x7FFD, 0x80), (0x7FFF, 0x90)]

/-- The construction state with idle peripherals. -/
def bare : State := { State.reset with chip := { Chip.construction with params := idle } }

/-- IMG_P1 loaded. -/
def demo : State := machine p1 .nrom

/-- The opcodes' cartridge loaded. -/
def ops : State := machine p9 .nrom

/-! ## These machines meet the invariant -/

theorem test_machine_inv (d : Descriptor) (r : BoardRegs) (hw : d.wf = true) (hv : validate d = none)
    (hk : (boardOfId d.mapperId d.mirroring).map BoardRegs.kind = some r.kind) : (machine d r).Inv where
  chip := {
    params := (by decide : idle.ok = true)
    wram := ⟨rfl, rfl⟩
    ciram := ⟨rfl, rfl⟩
    palette := ⟨rfl, rfl⟩
    exram := ⟨rfl, by simp [machine, boardFor, Mapper.fourScreen, zeroPool]⟩
    chr := by
      have h : d.chrRom.wf = true := by
        simp only [Descriptor.wf, Bool.and_eq_true] at hw
        exact hw.1.2
      show (if d.chrRom.size = 0 then zeroPool 8192 else d.chrRom).wf = true
      split
      · rfl
      · exact h
    prgRam := ⟨rfl, rfl⟩
    frame := ⟨rfl, rfl⟩
    mirror := rfl
    cartridge := ⟨d, {
      desc := rfl
      descWf := hw
      valid := hv
      variant := hk
      header := rfl
      fourScreen := rfl
      region := rfl
      prgRom := rfl
      chrIsRam := rfl
      chrRom := fun h => if_neg h
      chrRam := fun h => by
        show (if d.chrRom.size = 0 then zeroPool 8192 else d.chrRom).size = 8192
        rw [if_pos h]; rfl }⟩
    dot := (by decide : 0 < 341)
    scanline := (by decide : 0 < maxScanlines idle)
    genieList := rfl
    genieOnce := List.nodup_nil
    genieCodes := fun e he => absurd he List.not_mem_nil
    noRefusal := rfl }
  running := rfl
  loaded := rfl
  battery := rfl
  budget := fun h => absurd h (by decide : ¬ (0 : Rat) < 0)
  owed := (by decide : -((600 : Nat) : Rat) < 0)
  ongoing := fun h => by cases h

/-- The cartridge's agreement is about these parts of the chip only. -/
theorem test_cartridge_congr {c d : Chip} (h : CartridgeOk c) (hm : d.mapper = c.mapper := by rfl)
    (hc : d.cart = c.cart := by rfl) (hp : d.ppubus = c.ppubus := by rfl) (hg : d.config = c.config := by rfl) :
    CartridgeOk d := by
  unfold CartridgeOk at h ⊢
  rw [hm]
  split at h
  · exact ⟨by rw [hc]; exact h.desc, by rw [hc]; exact h.prgRom, by rw [hp]; exact h.chr, by rw [hp]; exact h.chrIsRam⟩
  · obtain ⟨e, k⟩ := h
    exact ⟨e, by rw [hc]; exact k.desc, k.descWf, k.valid, k.variant, k.header, k.fourScreen, by rw [hg]; exact k.region,
      by rw [hc]; exact k.prgRom, by rw [hp]; exact k.chrIsRam, by rw [hp]; exact k.chrRom,
      by rw [hp]; exact k.chrRam⟩

/-- Another processor on a legal machine with no budget left over and no command in progress. -/
theorem test_withCpu_inv {s : State} (h : s.Inv) (hb : ¬ 0 < s.cyclesRemaining) (c : Cpu) (ho : s.ongoing = none := by rfl) :
    State.Inv { s with chip := { s.chip with cpu := c } } where
  chip := ⟨h.chip.params, h.chip.wram, h.chip.ciram, h.chip.palette, h.chip.exram, h.chip.chr, h.chip.prgRam,
    h.chip.frame, h.chip.mirror, test_cartridge_congr h.chip.cartridge, h.chip.dot, h.chip.scanline, h.chip.genieList, h.chip.genieOnce,
    h.chip.genieCodes, h.chip.noRefusal⟩
  running := h.running
  loaded := h.loaded
  battery := h.battery
  budget := fun g => absurd g hb
  owed := h.owed
  ongoing := fun g => by rw [show s.ongoing = none from ho] at g; cases g

/-- Another audio unit. -/
theorem test_withApu_inv {s : State} (h : s.Inv) (a : Apu) : State.Inv { s with chip := { s.chip with apu := a } } where
  chip := ⟨h.chip.params, h.chip.wram, h.chip.ciram, h.chip.palette, h.chip.exram, h.chip.chr, h.chip.prgRam,
    h.chip.frame, h.chip.mirror, test_cartridge_congr h.chip.cartridge, h.chip.dot, h.chip.scanline, h.chip.genieList, h.chip.genieOnce,
    h.chip.genieCodes, h.chip.noRefusal⟩
  running := h.running
  loaded := h.loaded
  battery := h.battery
  budget := h.budget
  owed := h.owed
  ongoing := h.ongoing

theorem test_demo_inv : demo.Inv := test_machine_inv _ _ (by decide) (by decide) (by decide)

theorem test_ops_inv : ops.Inv := test_machine_inv _ _ (by decide) (by decide) (by decide)

theorem test_demo_canStep : CanStep demo := ⟨rfl, test_demo_inv.chip, rfl⟩

theorem test_at_inv {s : State} (h : s.Inv) (hb : ¬ 0 < s.cyclesRemaining) (r : CpuRegs)
    (ho : s.ongoing = none := by rfl) : (at_ s r).Inv :=
  test_withCpu_inv h hb { s.chip.cpu with regs := r } ho

theorem test_at_ready (r : CpuRegs) : Ready (at_ ops r).chip := ⟨(test_at_inv test_ops_inv (by decide) r).chip, rfl⟩

/-! ## Ill-formed terms are refused (30_encoding.md R151 to R157, 45_mapper_boards.md section 7) -/

theorem test_wf_seconds : (Instr.clockSeconds 1 0).wf = false := by decide

theorem test_wf_mapperId : (Instr.loadRom [] { p1 with mapperId := 4096 }).wf = false := by decide

theorem test_wf_submapper : (Instr.loadRom [] { p1 with submapper := 16 }).wf = false := by decide

theorem test_wf_prgRom : (Instr.loadRom [] { p1 with prgRom := { size := 2, cells := [(1, 5), (0, 5)] } }).wf = false := by
  decide

theorem test_wf_chrRom : (Instr.loadRom [] { p1 with chrRom := { size := 2, cells := [(0, 0)] } }).wf = false := by decide

theorem test_wf_trainer : (Instr.loadRom [] { p1 with trainer := some { size := 2, cells := [(2, 1)] } }).wf = false := by
  decide

theorem test_wf_sram : (Instr.loadSram { size := 4, cells := [(1, 1), (1, 2)] }).wf = false := by decide

theorem test_wf_execute_corrupting : (Instr.execute 0x02).wf = false := by decide

theorem test_wf_execute_reference : (Instr.execute 0xEA).wf = false := by decide

theorem test_wf_plain_rows : ((Instr.uxromBank 0x7FFF 0).wf || (Instr.cnromChrBank 0x7FFF 0).wf ||
    (Instr.axromReg 0x7FFF 0).wf) = false := by decide

theorem test_wf_mmc1_rows : ((Instr.mmc1Control 0xA000 0).wf || (Instr.mmc1Chr0 0x9FFF 0).wf ||
    (Instr.mmc1Chr1 0xE000 0).wf || (Instr.mmc1Prg 0xDFFF 0).wf) = false := by decide

theorem test_wf_mmc3_rows : ((Instr.mmc3BankSelect 0x8001 0).wf || (Instr.mmc3BankData 0x8000 0).wf ||
    (Instr.mmc3Mirroring 0xA001 0).wf || (Instr.mmc3PrgRamProtect 0xA000 0).wf || (Instr.mmc3IrqLatch 0xC001 0).wf ||
    (Instr.mmc3IrqReload 0xC000 0).wf || (Instr.mmc3IrqDisable 0xE001 0).wf || (Instr.mmc3IrqEnable 0xE000 0).wf) =
    false := by decide

/-! ## Words from the spec's encodings decode (R152, R153, R157; 95_test_vectors.md L2.1) -/

theorem test_decode_stepping : decode (.host 0x01000000 .none) = .ok .clockInstr ∧
    decode (.host 0x02000000 (.seconds 3 60)) = .ok (.clockSeconds 3 60) ∧
    decode (.host 0x03000000 .none) = .ok .clockFrame ∧ decode (.host 0x04000000 .none) = .ok .clockScanline := by decide

theorem test_decode_lifecycle : decode (.host 0x10000000 (.rom ['a'] p1)) = .ok (.loadRom ['a'] p1) ∧
    decode (.host 0x11000000 .none) = .ok .unloadRom ∧ decode (.host 0x12000000 .none) = .ok (.reset .soft) ∧
    decode (.host 0x12010000 .none) = .ok (.reset .hard) := by decide

theorem test_decode_accessors : decode (.host 0x13000000 (.bytes (zeroPool 3))) = .ok (.loadSram (zeroPool 3)) ∧
    decode (.host 0x14000000 .none) = .ok .readSram ∧ decode (.host 0x15000000 .none) = .ok .readWram ∧
    decode (.host 0x16000000 .none) = .ok .queryStatus ∧ decode (.host 0x17000000 .none) = .ok .readFrameBuffer ∧
    decode (.host 0x18000000 .none) = .ok .readAudioSamples := by decide

theorem test_decode_config : decode (.host 0x20020000 .none) = .ok (.setRegion .dendy) ∧
    decode (.host 0x21010000 .none) = .ok (.setFourPlayer .fourScore) ∧
    decode (.host 0x22010000 .none) = .ok (.setFilter .ntscArtifact) ∧
    decode (.host 0x23010000 .none) = .ok (.setRamState .allOnes) ∧
    decode (.host 0x24010000 .none) = .ok (.connectZapper true) := by decide

theorem test_decode_input : decode (.host 0x25008078 .none) = .ok (.aimZapper 0x80 0x78) ∧
    decode (.host 0x26000000 .none) = .ok .triggerZapper ∧
    decode (.host 0x27020000 .none) = .ok (.toggleApuChannel .triangle) ∧
    decode (.host 0x28000000 .none) = .ok .clearAudioSamples ∧
    decode (.host 0x290303FF .none) = .ok (.setJoypad 3 0x3FF) ∧
    decode (.host 0x2A010000 .none) = .ok (.setMapperRevision .revA) := by decide

theorem test_decode_genie : decode (.host 0x30000000 (.code ['A'])) = .ok (.addGenie ['A']) ∧
    decode (.host 0x31000000 (.code [])) = .ok (.removeGenie []) := by decide

theorem test_decode_bus : decode (.host 0x40000805 .none) = .ok (.cpuRead 0x0805) ∧
    decode (.host 0x41AB0005 .none) = .ok (.cpuWrite 0x0005 0xAB) ∧
    decode (.host 0x4200FFFC .none) = .ok (.cpuPeek 0xFFFC) ∧ decode (.host 0x43007F10 .none) = .ok (.ppuRead 0x7F10) ∧
    decode (.host 0x44112000 .none) = .ok (.ppuWrite 0x2000 0x11) ∧
    decode (.host 0x45003F1C .none) = .ok (.ppuPeek 0x3F1C) := by decide

theorem test_decode_opcodes : decode (.opc 0xEA) = .ok .nop ∧ decode (.opc 0x4C) = .ok .jmpAbs ∧
    decode (.opc 0xA9) = .ok .ldaImm ∧ decode (.opc 0x8D) = .ok .staAbs ∧ decode (.opc 0xE8) = .ok .inx ∧
    decode (.opc 0xD0) = .ok .bneRel ∧ decode (.opc 0x00) = .ok (.execute 0x00) ∧
    decode (.opc 0x82) = .ok (.execute 0x82) := by decide

theorem test_decode_jam : [0x02, 0x12, 0x22, 0x32, 0x42, 0x52, 0x62, 0x72, 0x92, 0xB2, 0xD2, 0xF2].map decodeOpc =
    [.jam02, .jam12, .jam22, .jam32, .jam42, .jam52, .jam62, .jam72, .jam92, .jamB2, .jamD2, .jamF2] := by decide

theorem test_decode_plain_boards : decode (.mapReg .uxrom 0xFFFF 5) = .ok (.uxromBank 0xFFFF 5) ∧
    decode (.mapReg .cnrom 0x8000 2) = .ok (.cnromChrBank 0x8000 2) ∧
    decode (.mapReg .axrom 0x8000 0x11) = .ok (.axromReg 0x8000 0x11) := by decide

theorem test_decode_mmc1 : decode (.mapReg .mmc1 0x8000 0) = .ok (.mmc1Control 0x8000 0) ∧
    decode (.mapReg .mmc1 0xA000 0) = .ok (.mmc1Chr0 0xA000 0) ∧
    decode (.mapReg .mmc1 0xDFFF 0) = .ok (.mmc1Chr1 0xDFFF 0) ∧
    decode (.mapReg .mmc1 0xFFFF 0) = .ok (.mmc1Prg 0xFFFF 0) := by decide

theorem test_decode_mmc3 : decode (.mapReg .mmc3 0x8000 6) = .ok (.mmc3BankSelect 0x8000 6) ∧
    decode (.mapReg .mmc3 0x9FFF 6) = .ok (.mmc3BankData 0x9FFF 6) ∧
    decode (.mapReg .mmc3 0xA000 1) = .ok (.mmc3Mirroring 0xA000 1) ∧
    decode (.mapReg .mmc3 0xA001 0xC0) = .ok (.mmc3PrgRamProtect 0xA001 0xC0) ∧
    decode (.mapReg .mmc3 0xC000 1) = .ok (.mmc3IrqLatch 0xC000 1) ∧
    decode (.mapReg .mmc3 0xC001 0) = .ok (.mmc3IrqReload 0xC001 0) ∧
    decode (.mapReg .mmc3 0xE000 0) = .ok (.mmc3IrqDisable 0xE000 0) ∧
    decode (.mapReg .mmc3 0xE001 0) = .ok (.mmc3IrqEnable 0xE001 0) := by decide

/-- The codes of R164's mirroring table and of R167's results. -/
theorem test_codes : ([0, 1, 2, 3, 4] : List Byte).map Mirroring.ofCode =
      [some .horizontal, some .vertical, some .singleScreenA, some .singleScreenB, some .fourScreen] ∧
    Mirroring.ofCode 5 = none ∧ (CmdError.romFormat .badTrainer).code = 1 ∧
    (Result.err (.invalidCode (.wrongLength 5))).code = some 3 ∧ (Result.err .cpuCorrupted).code = some 2 ∧
    (Result.ok .unit).code = some 0 := by decide

/-- Each clause of R156 at a word of L2.1; the last is a payload of the wrong type. -/
theorem test_illegal_words : ∀ e ∈ [(0x05000000, Payload.none), (0x46000000, .none), (0x01000001, .none),
    (0x40010805, .none), (0x12020000, .none), (0x20030000, .none), (0x29000400, .none), (0x29040000, .none),
    (0x02000000, .seconds 1 0), (0x02000000, .none)], (decodeHost e.1 e.2).toOption = none := by decide

theorem test_witness_illegal : IllegalWord 0x05000000 .none ∧ IllegalWord 0x01010000 .none ∧ IllegalWord 0x01000001 .none ∧
    IllegalWord 0x29000400 .none ∧ IllegalWord 0x12020000 .none ∧ IllegalWord 0x02000000 .none ∧
    IllegalWord 0x02000000 (.seconds 1 0) ∧ ¬ IllegalWord 0x01000000 .none := by
  refine ⟨Or.inl (by decide), Or.inr (Or.inl (by decide)), Or.inr (Or.inr (Or.inl (by decide))),
    Or.inr (Or.inr (Or.inr (Or.inl (by decide)))), Or.inr (Or.inr (Or.inr (Or.inr (Or.inl (by decide))))),
    Or.inr (Or.inr (Or.inr (Or.inr (Or.inr (Or.inl (by decide)))))),
    Or.inr (Or.inr (Or.inr (Or.inr (Or.inr (Or.inr ⟨by decide, 1, rfl⟩))))), ?_⟩
  rintro (h | h | h | h | h | h | ⟨h, _⟩)
  · exact absurd h (by decide)
  · exact absurd h (by decide)
  · exact absurd h (by decide)
  · exact absurd h (by decide)
  · exact absurd h (by decide)
  · exact absurd h (by decide)
  · exact absurd h (by decide)

/-! ## Steps (95_test_vectors.md L2.2, L2.9, L3) -/

/-- P1, step 1. -/
theorem test_clockInstr : (chipOf (exec .clockInstr demo)).map (fun c => (c.cpu.regs.a, c.cpu.regs.pc, c.cpu.cycle)) =
    some (0x05, 0x8002, 9) := by decide

/-- P1, step 2, from the state after step 1. -/
theorem test_clockInstr_sta : (chipOf (exec .clockInstr (at_ demo (regs 0x8002 0x05 0 false false true)))).map
    (fun c => (c.bus.wram, c.bus.openBus, c.cpu.regs.pc)) =
    some ({ size := 2048, cells := [(0x200, 0x05)] }, 0x05, 0x8005) := by decide

/-- L1.7, the first call: one 2-cycle NOP spends a budget of 1. -/
theorem test_clockSeconds : ((exec (.clockSeconds 1 1789773) ops) |> resultOf,
    (then_ ops (.clockSeconds 1 1789773)).cyclesRemaining) = (some (.ok (.cycles 2)), -1) := by decide +kernel

/-- L2.2: a budget of 0 steps nothing. -/
theorem test_clockSeconds_zero : resultOf (exec (.clockSeconds 0 1) ops) = some (.ok (.cycles 0)) := by decide +kernel

/-- A frame boundary 3 dots ahead falls in the first step (R203). -/
theorem test_clockFrame : (exec .clockFrame
    { ops with chip := { ops.chip with ppu := { ops.chip.ppu with scanline := 261, dot := 338 } } } |> chipOf).map
    (fun c => (c.ppu.frameNumber, c.ppu.scanline, c.cpu.cycle)) = some (1, 0, 9) := by decide

/-- A scanline boundary 3 dots ahead falls in the first step (R204). -/
theorem test_clockScanline : (exec .clockScanline
    { ops with chip := { ops.chip with ppu := { ops.chip.ppu with scanline := 7, dot := 338 } } } |> chipOf).map
    (fun c => (c.ppu.scanline, c.cpu.cycle)) = some (8, 9) := by decide

/-- Two scanlines of `line` dots, with `num / den` dots a cycle, in every region. -/
def slowParams (line num den : Nat) : Params :=
  let r : RegionParams := { clockRate := 1789773, scanlinesPerFrame := 2, dotsNum := num, dotsDen := den }
  { idle with ntsc := r, pal := r, dendy := r, dotsPerScanline := line }

/-- D0 FE at 0x8010, with Z = 0, branches to itself for ever; no opcode corrupts, and no dot ever comes. -/
def noDots : State :=
  let s := at_ ops (regs 0x8010 0 0 false false true)
  { s with chip := { s.chip with params := { slowParams 2 0 1 with corruptSet := [] } } }

/-- R203 where no dot comes: after 13 branches of three cycles the command is still in progress, with no result; the next step of
the machine takes no word and goes on with it (log 25). -/
theorem test_clockFrame_goesOn :
    (then_ noDots .clockFrame |> fun t => (t.ongoing, t.result, t.chip.cpu.cycle)) =
      (some { loop := .frame 0, cycles := 39 }, none, 46) ∧
    (match step { (then_ noDots .clockFrame) with pending := [{ word := 0x01000000, payload := .none }] } with
    | .next t => some (t.ongoing, t.pending.length)
    | .fault _ => none
    | .refused _ => none) = some (some { loop := .frame 0, cycles := 78 }, 1) := by decide

/-- L2.2, construction: no cartridge. -/
theorem test_gate : resultOf (exec .clockInstr bare) = some (.refused .noCartridge) ∧
    (then_ bare .clockInstr).refused = true := by decide

/-- L2.9: the NMI entry comes first, and pushes 80, 03 and A4. -/
theorem test_nmi_entry : (chipOf (exec .clockInstr { ops with chip := { ops.chip with
      cpu := { ops.chip.cpu with regs := regs 0x8003 0 0 true false true, nmiLatch := true }
      apu := { ops.chip.apu with irqOut := true } } })).map
    (fun c => (c.bus.wram.cells, c.cpu.regs.s, c.cpu.regs.pc, c.cpu.nmiLatch)) =
    some ([(0x1FB, 0xA4), (0x1FC, 0x03), (0x1FD, 0x80)], 0xFA, 0xA000, false) := by decide

/-- L2.9: the IRQ entry; 0x23 is Z, C and bit 5. -/
theorem test_irq_entry : (chipOf (exec .clockInstr { ops with chip := { ops.chip with
      cpu := { ops.chip.cpu with regs := { regs 0x8003 0 0 false true false with
        p := { n := false, v := false, d := false, i := false, z := true, c := true } } }
      apu := { ops.chip.apu with irqOut := true } } })).map
    (fun c => (c.bus.wram.cells, c.cpu.regs.p.i, c.cpu.regs.pc, c.bus.openBus)) =
    some ([(0x1FB, 0x23), (0x1FC, 0x03), (0x1FD, 0x80)], true, 0x9000, 0x90) := by decide

/-- BRK fetched at 0x8000 pushes 0x8002 and B = 1 (R525). -/
theorem test_brk : (chipOf (exec (.execute 0x00) (at_ ops (regs 0x8001 0 0 false false true)))).map
    (fun c => (c.bus.wram.cells, c.cpu.regs.pc)) = some ([(0x1FB, 0x34), (0x1FC, 0x02), (0x1FD, 0x80)], 0x9000) := by
  decide

/-- L2.2: EA at 0x8000, after its fetch. -/
theorem test_nop : (chipOf (exec .nop (at_ ops (regs 0x8001 0 0 false false true)))).map
    (fun c => (c.cpu.regs.pc, c.cpu.cycle, c.bus.openBus)) = some (0x8001, 8, 0xEA) := by decide

/-- L2.2: 4C 05 80, after its fetch at 0x8005. -/
theorem test_jmpAbs : (chipOf (exec .jmpAbs (at_ demo (regs 0x8006 5 0 false false true)))).map
    (fun c => (c.cpu.regs.pc, c.cpu.cycle)) = some (0x8005, 9) := by decide

/-- L2.2: A9 80 with Z = 1 sets N and clears Z. -/
theorem test_ldaImm : (chipOf (exec .ldaImm (at_ ops (regs 0x8021 0 0 false true true)))).map
    (fun c => (c.cpu.regs.a, c.cpu.regs.p.n, c.cpu.regs.p.z, c.cpu.regs.pc)) = some (0x80, true, false, 0x8022) := by
  decide

/-- L2.2: 8D 00 08 with a = 07 writes the mirrored cell. -/
theorem test_staAbs : (chipOf (exec .staAbs (at_ ops (regs 0x8041 7 0 false false true)))).map
    (fun c => (c.bus.wram.cells, c.cpu.cycle)) = some ([(0, 0x07)], 10) := by decide

/-- L2.2: E8 with x = FF. -/
theorem test_inx_wrap : (chipOf (exec .inx (at_ ops (regs 0x8031 0 0xFF true false true)))).map
    (fun c => (c.cpu.regs.x, c.cpu.regs.p.z, c.cpu.regs.p.n)) = some (0x00, true, false) := by decide

/-- L2.2: E8 with x = 7F. -/
theorem test_inx_sign : (chipOf (exec .inx (at_ ops (regs 0x8031 0 0x7F false true true)))).map
    (fun c => (c.cpu.regs.x, c.cpu.regs.p.z, c.cpu.regs.p.n)) = some (0x80, false, true) := by decide

/-- L2.2: D0 10 at 0x80FD crosses a page, in 3 cycles after its fetch. -/
theorem test_bneRel_page : (chipOf (exec .bneRel (at_ ops (regs 0x80FE 0 0 false false true)))).map
    (fun c => (c.cpu.regs.pc, c.cpu.cycle)) = some (0x810F, 10) := by decide

/-- L2.2: D0 FE at 0x8010 branches to itself. -/
theorem test_bneRel_self : (chipOf (exec .bneRel (at_ ops (regs 0x8011 0 0 false false true)))).map
    (fun c => (c.cpu.regs.pc, c.cpu.cycle)) = some (0x8010, 9) := by decide

/-- R12: with another `CorruptSet`, NOP's byte corrupts. -/
theorem test_otherSet_corrupts : (chipOf (exec .nop { bare with chip := { bare.chip with
    params := { idle with corruptSet := [0xEA] } } })).map (fun c => c.cpu.corrupted) = some true := by decide

/-- P2, command 3: one more tick, and the registers stay (all twelve rows). -/
theorem test_jam : ∀ i ∈ [Instr.jam02, .jam12, .jam22, .jam32, .jam42, .jam52, .jam62, .jam72, .jam92, .jamB2, .jamD2,
    .jamF2], (resultOf (exec i demo), (chipOf (exec i demo)).map fun c => (c.cpu.corrupted, c.cpu.cycle, c.cpu.regs.pc)) =
    (some (.err .cpuCorrupted), some (true, 8, 0x8000)) := by decide

/-! ## Lifecycle (L2.3, L2.10) -/

/-- L2.3, first row. -/
theorem test_loadRom : (chipOf (exec (.loadRom ['p'] p1) bare)).map
    (fun c => (c.cpu.regs.pc, c.cpu.regs.s, c.cpu.cycle, c.bus.openBus, c.ppubus.mirrorShift)) =
    some (0x8000, 0xFD, 7, 0x80, .v) := by decide

/-- R491: the initial codes are added in order, and a malformed one is skipped. -/
theorem test_constructDeck : ((constructDeck { State.reset.chip.config with
      region := .pal, genie := [['Q'], ['S', 'X', 'I', 'O', 'P', 'O']] }).chip |>
    fun c => (c.config.region, c.bus.genie.map GenieEntry.addr, c.config.genie)) =
    (.pal, [0x91D9], [['S', 'X', 'I', 'O', 'P', 'O']]) := by decide

/-- L1.8: the checks in their order. -/
theorem test_loadRom_rejects : (resultOf (exec (.loadRom [] { p1 with mapperId := 9, prgRom := zeroPool 0 }) bare),
    resultOf (exec (.loadRom [] { p1 with prgRom := zeroPool 0 }) bare),
    resultOf (exec (.loadRom [] { p1 with chrRom := zeroPool 4096 }) bare),
    resultOf (exec (.loadRom [] { p1 with trainer := some (zeroPool 100) }) bare),
    resultOf (exec (.loadRom [] { p1 with prgRom := zeroPool 65536 }) bare)) =
    (some (.err (.romFormat .unsupportedMapper)), some (.err (.romFormat .badPrgSize)),
     some (.err (.romFormat .badChrSize)), some (.err (.romFormat .badTrainer)),
     some (.err (.romFormat .boardLimit))) := by decide

/-- A battery MMC1 cartridge with 42 in its first PRG-RAM byte. -/
def battery : State :=
  let s := machine { p1 with mapperId := 1, battery := true } (.mmc1 mmc1PowerOn)
  { s with chip := { s.chip with cart := { s.chip.cart with prgRam := { size := 8192, cells := [(0, 0x42)] } } } }

theorem test_unloadRom : (resultOf (exec .unloadRom battery), (then_ battery .unloadRom).loadedRom,
    (then_ battery .unloadRom).chip.mapper) =
    (some (.ok (.flushed (some { size := 8192, cells := [(0, 0x42)] }))), none, .empty) := by decide

/-- P2, command 8 in small: s moves by 3, a stays, the corrupted flag clears. -/
theorem test_reset_soft : (chipOf (exec (.reset .soft) { demo with chip := { demo.chip with
      cpu := { demo.chip.cpu with regs := regs 0x8003 1 0 false false true, corrupted := true, cycle := 11 } } })).map
    (fun c => (c.cpu.corrupted, c.cpu.regs.a, c.cpu.regs.s, c.cpu.regs.pc, c.cpu.cycle)) =
    some (false, 0x01, 0xFA, 0x8000, 18) := by decide

/-- L2.3: battery RAM survives a hard reset; L2.10: the processor's values. -/
theorem test_reset_hard : (chipOf (exec (.reset .hard) battery)).map
    (fun c => (c.cart.prgRam.read 0, c.cpu.regs.s, c.cpu.cycle, c.cpu.regs.a)) = some (0x42, 0xFD, 7, 0) := by decide

theorem test_loadSram : (then_ battery (.loadSram (zeroPool 8192))).chip.cart.prgRam = zeroPool 8192 ∧
    (then_ battery (.loadSram (zeroPool 100))).chip = battery.chip := by decide

theorem test_readSram : resultOf (exec .readSram battery) = some (.ok (.bytes { size := 8192, cells := [(0, 0x42)] })) ∧
    resultOf (exec .readSram demo) = some (.ok (.bytes (zeroPool 0))) := by decide

theorem test_readWram : resultOf (exec .readWram bare) = some (.ok (.bytes (zeroPool 2048))) := by decide

theorem test_queryStatus : resultOf (exec .queryStatus demo) = some (.ok (.status
    { running := true, loadedRom := some ['p'], corrupted := false, region := .ntsc, frameNumber := 0, scanline := 0,
      cycle := 7 })) := by decide

theorem test_readAudioSamples : resultOf (exec .readAudioSamples bare) = some (.ok (.samples [])) := by decide

/-! ## Settings (L2.4) -/

theorem test_setRegion : (chipOf (exec (.setRegion .pal) demo)).map (fun c => (c.config.region, c.regionParams.clockRate)) =
    some (.pal, 1662607) := by decide

theorem test_settings : (then_ bare (.setFourPlayer .fourScore)).chip.config.fourPlayer = .fourScore ∧
    (then_ bare (.setFilter .ntscArtifact)).chip.config.filter = .ntscArtifact ∧
    (then_ bare (.setRamState .allOnes)).chip.bus.wram = zeroPool 2048 := by decide

theorem test_zapper : (then_ bare (.connectZapper true)).chip.input.zapper.connected = true ∧
    (then_ bare (.aimZapper 0x80 0x78)).chip.input.zapper = { connected := false, x := 0x80, y := 0x78, trigger := false } ∧
    (then_ bare .triggerZapper).chip.input.zapper.trigger = true := by decide

theorem test_toggleApuChannel : (then_ bare (.toggleApuChannel .triangle)).chip.apu.channelEnabled =
    { pulse1 := true, pulse2 := true, triangle := false, noise := true, dmc := true } := by decide

theorem test_clearAudioSamples : (chipOf (exec .clearAudioSamples
    { bare with chip := { bare.chip with apu := { bare.chip.apu with samples := [1, 2] } } })).map (fun c => c.apu.samples) =
    some [] := by decide

theorem test_setJoypad : (then_ bare (.setJoypad 0 0x009)).chip.input.joypad0 = 0b0000001001 ∧
    (then_ bare (.setJoypad 3 0x3FF)).chip.input.joypad3 = 0x03FF := by decide

/-- R166: 0x009 is A and Start, and 0x200 is TurboB. -/
theorem test_joypad_buttons : ([.a, .b, .select, .start, .up, .down, .left, .right, .turboA, .turboB] : List Button).map
      (Input.pressed (then_ bare (.setJoypad 2 0x009)).chip.input 2) =
      [true, false, false, true, false, false, false, false, false, false] ∧
    Input.pressed (then_ bare (.setJoypad 1 0x200)).chip.input 1 .turboB = true ∧ Button.inMask .right 0x080 = true := by
  decide

theorem test_setMapperRevision : (then_ bare (.setMapperRevision .revA)).chip = bare.chip := by decide

/-! ## Cheat codes (L1.4, L1.5, L2.8) -/

theorem test_addGenie : (then_ bare (.addGenie ['S', 'X', 'I', 'O', 'P', 'O'])).chip.bus.genie =
    [{ text := ['S', 'X', 'I', 'O', 'P', 'O'], addr := 0x91D9, data := 0xAD, compare := none }] := by decide

theorem test_addGenie_errors : (resultOf (exec (.addGenie ['Q', 'Q', 'Q', 'Q', 'Q']) bare),
    resultOf (exec (.addGenie ['S', 'X', 'I', 'O', 'P', 'Q']) bare)) =
    (some (.err (.invalidCode (.wrongLength 5))), some (.err (.invalidCode (.badChar 5 'Q')))) := by decide

/-- L1.5: compare 05 matches the byte under it, compare 06 does not. -/
theorem test_genie_compare :
    (resultOf (exec (.cpuPeek 0x8001) (then_ demo (.addGenie ['Y', 'A', 'A', 'A', 'P', 'A', 'I', 'A']))),
     resultOf (exec (.cpuPeek 0x8001) (then_ demo (.addGenie ['Y', 'A', 'A', 'A', 'P', 'A', 'T', 'A'])))) =
    (some (.ok (.byte 0x07)), some (.ok (.byte 0x05))) := by decide

theorem test_removeGenie :
    (then_ (then_ bare (.addGenie ['A', 'A', 'A', 'A', 'A', 'A'])) (.removeGenie ['A', 'A', 'A', 'A', 'A', 'A'])).chip =
    bare.chip := by decide

/-! ## The buses (L2.5, L2.6, L1.1, L1.2) -/

/-- A mirror reads what was written, and the latch holds it. -/
theorem test_cpu_mirror : resultOf (exec (.cpuRead 0x1805) (then_ bare (.cpuWrite 0x0005 0xAB))) =
    some (.ok (.byte 0xAB)) := by decide

/-- Construction: open bus repeats the write. -/
theorem test_cpu_openBus : resultOf (exec (.cpuRead 0xC000) (then_ bare (.cpuWrite 0x8000 0x12))) =
    some (.ok (.byte 0x12)) := by decide

/-- ROM is not written; PRG RAM is. -/
theorem test_cpu_cartridge : (resultOf (exec (.cpuRead 0x8000) (then_ demo (.cpuWrite 0x8000 0x00))),
    resultOf (exec (.cpuRead 0x6000) (then_ demo (.cpuWrite 0x6000 0x99)))) =
    (some (.ok (.byte 0xA9)), some (.ok (.byte 0x99))) := by decide

theorem test_cpuPeek : resultOf (exec (.cpuPeek 0xFFFD) demo) = some (.ok (.byte 0x80)) := by decide

/-- L1.1, Horizontal: 0x2000 and 0x2400 are one cell, 0x2800 is another. -/
theorem test_ppu_nametables : (resultOf (exec (.ppuRead 0x2400) (then_ ops (.ppuWrite 0x2000 0x11))),
    resultOf (exec (.ppuRead 0x2800) (then_ ops (.ppuWrite 0x2000 0x11)))) =
    (some (.ok (.byte 0x11)), some (.ok (.byte 0x00))) := by decide

/-- L1.2: 0x7F10 is 0x3F10, an alias of 0x3F00; 0x3F11 is none. -/
theorem test_ppu_palette : (resultOf (exec (.ppuRead 0x3F00) (then_ bare (.ppuWrite 0x7F10 0x2C))),
    resultOf (exec (.ppuRead 0x3F01) (then_ bare (.ppuWrite 0x3F11 0x05)))) =
    (some (.ok (.byte 0x2C)), some (.ok (.byte 0x00))) := by decide

/-- L2.6: a Four-Screen board keeps 0x2000 and 0x2800 apart. -/
theorem test_ppu_fourScreen : (resultOf (exec (.ppuPeek 0x2C00)
      (then_ (machine { p1 with mirroring := .fourScreen } .nrom) (.ppuWrite 0x2C00 0x66))),
    resultOf (exec (.ppuPeek 0x2000) (then_ (machine { p1 with mirroring := .fourScreen } .nrom) (.ppuWrite 0x2800 0x44)))) =
    (some (.ok (.byte 0x66)), some (.ok (.byte 0x00))) := by decide

/-- L2.6: CHR ROM is not written, CHR RAM is. -/
theorem test_ppu_chr : (resultOf (exec (.ppuRead 0x0010) (then_ demo (.ppuWrite 0x0010 0x55))),
    resultOf (exec (.ppuRead 0x0010) (then_ (machine { p1 with chrRom := zeroPool 0 } .nrom) (.ppuWrite 0x0010 0x55)))) =
    (some (.ok (.byte 0x00)), some (.ok (.byte 0x55))) := by decide

/-! ## The boards (L2.7) -/

/-- The board's registers after an instruction. -/
def boardAfter (i : Instr) (s : State) : Option BoardRegs :=
  match (then_ s i).chip.mapper with
  | .empty => none
  | .board _ r => some r

theorem test_uxromBank : boardAfter (.uxromBank 0xFFFF 5) (machine { p1 with mapperId := 2 } (.uxrom 0)) =
    some (.uxrom 5) := by decide

theorem test_cnromChrBank : boardAfter (.cnromChrBank 0x8000 2) (machine { p1 with mapperId := 3 } (.cnrom 0)) =
    some (.cnrom 2) := by decide

theorem test_axromReg : (then_ (machine { p1 with mapperId := 7 } (.axrom 0)) (.axromReg 0x8000 0x11)).chip.ppubus.mirrorShift =
    .sb := by decide

/-- Four bits of a sequence are in: the fifth write stores. -/
def serial (shift : BitVec 5) (i : Instr) : Option BoardRegs :=
  boardAfter i (machine { p1 with mapperId := 1 } (.mmc1 { mmc1PowerOn with shift := shift, count := 4 }))

/-- L2.7: 00, 01, 00, 00, 00 into control is 02. -/
theorem test_mmc1Control : serial 0b00010 (.mmc1Control 0x8000 0) =
    some (.mmc1 { mmc1PowerOn with control := 0x02, lastWriteCycle := some 7 }) := by decide

theorem test_mmc1Chr0 : serial 0b00001 (.mmc1Chr0 0xA000 0) =
    some (.mmc1 { mmc1PowerOn with chr0 := 0x01, lastWriteCycle := some 7 }) := by decide

theorem test_mmc1Chr1 : serial 0b00100 (.mmc1Chr1 0xC000 1) =
    some (.mmc1 { mmc1PowerOn with chr1 := 0x14, lastWriteCycle := some 7 }) := by decide

/-- L2.7: only the fifth write's address counts. -/
theorem test_mmc1Prg : serial 0 (.mmc1Prg 0xE000 1) =
    some (.mmc1 { mmc1PowerOn with prg := 0b10000, lastWriteCycle := some 7 }) := by decide

/-- A reset-bit write (L2.7). -/
theorem test_mmc1_resetBit : serial 3 (.mmc1Control 0x8000 0xFF) =
    some (.mmc1 { mmc1PowerOn with control := 0x0C, lastWriteCycle := some 7 }) := by decide

/-- The filter of L2.7 at the function level. -/
theorem test_mmc1_filter : boardAfter (.mmc1Control 0x8000 1)
    (machine { p1 with mapperId := 1 } (.mmc1 { mmc1PowerOn with lastWriteCycle := some 6 })) =
    some (.mmc1 { mmc1PowerOn with lastWriteCycle := some 7 }) := by decide

/-- MMC3's registers at power-on under a Horizontal header, and a row's effect on them. -/
def power : Mmc3 := mmc3PowerOn .horizontal

/-- The board after a row on MMC3. -/
def row (m : Mmc3) (i : Instr) : Option BoardRegs :=
  boardAfter i (machine { p1 with mapperId := 4, mirroring := .horizontal } (.mmc3 m))

theorem test_mmc3BankSelect : row power (.mmc3BankSelect 0x8000 0x46) = some (.mmc3 { power with bankSelect := 0x46 }) := by
  decide

theorem test_mmc3BankData : row { power with bankSelect := 6 } (.mmc3BankData 0x9FFF 6) =
    some (.mmc3 { power with bankSelect := 6, r6 := 6 }) := by decide

theorem test_mmc3Mirroring : row power (.mmc3Mirroring 0xA000 0) = some (.mmc3 { power with mirroringReg := 0 }) := by decide

theorem test_mmc3PrgRamProtect : row power (.mmc3PrgRamProtect 0xA001 0xC0) =
    some (.mmc3 { power with prgRamCtl := 0xC0 }) := by decide

theorem test_mmc3IrqLatch : row power (.mmc3IrqLatch 0xC000 1) = some (.mmc3 { power with irqLatch := 1 }) := by decide

theorem test_mmc3IrqReload : row { power with irqCounter := 5 } (.mmc3IrqReload 0xC001 0) =
    some (.mmc3 { power with irqReload := true }) := by decide

theorem test_mmc3IrqDisable : row { power with irqEnabled := true, irqOut := true } (.mmc3IrqDisable 0xE000 0) =
    some (.mmc3 power) := by decide

theorem test_mmc3IrqEnable : row power (.mmc3IrqEnable 0xE001 0) = some (.mmc3 { power with irqEnabled := true }) := by
  decide

/-- P5, command 9: a rise 4 cycles after the last clocks 1 to 0, and fires. -/
theorem test_mmc3_counter : row { power with irqLatch := 1, irqCounter := 1, irqEnabled := true, a12HighCycle := some 3 }
    (.ppuRead 0x1000) = some (.mmc3 { power with
      irqLatch := 1, irqEnabled := true, irqOut := true, a12Prev := true, a12HighCycle := some 7 }) := by decide

/-! ## The step (log 3, log 4, log 5) -/

/-- The host's word is taken and run. -/
theorem test_step_runs : (match step (demo.withFetchWord 32 0x41AB0005) with
    | .next t => some (t.chip.bus.wram.cells, t.pending)
    | .fault _ => none
    | .refused _ => none) = some ([(5, 0xAB)], []) := by decide

/-- An opcode placed after reset runs in the very next step. -/
theorem test_step_opcode : (match step (State.withFetchWord bare 8 0xE8) with
    | .next t => some (t.chip.cpu.regs.x, t.result)
    | .fault _ => none
    | .refused _ => none) = some (1, some (.ok (.cycles 2))) := by decide

/-! ## What the statements' hypotheses admit -/

/-- A legal machine with an interrupt pending, and one with neither. -/
def nmiPending : State := { ops with chip := { ops.chip with cpu := { ops.chip.cpu with nmiLatch := true } } }

/-- An IRQ line up and I clear. -/
def irqPending : State :=
  at_ { ops with chip := { ops.chip with apu := { ops.chip.apu with irqOut := true } } } (regs 0x8000 0 0 false false false)

theorem test_nmiPending_inv : nmiPending.Inv := test_withCpu_inv test_ops_inv (by decide) _

theorem test_irqPending_inv : irqPending.Inv := test_at_inv (test_withApu_inv test_ops_inv _) (by decide) _

/-- StepRunsDecoded, IllegalWordsRefused, DeckWriters, RomNeverWritten: words to take, legal and not, and none, with no command in
progress, and a command in progress. -/
theorem test_witness_words : (demo.withFetchWord 32 0x01000000).pending = [{ word := 0x01000000, payload := .none }] ∧
    decodeHost 0x01000000 .none = .ok .clockInstr ∧ demo.pending = [] ∧
    (∃ t, step (demo.withFetchWord 32 0x01000000) = .next t) ∧
    (∀ h ∈ (demo.withFetchWord 32 0x01000000).pending.head?, opField h.word ≠ 0x10 ∧ opField h.word ≠ 0x11) ∧
    (∃ t, step (demo.withFetchWord 32 0x05000000) = .next t) ∧
    (demo.withFetchWord 32 0x01000000).ongoing = none ∧ (then_ noDots .clockFrame).ongoing.isSome = true ∧
    ∃ t, step (then_ noDots .clockFrame) = .next t :=
  ⟨by decide, by decide, rfl, ⟨_, rfl⟩, by decide, ⟨_, rfl⟩, rfl, by decide, ⟨_, rfl⟩⟩

/-- ClockInstrRunsOneStep, InterruptPriority, InterruptEntry, InterruptThenReturn: each kind of interrupt, and none. -/
theorem test_witness_interrupts : (nmiPending.Inv ∧ CanStep nmiPending ∧ pendingInterrupt nmiPending.chip = some .nmi) ∧
    (irqPending.Inv ∧ CanStep irqPending ∧ pendingInterrupt irqPending.chip = some .irq) ∧
    (CanStep demo ∧ pendingInterrupt demo.chip = none) ∧
    (irqPending.chip.cpu.nmiLatch = false ∧ (irqPending.chip.mapper.irqOut || irqPending.chip.apu.irqOut) = true ∧
      irqPending.chip.cpu.regs.p.i = false) ∧
    (demo.chip.cpu.nmiLatch = false ∧ (demo.chip.mapper.irqOut || demo.chip.apu.irqOut) = false) :=
  ⟨⟨test_nmiPending_inv, ⟨rfl, test_nmiPending_inv.chip, rfl⟩, by decide⟩,
   ⟨test_irqPending_inv, ⟨rfl, test_irqPending_inv.chip, rfl⟩, by decide⟩, ⟨test_demo_canStep, by decide⟩,
   ⟨by decide, by decide, by decide⟩, ⟨by decide, by decide⟩⟩

/-- SteppingGate: no cartridge; a cartridge and a corrupted processor. -/
theorem test_witness_gate : bare.loadedRom = none ∧ demo.loadedRom ≠ none ∧
    ({ demo with chip := { demo.chip with cpu := { demo.chip.cpu with corrupted := true } } } : State).chip.cpu.corrupted =
      true := by decide

/-- StepCycles: an interrupt, a corrupting opcode, an executed one. -/
theorem test_witness_cycles : idle.ok = true ∧ Params.suggested.ok = true ∧
    (pendingInterrupt nmiPending.chip).isSome = true ∧
    (pendingInterrupt (at_ ops (regs 0x8004 0 0 false false true)).chip = none ∧
      (fetchOpcode (at_ ops (regs 0x8004 0 0 false false true)).chip).2 ∈ idle.corruptSet) ∧
    (pendingInterrupt ops.chip = none ∧ (fetchOpcode ops.chip).2 ∉ ops.chip.params.corruptSet) := by decide

/-- OpcodeClasses, and what each reference opcode, BRK, RTI and ExecuteCompletes assume: bytes of each class under the suggested
set. -/
theorem test_witness_classes : (0x02 : Byte) ∈ ops.chip.params.corruptSet ∧ (0xF2 : Byte) ∈ Params.suggested.corruptSet ∧
    ∀ b ∈ ([0x00, 0x40, 0x82, 0xEA, 0x4C, 0xA9, 0x8D, 0xE8, 0xD0] : List Byte), b ∉ ops.chip.params.corruptSet := by decide

/-- The opcodes' cartridge with another `CorruptSet`: NOP's byte alone. -/
def otherSet : State := { ops with chip := { ops.chip with params := { idle with corruptSet := [0xEA] } } }

/-- CorruptingOpcodes, OpcodeClasses, ExecuteCompletes under another set: it is legal, NOP's byte is in it and a JAM row's is not. -/
theorem test_witness_otherSet : otherSet.chip.Inv ∧ otherSet.chip.cpu.corrupted = false ∧
    (0xEA : Byte) ∈ otherSet.chip.params.corruptSet ∧ (0x02 : Byte) ∉ otherSet.chip.params.corruptSet := by
  have h := test_ops_inv.chip
  exact ⟨⟨by decide, h.wram, h.ciram, h.palette, h.exram, h.chr, h.prgRam, h.frame, h.mirror,
    test_cartridge_congr h.cartridge, h.dot, h.scanline, h.genieList, h.genieOnce, h.genieCodes, h.noRefusal⟩,
    rfl, by decide, by decide⟩

/-- InterruptPriority and InterruptEntry: a board's IRQ is up; and from a machine with idle units no cycle of an NMI entry sees
an edge, while one whose picture unit holds its output up sees one. -/
theorem test_witness_nmi :
    (Mapper.board { header := .horizontal, fourScreen := false, region := .ntsc, revision := .standard }
      (.mmc3 { mmc3PowerOn .horizontal with irqOut := true })).irqOut = true ∧
    sawEdge (interruptProg .nmi ops.chip.cpu.regs) ops.chip = false ∧
    sawEdge (interruptProg .nmi ops.chip.cpu.regs) { ops.chip with ppu := { ops.chip.ppu with nmiOut := true } } = true := by
  decide

/-- The reference opcodes, BRK, RTI and the twelve corrupting ones: a machine on which they run on, with a board. -/
theorem test_witness_ready : Ready ops.chip ∧ ops.chip.Inv ∧ ops.chip.mapper.kind.isSome = true :=
  ⟨⟨test_ops_inv.chip, rfl⟩, test_ops_inv.chip, rfl⟩

/-- BneResult: not taken, taken within the page, taken across it. -/
theorem test_witness_bne :
    (Ready (at_ ops (regs 0x8011 0 0 false true true)).chip ∧ (at_ ops (regs 0x8011 0 0 false true true)).chip.cpu.regs.p.z =
      true) ∧
    (Ready (at_ ops (regs 0x8011 0 0 false false true)).chip ∧
      hiByte (BitVec.ofInt 16 ((0x8012 : Addr).toNat + (cycleRead 0x8011 ops.chip).2.toInt)) = hiByte 0x8012) ∧
    (Ready (at_ ops (regs 0x80FE 0 0 false false true)).chip ∧
      hiByte (BitVec.ofInt 16 ((0x80FF : Addr).toNat + (cycleRead 0x80FE ops.chip).2.toInt)) ≠ hiByte 0x80FF) :=
  ⟨⟨test_at_ready _, rfl⟩, ⟨test_at_ready _, by decide⟩, ⟨test_at_ready _, by decide⟩⟩

/-- StaResult: a WRAM target, and the sprite-DMA register. -/
theorem test_witness_sta :
    (Ready (at_ ops (regs 0x8041 7 0 false false true)).chip ∧
      word16 (cycleRead 0x8041 ops.chip).2 (cycleRead 0x8042 (cycleRead 0x8041 ops.chip).1).2 = 0x0800) ∧
    (Ready (at_ ops (regs 0x8049 7 0 false false true)).chip ∧
      word16 (cycleRead 0x8049 ops.chip).2 (cycleRead 0x804A (cycleRead 0x8049 ops.chip).1).2 = 0x4014) :=
  ⟨⟨test_at_ready _, by decide⟩, ⟨test_at_ready _, by decide⟩⟩

/-- ExecuteCompletes: the neighbours of the corrupting set, BRK and RTI, whose rows are Execute, and a reference opcode, whose row
is its own. -/
theorem test_witness_execute : ([0x82, 0xA2, 0x00, 0x40] : List Byte).map decodeOpc =
      [.execute 0x82, .execute 0xA2, .execute 0x00, .execute 0x40] ∧ decodeOpc 0xEA = .nop ∧
    ∀ b ∈ ([0x82, 0xA2, 0x00, 0x40, 0xEA] : List Byte), b ∉ ops.chip.params.corruptSet := by decide

/-- DecodeEncodeAgree: well-formed instructions of each class, one with each operand at its bound. -/
theorem test_witness_wf : (Instr.clockSeconds 0xFFFFFFFF 0xFFFFFFFF).wf = true ∧ (Instr.loadRom ['a'] p1).wf = true ∧
    (Instr.loadSram (zeroPool 8192)).wf = true ∧ (Instr.setJoypad 3 0x3FF).wf = true ∧
    (Instr.uxromBank 0xFFFF 0xFF).wf = true ∧ (Instr.mmc1Prg 0xFFFF 0xFF).wf = true ∧
    (Instr.mmc3IrqEnable 0xFFFF 0xFF).wf = true := by decide

/-- CpuBusRoutes: each range of the address map, at its ends. -/
theorem test_witness_routes : [0x0000, 0x1FFF, 0x2000, 0x3FFF, 0x4000, 0x4017, 0x4018, 0x401F, 0x4020, 0xFFFF].map cpuRoute =
    [.wram, .wram, .ppuReg, .ppuReg, .apuIo, .apuIo, .openBus, .openBus, .cartridge, .cartridge] := by decide

/-- Every statement over legal states: the construction state is one, with no cartridge. -/
theorem test_reset_inv : State.reset.Inv where
  chip := {
    params := by decide
    wram := ⟨rfl, rfl⟩
    ciram := ⟨rfl, rfl⟩
    palette := ⟨rfl, rfl⟩
    exram := ⟨rfl, rfl⟩
    chr := rfl
    prgRam := ⟨rfl, rfl⟩
    frame := ⟨rfl, rfl⟩
    mirror := rfl
    cartridge := ⟨rfl, rfl, rfl, rfl⟩
    dot := by decide
    scanline := by decide
    genieList := rfl
    genieOnce := by decide
    genieCodes := fun e he => absurd he List.not_mem_nil
    noRefusal := rfl }
  running := rfl
  loaded := rfl
  battery := rfl
  budget := fun h => absurd h (by decide : ¬ (0 : Rat) < 0)
  owed := by decide
  ongoing := fun h => by cases h

/-- WramMirrors and ReadsOfStorage: addresses at the ends of their ranges, the last one that notifies the board and the first that
does not among them. -/
theorem test_witness_addresses : (0x1FFF : Addr).toNat ≤ 0x1FFF ∧ (0x1FFF : Addr).toNat < 0x2000 ∧
    0x4018 ≤ (0x4018 : Addr).toNat ∧ ppuPeek 0x2000 ops.chip = some 0 ∧
    ppuPeek 0x3EFF ops.chip = some 0 ∧ ppuPeek 0x3F00 ops.chip = some 0 := by decide

/-- The PPU bus statements: both ends of the nametable range (CiramIndexTable, NametableReadBack, FourScreenTables), of the
palette (PaletteAliases) and of pattern memory (PatternMemory, ChrWindows), with a board and without. -/
theorem test_witness_ppu : NametableAddr 0x2000 ∧ NametableAddr 0x3EFF ∧ NametableAddr 0xEFFF ∧
    ops.chip.mapper.fourScreen = false ∧ bare.chip.mapper.fourScreen = false ∧
    State.reset.chip.mapper = .empty ∧ ops.chip.mapper = boardFor p9 .nrom ∧
    (0x3F00 : Addr).toNat % 0x4000 = 0x3F00 ∧ (0xFFFF : Addr).toNat % 0x4000 = 0x3FFF ∧
    (0x3FFC : Addr).toNat % 32 ∈ [0x10, 0x14, 0x18, 0x1C] ∧ (0x1FFF : Addr).toNat % 0x4000 < 0x2000 := by
  refine ⟨⟨?_, ?_⟩, ⟨?_, ?_⟩, ⟨?_, ?_⟩, rfl, rfl, rfl, rfl, ?_, ?_, ?_, ?_⟩ <;> decide

/-- FourScreenTables: a legal Four-Screen machine. -/
theorem test_witness_fourScreen : (machine { p1 with mirroring := .fourScreen } .nrom).Inv ∧
    (machine { p1 with mirroring := .fourScreen } .nrom).chip.mapper.fourScreen = true :=
  ⟨test_machine_inv _ _ (by decide) (by decide) (by decide), rfl⟩

/-- The board statements: a legal machine with each of the six boards; CHR RAM for all but NROM and CNROM. -/
theorem test_witness_boards : (machine p1 .nrom).Inv ∧
    (machine { p1 with mapperId := 2, chrRom := zeroPool 0 } (.uxrom 1)).Inv ∧
    (machine { p1 with mapperId := 3 } (.cnrom 1)).Inv ∧
    (machine { p1 with mapperId := 7, chrRom := zeroPool 0 } (.axrom 0x11)).Inv ∧
    (machine { p1 with mapperId := 1, chrRom := zeroPool 0 } (.mmc1 mmc1PowerOn)).Inv ∧
    (machine { p1 with mapperId := 4, chrRom := zeroPool 0 } (.mmc3 power)).Inv := by
  refine ⟨?_, ?_, ?_, ?_, ?_, ?_⟩ <;> exact test_machine_inv _ _ (by decide) (by decide) (by decide)

/-- PrgWindows and PrgRamWindows: the ends of their ranges; MMC1's modes and MMC3's. -/
theorem test_witness_prg : 0x8000 ≤ (0x8000 : Addr).toNat ∧ 0x4020 ≤ (0x4020 : Addr).toNat ∧ (0x7FFF : Addr).toNat < 0x8000 ∧
    [0x00, 0x04, 0x08, 0x0C].map (fun c : BitVec 5 => c.toNat / 4 % 4) = [0, 1, 2, 3] := by decide

/-- Mmc1Writes: addresses of each register, a write on the next cycle and one that is not, and a fifth write. -/
theorem test_witness_mmc1 : (0x8000 : Addr) &&& 0xE000 = 0x8000 ∧ (0xBFFF : Addr) &&& 0xE000 = 0xA000 ∧
    (0xC000 : Addr) &&& 0xE000 = 0xC000 ∧ (0xFFFF : Addr) &&& 0xE000 = 0xE000 ∧
    ((some 6 : Option Stamp).map (· + 1) = some 7) ∧ ((none : Option Stamp).map (· + 1) ≠ some 7) ∧
    (4 : Fin 5).val = 4 ∧ (0x80 : Byte).getLsbD 7 = true ∧ (0x7F : Byte).getLsbD 7 = false := by decide

/-- Mmc3Writes: an address of each register, mirrors among them. -/
theorem test_witness_mmc3 : [0x8000, 0x9FFF, 0xBFFE, 0xA001, 0xC000, 0xDFFF, 0xE000, 0xFFFF].map (fun a : Addr => a &&& 0xE001) =
    [0x8000, 0x8001, 0xA000, 0xA001, 0xC000, 0xC001, 0xE000, 0xE001] := by decide

/-- Mmc3ScanlineCounter: a first rise, a rise past the filter, one within it, and no rise; BoardResets: a header other than
Four-Screen; GenieFilter: a code at the address and one elsewhere. -/
theorem test_witness_counter : (0x1000 : Addr).toNat / 0x1000 % 2 = 1 ∧ power.a12Prev = false ∧ power.a12HighCycle = none ∧
    (Mapper.empty).kind ≠ some .mmc3 ∧ (boardFor p1 .nrom).kind ≠ some .mmc3 ∧ 3 ≤ ((16 : Stamp) - 12).toNat ∧ ¬ 3 ≤ ((12 : Stamp) - 10).toNat ∧ (0x0FFF : Addr).toNat / 0x1000 % 2 ≠ 1 ∧
    HeaderMirroring.vertical ≠ .fourScreen ∧
    ({ text := [], addr := 0x8000, data := 0, compare := none } : GenieEntry).addr = 0x8000 ∧
    ({ text := [], addr := 0x8001, data := 0, compare := none } : GenieEntry).addr ≠ 0x8000 := by decide

/-- LoadRejects: each check can be the first to fail. -/
theorem test_witness_rejects : FirstFailure (loadChecks { p1 with mapperId := 5 }) (some .unsupportedMapper) ∧
    FirstFailure (loadChecks { p1 with prgRom := zeroPool 0 }) (some .badPrgSize) ∧
    FirstFailure (loadChecks { p1 with chrRom := zeroPool 4096 }) (some .badChrSize) ∧
    FirstFailure (loadChecks { p1 with trainer := some (zeroPool 100) }) (some .badTrainer) ∧
    FirstFailure (loadChecks { p1 with prgRom := zeroPool 65536 }) (some .boardLimit) := by
  have t0 : ∀ t : Memory, (none : Option Memory) = some t → t.size = 512 := fun t h => by cases h
  refine ⟨Or.inl ⟨by decide, rfl⟩, Or.inr ⟨by decide, Or.inl ⟨by decide, rfl⟩⟩,
    Or.inr ⟨by decide, Or.inr ⟨by decide, Or.inl ⟨by decide, rfl⟩⟩⟩,
    Or.inr ⟨by decide, Or.inr ⟨by decide, Or.inr ⟨by decide, Or.inl ⟨fun h => ?_, rfl⟩⟩⟩⟩,
    Or.inr ⟨by decide, Or.inr ⟨by decide, Or.inr ⟨by decide, Or.inr ⟨t0, Or.inl ⟨fun h => ?_, rfl⟩⟩⟩⟩⟩⟩
  · exact absurd (h _ rfl) (by decide)
  · exact absurd (h.1 rfl).1 (by decide)

/-- LoadSucceeds: a loadable cartridge, on a legal state with none in place and on one with a battery. -/
theorem test_witness_loads : Loadable p1 ∧ State.reset.Inv ∧ demo.Inv := by
  refine ⟨⟨by decide, Or.inr ⟨by decide, Or.inr ⟨by decide, Or.inr ⟨by decide, Or.inr ⟨fun t h => (by cases h), Or.inr ⟨?_,
    rfl⟩⟩⟩⟩⟩⟩, test_reset_inv, test_demo_inv⟩
  unfold WithinLimits
  decide

/-- SoftReset, HardReset, Accessors, Unload: a cartridge with and without a battery, and none. -/
theorem test_witness_lifecycle : demo.loadedRom.isSome = true ∧ demo.batteryBacked = false ∧ battery.batteryBacked = true ∧
    (zeroPool 8192).size = battery.chip.cart.prgRam.size ∧ bare.loadedRom = none := by decide

/-- GenieCommands, GenieParsing, GenieFilter: codes that parse and do not, one that is absent, both ends of the range. -/
theorem test_witness_genie : (parseGenie ['A', 'A', 'A', 'A', 'A', 'A']).toOption.isSome = true ∧
    (parseGenie ['A']).toOption = none ∧ ['A'] ∉ demo.chip.bus.genie.map GenieEntry.text ∧
    (0x7FFF : Addr).toNat < 0x8000 ∧ 0x8000 ≤ (0x8000 : Addr).toNat := by decide

/-- ClockSeconds, ClockFrame, ClockScanline: a machine past the gate, and the regions' bounds. Parameters with one dot in three
cycles, and in a thousand, are legal, and dots come; a first step at which a counter differs. -/
theorem test_witness_clock : demo.Inv ∧ CanStep demo ∧ (60 : Word32) ≠ 0 ∧
    (∀ r, (demo.chip.params.region r).dotsCome = true ∧ (demo.chip.params.region r).scanlineOk demo.chip.params = true) ∧
    ((slowParams 341 1 3).ok = true ∧ (slowParams 341 1 3).ntsc.dotsCome = true) ∧
    ((slowParams 341 1 1000).ok = true ∧ (slowParams 341 1 1000).ntsc.dotsCome = true) ∧
    (let c := { ops.chip with ppu := { ops.chip.ppu with scanline := 261, dot := 338 } }
     FirstAt 1 (fun j => (stepsFrom j { chip := c, cycles := 0 }).chip.cpu.corrupted = true ∨
       (stepsFrom j { chip := c, cycles := 0 }).chip.ppu.frameNumber ≠ c.ppu.frameNumber) 1 ∧
     FirstAt 1 (fun j => (stepsFrom j { chip := c, cycles := 0 }).chip.cpu.corrupted = true ∨
       (stepsFrom j { chip := c, cycles := 0 }).chip.ppu.scanline ≠ c.ppu.scanline) 1) :=
  ⟨test_demo_inv, test_demo_canStep, by decide, fun r => by cases r <;> decide, by decide, by decide,
   ⟨Nat.le_refl 1, Or.inr (by decide), fun j h1 h2 => by omega⟩,
   ⟨Nat.le_refl 1, Or.inr (by decide), fun j h1 h2 => by omega⟩⟩

/-- ClockFrame, ClockScanline: a legal machine whose counters never move and whose processor is never corrupted. -/
theorem test_witness_goesOn : noDots.Inv ∧ CanStep noDots ∧ ∀ k,
    let c := (stepsFrom k { chip := noDots.chip, cycles := 0 }).chip
    c.cpu.corrupted = false ∧ c.ppu.frameNumber = noDots.chip.ppu.frameNumber ∧
      c.ppu.scanline = noDots.chip.ppu.scanline := by
  have h := (test_at_inv test_ops_inv (by decide) (regs 0x8010 0 0 false false true)).chip
  have hc : noDots.chip.Inv := ⟨by decide, h.wram, h.ciram, h.palette, h.exram, h.chr, h.prgRam, h.frame, h.mirror,
    test_cartridge_congr h.cartridge, by decide, by decide, h.genieList, h.genieOnce, h.genieCodes, h.noRefusal⟩
  refine ⟨⟨hc, rfl, rfl, rfl, fun g => absurd g (by decide : ¬ (0 : Rat) < 0), (by decide : -((600 : Nat) : Rat) < 0),
    fun g => by cases g⟩, ⟨rfl, hc, rfl⟩, fun k => ?_⟩
  induction k with
  | zero => exact ⟨rfl, rfl, rfl⟩
  | succ k ih =>
    obtain ⟨hi, hr, _, _⟩ := stepsFrom_spec k (g := { chip := noDots.chip, cycles := 0 }) hc
    obtain ⟨_, _, n, hn, _, _, hp⟩ := cpuStep_dots hi
    have e : ∀ j i, dotsSpan (slowParams 2 0 1).ntsc j i = 0 := fun j i => by
      induction i generalizing j with
      | zero => rfl
      | succ i ih => simp only [dotsSpan, ih]; simp [dotsInCycle, slowParams]
    rw [hr.regionParams, show noDots.chip.regionParams = (slowParams 2 0 1).ntsc from rfl, e] at hn
    subst hn
    obtain ⟨f, l, _, _⟩ : _ := counters_eq (by cases hp.dots with | none e => exact e)
    simp only [stepsFrom_succ, f, l, cpuStep_corrupted, ih.1, hr.params, ih.2, and_true]
    simp [noDots, slowParams]

/-- PhaseAccuracy: three calls that return `Ok` (L1.7), and the fraction that is their sum. -/
theorem test_witness_phase : ops.Inv ∧ ([(1, 1789773), (1, 1789773), (1, 1789773)] : List (Word32 × Word32)) ≠ [] ∧
    ((secondsRun [(1, 1789773), (1, 1789773), (1, 1789773)] ops).map Prod.fst) = some 4 ∧ (1789773 : Word32) ≠ 0 ∧
    ((3 : Word32).toNat : Rat) / (1789773 : Word32).toNat =
      secondsSum [(1, 1789773), (1, 1789773), (1, 1789773)] :=
  ⟨test_ops_inv, by decide, by decide +kernel, by decide, by decide +kernel⟩

/-- FrameBoundaries: both starts of a frame. -/
theorem test_witness_frame : AtFrameStart ops.chip.ppu ∧ AtFrameStart { ops.chip.ppu with dot := 1, shortened := true } :=
  ⟨⟨rfl, rfl⟩, ⟨rfl, rfl⟩⟩

end Sys2Proof.Tests
end

/-! PROOFS. 20_memory.md: work memory and its mirrors (R97), and the latch each bus keeps (R115). -/

namespace Sys2Proof.Machine

open Sys2Proof

/-! ## Accesses to work memory (R95, R97) -/

/-- R95: the first 8 KiB of the map are work memory. -/
theorem route_wram {a : Addr} (h : a.toNat ≤ 0x1FFF) : cpuRoute a = .wram :=
  if_pos (Nat.lt_succ_of_le h)

/-- R490: cheat codes reach the upper half alone. -/
theorem genieFilter_lower {a : Addr} (h : a.toNat < 0x8000) (t : List GenieEntry) (v : Byte) : genieFilter t a v = v :=
  if_pos h

/-- A read of work memory changes the latch alone. -/
theorem cpuRead_wram {a : Addr} (h : a.toNat ≤ 0x1FFF) (c : Chip) :
    cpuRead a c = (c.latchCpu (c.bus.wram.read (a.toNat % 0x800)), c.bus.wram.read (a.toNat % 0x800)) := by
  simp only [cpuRead, cpuDecodeRead, route_wram h, genieFilter_lower (a := a) (by omega), wramIndex_nat]

/-- A write to work memory changes its cell and the latch alone. -/
theorem cpuWrite_wram_chip {a : Addr} (h : a.toNat ≤ 0x1FFF) (v : Byte) (c : Chip) :
    cpuWrite a v c =
      { c with bus := { c.bus with wram := c.bus.wram.write (a.toNat % 0x800) v, openBus := v } } := by
  simp only [cpuWrite, cpuDecodeWrite, route_wram h, wramIndex_nat, Chip.latchCpu]

/-- Settles O25: both accesses reduce their address modulo 0x800, so mirrors share a cell, and one write to a pool in
order is read back there and nowhere else. -/
theorem wramMirrors : Obligations.WramMirrors := by
  intro s a b v hs ha hb
  have ht := inv_ofQuiet hs (cpuWrite_quiet a v s.chip) (some (.ok .unit))
  have hcell : ∀ i, (cpuWrite a v s.chip).bus.wram.read i =
      if i = a.toNat % 0x800 then v else s.chip.bus.wram.read i := fun i => by
    rw [cpuWrite_wram_chip ha]
    exact hs.chip.wram.read_write (Nat.mod_lt _ (by decide)) v i
  refine ⟨_, _, exec_cpuWrite s hs a v, exec_cpuRead _ ht b, ?frame, hcell, ?mirror⟩
  case frame => rw [cpuWrite_wram_chip ha]
  case mirror => rw [cpuRead_wram hb, hcell]

/-! ## The latches (R115) -/

/-- What the mapper's part of the map answers is left in the latch, also where rule R107 refuses. -/
theorem ppuMappedRead_latch (a : Addr) (c : Chip) :
    (ppuMappedRead a c).1.ppubus.openBus = (ppuMappedRead a c).2 := by
  unfold ppuMappedRead
  cases resolvePpu (c.notify a) a ((c.notify a).mapper.ppuRead a) with
  | some v => rfl
  | none => rfl

/-- The byte written is left in the latch, also where rule R107 refuses. -/
theorem ppuMappedWrite_latch (a : Addr) (v : Byte) (c : Chip) : (ppuMappedWrite a v c).ppubus.openBus = v := by
  unfold ppuMappedWrite
  dsimp only
  split
  · rfl
  · rfl

/-- R335 ends by latching its answer on every route. -/
theorem ppuRead_latch (a : Addr) (c : Chip) : (ppuRead a c).1.ppubus.openBus = (ppuRead a c).2 := by
  unfold ppuRead
  cases ppuRoute (reducePpu a) with
  | pattern => exact ppuMappedRead_latch _ c
  | nametable => exact ppuMappedRead_latch _ c
  | palette => rfl

/-- R338 ends by latching its byte on every route. -/
theorem ppuWrite_latch (a : Addr) (v : Byte) (c : Chip) : (ppuWrite a v c).ppubus.openBus = v := by
  unfold ppuWrite
  cases ppuRoute (reducePpu a) with
  | pattern => exact ppuMappedWrite_latch _ v c
  | nametable => exact ppuMappedWrite_latch _ v c
  | palette => rfl

/-- Settles O26: a CPU access ends by latching its byte whatever the route, and each route of the PPU bus does. -/
theorem latchUpdate : Obligations.LatchUpdate := fun a v c =>
  ⟨rfl, rfl, ppuRead_latch a c, ppuWrite_latch a v c⟩

end Sys2Proof.Machine

/-! PROOFS. 30_encoding.md: the class of an opcode byte decides who handles it (R157). -/

namespace Sys2Proof.Machine

open Sys2Proof

/-- A byte of `CorruptSet` goes to the corrupting step of the control unit (R157, R210). -/
theorem runOpcode_in {b : Byte} {c : Chip} (h : b ∈ c.params.corruptSet) : runOpcode b c = corruptStep c :=
  opcodeStep_in h _

/-- A byte outside `CorruptSet` goes to the dispatch of its program (R157, R210). -/
theorem runOpcode_out {b : Byte} {c : Chip} (h : b ∉ c.params.corruptSet) :
    runOpcode b c = dispatch (opcodeProg b c.params.maxStepCycles) c :=
  opcodeStep_out h _

/-- The decided set by nibbles (R12, R157): twelve of the sixteen bytes whose low nibble is 2. -/
theorem mem_decidedCorruptSet_iff : ∀ b : Byte, b ∈ decidedCorruptSet ↔
    b &&& 0x0F = 0x02 ∧ b ≠ 0x82 ∧ b ≠ 0xA2 ∧ b ≠ 0xC2 ∧ b ≠ 0xE2 := by
  decide

/-- Settles O4: the row of a byte runs what the control unit does with it (`exec_decodeOpc`), and that is chosen by
membership in `CorruptSet` alone. -/
theorem opcodeClasses : Obligations.OpcodeClasses := by
  refine ⟨fun b s hb => ⟨runOpcode_in hb, ?corrupts⟩, fun b s hb => ⟨runOpcode_out hb, ?executes⟩,
    mem_decidedCorruptSet_iff⟩
  case corrupts => rw [exec_decodeOpc, runOpcode_in hb]
  case executes => rw [exec_decodeOpc, runOpcode_out hb]

end Sys2Proof.Machine

/-! PROOFS. 40_deck_clocking.md: the corrupting class (R213), five reference opcodes (R231 to R236), the gate (R200). -/

namespace Sys2Proof

/-- A processor program none of whose operations is a write, whatever bytes it reads. -/
def CpuProg.StoresNothing {α : Type} : CpuProg α → Prop
  | .done _ => True
  | .read _ k => ∀ v, (k v).StoresNothing
  | .write _ _ _ => False
  | .idle k => k.StoresNothing

end Sys2Proof

namespace Sys2Proof.Machine

open Sys2Proof

/-! ## The corrupting class (R213) -/

/-- The corrupting step stores nothing; its fetch has already passed, so its count is one more than its cycles (R213, R216). -/
theorem corruptStep_frame {c : Chip} (h : c.Inv) {b : Byte} (hb : b ∈ c.params.corruptSet) :
    (corruptStep c).chip.cpu.corrupted = true ∧ (corruptStep c).chip.cpu.regs = c.cpu.regs ∧
    (corruptStep c).chip.cpu.cycle + 1 = c.cpu.cycle + BitVec.ofNat 64 c.params.jamStepCycles ∧
    OpcodeFrame c (corruptStep c).chip := by
  let marked : Chip := { c with cpu := { c.cpu with corrupted := true } }
  have hquiet : Quiet marked (corruptStep c).chip := ticks_quiet _ marked
  have hsettled : Settled c (corruptStep c).chip :=
    Settled.trans (d := marked) {} (ticks_settled _ marked)
  obtain ⟨hruns, hcycle, -, -⟩ := runOpcode_spec b h.params
  rw [runOpcode_in hb] at hruns hcycle
  exact ⟨hquiet.corrupted, hquiet.regs, hcycle, opcodeFrame hsettled hruns⟩

/-- The bytes of the decided set have the JAM rows (R157). -/
theorem decodeOpc_jam : ∀ r ∈ ([(0x02, .jam02), (0x12, .jam12), (0x22, .jam22), (0x32, .jam32), (0x42, .jam42),
    (0x52, .jam52), (0x62, .jam62), (0x72, .jam72), (0x92, .jam92), (0xB2, .jamB2), (0xD2, .jamD2), (0xF2, .jamF2)] :
      List (Byte × Instr)), decodeOpc r.1 = r.2 := by
  decide

/-- Settles O15: `opcodeClasses` sends every byte of the set to the corrupting step, and a JAM row is its byte's row. -/
theorem corruptingOpcodes : Obligations.CorruptingOpcodes := by
  intro s h corrupts
  have hall : ∀ b, b ∈ s.chip.params.corruptSet → corrupts (decodeOpc b) := by
    intro b hb
    obtain ⟨hchip, hresult, hdeck⟩ := corrupt_ends h
    obtain ⟨hcorrupted, hregs, hcycle, hframe⟩ := corruptStep_frame h hb
    exact ⟨_, (opcodeClasses.1 b s hb).2, hchip, hchip ▸ hcorrupted, hchip ▸ hregs, hchip ▸ hcycle, hresult, hdeck,
      hchip ▸ hframe⟩
  exact ⟨fun r hr hb => ⟨decodeOpc_jam r hr, decodeOpc_jam r hr ▸ hall r.1 hb⟩, hall⟩

/-! ## Opcodes that store nothing -/

/-- Only a write changes the processor's memory. -/
theorem storesNothing_settled {α : Type} {p : CpuProg α} (hp : p.StoresNothing) :
    ∀ c : Chip, Settled c (p.run c).chip := by
  induction p with
  | done x => exact Settled.refl
  | read a k ih => exact fun c => (cycleRead_settled a c).trans (ih _ (hp _) _)
  | write a v k ih => exact hp.elim
  | idle k ih => exact fun c => (tick_settled c).trans (ih hp _)

/-- The frame of a program that stores nothing, whatever registers it ends with. -/
theorem storesNothing_frame {p : CpuProg CpuRegs} (hp : p.StoresNothing) (c : Chip) (r : CpuRegs) :
    OpcodeFrame c ((p.run c).chip.setRegs r) :=
  opcodeFrame ((storesNothing_settled hp c).trans (setRegs_settled _ r))
    ((cpuProg_run p c).1.toRuns.trans (setRegs_runs _ r))

/-- An opcode outside `CorruptSet` whose program stores nothing. -/
theorem storesNothing_ends {s : State} (h : Ready s.chip) {b : Byte} (hb : b ∉ s.chip.params.corruptSet)
    {prog : CpuRegs → CpuProg CpuRegs} (hp : (prog s.chip.cpu.regs).StoresNothing) {ran : Ran CpuRegs}
    (hrun : (prog s.chip.cpu.regs).run s.chip = ran) :
    OpcodeFrame s.chip (endStep s (opcodeStep b prog s.chip)).chip ∧
    OpcodeEnds s (endStep s (opcodeStep b prog s.chip)) (1 + ran.ops) ∧
    (endStep s (opcodeStep b prog s.chip)).chip = ran.chip.setRegs ran.value := by
  subst hrun
  obtain ⟨hchip, hends⟩ := opcode_ends h hb prog
  exact ⟨hchip ▸ storesNothing_frame hp _ _, hends, hchip⟩

/-! ## NOP, JMP, LDA, INX (R231, R232, R233, R235) -/

theorem nopProg_storesNothing (r : CpuRegs) : (nopProg r).StoresNothing := fun _ => trivial

theorem jmpProg_storesNothing (r : CpuRegs) : (jmpProg r).StoresNothing := fun _ _ => trivial

theorem ldaProg_storesNothing (r : CpuRegs) : (ldaProg r).StoresNothing := fun _ => trivial

theorem inxProg_storesNothing (r : CpuRegs) : (inxProg r).StoresNothing := fun _ => trivial

/-- Settles O16: one read is the whole program, it leaves the registers it was given, and it latches its byte. -/
theorem nopResult : Obligations.NopResult := by
  refine ⟨rfl, fun s h hb => ?_⟩
  obtain ⟨hframe, hends, hchip⟩ := storesNothing_ends h hb (nopProg_storesNothing _) rfl
  have hregs := (cycleRead_quiet s.chip.cpu.regs.pc s.chip).regs
  have hread := hchip.trans (setRegs_self hregs)
  exact ⟨_, rfl, hends, hframe, hread, hread ▸ hregs, hread ▸ (latchUpdate _ 0 _).1⟩

/-- Settles O17: two reads give the target. -/
theorem jmpResult : Obligations.JmpResult := by
  refine ⟨rfl, fun s h hb => ?_⟩
  obtain ⟨hframe, hends, hchip⟩ := storesNothing_ends h hb (jmpProg_storesNothing _) rfl
  exact ⟨_, rfl, hends, hframe, hchip⟩

/-- Settles O18: one read gives the operand. -/
theorem ldaResult : Obligations.LdaResult := by
  refine ⟨rfl, fun s h hb => ?_⟩
  obtain ⟨hframe, hends, hchip⟩ := storesNothing_ends h hb (ldaProg_storesNothing _) rfl
  exact ⟨_, rfl, hends, hframe, hchip⟩

/-- The sum of INX as a number. -/
theorem add_one_eq_ofNat_mod (x : Byte) : x + 1 = BitVec.ofNat 8 ((x.toNat + 1) % 256) := by
  apply BitVec.eq_of_toNat_eq
  simp

/-- R235: the sum is negative from 127 on, and zero where it wraps. -/
theorem setNZ_add_one (p : Status) (x : Byte) : setNZ p (x + 1) =
    { p with n := decide (127 ≤ x.toNat ∧ x.toNat < 255), z := decide (x.toNat = 255) } := by
  have hsum : (x + 1).toNat = (x.toNat + 1) % 256 := by simp
  have hn : (x + 1).getLsbD 7 = decide (127 ≤ x.toNat ∧ x.toNat < 255) := by
    show (x + 1).msb = _
    rw [BitVec.msb_eq_decide, hsum, decide_eq_decide]
    have := x.isLt
    omega
  have hz : (x + 1 == 0) = decide (x.toNat = 255) := by
    rw [beq_eq_decide, decide_eq_decide, BitVec.toNat_eq, hsum]
    have := x.isLt
    show (x.toNat + 1) % 256 = 0 ↔ _
    omega
  rw [setNZ, hn, hz]

/-- Settles O19: the dummy read changes no register, and the sum's flags are bounds on the old `x`. -/
theorem inxResult : Obligations.InxResult := by
  refine ⟨rfl, fun s h hb => ?_⟩
  obtain ⟨hframe, hends, hchip⟩ := storesNothing_ends h hb (inxProg_storesNothing _) rfl
  refine ⟨_, rfl, hends, hframe, ?_⟩
  rw [← add_one_eq_ofNat_mod, ← setNZ_add_one]
  exact hchip

/-! ## BNE (R236) -/

/-- The target as a signed sum, modulo 2^16. -/
theorem branchTarget_ofInt (pc : Addr) (off : Byte) : branchTarget pc off = BitVec.ofInt 16 (pc.toNat + off.toInt) := by
  simp [branchTarget, BitVec.signExtend, BitVec.ofInt_add]

theorem branchTaken_storesNothing (r : CpuRegs) (t : Addr) : (branchTaken r t).StoresNothing := by
  intro _
  split
  · trivial
  · exact fun _ => trivial

theorem bneProg_storesNothing (r : CpuRegs) : (bneProg r).StoresNothing := by
  intro _
  split
  · trivial
  · exact branchTaken_storesNothing _ _

/-- A branch within the page makes one dummy read. -/
theorem branchTaken_run_within (r : CpuRegs) {t : Addr} (h : hiByte t = hiByte r.pc) (c : Chip) :
    (branchTaken r t).run c = { chip := (cycleRead r.pc c).1, ops := 1, value := { r with pc := t } } := by
  simp only [branchTaken, if_pos h]
  rfl

/-- A branch across a page makes a second dummy read, on the old page. -/
theorem branchTaken_run_across (r : CpuRegs) {t : Addr} (h : hiByte t ≠ hiByte r.pc) (c : Chip) :
    (branchTaken r t).run c =
      { chip := (cycleRead (samePage r.pc t) (cycleRead r.pc c).1).1, ops := 2, value := { r with pc := t } } := by
  simp only [branchTaken, if_neg h]
  rfl

/-- With Z set BNE only reads its offset. -/
theorem bneProg_run_notTaken (r : CpuRegs) (hz : r.p.z = true) (c : Chip) :
    (bneProg r).run c = { chip := (cycleRead r.pc c).1, ops := 1, value := { r with pc := r.pc + 1 } } := by
  simp only [bneProg, if_pos hz]
  rfl

/-- With Z clear BNE reads its offset and then branches. -/
theorem bneProg_run_taken (r : CpuRegs) (hz : r.p.z = false) (c : Chip) {ran : Ran CpuRegs}
    (h : (branchTaken { r with pc := r.pc + 1 } (BitVec.ofInt 16 ((r.pc + 1).toNat + (cycleRead r.pc c).2.toInt))).run
      (cycleRead r.pc c).1 = ran) :
    (bneProg r).run c = { ran with ops := ran.ops + 1 } := by
  subst h
  simp only [bneProg, hz, Bool.false_eq_true, if_false, branchTarget_ofInt]
  rfl

/-- Settles O20: Z and then the page of the target decide the program's run. -/
theorem bneResult : Obligations.BneResult := by
  refine ⟨rfl, fun s h hb => ?_⟩
  have hends := @storesNothing_ends s h _ hb _ (bneProg_storesNothing _)
  intro off following target dummy page
  refine ⟨_, rfl, (hends rfl).1, fun hz => ?notTaken, fun hz hpage => ?within, fun hz hpage => ?across⟩
  case notTaken => exact (hends (bneProg_run_notTaken _ hz _)).2
  case within =>
    have hbranch := branchTaken_run_within { s.chip.cpu.regs with pc := following } hpage off.1
    exact (hends (bneProg_run_taken _ hz _ hbranch)).2
  case across =>
    have hbranch := branchTaken_run_across { s.chip.cpu.regs with pc := following } hpage off.1
    exact (hends (bneProg_run_taken _ hz _ hbranch)).2

/-! ## The gate (R200) -/

/-- The cartridge is checked first. -/
theorem gateStop_noCartridge {s : State} (h : s.loadedRom = none) : gateStop s = some (s.refuse .noCartridge) := by
  simp only [gateStop, h]

theorem gateStop_corrupted {s : State} (h : s.loadedRom ≠ none) (hc : s.chip.cpu.corrupted = true) :
    gateStop s = some (s.finish (.err .cpuCorrupted)) := by
  obtain ⟨n, hn⟩ := Option.ne_none_iff_exists'.mp h
  simp only [gateStop, hn, hc, if_true]

/-- A stepping command that the gate stops ends there; a zero denominator is refused before the gate (R156). -/
theorem exec_of_gateStop {s t : State} (hg : gateStop s = some t) {i : Instr}
    (hi : i = .clockInstr ∨ (∃ num den, den ≠ 0 ∧ i = .clockSeconds num den) ∨ i = .clockFrame ∨ i = .clockScanline) :
    exec i s = .next t := by
  obtain rfl | ⟨num, den, hden, rfl⟩ | rfl | rfl := hi
  · simp only [exec, execClockInstr, hg, Option.getD_some]
  · simp only [exec, execClockSeconds, hden, hg, if_false, Option.getD_some]
  · simp only [exec, execClockFrame, hg, Option.getD_some]
  · simp only [exec, execClockScanline, hg, Option.getD_some]

/-- Settles O7: all four commands end as the gate says, before any step. -/
theorem steppingGate : Obligations.SteppingGate := fun _ _ hi =>
  ⟨fun hrom => exec_of_gateStop (gateStop_noCartridge hrom) hi,
   fun hrom hc => exec_of_gateStop (gateStop_corrupted hrom hc) hi⟩

end Sys2Proof.Machine

/-! PROOFS. 41_deck_lifecycle.md: removing the cartridge (R256), and the battery flush (R257). -/

namespace Sys2Proof.Machine

open Sys2Proof

/-- The canonical form of a pool of no bytes is the empty pool (log 21). -/
theorem PoolOk.eq_zeroPool {m : Memory} (h : PoolOk m 0) : m = Machine.zeroPool 0 := by
  obtain ⟨hwf, hsize⟩ := h
  exact Memory.ext_of_read hwf (zeroPool_wf 0) hsize fun i _ => Memory.read_out_of_range hwf (by omega)

/-- With no cartridge loaded the board is the empty one (R32, R55). -/
theorem State.Inv.mapper_empty {s : State} (h : s.Inv) (hrom : s.loadedRom = none) : s.chip.mapper = .empty := by
  have hloaded := h.loaded
  rw [hrom] at hloaded
  cases hm : s.chip.mapper with
  | empty => rfl
  | board info regs => simp [hm, Mapper.kind] at hloaded

theorem Chip.Inv.noCartridge {c : Chip} (h : c.Inv) (hm : c.mapper = .empty) : NoCartridge c := by
  have hcart := h.cartridge
  rwa [CartridgeOk, hm] at hcart

/-- A legal chip with the empty board already has every value that removal writes. -/
theorem unload_of_empty {c : Chip} (h : c.Inv) (hm : c.mapper = .empty) : c.unload = c := by
  obtain ⟨hdesc, hprgRom, hchr, hchrIsRam⟩ := h.noCartridge hm
  have hexram : c.ppubus.exram = zeroPool 0 := PoolOk.eq_zeroPool (by simpa [hm, Mapper.fourScreen] using h.exram)
  have hprgRam : c.cart.prgRam = zeroPool 0 := PoolOk.eq_zeroPool (by simpa [hm, Mapper.prgRamSize] using h.prgRam)
  have hmirror : c.ppubus.mirrorShift = mirrorShiftOf .horizontal := by rw [h.mirror, hm]; rfl
  have hcart : c.cart = ⟨zeroPool 0, zeroPool 0, none⟩ := by
    rw [show c.cart = ⟨c.cart.prgRom, c.cart.prgRam, c.cart.desc⟩ from rfl, hprgRom, hprgRam, hdesc]
  have hppubus : c.ppubus = ⟨c.ppubus.ciram, c.ppubus.palette, zeroPool 0, zeroPool 0, false,
      mirrorShiftOf .horizontal, c.ppubus.openBus⟩ := by
    rw [show c.ppubus = ⟨c.ppubus.ciram, c.ppubus.palette, c.ppubus.exram, c.ppubus.chr, c.ppubus.chrIsRam,
      c.ppubus.mirrorShift, c.ppubus.openBus⟩ from rfl, hexram, hchr, hchrIsRam, hmirror]
  rw [Chip.unload, ← hm, ← hcart, ← hppubus]

/-- R257: no cartridge, no flush. -/
theorem flush_of_noCartridge {s : State} (hrom : s.loadedRom = none) : s.flush = none := by
  simp [State.flush, hrom]

/-- R256: a second removal writes its result alone. -/
theorem exec_unloadRom_of_noCartridge {s : State} (h : s.Inv) (hrom : s.loadedRom = none) :
    exec .unloadRom s = .next (s.finish (.ok (.flushed none))) := by
  have hm := h.mapper_empty hrom
  have hrunning : s.running = false := by rw [h.running, hrom]; rfl
  have hbattery : s.batteryBacked = false := by rw [h.battery, (h.chip.noCartridge hm).desc]
  show execUnloadRom s = _
  simp only [execUnloadRom, State.finish, unload_of_empty h.chip hm, flush_of_noCartridge hrom, hrom, hrunning, hbattery]

/-- Settles O43: the word and the written fields are the definitions' own; under the invariant a machine with no cartridge
already holds every value that removal writes. -/
theorem unload : Obligations.Unload :=
  ⟨rfl, fun _ => rfl, fun _ hs hrom => exec_unloadRom_of_noCartridge hs hrom⟩

end Sys2Proof.Machine

/-! PROOFS. 43_bus.md: the routes of the CPU bus (R320, R326, R330). -/

namespace Sys2Proof.Machine

open Sys2Proof

/-- R95 with the last address of each range, as R320, R326 and R330 write it. -/
theorem cpuRoute_ranges (a : Addr) : cpuRoute a =
    if a.toNat ≤ 0x1FFF then .wram
    else if a.toNat ≤ 0x3FFF then .ppuReg
    else if a.toNat ≤ 0x4017 then .apuIo
    else if a.toNat ≤ 0x401F then .openBus
    else .cartridge := by
  simp only [cpuRoute, ← Nat.lt_succ_iff]

/-- R320: the filter may read the table after the decode, because no decode changes the cheat codes. -/
theorem cpuRead_of_decode {a : Addr} {c d : Chip} {v : Byte} (h : (d, v) = cpuDecodeRead a c) :
    cpuRead a c = (d.latchCpu (genieFilter d.bus.genie a v), genieFilter d.bus.genie a v) := by
  have hgenie : d.bus.genie = c.bus.genie := by
    have hquiet := cpuDecodeRead_quiet a c
    rw [← h] at hquiet
    exact hquiet.genie
  rw [cpuRead, ← h, hgenie]

/-- Settles O23: the ranges decide the route, and on each route the branch of the map is the decode's own; the read's
filter sees the table it began with. -/
theorem cpuBusRoutes : Obligations.CpuBusRoutes := by
  intro a c
  refine ⟨fun d v h => cpuRead_of_decode (h.trans ?read), fun d v h => congrArg (·.latchCpu v) (.trans ?write h.symm),
    congrArg (genieFilter c.bus.genie a) ?peek⟩
  case read =>
    rw [cpuDecodeRead, cpuRoute_ranges, wramIndex_nat, ppuRegIndex_nat]
    split_ifs <;> rfl
  case write =>
    rw [cpuDecodeWrite, cpuRoute_ranges, wramIndex_nat, ppuRegIndex_nat]
    split_ifs <;> rfl
  case peek =>
    rw [cpuRoute_ranges, wramIndex_nat, ppuRegIndex_nat]
    split_ifs <;> rfl

end Sys2Proof.Machine

/-! PROOFS. 30_encoding.md: decoding and encoding agree (R150 to R157), illegal words (R156), the tables (R164 to R167). -/

namespace Sys2Proof.Laws.RoundTrip

open Sys2Proof

/-- The family of `RoundTrip` as one statement: every constructor has its lemma. -/
theorem statement_all (i : Instr) : Statement i := by
  cases i with
  | clockInstr => exact clockInstr
  | clockSeconds num den => exact clockSeconds num den
  | clockFrame => exact clockFrame
  | clockScanline => exact clockScanline
  | loadRom name desc => exact loadRom name desc
  | unloadRom => exact unloadRom
  | reset kind => exact reset kind
  | loadSram b => exact loadSram b
  | readSram => exact readSram
  | readWram => exact readWram
  | queryStatus => exact queryStatus
  | readFrameBuffer => exact readFrameBuffer
  | readAudioSamples => exact readAudioSamples
  | setRegion r => exact setRegion r
  | setFourPlayer m => exact setFourPlayer m
  | setFilter f => exact setFilter f
  | setRamState p => exact setRamState p
  | connectZapper e => exact connectZapper e
  | aimZapper x y => exact aimZapper x y
  | triggerZapper => exact triggerZapper
  | toggleApuChannel c => exact toggleApuChannel c
  | clearAudioSamples => exact clearAudioSamples
  | setJoypad player mask => exact setJoypad player mask
  | setMapperRevision r => exact setMapperRevision r
  | addGenie code => exact addGenie code
  | removeGenie code => exact removeGenie code
  | cpuRead a => exact cpuRead a
  | cpuWrite a v => exact cpuWrite a v
  | cpuPeek a => exact cpuPeek a
  | ppuRead a => exact ppuRead a
  | ppuWrite a v => exact ppuWrite a v
  | ppuPeek a => exact ppuPeek a
  | jam02 => exact jam02
  | jam12 => exact jam12
  | jam22 => exact jam22
  | jam32 => exact jam32
  | jam42 => exact jam42
  | jam52 => exact jam52
  | jam62 => exact jam62
  | jam72 => exact jam72
  | jam92 => exact jam92
  | jamB2 => exact jamB2
  | jamD2 => exact jamD2
  | jamF2 => exact jamF2
  | nop => exact nop
  | jmpAbs => exact jmpAbs
  | ldaImm => exact ldaImm
  | staAbs => exact staAbs
  | inx => exact inx
  | bneRel => exact bneRel
  | execute b => exact execute b
  | uxromBank a v => exact uxromBank a v
  | cnromChrBank a v => exact cnromChrBank a v
  | axromReg a v => exact axromReg a v
  | mmc1Control a v => exact mmc1Control a v
  | mmc1Chr0 a v => exact mmc1Chr0 a v
  | mmc1Chr1 a v => exact mmc1Chr1 a v
  | mmc1Prg a v => exact mmc1Prg a v
  | mmc3BankSelect a v => exact mmc3BankSelect a v
  | mmc3BankData a v => exact mmc3BankData a v
  | mmc3Mirroring a v => exact mmc3Mirroring a v
  | mmc3PrgRamProtect a v => exact mmc3PrgRamProtect a v
  | mmc3IrqLatch a v => exact mmc3IrqLatch a v
  | mmc3IrqReload a v => exact mmc3IrqReload a v
  | mmc3IrqDisable a v => exact mmc3IrqDisable a v
  | mmc3IrqEnable a v => exact mmc3IrqEnable a v

end Sys2Proof.Laws.RoundTrip

namespace Sys2Proof

open Sys2Proof.Machine

/-! ## Whatever decodes is well formed and is its code's only reading -/

/-- The instruction is well formed, and its code is `c`. -/
def Instr.CarriedBy (i : Instr) (c : Code) : Prop := i.wf = true ∧ encode i = c

/-- A command with neither field nor payload: its word is its `op` alone. -/
theorem plainCmd_carried {op sub : Byte} {imm : Addr} {p : Payload} {i j : Instr} (h : plainCmd sub imm p i = .ok j)
    (hi : i.CarriedBy (.host (opWord op) .none)) : j.CarriedBy (.host (mkWord op sub imm) p) := by
  unfold plainCmd at h
  split_ifs at h with hfields hpayload
  obtain ⟨rfl, rfl⟩ : sub = 0 ∧ imm = 0 := by simpa [not_or] using hfields
  obtain rfl : p = .none := by simpa using hpayload
  cases h
  exact hi

/-- A command with an enumerated field: the code of the value read is the field. -/
theorem enumCmd_carried {α : Type} {op sub : Byte} {imm reserved : Addr} {p : Payload} {code : Option α} {i : α → Instr}
    {j : Instr} {codeOf : α → Byte} (h : enumCmd reserved p code i = .ok j) (hcode : ∀ {x}, code = some x → codeOf x = sub)
    (hi : ∀ x, reserved = 0 → (i x).CarriedBy (.host (mkWord op (codeOf x) imm) .none)) :
    j.CarriedBy (.host (mkWord op sub imm) p) := by
  unfold enumCmd at h
  split_ifs at h with himm hpayload
  obtain rfl : p = .none := by simpa using hpayload
  cases code with
  | none => cases h
  | some x =>
    cases h
    exact hcode rfl ▸ hi x (by simpa using himm)

/-- A command with a payload: it is the payload's. -/
theorem payloadCmd_carried {op sub : Byte} {imm : Addr} {p : Payload} {r : Except DecodeError Instr} {j : Instr}
    (h : payloadCmd sub imm r = .ok j) (hr : r = .ok j → j.CarriedBy (.host (opWord op) p)) :
    j.CarriedBy (.host (mkWord op sub imm) p) := by
  unfold payloadCmd at h
  split_ifs at h with hfields
  obtain ⟨rfl, rfl⟩ : sub = 0 ∧ imm = 0 := by simpa [not_or] using hfields
  exact hr h

theorem busNoData_carried {op sub : Byte} {imm : Addr} {p : Payload} {i j : Instr} (h : busNoData sub p i = .ok j)
    (hi : i.CarriedBy (.host (mkWord op 0 imm) .none)) : j.CarriedBy (.host (mkWord op sub imm) p) := by
  unfold busNoData at h
  split_ifs at h with hfields hpayload
  obtain rfl : sub = 0 := by simpa using hfields
  obtain rfl : p = .none := by simpa using hpayload
  cases h
  exact hi

theorem busData_carried {op sub : Byte} {imm : Addr} {p : Payload} {i j : Instr} (h : busData p i = .ok j)
    (hi : i.CarriedBy (.host (mkWord op sub imm) .none)) : j.CarriedBy (.host (mkWord op sub imm) p) := by
  unfold busData at h
  split_ifs at h with hpayload
  obtain rfl : p = .none := by simpa using hpayload
  cases h
  exact hi

theorem secondsPayload_carried {p : Payload} {j : Instr} (h : secondsPayload p = .ok j) :
    j.CarriedBy (.host (opWord 0x02) p) := by
  cases p with
  | seconds num den =>
    simp only [secondsPayload] at h
    split_ifs at h with hden
    cases h
    exact ⟨by simpa [Instr.wf] using hden, rfl⟩
  | _ => cases h

theorem romPayload_carried {p : Payload} {j : Instr} (h : romPayload p = .ok j) : j.CarriedBy (.host (opWord 0x10) p) := by
  cases p with
  | rom name desc =>
    simp only [romPayload] at h
    split_ifs at h with hwf
    cases h
    exact ⟨hwf, rfl⟩
  | _ => cases h

theorem sramPayload_carried {p : Payload} {j : Instr} (h : sramPayload p = .ok j) : j.CarriedBy (.host (opWord 0x13) p) := by
  cases p with
  | bytes b =>
    simp only [sramPayload] at h
    split_ifs at h with hwf
    cases h
    exact ⟨hwf, rfl⟩
  | _ => cases h

theorem codePayload_carried {op : Byte} {i : Text → Instr} (hi : ∀ t, (i t).CarriedBy (.host (opWord op) (.code t)))
    {p : Payload} {j : Instr} (h : codePayload i p = .ok j) : j.CarriedBy (.host (opWord op) p) := by
  cases p with
  | code t =>
    cases h
    exact hi t
  | _ => cases h

/-! The codes of the enumerated operands, from a byte to its value and back. -/

theorem Region.code_of_ofCode : ∀ {b : Byte} {x : Region}, Region.ofCode b = some x → x.code = b := by decide
theorem VideoFilter.code_of_ofCode : ∀ {b : Byte} {x : VideoFilter}, VideoFilter.ofCode b = some x → x.code = b := by
  decide
theorem RamPolicy.code_of_ofCode : ∀ {b : Byte} {x : RamPolicy}, RamPolicy.ofCode b = some x → x.code = b := by decide
theorem FourPlayer.code_of_ofCode : ∀ {b : Byte} {x : FourPlayer}, FourPlayer.ofCode b = some x → x.code = b := by decide
theorem Revision.code_of_ofCode : ∀ {b : Byte} {x : Revision}, Revision.ofCode b = some x → x.code = b := by decide
theorem ResetKind.code_of_ofCode : ∀ {b : Byte} {x : ResetKind}, ResetKind.ofCode b = some x → x.code = b := by decide
theorem Channel.code_of_ofCode : ∀ {b : Byte} {x : Channel}, Channel.ofCode b = some x → x.code = b := by decide
theorem connectCode_of_ofCode : ∀ {b : Byte} {x : Bool}, connectOfCode b = some x → connectCode x = b := by decide
theorem player_of_ofCode : ∀ {b : Byte} {x : BitVec 2}, playerOfCode b = some x → x.setWidth 8 = b := by decide

/-- The ten bits of a joypad mask are the whole of a field whose reserved bits are 0 (R152). -/
theorem joypadMask_of_reserved {imm : Addr} (h : imm &&& 0xFC00 = 0) : (imm.setWidth 10).setWidth 16 = imm := by
  have hsplit : (imm &&& 0x03FF) ||| (imm &&& 0xFC00) = imm := by
    rw [← BitVec.and_or_distrib_left]
    exact BitVec.and_allOnes
  rw [h, Machine.offset_field] at hsplit
  exact BitVec.or_zero.symm.trans hsplit

/-- One branch of the opcode map: what its command carries, the `op` field being the branch's. -/
theorem carried_of_op {op k sub : Byte} {imm : Addr} {p : Payload} {x y : Except DecodeError Instr} {i : Instr}
    (h : (if op = k then x else y) = .ok i) (hx : x = .ok i → i.CarriedBy (.host (mkWord k sub imm) p))
    (hy : y = .ok i → i.CarriedBy (.host (mkWord op sub imm) p)) : i.CarriedBy (.host (mkWord op sub imm) p) := by
  split_ifs at h with hop
  · exact hop ▸ hx h
  · exact hy h

theorem decodeFields_carried {op sub : Byte} {imm : Addr} {p : Payload} {i : Instr} (h : decodeFields op sub imm p = .ok i) :
    i.CarriedBy (.host (mkWord op sub imm) p) := by
  unfold decodeFields at h
  refine carried_of_op h (fun h => plainCmd_carried h ⟨rfl, rfl⟩) fun h => ?_
  refine carried_of_op h (fun h => payloadCmd_carried h secondsPayload_carried) fun h => ?_
  refine carried_of_op h (fun h => plainCmd_carried h ⟨rfl, rfl⟩) fun h => ?_
  refine carried_of_op h (fun h => plainCmd_carried h ⟨rfl, rfl⟩) fun h => ?_
  refine carried_of_op h (fun h => payloadCmd_carried h romPayload_carried) fun h => ?_
  refine carried_of_op h (fun h => plainCmd_carried h ⟨rfl, rfl⟩) fun h => ?_
  refine carried_of_op h (fun h => enumCmd_carried h ResetKind.code_of_ofCode fun _ himm => ⟨rfl, himm ▸ rfl⟩) fun h => ?_
  refine carried_of_op h (fun h => payloadCmd_carried h sramPayload_carried) fun h => ?_
  refine carried_of_op h (fun h => plainCmd_carried h ⟨rfl, rfl⟩) fun h => ?_
  refine carried_of_op h (fun h => plainCmd_carried h ⟨rfl, rfl⟩) fun h => ?_
  refine carried_of_op h (fun h => plainCmd_carried h ⟨rfl, rfl⟩) fun h => ?_
  refine carried_of_op h (fun h => plainCmd_carried h ⟨rfl, rfl⟩) fun h => ?_
  refine carried_of_op h (fun h => plainCmd_carried h ⟨rfl, rfl⟩) fun h => ?_
  refine carried_of_op h (fun h => enumCmd_carried h Region.code_of_ofCode fun _ himm => ⟨rfl, himm ▸ rfl⟩) fun h => ?_
  refine carried_of_op h (fun h => enumCmd_carried h FourPlayer.code_of_ofCode fun _ himm => ⟨rfl, himm ▸ rfl⟩) fun h => ?_
  refine carried_of_op h (fun h => enumCmd_carried h VideoFilter.code_of_ofCode fun _ himm => ⟨rfl, himm ▸ rfl⟩) fun h => ?_
  refine carried_of_op h (fun h => enumCmd_carried h RamPolicy.code_of_ofCode fun _ himm => ⟨rfl, himm ▸ rfl⟩) fun h => ?_
  refine carried_of_op h (fun h => enumCmd_carried h connectCode_of_ofCode fun _ himm => ⟨rfl, himm ▸ rfl⟩) fun h => ?_
  refine carried_of_op h (fun h => busNoData_carried h ⟨rfl, by rw [encode, append_bytes]⟩) fun h => ?_
  refine carried_of_op h (fun h => plainCmd_carried h ⟨rfl, rfl⟩) fun h => ?_
  refine carried_of_op h (fun h => enumCmd_carried h Channel.code_of_ofCode fun _ himm => ⟨rfl, himm ▸ rfl⟩) fun h => ?_
  refine carried_of_op h (fun h => plainCmd_carried h ⟨rfl, rfl⟩) fun h => ?_
  refine carried_of_op h (fun h => enumCmd_carried h player_of_ofCode fun _ himm =>
    ⟨rfl, by rw [encode, joypadMask_of_reserved himm]⟩) fun h => ?_
  refine carried_of_op h (fun h => enumCmd_carried h Revision.code_of_ofCode fun _ himm => ⟨rfl, himm ▸ rfl⟩) fun h => ?_
  refine carried_of_op h (fun h => payloadCmd_carried h (codePayload_carried fun _ => ⟨rfl, rfl⟩)) fun h => ?_
  refine carried_of_op h (fun h => payloadCmd_carried h (codePayload_carried fun _ => ⟨rfl, rfl⟩)) fun h => ?_
  refine carried_of_op h (fun h => busNoData_carried h ⟨rfl, rfl⟩) fun h => ?_
  refine carried_of_op h (fun h => busData_carried h ⟨rfl, rfl⟩) fun h => ?_
  refine carried_of_op h (fun h => busNoData_carried h ⟨rfl, rfl⟩) fun h => ?_
  refine carried_of_op h (fun h => busNoData_carried h ⟨rfl, rfl⟩) fun h => ?_
  refine carried_of_op h (fun h => busData_carried h ⟨rfl, rfl⟩) fun h => ?_
  refine carried_of_op h (fun h => busNoData_carried h ⟨rfl, rfl⟩) fun h => ?_
  cases h

theorem decodeHost_carried {w : Word32} {p : Payload} {i : Instr} (h : decodeHost w p = .ok i) :
    i.CarriedBy (.host w p) :=
  mkWord_fields w ▸ decodeFields_carried h

/-- An opcode byte is one row of the table, or of the execute class (R157). -/
theorem decodeOpc_carried : ∀ b : Byte, (decodeOpc b).CarriedBy (.opc b) := by
  unfold Instr.CarriedBy
  decide

theorem decodeMmc1_carried {a : Addr} {v : Byte} {i : Instr} (h : decodeMmc1 a v = some i) :
    i.CarriedBy (.mapReg .mmc1 a v) := by
  unfold decodeMmc1 at h
  split_ifs at h with hrow hrow hrow hrow <;> cases h <;> exact ⟨hrow, rfl⟩

theorem decodeMmc3_carried {a : Addr} {v : Byte} {i : Instr} (h : decodeMmc3 a v = some i) :
    i.CarriedBy (.mapReg .mmc3 a v) := by
  unfold decodeMmc3 at h
  split_ifs at h with hrow hrow hrow hrow hrow hrow hrow hrow <;> cases h <;> exact ⟨hrow, rfl⟩

theorem decodeMapReg_carried {board : BoardKind} {a : Addr} {v : Byte} {i : Instr} (h : decodeMapReg board a v = some i) :
    i.CarriedBy (.mapReg board a v) := by
  cases board with
  | nrom => cases h
  | mmc1 => exact decodeMmc1_carried h
  | mmc3 => exact decodeMmc3_carried h
  | uxrom =>
    obtain ⟨ha, rfl⟩ : upperHalf a = true ∧ Instr.uxromBank a v = i := by simpa [decodeMapReg] using h
    exact ⟨ha, rfl⟩
  | cnrom =>
    obtain ⟨ha, rfl⟩ : upperHalf a = true ∧ Instr.cnromChrBank a v = i := by simpa [decodeMapReg] using h
    exact ⟨ha, rfl⟩
  | axrom =>
    obtain ⟨ha, rfl⟩ : upperHalf a = true ∧ Instr.axromReg a v = i := by simpa [decodeMapReg] using h
    exact ⟨ha, rfl⟩

theorem decode_carried {c : Code} {i : Instr} (h : decode c = .ok i) : i.CarriedBy c := by
  cases c with
  | host w p => exact decodeHost_carried h
  | opc b =>
    cases h
    exact decodeOpc_carried b
  | mapReg board a v =>
    cases hrow : decodeMapReg board a v with
    | none => simp [decode, hrow] at h
    | some j =>
      obtain rfl : j = i := by simpa [decode, hrow] using h
      exact decodeMapReg_carried hrow

/-- Settles O1: every constructor is read back from its code, and every branch of the decoder answers an instruction that
carries the code it was given. -/
theorem decodeEncodeAgree : Obligations.DecodeEncodeAgree :=
  ⟨Laws.RoundTrip.statement_all, fun _ _ => decode_carried⟩

/-! ## Illegal words (R156) -/

/-- R156 for a word in its fields: none of its clauses holds. -/
structure LegalFields (op sub : Byte) (imm : Addr) (p : Payload) : Prop where
  known   : op ∈ legalOps
  subZero : op ∈ subReservedOps → sub = 0
  immZero : op ∈ immReservedOps → imm = 0
  joypad  : op = 0x29 → imm &&& 0xFC00 = 0
  codes   : ∀ e ∈ enumeratedSubs, op = e.1 → sub.toNat < e.2
  payload : payloadFits op p = true
  seconds : op = 0x02 → ∀ num, p ≠ .seconds num 0

theorem legalFields_iff (w : Word32) (p : Payload) :
    LegalFields (opField w) (subField w) (immField w) p ↔ ¬ IllegalWord w p := by
  constructor
  · rintro ⟨hknown, hsub, himm, hjoypad, hcodes, hpayload, hseconds⟩
      (h | h | h | h | ⟨e, he, hop, hle⟩ | h | ⟨hop, num, hnum⟩)
    · exact h hknown
    · exact h.2 (hsub h.1)
    · exact h.2 (himm h.1)
    · exact h.2 (hjoypad h.1)
    · exact absurd (hcodes e he hop) (Nat.not_lt.2 hle)
    · exact Bool.false_ne_true (h.symm.trans hpayload)
    · exact hseconds hop num hnum
  · intro h
    simp only [IllegalWord, not_or, not_and, not_exists, Decidable.not_not, Bool.not_eq_false, Nat.not_le] at h
    obtain ⟨hknown, hsub, himm, hjoypad, hcodes, hpayload, hseconds⟩ := h
    exact ⟨hknown, hsub, himm, hjoypad, hcodes, hpayload, hseconds⟩

/-! What each form of command asks of the fields, on the decoder's side. -/

theorem plainCmd_ok_iff {sub : Byte} {imm : Addr} {p : Payload} {i : Instr} :
    (∃ j, plainCmd sub imm p i = .ok j) ↔ sub = 0 ∧ imm = 0 ∧ p = .none := by
  unfold plainCmd
  split_ifs with hfields hpayload
  · simp only [exists_false, false_iff]; tauto
  · simp_all
  · simp_all

theorem enumCmd_ok_iff {α : Type} {imm : Addr} {p : Payload} {code : Option α} {i : α → Instr} :
    (∃ j, enumCmd imm p code i = .ok j) ↔ imm = 0 ∧ p = .none ∧ code.isSome = true := by
  unfold enumCmd
  cases code <;> split_ifs <;> simp_all

theorem payloadCmd_ok_iff {sub : Byte} {imm : Addr} {r : Except DecodeError Instr} :
    (∃ j, payloadCmd sub imm r = .ok j) ↔ sub = 0 ∧ imm = 0 ∧ ∃ j, r = .ok j := by
  unfold payloadCmd
  split_ifs with hfields
  · simp only [exists_false, false_iff]; tauto
  · simp_all

theorem busNoData_ok_iff {sub : Byte} {p : Payload} {i : Instr} :
    (∃ j, busNoData sub p i = .ok j) ↔ sub = 0 ∧ p = .none := by
  unfold busNoData
  split_ifs <;> simp_all

theorem busData_ok_iff {p : Payload} {i : Instr} : (∃ j, busData p i = .ok j) ↔ p = .none := by
  unfold busData
  split_ifs <;> simp_all

theorem secondsPayload_ok_iff {p : Payload} :
    (∃ j, secondsPayload p = .ok j) ↔ payloadFits 0x02 p = true ∧ ∀ num, p ≠ .seconds num 0 := by
  cases p <;> simp [secondsPayload, payloadFits]
  split_ifs <;> simp_all

theorem romPayload_ok_iff {p : Payload} : (∃ j, romPayload p = .ok j) ↔ payloadFits 0x10 p = true := by
  cases p <;> simp [romPayload, payloadFits]
  split_ifs <;> simp_all

theorem sramPayload_ok_iff {p : Payload} : (∃ j, sramPayload p = .ok j) ↔ payloadFits 0x13 p = true := by
  cases p <;> simp [sramPayload, payloadFits]
  split_ifs <;> simp_all

theorem codePayload_ok_iff {op : Byte} (hop : op = 0x30 ∨ op = 0x31) {i : Text → Instr} {p : Payload} :
    (∃ j, codePayload i p = .ok j) ↔ payloadFits op p = true := by
  rcases hop with rfl | rfl <;> cases p <;> simp [codePayload, payloadFits]

/-! The same on the side of R156's tables. -/

/-- The `op` codes that take a payload (R151, R152). -/
def payloadOps : List Byte := [0x02, 0x10, 0x13, 0x30, 0x31]

/-- The `op` codes whose word is its `op` alone (R152). -/
def plainOps : List Byte :=
  [0x01, 0x03, 0x04, 0x11, 0x14, 0x15, 0x16, 0x17, 0x18, 0x26, 0x28]

/-- The `op` codes with a 16-bit field and no other (R152, R153). -/
def busNoDataOps : List Byte := [0x25, 0x40, 0x42, 0x43, 0x45]

theorem payloadFits_iff_none {op : Byte} (h : op ∉ payloadOps) {p : Payload} : payloadFits op p = true ↔ p = .none := by
  cases p <;> simp_all [payloadFits, payloadOps]

/-- Without a payload the clauses are those of the fields. -/
theorem legalFields_noPayload {op sub : Byte} {imm : Addr} {p : Payload} (hknown : op ∈ legalOps) (hp : op ∉ payloadOps) :
    LegalFields op sub imm p ↔ (op ∈ subReservedOps → sub = 0) ∧ (op ∈ immReservedOps → imm = 0) ∧
      (op = 0x29 → imm &&& 0xFC00 = 0) ∧ (∀ e ∈ enumeratedSubs, op = e.1 → sub.toNat < e.2) ∧ p = .none := by
  have h2 : op ≠ 0x02 := fun h => hp (h ▸ by decide)
  constructor
  · exact fun h => ⟨h.subZero, h.immZero, h.joypad, h.codes, (payloadFits_iff_none hp).1 h.payload⟩
  · exact fun ⟨hsub, himm, hjoypad, hcodes, hnone⟩ =>
      ⟨hknown, hsub, himm, hjoypad, hcodes, (payloadFits_iff_none hp).2 hnone, fun h => absurd h h2⟩

theorem legalFields_plain {op sub : Byte} {imm : Addr} {p : Payload} (h : op ∈ plainOps) :
    LegalFields op sub imm p ↔ sub = 0 ∧ imm = 0 ∧ p = .none := by
  have htables : ∀ op ∈ plainOps, op ∈ legalOps ∧ op ∉ payloadOps ∧ op ∈ subReservedOps ∧ op ∈ immReservedOps ∧
      op ≠ 0x29 ∧ ∀ e ∈ enumeratedSubs, op ≠ e.1 := by decide
  obtain ⟨hknown, hp, hsub, himm, hjoypad, hcodes⟩ := htables op h
  rw [legalFields_noPayload hknown hp]
  exact ⟨fun ⟨h1, h2, _, _, h5⟩ => ⟨h1 hsub, h2 himm, h5⟩, fun ⟨h1, h2, h3⟩ =>
    ⟨fun _ => h1, fun _ => h2, fun h => absurd h hjoypad, fun e he h => absurd h (hcodes e he), h3⟩⟩

theorem legalFields_busNoData {op sub : Byte} {imm : Addr} {p : Payload} (h : op ∈ busNoDataOps) :
    LegalFields op sub imm p ↔ sub = 0 ∧ p = .none := by
  have htables : ∀ op ∈ busNoDataOps, op ∈ legalOps ∧ op ∉ payloadOps ∧ op ∈ subReservedOps ∧ op ∉ immReservedOps ∧
      op ≠ 0x29 ∧ ∀ e ∈ enumeratedSubs, op ≠ e.1 := by decide
  obtain ⟨hknown, hp, hsub, himm, hjoypad, hcodes⟩ := htables op h
  rw [legalFields_noPayload hknown hp]
  exact ⟨fun ⟨h1, _, _, _, h5⟩ => ⟨h1 hsub, h5⟩, fun ⟨h1, h3⟩ =>
    ⟨fun _ => h1, fun h => absurd h himm, fun h => absurd h hjoypad, fun e he h => absurd h (hcodes e he), h3⟩⟩

theorem legalFields_busData {op sub : Byte} {imm : Addr} {p : Payload} (h : op ∈ ([0x41, 0x44] : List Byte)) :
    LegalFields op sub imm p ↔ p = .none := by
  have htables : ∀ op ∈ ([0x41, 0x44] : List Byte), op ∈ legalOps ∧ op ∉ payloadOps ∧ op ∉ subReservedOps ∧
      op ∉ immReservedOps ∧ op ≠ 0x29 ∧ ∀ e ∈ enumeratedSubs, op ≠ e.1 := by decide
  obtain ⟨hknown, hp, hsub, himm, hjoypad, hcodes⟩ := htables op h
  rw [legalFields_noPayload hknown hp]
  exact ⟨fun ⟨_, _, _, _, h5⟩ => h5, fun h3 =>
    ⟨fun h => absurd h hsub, fun h => absurd h himm, fun h => absurd h hjoypad, fun e he h => absurd h (hcodes e he), h3⟩⟩

theorem legalFields_enum {op sub : Byte} {imm : Addr} {p : Payload} {n : Nat} (h : (op, n) ∈ enumeratedSubs)
    (hjoypad : op ≠ 0x29) : LegalFields op sub imm p ↔ imm = 0 ∧ p = .none ∧ sub.toNat < n := by
  have htables : ∀ e ∈ enumeratedSubs, e.1 ∈ legalOps ∧ e.1 ∉ payloadOps ∧ e.1 ∉ subReservedOps ∧
      (e.1 ≠ 0x29 → e.1 ∈ immReservedOps) ∧ ∀ f ∈ enumeratedSubs, e.1 = f.1 → e.2 = f.2 := by decide
  obtain ⟨hknown, hp, hsub, himm, hcodes⟩ := htables _ h
  rw [legalFields_noPayload hknown hp]
  exact ⟨fun ⟨_, h2, _, h4, h5⟩ => ⟨h2 (himm hjoypad), h5, h4 _ h rfl⟩, fun ⟨h2, h3, h4⟩ =>
    ⟨fun h => absurd h hsub, fun _ => h2, fun h => absurd h hjoypad, fun e he h => hcodes e he h ▸ h4, h3⟩⟩

theorem legalFields_joypad {sub : Byte} {imm : Addr} {p : Payload} :
    LegalFields 0x29 sub imm p ↔ imm &&& 0xFC00 = 0 ∧ p = .none ∧ sub.toNat < 4 := by
  rw [legalFields_noPayload (by decide) (by decide)]
  constructor
  · exact fun ⟨_, _, hmask, hcodes, hp⟩ => ⟨hmask rfl, hp, hcodes (0x29, 4) (by decide) rfl⟩
  · have hcode : ∀ e ∈ enumeratedSubs, (0x29 : Byte) = e.1 → e.2 = 4 := by decide
    exact fun ⟨hmask, hp, hplayer⟩ => ⟨fun h => absurd h (by decide), fun h => absurd h (by decide), fun _ => hmask,
      fun e he h => hcode e he h ▸ hplayer, hp⟩

theorem legalFields_payload {op sub : Byte} {imm : Addr} {p : Payload} (h : op ∈ payloadOps) :
    LegalFields op sub imm p ↔ sub = 0 ∧ imm = 0 ∧ payloadFits op p = true ∧ (op = 0x02 → ∀ num, p ≠ .seconds num 0) := by
  have htables : ∀ op ∈ payloadOps, op ∈ legalOps ∧ op ∈ subReservedOps ∧ op ∈ immReservedOps ∧ op ≠ 0x29 ∧
      ∀ e ∈ enumeratedSubs, op ≠ e.1 := by decide
  obtain ⟨hknown, hsub, himm, hjoypad, hcodes⟩ := htables op h
  exact ⟨fun h => ⟨h.subZero hsub, h.immZero himm, h.payload, h.seconds⟩, fun ⟨h1, h2, h3, h4⟩ =>
    ⟨hknown, fun _ => h1, fun _ => h2, fun h => absurd h hjoypad, fun e he h => absurd h (hcodes e he), h3, h4⟩⟩

/-! The codes of an enumerated field that have a value, as a bound. -/

theorem ResetKind.ofCode_isSome : ∀ b : Byte, (ResetKind.ofCode b).isSome = true ↔ b.toNat < 2 := by decide
theorem Region.ofCode_isSome : ∀ b : Byte, (Region.ofCode b).isSome = true ↔ b.toNat < 3 := by decide
theorem FourPlayer.ofCode_isSome : ∀ b : Byte, (FourPlayer.ofCode b).isSome = true ↔ b.toNat < 3 := by decide
theorem VideoFilter.ofCode_isSome : ∀ b : Byte, (VideoFilter.ofCode b).isSome = true ↔ b.toNat < 2 := by decide
theorem RamPolicy.ofCode_isSome : ∀ b : Byte, (RamPolicy.ofCode b).isSome = true ↔ b.toNat < 3 := by decide
theorem connectOfCode_isSome : ∀ b : Byte, (connectOfCode b).isSome = true ↔ b.toNat < 2 := by decide
theorem Channel.ofCode_isSome : ∀ b : Byte, (Channel.ofCode b).isSome = true ↔ b.toNat < 5 := by decide
theorem playerOfCode_isSome : ∀ b : Byte, (playerOfCode b).isSome = true ↔ b.toNat < 4 := by decide
theorem Revision.ofCode_isSome : ∀ b : Byte, (Revision.ofCode b).isSome = true ↔ b.toNat < 2 := by decide

/-- The fields of an `op` code decode exactly when they are legal. -/
def DecodesLegally (op sub : Byte) (imm : Addr) (p : Payload) : Prop :=
  (∃ i, decodeFields op sub imm p = .ok i) ↔ LegalFields op sub imm p

theorem plain_legally {op sub : Byte} {imm : Addr} {p : Payload} {i : Instr} (hop : op ∈ plainOps)
    (h : decodeFields op sub imm p = plainCmd sub imm p i) : DecodesLegally op sub imm p := by
  rw [DecodesLegally, h, plainCmd_ok_iff, legalFields_plain hop]

theorem enum_legally {α : Type} {op sub : Byte} {imm : Addr} {p : Payload} {n : Nat} {code : Option α} {i : α → Instr}
    (hop : (op, n) ∈ enumeratedSubs) (hjoypad : op ≠ 0x29) (hcode : code.isSome = true ↔ sub.toNat < n)
    (h : decodeFields op sub imm p = enumCmd imm p code i) : DecodesLegally op sub imm p := by
  rw [DecodesLegally, h, enumCmd_ok_iff, legalFields_enum hop hjoypad, hcode]

theorem payload_legally {op sub : Byte} {imm : Addr} {p : Payload} {r : Except DecodeError Instr} (hop : op ∈ payloadOps)
    (hr : (∃ j, r = .ok j) ↔ payloadFits op p = true ∧ (op = 0x02 → ∀ num, p ≠ .seconds num 0))
    (h : decodeFields op sub imm p = payloadCmd sub imm r) : DecodesLegally op sub imm p := by
  rw [DecodesLegally, h, payloadCmd_ok_iff, legalFields_payload hop, hr]

theorem busNoData_legally {op sub : Byte} {imm : Addr} {p : Payload} {i : Instr} (hop : op ∈ busNoDataOps)
    (h : decodeFields op sub imm p = busNoData sub p i) : DecodesLegally op sub imm p := by
  rw [DecodesLegally, h, busNoData_ok_iff, legalFields_busNoData hop]

theorem busData_legally {op sub : Byte} {imm : Addr} {p : Payload} {i : Instr} (hop : op ∈ ([0x41, 0x44] : List Byte))
    (h : decodeFields op sub imm p = busData p i) : DecodesLegally op sub imm p := by
  rw [DecodesLegally, h, busData_ok_iff, legalFields_busData hop]

theorem joypad_legally (sub : Byte) (imm : Addr) (p : Payload) : DecodesLegally 0x29 sub imm p := by
  have h : decodeFields 0x29 sub imm p =
      enumCmd (imm &&& 0xFC00) p (playerOfCode sub) fun player => .setJoypad player (imm.setWidth 10) := rfl
  rw [DecodesLegally, h, enumCmd_ok_iff, playerOfCode_isSome, legalFields_joypad]

/-- An `op` code of no table decodes to nothing. -/
theorem decodeFields_unknown {op : Byte} (h : op ∉ legalOps) (sub : Byte) (imm : Addr) (p : Payload) :
    decodeFields op sub imm p = .error .unknownOp := by
  simp only [legalOps, List.cons_append, List.nil_append, List.mem_cons, List.not_mem_nil, or_false, not_or] at h
  simp only [decodeFields, h, if_false]

/-- R156 is the whole of what the decoder rejects: branch by branch of the opcode maps. -/
theorem decodeFields_ok_iff (op sub : Byte) (imm : Addr) (p : Payload) : DecodesLegally op sub imm p := by
  by_cases hknown : op ∈ legalOps
  · simp only [legalOps, List.cons_append, List.nil_append] at hknown
    fin_cases hknown
    · exact plain_legally (by decide) rfl
    · exact payload_legally (by decide) (by simp [secondsPayload_ok_iff]) rfl
    · exact plain_legally (by decide) rfl
    · exact plain_legally (by decide) rfl
    · exact payload_legally (by decide) (by simp [romPayload_ok_iff]) rfl
    · exact plain_legally (by decide) rfl
    · exact enum_legally (by decide) (by decide) (ResetKind.ofCode_isSome sub) rfl
    · exact payload_legally (by decide) (by simp [sramPayload_ok_iff]) rfl
    · exact plain_legally (by decide) rfl
    · exact plain_legally (by decide) rfl
    · exact plain_legally (by decide) rfl
    · exact plain_legally (by decide) rfl
    · exact plain_legally (by decide) rfl
    · exact enum_legally (by decide) (by decide) (Region.ofCode_isSome sub) rfl
    · exact enum_legally (by decide) (by decide) (FourPlayer.ofCode_isSome sub) rfl
    · exact enum_legally (by decide) (by decide) (VideoFilter.ofCode_isSome sub) rfl
    · exact enum_legally (by decide) (by decide) (RamPolicy.ofCode_isSome sub) rfl
    · exact enum_legally (by decide) (by decide) (connectOfCode_isSome sub) rfl
    · exact busNoData_legally (by decide) rfl
    · exact plain_legally (by decide) rfl
    · exact enum_legally (by decide) (by decide) (Channel.ofCode_isSome sub) rfl
    · exact plain_legally (by decide) rfl
    · exact joypad_legally sub imm p
    · exact enum_legally (by decide) (by decide) (Revision.ofCode_isSome sub) rfl
    · exact payload_legally (by decide) (by simp [codePayload_ok_iff (op := 0x30)]) rfl
    · exact payload_legally (by decide) (by simp [codePayload_ok_iff (op := 0x31)]) rfl
    · exact busNoData_legally (by decide) rfl
    · exact busData_legally (by decide) rfl
    · exact busNoData_legally (by decide) rfl
    · exact busNoData_legally (by decide) rfl
    · exact busData_legally (by decide) rfl
    · exact busNoData_legally (by decide) rfl
  · rw [DecodesLegally, decodeFields_unknown hknown]
    exact ⟨fun ⟨i, h⟩ => (nomatch h), fun h => absurd h.known hknown⟩

theorem decodeHost_ok_iff (w : Word32) (p : Payload) : (∃ i, decodeHost w p = .ok i) ↔ ¬ IllegalWord w p :=
  (decodeFields_ok_iff _ _ _ _).trans (legalFields_iff w p)

end Sys2Proof

namespace Sys2Proof.Machine

open Sys2Proof

/-- A word that the decoder rejects is refused (R156). -/
theorem runWord_of_error {h : HostWord} {e : DecodeError} (he : decodeHost h.word h.payload = .error e) (s : State) :
    runWord h s = .next (s.refuse .illegalCommand) := by
  simp only [runWord, hostInstr, he]

/-- With no command in progress a step takes the oldest word (log 3). -/
theorem step_of_pending {s : State} {h : HostWord} {rest : List HostWord} (ho : s.ongoing = none)
    (hp : s.pending = h :: rest) : step s = runWord h { s with pending := rest } := by
  simp only [step, ho, hp]

/-- Settles O2: the decoder rejects exactly the words of R156's clauses, and a step refuses what the decoder rejects. -/
theorem illegalWordsRefused : Obligations.IllegalWordsRefused := by
  refine ⟨fun s h rest ho hp hillegal => ?_, fun w p => (decodeHost_ok_iff w p).2⟩
  rw [step_of_pending ho hp]
  cases he : decodeHost h.word h.payload with
  | error e => exact runWord_of_error he _
  | ok i => exact absurd hillegal ((decodeHost_ok_iff _ _).1 ⟨i, he⟩)

/-! ## The tables (R152, R153, R157, R164, R166, R167) -/

/-- The mirroring modes and their codes (R164). -/
theorem mirroring_ofCode_eq_some : ∀ (b : Byte) (m : Mirroring), Mirroring.ofCode b = some m ↔ m.code = b := by
  intro b m
  constructor
  · exact (by decide : ∀ b : Byte, ∀ m, Mirroring.ofCode b = some m → m.code = b) b m
  · rintro rfl
    cases m <;> rfl

/-- Settles O3: each word is closed, so the decoder runs on it; the codes are their definitions' own. -/
theorem tableWords : Obligations.TableWords :=
  ⟨rfl, rfl, rfl, rfl, rfl, rfl, rfl, rfl, rfl, rfl, rfl, rfl, rfl, rfl, rfl, mirroring_ofCode_eq_some, rfl, fun _ => rfl, rfl,
    fun _ => rfl, fun _ => rfl, fun _ => rfl⟩

end Sys2Proof.Machine

/-! PROOFS. 40_deck_clocking.md section 1: CLOCK_SECONDS and its budget (R202), and splitting it (R205). -/

namespace Sys2Proof.Machine

open Sys2Proof

/-! ## CLOCK_SECONDS (R202) -/

/-- The state CLOCK_SECONDS leaves after `k` steps of its loop. -/
def secondsDone (budget : Rat) (k : Nat) (s : State) : State :=
  let run := stepsFrom k { chip := s.chip, cycles := 0 }
  { s with
    chip := run.chip
    cyclesRemaining := budget - run.cycles
    result := some (if run.chip.cpu.corrupted then .err .cpuCorrupted else .ok (.cycles run.cycles)) }

/-- The condition at which the loop of CLOCK_SECONDS ends holds after `j` steps (R202). -/
def SecondsEnd (budget : Rat) (c : Chip) (j : Nat) : Prop :=
  (stepsFrom j { chip := c, cycles := 0 }).chip.cpu.corrupted = true ∨
    budget ≤ ((stepsFrom j { chip := c, cycles := 0 }).cycles : Rat)

theorem le_ceil_toNat (b : Rat) : b ≤ (b.ceil.toNat : Rat) := by
  have h : b ≤ (b.ceil : Rat) := Rat.le_ceil
  have h' : ((b.ceil : Int) : Rat) ≤ ((b.ceil.toNat : Int) : Rat) := by exact_mod_cast Int.self_le_toNat _
  exact h.trans (by exact_mod_cast h')

/-- Past the gate the loop ends with the first step count that spends the budget or corrupts the processor. -/
theorem clockSeconds_done {s : State} (h : s.chip.Inv) (hc : s.chip.cpu.corrupted = false) (num den : Word32) :
    ∃ k, FirstAt 0 (SecondsEnd (secondsBudget num den s) s.chip) k ∧
      clockSeconds num den s = secondsDone (secondsBudget num den s) k s := by
  obtain ⟨k, hfirst, hloop⟩ := secondsLoop_spec _ s.chip (secondsBudget num den s) 0 h hc (le_ceil_toNat _)
  refine ⟨k, hfirst, ?_⟩
  have hrefusal : (stepsFrom k { chip := s.chip, cycles := 0 }).chip.fsDefault = false :=
    (stepsFrom_spec k (g := { chip := s.chip, cycles := 0 }) h).1.noRefusal
  simp only [clockSeconds, begin_of_noRefusal h.noRefusal, hloop, Nat.zero_add]
  exact commit_of_noRefusal _ hrefusal _

theorem exec_clockSeconds {s : State} (hs : CanStep s) {num den : Word32} (hden : den ≠ 0) :
    exec (.clockSeconds num den) s = .next (clockSeconds num den s) := by
  simp only [exec, execClockSeconds, hden, if_false, gate_passes hs, Option.getD_none]

/-- What is owed after a loop that began with at most a step's cycles owed: less than `MaxStepCycles` (R202, R217). -/
theorem secondsEnd_owed {c : Chip} (h : c.Inv) {budget : Rat} (hb : -(c.params.maxStepCycles : Rat) < budget) {k : Nat}
    (hk : FirstAt 0 (SecondsEnd budget c) k) :
    -(c.params.maxStepCycles : Rat) < budget - (stepsFrom k { chip := c, cycles := 0 }).cycles := by
  cases k with
  | zero => simpa [stepsFrom] using hb
  | succ k =>
    have hbefore : ¬ SecondsEnd budget c k := hk.2.2 k (Nat.zero_le k) (Nat.lt_succ_self k)
    have hleft : ((stepsFrom k { chip := c, cycles := 0 }).cycles : Rat) < budget :=
      not_le.1 fun hle => hbefore (Or.inr hle)
    obtain ⟨hinv, hruns, -, -⟩ := stepsFrom_spec k (g := { chip := c, cycles := 0 }) h
    have hstep := (cpuStep_spec hinv.params).bounded
    rw [hruns.params] at hstep
    have hstep' : ((cpuStep (stepsFrom k { chip := c, cycles := 0 }).chip).cycles : Rat) ≤ c.params.maxStepCycles := by
      exact_mod_cast hstep
    rw [stepsFrom_succ]
    push_cast
    linarith

theorem secondsBudget_ge (num den : Word32) (s : State) : s.cyclesRemaining ≤ secondsBudget num den s := by
  have h : (0 : Rat) ≤ (s.chip.regionParams.clockRate : Rat) * ((num.toNat : Rat) / (den.toNat : Rat)) := by positivity
  unfold secondsBudget
  linarith

/-- Settles O51: the loop's own count of steps is the first that ends it; the bound is R217's on its last step. -/
theorem Proofs.clockSeconds : Obligations.ClockSeconds := by
  intro s num den hs hcan hden budget run
  obtain ⟨k, hfirst, hdone⟩ := clockSeconds_done hs.chip hcan.ready.corrupted num den
  refine ⟨k, hfirst, (exec_clockSeconds hcan hden).trans (congrArg _ hdone), fun hc => ⟨?owed, ?spent⟩⟩
  case owed => exact secondsEnd_owed hs.chip (hs.owed.trans_le (secondsBudget_ge num den s)) hfirst
  case spent =>
    rcases hfirst.2.1 with hcorrupted | hspent
    · exact absurd (hcorrupted.symm.trans hc) (by decide)
    · exact sub_nonpos.2 hspent

/-- The machine is in order again after the loop: what is left of the budget is spent unless the processor is corrupted, and a
command in progress needs a processor that is not. -/
theorem secondsDone_inv {s : State} (h : s.Inv) {budget : Rat} (hb : s.cyclesRemaining ≤ budget) {k : Nat}
    (hk : FirstAt 0 (SecondsEnd budget s.chip) k)
    (ho : s.ongoing = none ∨ (secondsDone budget k s).chip.cpu.corrupted = false) : (secondsDone budget k s).Inv := by
  obtain ⟨hinv, hruns, -, -⟩ := stepsFrom_spec k (g := { chip := s.chip, cycles := 0 }) h.chip
  exact {
    chip := hinv
    running := h.running
    loaded := h.loaded.trans (congrArg _ (kind_of_identity hruns.identity).symm)
    battery := by
      have hdesc : (secondsDone budget k s).chip.cart.desc = s.chip.cart.desc := hruns.desc
      rw [hdesc]
      exact h.battery
    budget := fun hleft => hk.2.1.resolve_right fun hspent => absurd hleft (not_lt.2 (sub_nonpos.2 hspent))
    owed := by
      show -((stepsFrom k { chip := s.chip, cycles := 0 }).chip.params.maxStepCycles : Rat) < _
      rw [hruns.params]
      exact secondsEnd_owed h.chip (h.owed.trans_le hb) hk
    ongoing := fun hsome => ⟨(h.ongoing hsome).1, ho.resolve_left fun hnone => by simp [secondsDone, hnone] at hsome⟩ }

/-! ## Calls in a row (R205) -/

/-- A call that returns `Ok` passed the gate, and its count is that of the loop's steps. -/
theorem clockSeconds_ok {s t : State} {num den : Word32} {n : Nat} (h : s.Inv)
    (he : exec (.clockSeconds num den) s = .next t) (hr : t.result = some (.ok (.cycles n))) :
    CanStep s ∧ ∃ k, FirstAt 0 (SecondsEnd (secondsBudget num den s) s.chip) k ∧
      t = secondsDone (secondsBudget num den s) k s ∧ t.chip.cpu.corrupted = false ∧
      n = (stepsFrom k { chip := s.chip, cycles := 0 }).cycles := by
  by_cases hden : den = 0
  · simp only [exec, execClockSeconds, hden, if_true, Host.Outcome.next.injEq] at he
    subst he
    cases hr
  cases hg : gateStop s with
  | some u =>
    simp only [exec, execClockSeconds, hden, if_false, hg, Option.getD_some, Host.Outcome.next.injEq] at he
    subst he
    unfold gateStop at hg
    split at hg
    · cases hg; cases hr
    · split at hg
      · cases hg; cases hr
      · cases hg
  | none =>
    have hcan := canStep_of_gate h hg
    obtain ⟨k, hfirst, hdone⟩ := clockSeconds_done h.chip hcan.ready.corrupted num den
    rw [exec_clockSeconds hcan hden, hdone] at he
    cases he
    refine ⟨hcan, k, hfirst, rfl, ?_⟩
    simp only [secondsDone, Option.some.injEq] at hr ⊢
    split at hr
    · cases hr
    · next hc =>
      cases hr
      exact ⟨by simpa using hc, rfl⟩

/-- The first end of a budget, and from there the first end of what is added to its rest, is the first end of the sum. -/
theorem secondsEnd_add {c : Chip} {b b' : Rat} (hb : b ≤ b') {j k : Nat} (hj : FirstAt 0 (SecondsEnd b c) j)
    (hk : FirstAt 0 (SecondsEnd (b' - (stepsFrom j { chip := c, cycles := 0 }).cycles)
      (stepsFrom j { chip := c, cycles := 0 }).chip) k) : FirstAt 0 (SecondsEnd b' c) (j + k) := by
  have hlater : ∀ i, SecondsEnd b' c (j + i) ↔ SecondsEnd (b' - (stepsFrom j { chip := c, cycles := 0 }).cycles)
      (stepsFrom j { chip := c, cycles := 0 }).chip i := by
    intro i
    obtain ⟨hchip, hcycles⟩ := stepsFrom_cycles i (stepsFrom j { chip := c, cycles := 0 }).chip
      (stepsFrom j { chip := c, cycles := 0 }).cycles 0
    simp only [Nat.add_zero] at hchip hcycles
    unfold SecondsEnd
    rw [stepsFrom_add, hchip, hcycles, sub_le_iff_le_add']
    push_cast
    rfl
  refine ⟨Nat.zero_le _, (hlater k).2 hk.2.1, fun i _ hi => ?_⟩
  rcases Nat.lt_or_ge i j with hlt | hge
  · exact fun hend => hj.2.2 i (Nat.zero_le i) hlt (hend.imp_right hb.trans)
  · obtain ⟨m, rfl⟩ := Nat.exists_eq_add_of_le hge
    exact fun hend => hk.2.2 m (Nat.zero_le m) (by omega) ((hlater m).1 hend)

theorem secondsSum_nonneg : ∀ calls : List (Word32 × Word32), 0 ≤ secondsSum calls
  | [] => le_refl _
  | (num, den) :: rest => add_nonneg (by positivity) (secondsSum_nonneg rest)

/-- The budget of calls in a row, as one call would start with it. -/
def callsBudget (calls : List (Word32 × Word32)) (s : State) : Rat :=
  s.cyclesRemaining + (s.chip.regionParams.clockRate : Rat) * secondsSum calls

/-- Calls in a row that all return `Ok` take the steps that one call with their whole budget takes. -/
theorem secondsRun_done : ∀ (calls : List (Word32 × Word32)) {s t : State} {n : Nat}, s.Inv → CanStep s →
    secondsRun calls s = some (n, t) →
    ∃ k, FirstAt 0 (SecondsEnd (callsBudget calls s) s.chip) k ∧ t.chip.cpu.corrupted = false ∧
      n = (stepsFrom k { chip := s.chip, cycles := 0 }).cycles ∧
      ∀ r, { t with result := r } = { secondsDone (callsBudget calls s) k s with result := r } := by
  intro calls
  induction calls with
  | nil =>
    intro s t n h hcan hrun
    cases hrun
    have hspent : s.cyclesRemaining ≤ 0 :=
      not_lt.1 fun hpos => Bool.false_ne_true (hcan.ready.corrupted.symm.trans (h.budget hpos))
    refine ⟨0, ⟨le_refl 0, Or.inr ?_, fun j _ hj => absurd hj (Nat.not_lt_zero j)⟩, hcan.ready.corrupted, rfl, fun r => ?_⟩
    · simpa [callsBudget, secondsSum, stepsFrom] using hspent
    · simp [secondsDone, callsBudget, secondsSum, stepsFrom]
  | cons call rest ih =>
    obtain ⟨num, den⟩ := call
    intro s t n h hcan hrun
    simp only [secondsRun] at hrun
    split at hrun
    next u hu =>
      split at hrun
      next c hc =>
        obtain ⟨⟨m, t'⟩, hrest, hsum⟩ := Option.map_eq_some_iff.1 hrun
        cases hsum
        obtain ⟨-, j, hj, rfl, hok, rfl⟩ := clockSeconds_ok h hu hc
        have hinv := secondsDone_inv h (secondsBudget_ge num den s) hj (Or.inr hok)
        obtain ⟨-, hruns, -, -⟩ := stepsFrom_spec j (g := { chip := s.chip, cycles := 0 }) h.chip
        obtain ⟨k, hk, hend, rfl, ht⟩ := ih hinv ⟨hcan.loaded, hinv.chip, hok⟩ hrest
        have hbudget : callsBudget rest (secondsDone (secondsBudget num den s) j s) =
            callsBudget ((num, den) :: rest) s - (stepsFrom j { chip := s.chip, cycles := 0 }).cycles := by
          have hrate : (secondsDone (secondsBudget num den s) j s).chip.regionParams = s.chip.regionParams :=
            hruns.regionParams
          rw [callsBudget, hrate]
          simp only [callsBudget, secondsSum, secondsDone, secondsBudget]
          ring
        have hle : secondsBudget num den s ≤ callsBudget ((num, den) :: rest) s := by
          have := mul_nonneg (Nat.cast_nonneg (α := Rat) s.chip.regionParams.clockRate) (secondsSum_nonneg rest)
          simp only [callsBudget, secondsSum, secondsBudget]
          linarith
        obtain ⟨hchip, hcycles⟩ := stepsFrom_cycles k (stepsFrom j { chip := s.chip, cycles := 0 }).chip
          (stepsFrom j { chip := s.chip, cycles := 0 }).cycles 0
        simp only [Nat.add_zero] at hchip hcycles
        refine ⟨j + k, secondsEnd_add hle hj (hbudget ▸ hk), hend, ?_, fun r => (ht r).trans ?_⟩
        · rw [stepsFrom_add, hcycles]
          rfl
        · simp only [hbudget]
          simp only [secondsDone, stepsFrom_add, hchip, hcycles]
          push_cast
          rw [sub_sub]
      next => cases hrun
    next => cases hrun

/-- Settles O52: the calls' steps are those of one call with their sum, so it ends with the same state and count. -/
theorem phaseAccuracy : Obligations.PhaseAccuracy := by
  intro s t calls n num den h hne hrun hden hsum
  have hcan : CanStep s := by
    obtain ⟨⟨num', den'⟩, rest, rfl⟩ := List.exists_cons_of_ne_nil hne
    simp only [secondsRun] at hrun
    split at hrun
    next u hu =>
      split at hrun
      next c hc => exact (clockSeconds_ok h hu hc).1
      next => cases hrun
    next => cases hrun
  obtain ⟨k, hk, hok, rfl, ht⟩ := secondsRun_done calls h hcan hrun
  obtain ⟨k', hk', hdone⟩ := clockSeconds_done h.chip hcan.ready.corrupted num den
  have hbudget : secondsBudget num den s = callsBudget calls s := by rw [secondsBudget, callsBudget, hsum]
  rw [hbudget] at hk' hdone
  obtain rfl := hk.unique hk'
  rw [exec_clockSeconds hcan hden, hdone, ht]
  have hchip : (stepsFrom k { chip := s.chip, cycles := 0 }).chip.cpu.corrupted = false := by
    have := congrArg (fun u : State => u.chip.cpu.corrupted) (ht none)
    exact this.symm.trans hok
  simp only [secondsDone, hchip, Bool.false_eq_true, if_false]

end Sys2Proof.Machine

/-! PROOFS. What one step of the machine may change, said once for every word (10_state.md R31 to R35, R39, R52, R60), and what it
keeps: the ROMs, the invariant, and that there is a next state at all. -/

namespace Sys2Proof.Machine

open Sys2Proof

/-! ## A step and the instruction it runs -/

theorem exec_resolveInstr (m : Mapper) (i : Instr) (s : State) : exec (resolveInstr m i) s = exec i s := by
  cases i
  case cpuWrite a v => exact exec_asMapReg m a v s
  all_goals rfl

theorem step_of_decoded {s : State} {h : HostWord} {rest : List HostWord} {i : Instr} (ho : s.ongoing = none)
    (hp : s.pending = h :: rest) (hd : decodeHost h.word h.payload = .ok i) :
    step s = exec i { s with pending := rest } := by
  rw [step_of_pending ho hp, runWord, hostInstr, hd]
  exact exec_resolveInstr _ _ _

theorem step_of_undecoded {s : State} {h : HostWord} {rest : List HostWord} {e : DecodeError} (ho : s.ongoing = none)
    (hp : s.pending = h :: rest) (hd : decodeHost h.word h.payload = .error e) :
    step s = .next ({ s with pending := rest }.refuse .illegalCommand) := by
  rw [step_of_pending ho hp]
  exact runWord_of_error hd _

theorem step_of_ongoing {s : State} {o : Ongoing} (ho : s.ongoing = some o) : step s = .next (runLoop o.loop o.cycles s) := by
  rw [step, ho]
  rfl

theorem step_of_idle {s : State} (ho : s.ongoing = none) (hp : s.pending = []) : step s = .next s := by
  rw [step, ho, hp]

/-- Settles O5: a register row runs as the CPU write it is, so both readings of a word have one effect. -/
theorem stepRunsDecoded : Obligations.StepRunsDecoded := by
  refine ⟨fun s o ho => step_of_ongoing ho, fun s ho hp => step_of_idle ho hp, fun s h rest i ho hp hd => ?_⟩
  exact ⟨step_of_decoded ho hp hd, (step_of_decoded ho hp hd).trans (exec_resolveInstr _ _ _).symm⟩

/-! ## What a word's step may change -/

/-- The ROMs, the descriptor and the board's variant are as before (R49, R52, R54, R55). -/
structure SameRoms (c d : Chip) : Prop where
  prgRom   : d.cart.prgRom = c.cart.prgRom := by rfl
  desc     : d.cart.desc = c.cart.desc := by rfl
  chrIsRam : d.ppubus.chrIsRam = c.ppubus.chrIsRam := by rfl
  chrRom   : c.ppubus.chrIsRam = false → d.ppubus.chr = c.ppubus.chr := by exact fun _ => rfl
  variant  : (boardIdentity d.mapper).map Prod.snd = (boardIdentity c.mapper).map Prod.snd := by rfl

theorem SameRoms.trans {c d e : Chip} (h : SameRoms c d) (k : SameRoms d e) : SameRoms c e where
  prgRom := k.prgRom.trans h.prgRom
  desc := k.desc.trans h.desc
  chrIsRam := k.chrIsRam.trans h.chrIsRam
  chrRom := fun hr => (k.chrRom (h.chrIsRam.trans hr)).trans (h.chrRom hr)
  variant := k.variant.trans h.variant

theorem Runs.sameRoms {c d : Chip} (h : Runs c d) : SameRoms c d where
  prgRom := h.prgRom
  desc := h.desc
  chrIsRam := h.chrIsRam
  chrRom := h.chrRom
  variant := congrArg (Option.map Prod.snd) h.identity

/-- Who writes what: `op` is the word's code (R31 to R35, R39, R52, R60). A command in progress writes as CLOCK_FRAME does. -/
structure WordEffect (op : Byte) (s t : State) : Prop where
  pending        : t.pending = s.pending := by rfl
  params         : t.chip.params = s.chip.params := by rfl
  refused        : s.refused = true → t.refused = true := by exact id
  deck           : op ∉ ([0x10, 0x11] : List Byte) →
                     t.running = s.running ∧ t.loadedRom = s.loadedRom ∧ t.batteryBacked = s.batteryBacked := by
                   exact fun _ => ⟨rfl, rfl, rfl⟩
  corrupts       : op ∉ ([0x01, 0x02, 0x03, 0x04] : List Byte) → t.chip.cpu.corrupted = true →
                     s.chip.cpu.corrupted = true := by exact fun _ => id
  keepsCorrupted : op ∉ ([0x10, 0x12] : List Byte) → s.chip.cpu.corrupted = true → t.chip.cpu.corrupted = true := by
                   exact fun _ => id
  budget         : op ∉ ([0x02, 0x10, 0x12] : List Byte) → t.cyclesRemaining = s.cyclesRemaining := by exact fun _ => rfl
  samples        : op ≠ 0x28 → ∃ l, t.chip.apu.samples = s.chip.apu.samples ++ l := by
                   exact fun _ => ⟨[], (List.append_nil _).symm⟩
  ongoing        : op ∉ ([0x03, 0x04] : List Byte) → t.ongoing = s.ongoing := by exact fun _ => rfl
  roms           : op ∉ ([0x10, 0x11] : List Byte) → SameRoms s.chip t.chip := by exact fun _ => {}

theorem begin_quiet (c : Chip) : Quiet c c.begin where
  inv := fun h => by rw [begin_of_noRefusal h.noRefusal]; exact h

theorem refuse_effect (op : Byte) (s : State) (r : RefuseReason) : WordEffect op s (s.refuse r) where
  refused := fun _ => rfl

/-- A command that only runs transactions, which may set the mark of a refusal (log 2). -/
theorem commit_effect (op : Byte) {s : State} {c : Chip} (h : Quiet s.chip c) (r : Result) : WordEffect op s (s.commit c r) where
  params := h.params
  refused := fun hr => Bool.or_eq_true_iff.2 (Or.inl hr)
  corrupts := fun _ hc => h.corrupted.symm.trans hc
  keepsCorrupted := fun _ hc => h.corrupted.trans hc
  samples := fun _ => h.samples
  roms := fun _ => (h.trans (begin_quiet c)).toRuns.sameRoms

theorem gateStop_effect (op : Byte) {s t : State} (h : gateStop s = some t) : WordEffect op s t := by
  unfold gateStop at h
  split at h
  · cases h
    exact refuse_effect op s _
  · split at h
    · cases h
      exact {}
    · cases h

/-! ## Stepping -/

/-- Steps of the control unit: what they keep, and that none of them clears the corrupted flag (R39). -/
structure Steps (c d : Chip) : Prop extends Runs c d where
  keepsCorrupted : c.cpu.corrupted = true → d.cpu.corrupted = true

theorem Steps.trans {c d e : Chip} (h : Steps c d) (k : Steps d e) : Steps c e :=
  ⟨h.toRuns.trans k.toRuns, fun hc => k.keepsCorrupted (h.keepsCorrupted hc)⟩

theorem Quiet.steps {c d : Chip} (h : Quiet c d) : Steps c d := ⟨h.toRuns, fun hc => h.corrupted.trans hc⟩

theorem cpuStep_steps (c : Chip) : Steps c (cpuStep c).chip :=
  ⟨cpuStep_runs c, fun hc => by rw [cpuStep_corrupted, hc, Bool.true_or]⟩

theorem runUntil_steps (loop : ClockLoop) : ∀ (fuel : Nat) (g : Stepped), Steps g.chip (runUntil loop fuel g).1.chip
  | 0, g => (Quiet.refl g.chip).steps
  | fuel + 1, g => by
    simp only [runUntil]
    split
    · exact cpuStep_steps g.chip
    · exact (cpuStep_steps g.chip).trans
        (runUntil_steps loop fuel { chip := (cpuStep g.chip).chip, cycles := g.cycles + (cpuStep g.chip).cycles })

theorem secondsLoop_steps : ∀ (fuel : Nat) (g : Budget), Steps g.chip (secondsLoop fuel g).chip
  | 0, g => (Quiet.refl g.chip).steps
  | fuel + 1, g => by
    simp only [secondsLoop]
    split
    · split
      · exact cpuStep_steps g.chip
      · exact (cpuStep_steps g.chip).trans (secondsLoop_steps fuel
          { chip := (cpuStep g.chip).chip, remain := g.remain - ((cpuStep g.chip).cycles : Rat),
            total := g.total + (cpuStep g.chip).cycles })
    · exact (Quiet.refl g.chip).steps

/-- A stepping command past its gate; the budget moves with CLOCK_SECONDS only (R34). -/
theorem steps_effect {op : Byte} (hop : op ∈ ([0x01, 0x02, 0x03, 0x04] : List Byte)) {s : State} {c : Chip} {b : Rat}
    (hb : op = 0x02 ∨ b = s.cyclesRemaining) (h : Steps s.chip c) (r : Result) :
    WordEffect op s ({ s with cyclesRemaining := b }.commit c r) where
  params := h.params
  refused := fun hr => Bool.or_eq_true_iff.2 (Or.inl hr)
  corrupts := fun hout => absurd hop hout
  keepsCorrupted := fun _ => h.keepsCorrupted
  budget := fun hout => hb.resolve_left fun h2 => hout (by rw [h2]; decide)
  samples := fun _ => h.samples
  roms := fun _ => (h.toRuns.trans (begin_quiet c).toRuns).sameRoms

theorem runLoop_effect {op : Byte} (hop : op ∈ ([0x03, 0x04] : List Byte)) (loop : ClockLoop) (n : Nat) (s : State) :
    WordEffect op s (runLoop loop n s) := by
  have h := (begin_quiet s.chip).steps.trans (runUntil_steps loop (loopFuel s.chip) { chip := s.chip.begin, cycles := n })
  have hstepping : op ∈ ([0x01, 0x02, 0x03, 0x04] : List Byte) := List.mem_cons_of_mem _ (List.mem_cons_of_mem _ hop)
  unfold runLoop
  dsimp only
  split
  · have e := steps_effect hstepping (s := { s with ongoing := none }) (b := s.cyclesRemaining) (Or.inr rfl) h
    unfold endStep
    exact { e _ with ongoing := fun hout => absurd hop hout }
  · exact {
      params := h.params
      corrupts := fun hout => absurd hstepping hout
      keepsCorrupted := fun _ => h.keepsCorrupted
      samples := fun _ => h.samples
      ongoing := fun hout => absurd hop hout
      roms := fun _ => h.toRuns.sameRoms }

/-- A stepping command is its gate's end or what follows the gate (R200). -/
theorem gated_effect {op : Byte} {s t : State} (h : WordEffect op s t) : WordEffect op s ((gateStop s).getD t) := by
  cases hg : gateStop s with
  | some u => exact gateStop_effect op hg
  | none => exact h

/-! ## Resets and cartridges -/

theorem resetSequence_runs (c : Chip) : Runs c (resetSequence c) :=
  (cpuProg_run (resetProg c.cpu.regs) c).1.toRuns.trans (setRegs_runs _ _)

theorem softReset_runs (c : Chip) : Runs c (softReset c) := (softResetStart_runs c).trans (resetSequence_runs _)

theorem softReset_corrupted (c : Chip) : (softReset c).cpu.corrupted = false := by
  rw [softReset, resetSequence_corrupted, softResetStart_cpu]

theorem hardReset_runs (b : Bool) (c : Chip) : Runs (hardResetBoard b c) (hardReset b c) :=
  (hardResetStart_quiet b c).toRuns.trans (resetSequence_runs _)

theorem hardReset_corrupted (b : Bool) (c : Chip) : (hardReset b c).cpu.corrupted = false := by
  rw [hardReset, resetSequence_corrupted, hardResetStart_cpu]
  rfl

theorem hardResetBoard_identity (b : Bool) (c : Chip) : boardIdentity (hardResetBoard b c).mapper = boardIdentity c.mapper := by
  simp [hardResetBoard, Chip.refreshMirror]

theorem hardResetBoard_sameRoms (b : Bool) (c : Chip) : SameRoms c (hardResetBoard b c) where
  chrRom := fun hr => by simp [hardResetBoard, hardResetPools, Chip.refreshMirror, hr]
  variant := by rw [hardResetBoard_identity]

/-- What a reset of either kind leaves of what LOAD_ROM set, and of the audio samples (R571, R573, R578). -/
structure ResetKeeps (c d : Chip) : Prop extends SameRoms c d where
  params    : d.params = c.params
  samples   : ∃ l, d.apu.samples = c.apu.samples ++ l
  corrupted : d.cpu.corrupted = false

theorem hardReset_keeps (b : Bool) (c : Chip) : ResetKeeps c (hardReset b c) where
  toSameRoms := (hardResetBoard_sameRoms b c).trans (hardReset_runs b c).sameRoms
  params := (hardReset_runs b c).params
  samples := (hardReset_runs b c).samples
  corrupted := hardReset_corrupted b c

theorem resetChip_keeps : ∀ (k : ResetKind) (b : Bool) (c : Chip), ResetKeeps c (resetChip k b c)
  | .soft, _, c =>
    { toSameRoms := (softReset_runs c).sameRoms
      params := (softReset_runs c).params
      samples := (softReset_runs c).samples
      corrupted := softReset_corrupted c }
  | .hard, b, c => hardReset_keeps b c

theorem reset_effect (k : ResetKind) (s : State) : ∃ t, exec (.reset k) s = .next t ∧ WordEffect 0x12 s t := by
  refine ⟨_, rfl, ?_⟩
  split
  · exact refuse_effect _ s _
  · have h := resetChip_keeps k s.batteryBacked s.chip.begin
    exact {
      params := h.params
      refused := fun hr => Bool.or_eq_true_iff.2 (Or.inl hr)
      corrupts := fun _ hc => absurd (h.corrupted.symm.trans hc) (by decide)
      keepsCorrupted := fun hout => absurd (by decide) hout
      budget := fun hout => absurd (by decide) hout
      samples := fun _ => h.samples
      roms := fun _ => ((begin_quiet _).toRuns.sameRoms.trans h.toSameRoms).trans (begin_quiet _).toRuns.sameRoms }

theorem loadRom_effect (name : Text) (d : Descriptor) (s : State) :
    ∃ t, exec (.loadRom name d) s = .next t ∧ WordEffect 0x10 s t := by
  refine ⟨_, rfl, ?_⟩
  cases validate d with
  | some e => exact {}
  | none =>
    have h := hardReset_keeps d.battery (s.chip.begin.load d)
    exact {
      params := h.params
      refused := fun hr => Bool.or_eq_true_iff.2 (Or.inl hr)
      deck := fun hout => absurd (by decide) hout
      corrupts := fun _ hc => absurd (h.corrupted.symm.trans hc) (by decide)
      keepsCorrupted := fun hout => absurd (by decide) hout
      budget := fun hout => absurd (by decide) hout
      samples := fun _ => h.samples
      roms := fun hout => absurd (by decide) hout }

theorem setRegion_variant (r : Region) (m : Mapper) :
    (boardIdentity (m.setRegion r)).map Prod.snd = (boardIdentity m).map Prod.snd := by
  cases m <;> rfl

theorem setRevision_variant (r : Revision) (m : Mapper) :
    (boardIdentity (m.setRevision r)).map Prod.snd = (boardIdentity m).map Prod.snd := by
  cases m <;> rfl

/-! ## Every word -/

/-- Every word that decodes runs to a next state, within what its code may change. -/
theorem exec_effect {w : Word32} {p : Payload} {i : Instr} (h : i.CarriedBy (.host w p)) (s : State) :
    ∃ t, exec i s = .next t ∧ WordEffect (opField w) s t := by
  obtain ⟨-, hcode⟩ := h
  cases i <;> simp only [encode] at hcode <;> cases hcode <;> simp only [opWord, opField_mkWord]
  case clockInstr =>
    exact ⟨_, rfl, gated_effect (steps_effect (by decide) (Or.inr rfl) ((begin_quiet s.chip).steps.trans (cpuStep_steps _)) _)⟩
  case clockSeconds num den =>
    refine ⟨_, rfl, ?_⟩
    split
    · exact refuse_effect _ s _
    · exact gated_effect (steps_effect (by decide) (Or.inl rfl)
        ((begin_quiet s.chip).steps.trans (secondsLoop_steps _ { chip := s.chip.begin, .. })) _)
  case clockFrame => exact ⟨_, rfl, gated_effect (runLoop_effect (by decide) _ _ s)⟩
  case clockScanline => exact ⟨_, rfl, gated_effect (runLoop_effect (by decide) _ _ s)⟩
  case loadRom name d => exact loadRom_effect name d s
  case unloadRom =>
    exact ⟨_, rfl, { deck := fun hout => absurd (by decide) hout, roms := fun hout => absurd (by decide) hout }⟩
  case reset k => exact reset_effect k s
  case loadSram b =>
    refine ⟨_, rfl, ?_⟩
    split <;> exact {}
  case setRegion r => 
    exact ⟨_, rfl, { roms := fun _ => { variant := setRegion_variant r _ } }⟩
  case setMapperRevision r =>
    exact ⟨_, rfl, { roms := fun _ => { variant := setRevision_variant r _ } }⟩
  case clearAudioSamples => exact ⟨_, rfl, { samples := fun hne => absurd rfl hne }⟩
  case addGenie code =>
    refine ⟨_, rfl, ?_⟩
    split <;> exact {}
  case cpuRead a => exact ⟨_, rfl, commit_effect _ ((begin_quiet s.chip).trans (cpuRead_quiet a _)) _⟩
  case cpuWrite a v => exact ⟨_, rfl, commit_effect _ ((begin_quiet s.chip).trans (cpuWrite_quiet a v _)) _⟩
  case ppuRead a => exact ⟨_, rfl, commit_effect _ ((begin_quiet s.chip).trans (ppuRead_quiet a _)) _⟩
  case ppuWrite a v => exact ⟨_, rfl, commit_effect _ ((begin_quiet s.chip).trans (ppuWrite_quiet a v _)) _⟩
  case ppuPeek a =>
    refine ⟨_, rfl, ?_⟩
    split
    · exact refuse_effect _ s _
    · exact {}
  all_goals exact ⟨_, rfl, {}⟩

theorem effect_of_ongoing {s t : State} {o : Ongoing} (ho : s.ongoing = some o) (hs : step s = .next t) :
    WordEffect 0x03 s t := by
  cases (step_of_ongoing ho).symm.trans hs
  exact runLoop_effect (by decide) _ _ s

theorem effect_of_pending {s t : State} {h : HostWord} {rest : List HostWord} (ho : s.ongoing = none)
    (hp : s.pending = h :: rest) (hs : step s = .next t) : WordEffect (opField h.word) { s with pending := rest } t := by
  cases hd : decodeHost h.word h.payload with
  | error e =>
    cases (step_of_undecoded ho hp hd).symm.trans hs
    exact refuse_effect _ _ _
  | ok i =>
    obtain ⟨u, hu, he⟩ := exec_effect (decodeHost_carried hd) { s with pending := rest }
    cases ((step_of_decoded ho hp hd).symm.trans hs).symm.trans hu
    exact he

/-- Settles O56: only LOAD_ROM and UNLOAD_ROM are outside the ROM clause of what a word may write. -/
theorem romNeverWritten : Obligations.RomNeverWritten := by
  intro s t hs hop
  have hroms : SameRoms s.chip t.chip := by
    rcases ho : s.ongoing with _ | o
    · rcases hp : s.pending with _ | ⟨h, rest⟩
      · cases (step_of_idle ho hp).symm.trans hs
        exact {}
      · obtain ⟨hload, hunload⟩ := hop ho h (by rw [hp]; rfl)
        refine (effect_of_pending ho hp hs).roms fun hmem => ?_
        rcases List.mem_pair.1 hmem with heq | heq
        · exact hload heq
        · exact hunload heq
    · exact (effect_of_ongoing ho hs).roms (by decide)
  exact ⟨hroms.prgRom, hroms.desc, hroms.chrIsRam, hroms.chrRom, hroms.variant⟩

/-- Settles O57, from what each word may write; a command in progress writes as CLOCK_FRAME does. -/
theorem deckWriters : Obligations.DeckWriters := by
  refine ⟨fun s t o ho hs => ?_, fun s t h rest ho hp hs => ?_⟩
  · have e := effect_of_ongoing ho hs
    obtain ⟨hrun, hrom, hbattery⟩ := e.deck (by decide)
    exact ⟨e.pending, e.params, e.refused, hrun, hrom, hbattery, e.budget (by decide), e.keepsCorrupted (by decide),
      e.samples (by decide)⟩
  · have e := effect_of_pending ho hp hs
    exact ⟨e.pending, e.params, e.refused, e.deck, e.corrupts, e.keepsCorrupted, e.budget, e.samples,
      fun hop => (e.ongoing hop).trans ho⟩

/-! ## The invariant -/

theorem commit_inv {s : State} (h : s.Inv) {c : Chip} (hr : Runs s.chip c)
    (hc : (s.chip.cpu.corrupted = false ∧ s.ongoing = none) ∨ c.cpu.corrupted = s.chip.cpu.corrupted) (r : Result) :
    (s.commit c r).Inv := by
  rw [commit_of_noRefusal s (hr.inv h.chip).noRefusal]
  exact inv_ofRuns h hr _ hc

theorem transaction_inv {s : State} (h : s.Inv) {c : Chip} (hq : Quiet s.chip.begin c) (r : Result) : (s.commit c r).Inv :=
  commit_inv h ((begin_quiet s.chip).trans hq).toRuns (Or.inr ((begin_quiet s.chip).trans hq).corrupted) r

theorem gated_inv {s t : State} (h : s.Inv) (ht : CanStep s → t.Inv) : ((gateStop s).getD t).Inv := by
  cases hg : gateStop s with
  | some u => exact gateStop_inv h hg
  | none => exact ht (canStep_of_gate h hg)

theorem clockSeconds_inv {s : State} (h : s.Inv) (ho : s.ongoing = none) (num den : Word32) (hc : CanStep s) :
    (clockSeconds num den s).Inv := by
  obtain ⟨k, hk, hdone⟩ := clockSeconds_done h.chip hc.ready.corrupted num den
  rw [hdone]
  exact secondsDone_inv h (secondsBudget_ge num den s) hk (Or.inl ho)

/-- A loop whose command may be in progress: the processor is not corrupted, so nothing is owed (R200, R34). -/
theorem runLoop_inv {s : State} (h : s.Inv) (loop : ClockLoop) (n : Nat) (hl : s.loadedRom.isSome = true)
    (hc : s.chip.cpu.corrupted = false) : (runLoop loop n s).Inv := by
  have hdone : State.Inv { s with ongoing := none } := { h with ongoing := fun hsome => absurd hsome Bool.false_ne_true }
  have hsteps := fun k => (stepsFrom_spec k (g := { chip := s.chip, cycles := n }) h.chip).2.1
  rcases runLoop_spec loop n h.chip with ⟨k, -, -, hend⟩ | ⟨hgoes, hend⟩
  · rw [hend]
    exact inv_ofRuns hdone (hsteps k) _ (Or.inl ⟨hc, rfl⟩)
  · have hstill : (stepsFrom (loopFuel s.chip) { chip := s.chip, cycles := n }).chip.cpu.corrupted = false := by
      have := hgoes (loopFuel s.chip) (loopFuel_pos s.chip) (le_refl _)
      simpa [LoopEnds] using fun hcor => this (Or.inl hcor)
    rw [hend]
    exact { inv_ofRuns hdone (hsteps (loopFuel s.chip)) none (Or.inl ⟨hc, rfl⟩) with ongoing := fun _ => ⟨hl, hstill⟩ }

/-- The machine after a command that drops the budget and leaves the cartridge and the chip in order (R250, R575). -/
theorem inv_ofReset {s : State} {c : Chip} (hi : c.Inv) (ho : s.ongoing = none) (hrun : s.running = s.loadedRom.isSome)
    (hl : s.loadedRom.isSome = c.mapper.kind.isSome)
    (hb : s.batteryBacked = match c.cart.desc with | none => false | some d => d.battery) (r : Result) :
    ({ s with cyclesRemaining := 0 }.commit c r).Inv := by
  rw [commit_of_noRefusal _ hi.noRefusal]
  exact {
    chip := hi
    running := hrun
    loaded := hl
    battery := hb
    budget := fun hpos => absurd hpos (lt_irrefl 0)
    owed := by
      have hmax := (Params.ok_bounds hi.params).2.2.1
      exact neg_lt_zero.2 (by exact_mod_cast (by omega : 0 < c.params.maxStepCycles))
    ongoing := fun hsome => absurd hsome (by rw [ho]; decide) }

theorem resetChip_inv {c : Chip} (h : c.Inv) (k : ResetKind) (b : Bool) :
    (resetChip k b c).Inv ∧ (resetChip k b c).mapper.kind = c.mapper.kind := by
  cases k with
  | soft => exact ⟨(softReset_runs c).inv h, kind_of_identity (softReset_runs c).identity⟩
  | hard =>
    have hr := hardReset_runs b c
    exact ⟨hr.inv (hardResetBoard_inv b h), kind_of_identity (hr.identity.trans (hardResetBoard_identity b c))⟩

theorem reset_inv {s t : State} (h : s.Inv) (ho : s.ongoing = none) {k : ResetKind} (ht : exec (.reset k) s = .next t) :
    t.Inv := by
  cases ht
  split
  · exact inv_hostSide h _ _ _
  · rw [begin_of_noRefusal h.chip.noRefusal]
    obtain ⟨hi, hk⟩ := resetChip_inv h.chip k s.batteryBacked
    refine inv_ofReset hi ho h.running (h.loaded.trans (congrArg _ hk.symm)) ?_ _
    rw [(resetChip_keeps k s.batteryBacked s.chip).desc]
    exact h.battery

theorem load_kind {d : Descriptor} (h : validate d = none) (c : Chip) : (c.load d).mapper.kind.isSome = true := by
  obtain ⟨regs, hregs⟩ := validate_board h
  simp [Chip.load, Chip.insert, Chip.selectRegion, Chip.initPrgRam, selectBoard, hregs, Mapper.setRegion, Mapper.kind]

theorem loadRom_inv {s t : State} (h : s.Inv) (ho : s.ongoing = none) {name : Text} {d : Descriptor} (hw : d.wf = true)
    (ht : exec (.loadRom name d) s = .next t) : t.Inv := by
  cases ht
  cases hv : validate d with
  | some e => exact inv_hostSide h _ _ _
  | none =>
    obtain ⟨hdone, hi⟩ := load_spec h.chip hw hv
    have hk := kind_of_identity (hdone.runs.identity.trans (hardResetBoard_identity d.battery (s.chip.load d)))
    simp only [loadValid, begin_of_noRefusal h.chip.noRefusal]
    exact inv_ofReset (s := { s with running := true, loadedRom := some name, batteryBacked := d.battery }) hi ho rfl
      (by rw [hk, load_kind hv]; rfl) (by rw [hdone.runs.desc]; rfl) _

theorem unloadRom_inv {s t : State} (h : s.Inv) (ho : s.ongoing = none) (ht : exec .unloadRom s = .next t) : t.Inv := by
  cases ht
  exact {
    chip := unload_inv h.chip
    running := rfl
    loaded := rfl
    battery := rfl
    budget := h.budget
    owed := h.owed
    ongoing := fun hsome => absurd ((congrArg Option.isSome ho).symm.trans hsome) Bool.false_ne_true }

theorem setChip_inv {s : State} (h : s.Inv) {c : Chip} (hi : c.Inv) (hk : c.mapper.kind = s.chip.mapper.kind)
    (hd : c.cart.desc = s.chip.cart.desc) (hc : c.cpu.corrupted = s.chip.cpu.corrupted) (hp : c.params = s.chip.params) :
    (s.setChip c).Inv := inv_ofChip h _ hi hk hd hc hp

theorem setRegion_kind (r : Region) (m : Mapper) : (m.setRegion r).kind = m.kind := by cases m <;> rfl

theorem setRevision_kind (r : Revision) (m : Mapper) : (m.setRevision r).kind = m.kind := by cases m <;> rfl

/-- The audio unit and the inputs are under no condition. -/
theorem Chip.Inv.setUnits {c : Chip} (h : c.Inv) (a : Apu) (i : Input) : Chip.Inv { c with apu := a, input := i } := h.congr

theorem Chip.Inv.setPrgRam {c : Chip} (h : c.Inv) {b : Memory} (hb : b.wf = true ∧ b.size = c.cart.prgRam.size) :
    Chip.Inv { c with cart := { c.cart with prgRam := b } } := h.congr (hram := hb)

/-- Every word that decodes keeps the invariant, no command being in progress. -/
theorem exec_inv {w : Word32} {p : Payload} {i : Instr} (hi : i.CarriedBy (.host w p)) {s t : State} (h : s.Inv)
    (ho : s.ongoing = none) (ht : exec i s = .next t) : t.Inv := by
  obtain ⟨hwf, hcode⟩ := hi
  cases i <;> simp only [encode] at hcode <;> cases hcode
  case clockInstr =>
    cases ht
    refine gated_inv h fun hc => commit_inv h ((begin_quiet s.chip).toRuns.trans (cpuStep_runs _)) ?_ _
    exact Or.inl ⟨hc.ready.corrupted, ho⟩
  case clockSeconds num den =>
    cases ht
    split
    · exact inv_hostSide h _ _ _
    · exact gated_inv h fun hc => clockSeconds_inv h ho num den hc
  case clockFrame => cases ht; exact gated_inv h fun hc => runLoop_inv h _ _ hc.loaded hc.ready.corrupted
  case clockScanline => cases ht; exact gated_inv h fun hc => runLoop_inv h _ _ hc.loaded hc.ready.corrupted
  case loadRom name d => exact loadRom_inv h ho hwf ht
  case unloadRom => exact unloadRom_inv h ho ht
  case reset k => exact reset_inv h ho ht
  case loadSram b =>
    cases ht
    split
    · next hsize =>
      have hb : b.wf = true ∧ b.size = s.chip.cart.prgRam.size := ⟨hwf, by simpa using (Bool.and_eq_true_iff.1 hsize).2⟩
      exact inv_ofChip h _ (h.chip.setPrgRam hb) rfl rfl rfl rfl
    · exact inv_hostSide h _ _ _
  case setRegion r => cases ht; exact setChip_inv h (setRegion_inv h.chip r) (setRegion_kind r _) rfl rfl rfl
  case setMapperRevision r => cases ht; exact setChip_inv h (setRevision_inv h.chip r) (setRevision_kind r _) rfl rfl rfl
  case setFourPlayer m => cases ht; exact setChip_inv h (setConfig_inv h.chip _ rfl rfl) rfl rfl rfl rfl
  case setFilter f => cases ht; exact setChip_inv h (setConfig_inv h.chip _ rfl rfl) rfl rfl rfl rfl
  case setRamState r => cases ht; exact setChip_inv h (setConfig_inv h.chip _ rfl rfl) rfl rfl rfl rfl
  case connectZapper e =>
    cases ht
    have hset := setConfig_inv h.chip { s.chip.config with zapperEnabled := e } rfl rfl
    exact setChip_inv h (hset.setUnits _ _) rfl rfl rfl rfl
  case aimZapper x y => cases ht; exact setChip_inv h (h.chip.setUnits _ _) rfl rfl rfl rfl
  case triggerZapper => cases ht; exact setChip_inv h (h.chip.setUnits _ _) rfl rfl rfl rfl
  case toggleApuChannel c => cases ht; exact setChip_inv h (h.chip.setUnits _ _) rfl rfl rfl rfl
  case clearAudioSamples => cases ht; exact setChip_inv h (h.chip.setUnits _ _) rfl rfl rfl rfl
  case setJoypad player mask => cases ht; exact setChip_inv h (h.chip.setUnits _ _) rfl rfl rfl rfl
  case addGenie code =>
    cases ht
    split
    · exact inv_hostSide h _ _ _
    · next g hg =>
      exact setChip_inv h (setGenie_inv h.chip (genieAdd_nodup h.chip.genieOnce g) (genieAdd_codes h.chip.genieCodes hg))
        rfl rfl rfl rfl
  case removeGenie code =>
    cases ht
    exact setChip_inv h (setGenie_inv h.chip (genieWithout_nodup h.chip.genieOnce code)
      fun e he => h.chip.genieCodes e (List.mem_of_mem_filter he)) rfl rfl rfl rfl
  case cpuRead a => cases ht; exact transaction_inv h (cpuRead_quiet a _) _
  case cpuWrite a v => cases ht; exact transaction_inv h (cpuWrite_quiet a v _) _
  case ppuRead a => cases ht; exact transaction_inv h (ppuRead_quiet a _) _
  case ppuWrite a v => cases ht; exact transaction_inv h (ppuWrite_quiet a v _) _
  case ppuPeek a =>
    cases ht
    split
    · exact inv_hostSide h _ _ _
    · exact inv_hostSide h _ _ _
  all_goals
    cases ht
    exact inv_hostSide h _ _ _

/-- Settles O59: the words, and the command in progress, each keep the invariant. -/
theorem stepKeepsInvariant : Obligations.StepKeepsInvariant := by
  intro s t h hs
  rcases ho : s.ongoing with _ | o
  · rcases hp : s.pending with _ | ⟨w, rest⟩
    · cases (step_of_idle ho hp).symm.trans hs
      exact h
    · have hrest : State.Inv { s with pending := rest } := inv_hostSide h s.refused rest s.result
      cases hd : decodeHost w.word w.payload with
      | error e =>
        cases (step_of_undecoded ho hp hd).symm.trans hs
        exact inv_hostSide h _ _ _
      | ok i => exact exec_inv (decodeHost_carried hd) hrest ho ((step_of_decoded ho hp hd).symm.trans hs)
  · cases (step_of_ongoing ho).symm.trans hs
    obtain ⟨hloaded, hcorrupted⟩ := h.ongoing (by rw [ho]; rfl)
    exact runLoop_inv h _ _ hloaded hcorrupted

/-! ## Progress -/

theorem exec_next (i : Instr) (s : State) : ∃ t, exec i s = .next t := by
  cases i <;> exact ⟨_, rfl⟩

/-- Every step answers a next state under the same parameters, whatever the state. -/
theorem step_next (s : State) : ∃ t, step s = .next t ∧ t.chip.params = s.chip.params := by
  rcases ho : s.ongoing with _ | o
  · rcases hp : s.pending with _ | ⟨w, rest⟩
    · exact ⟨s, step_of_idle ho hp, rfl⟩
    · obtain ⟨t, ht⟩ : ∃ t, step s = .next t := by
        cases hd : decodeHost w.word w.payload with
        | error e => exact ⟨_, step_of_undecoded ho hp hd⟩
        | ok i => rw [step_of_decoded ho hp hd]; exact exec_next _ _
      exact ⟨t, ht, (effect_of_pending ho hp ht).params⟩
  · exact ⟨_, step_of_ongoing ho, (effect_of_ongoing ho (step_of_ongoing ho)).params⟩

/-- Settles O60. -/
theorem stepNeverStops : Obligations.StepNeverStops := by
  refine ⟨exec_next, fun s h => ?_⟩
  obtain ⟨t, ht, hparams⟩ := step_next s
  exact ⟨t, ht, stepKeepsInvariant s t h ht, hparams⟩

end Sys2Proof.Machine

/-! PROOFS. 40_deck_clocking.md section 2 and 60_exceptions.md section 2: one step of the control unit, its cycle count, the
interrupts and the return from one, STA, and the opcodes that no rule fixes. -/

namespace Sys2Proof.Machine

open Sys2Proof

/-! ## The two kinds of step (R210, R216) -/

theorem cpuStep_of_pending {c : Chip} {k : Interrupt} (h : pendingInterrupt c = some k) :
    cpuStep c = interruptEntry k c := by
  rw [cpuStep, h]

theorem cpuStep_of_none {c : Chip} (h : pendingInterrupt c = none) :
    cpuStep c = runOpcode (fetchOpcode c).2 (fetchOpcode c).1 := by
  rw [cpuStep, h]

/-- R201 on a machine in order. -/
theorem exec_clockInstr {s : State} (h : CanStep s) : exec .clockInstr s = .next { s with
    chip := (cpuStep s.chip).chip
    result := some (if (cpuStep s.chip).chip.cpu.corrupted then .err .cpuCorrupted
      else .ok (.cycles (cpuStep s.chip).cycles)) } := by
  simp only [exec, execClockInstr, gate_passes h, Option.getD_none, begin_of_noRefusal h.ready.inv.noRefusal,
    endStep_ok (cpuStep_inv h.ready.inv).noRefusal]

/-- Settles O6: `cpuStep`'s two cases are the entry and the fetched row, whose state differs from the step's in the chip alone. -/
theorem clockInstrRunsOneStep : Obligations.ClockInstrRunsOneStep := by
  refine ⟨fun s hrom hc => ?_, fun s hcan => ?_⟩
  · have hgate : gateStop s = none := by
      obtain ⟨n, hn⟩ := Option.isSome_iff_exists.1 hrom
      simp [gateStop, hn, hc]
    have hexec : exec .clockInstr s = .next (endStep s (cpuStep s.chip.begin)) := by
      simp only [exec, execClockInstr, hgate, Option.getD_none]
    refine ⟨fun k hk => ?_, fun hnone => ?_⟩
    · rw [hexec, cpuStep_of_pending (c := s.chip.begin) hk]
    · rw [hexec, cpuStep_of_none (c := s.chip.begin) hnone, exec_decodeOpc]
      rfl
  · have hstep := cpuStep_spec hcan.ready.inv.params
    exact ⟨_, (cpuStep s.chip).cycles, exec_clockInstr hcan, hstep.positive, hstep.cycle,
      ⟨rfl, rfl, rfl, rfl, rfl, rfl, rfl⟩, rfl⟩

/-- Settles O8: a step's count is its program's operations, and the fetch is one more. -/
theorem stepCycles : Obligations.StepCycles := by
  intro c hp
  have hstep := cpuStep_spec hp
  have hparams := (fetchOpcode_spec c).1.params
  refine ⟨hstep.cycle, hstep.positive, hstep.bounded, fun hk => ?_, fun hnone hin => ?_, fun hnone hout => ?_⟩
  · obtain ⟨k, hk⟩ := Option.isSome_iff_exists.1 hk
    rw [cpuStep_of_pending hk]
    rfl
  · rw [cpuStep_of_none hnone, runOpcode_in (by rwa [hparams])]
    exact congrArg Params.jamStepCycles hparams
  · rw [cpuStep_of_none hnone, runOpcode_out (by rwa [hparams]), hparams]
    exact Nat.add_le_add_left (opcodeProg_ops _ (Params.ok_bounds hp).2.2.1 _ _).1 1

/-! ## Priority (R524) -/

theorem pendingInterrupt_nmi {c : Chip} (h : c.cpu.nmiLatch = true) : pendingInterrupt c = some .nmi := by
  simp [pendingInterrupt, h]

theorem pendingInterrupt_irq {c : Chip} (h : c.cpu.nmiLatch = false) (hline : c.irqLine = true)
    (hi : c.cpu.regs.p.i = false) : pendingInterrupt c = some .irq := by
  simp [pendingInterrupt, h, hline, hi]

theorem pendingInterrupt_none {c : Chip} (h : c.cpu.nmiLatch = false) (hline : c.irqLine = false ∨ c.cpu.regs.p.i = true) :
    pendingInterrupt c = none := by
  rcases hline with hline | hi <;> simp [pendingInterrupt, *]

/-- An exception's accesses are of the stack page and of the vector: none of them reaches a board's register. -/
theorem takeException_irqStays (r : CpuRegs) (ret : Addr) (brk : Bool) (vec : Addr) {c : Chip}
    (h : c.mapper.irqOut = true) : ((takeException r ret brk vec).run c).chip.mapper.irqOut = true := by
  have h1 := (cycleWrite_stack_settled r.s (hiByte ret) c).2.2.2 h
  have h2 := (cycleWrite_stack_settled (r.s - 1) (loByte ret) _).2.2.2 h1
  have h3 := (cycleWrite_stack_settled (r.s - 2) (pushedStatus r.p brk) _).2.2.2 h2
  exact (cycleRead_settled (vec + 1) _).irqStays ((cycleRead_settled vec _).irqStays h3)

theorem interruptEntry_irqStays (k : Interrupt) {c : Chip} (h : c.mapper.irqOut = true) :
    (interruptEntry k c).chip.mapper.irqOut = true := by
  have h0 : (clearLatch k c).mapper.irqOut = true := by cases k <;> exact h
  exact takeException_irqStays _ _ _ _ ((cycleRead_settled _ _).irqStays ((cycleRead_settled _ _).irqStays h0))

/-- Settles O9: the order is `pendingInterrupt`'s, and no access of an entry lowers a board's output. -/
theorem interruptPriority : Obligations.InterruptPriority := fun _ =>
  ⟨fun hnmi => cpuStep_of_pending (pendingInterrupt_nmi hnmi),
   fun hnmi hline hi => cpuStep_of_pending (pendingInterrupt_irq hnmi hline hi),
   fun hnmi hline => cpuStep_of_none (pendingInterrupt_none hnmi hline), rfl, rfl, interruptEntry_irqStays .nmi⟩

/-! ## Interrupt entry and BRK (R525, R526) -/

theorem interruptEntry_latch (k : Interrupt) (c : Chip) :
    (interruptEntry k c).chip.cpu.nmiLatch = ((clearLatch k c).cpu.nmiLatch ||
      sawEdge (interruptProg k c.cpu.regs) (clearLatch k c)) :=
  cpuProg_latch _ _

/-- The latch an entry starts with: clear, unless it is an IRQ's. -/
theorem clearLatch_eq (k : Interrupt) (c : Chip) :
    clearLatch k c = { c with cpu := { c.cpu with nmiLatch := decide (k = .irq) && c.cpu.nmiLatch } } := by
  cases k <;> rfl

/-- An entry that CLOCK_INSTR takes starts with the latch clear: an IRQ is pending only when no NMI is (R524). -/
theorem clearLatch_of_pending {c : Chip} {k : Interrupt} (h : pendingInterrupt c = some k) :
    clearLatch k c = { c with cpu := { c.cpu with nmiLatch := false } } := by
  cases k with
  | nmi => rfl
  | irq =>
    have hlatch : c.cpu.nmiLatch = false := by
      by_contra hnmi
      rw [pendingInterrupt_nmi (by simpa using hnmi)] at h
      cases h
    rw [clearLatch_eq, hlatch]
    rfl

theorem State.Inv.kind_isSome {s : State} (h : s.Inv) (hcan : CanStep s) : s.chip.mapper.kind.isSome = true :=
  h.loaded.symm.trans hcan.loaded

/-- Settles O11: an entry clears the NMI's latch and then takes its exception. -/
theorem Proofs.interruptEntry : Obligations.InterruptEntry := by
  refine ⟨fun c k => (interruptEntry_latch k c).trans (by rw [clearLatch_eq]), fun s k hs hcan hk => ?_⟩
  obtain ⟨d, hchip, htaken⟩ := interruptEntry_taken hcan.ready.inv (hs.kind_isSome hcan) k
  have hcorrupted : (Machine.interruptEntry k s.chip).chip.cpu.corrupted = false := by
    rw [hchip]
    exact htaken.quiet.corrupted.trans hcan.ready.corrupted
  have hexec := exec_clockInstr hcan
  rw [cpuStep_of_pending hk, hcorrupted] at hexec
  refine ⟨_, hexec, rfl, ⟨rfl, rfl, rfl, rfl, rfl, rfl, rfl⟩, (interruptEntry_spec k hcan.ready.inv.params).cycle, hcorrupted,
    htaken.regs, fun hedge => ?latch, ?openBus, ?wram, ?prgRam, ?prgRom, ?banks⟩
  case latch => rw [interruptEntry_latch, clearLatch_of_pending hk, hedge]; rfl
  case openBus => rw [hchip]; exact htaken.latch
  case wram => intro i; rw [hchip]; exact htaken.wram i
  case prgRam => rw [hchip]; exact htaken.prgRam
  case prgRom => rw [hchip]; exact htaken.quiet.prgRom
  case banks => intro n a; rw [hchip]; exact htaken.reads n a

/-- An exception taken after cycles that only read. -/
theorem ExceptionTaken.after {c c' d : Chip} {r q : CpuRegs} {ret : Addr} {brk : Bool} {vec : Addr}
    (h : ExceptionTaken c' r ret brk vec d q) (hc : c.Inv) (hk : c.mapper.kind.isSome = true) (hv : 0x8000 ≤ vec.toNat)
    (hv' : 0x8000 ≤ (vec + 1).toNat) (hquiet : Quiet c c') (hsettled : Settled c c') : ExceptionTaken c r ret brk vec d q where
  quiet := hquiet.trans h.quiet
  regs := by
    have hregs := h.regs
    rw [(rom_peek hc hk hv hquiet.genie hquiet.prgRom hsettled.reads).1,
      (rom_peek hc hk hv' hquiet.genie hquiet.prgRom hsettled.reads).1] at hregs
    exact hregs
  wram := fun i => by rw [h.wram i, hsettled.wram]
  prgRam := h.prgRam.trans hsettled.prgRam
  reads := fun n a => (h.reads n a).trans (hsettled.reads n a)
  latch := by rw [h.latch, (rom_peek hc hk hv' hquiet.genie hquiet.prgRom hsettled.reads).1]
  irq := fun hirq => h.irq (hsettled.irqStays hirq)

theorem brkProg_taken {c : Chip} (h : c.Inv) (hk : c.mapper.kind.isSome = true) (r : CpuRegs) :
    ExceptionTaken c r (r.pc + 1) true 0xFFFE ((brkProg r).run c).chip ((brkProg r).run c).value := by
  have hquiet := cycleRead_quiet r.pc c
  have htaken := takeException_spec (hquiet.inv h) (by rwa [kind_of_identity hquiet.identity]) r (r.pc + 1) true
    (vec := 0xFFFE) (by decide) (by decide)
  exact htaken.after h hk (by decide) (by decide) hquiet (cycleRead_settled _ _)

/-- The row of a byte with no rule of its own, outside `CorruptSet`. -/
theorem execute_ends {s : State} (h : Ready s.chip) {b : Byte} (hb : b ∉ s.chip.params.corruptSet) {ran : Ran CpuRegs}
    (hran : (executeProg b s.chip.params.maxStepCycles s.chip.cpu.regs).run s.chip = ran) :
    ∃ t, exec (.execute b) s = .next t ∧ OpcodeEnds s t (1 + ran.ops) ∧ t.chip = ran.chip.setRegs ran.value := by
  subst hran
  obtain ⟨hchip, hends⟩ := opcode_ends h hb (executeProg b s.chip.params.maxStepCycles)
  exact ⟨_, rfl, hends, hchip⟩

/-- Settles O12: the padding read, then the exception of R526 from the address after the padding byte. -/
theorem breakEntry : Obligations.BreakEntry := by
  intro s h hb hk
  obtain ⟨t, hexec, hends, hchip⟩ := execute_ends h hb (ran := (brkProg s.chip.cpu.regs).run s.chip) rfl
  have htaken := brkProg_taken h.inv hk s.chip.cpu.regs
  refine ⟨t, hexec, hends, ?regs, ?wram, ?prgRam, ?prgRom⟩
  case regs => rw [hchip]; exact htaken.regs
  case wram => intro i; rw [hchip]; exact htaken.wram i
  case prgRam => rw [hchip]; exact htaken.prgRam
  case prgRom => rw [hchip]; exact htaken.quiet.prgRom

/-! ## RTI (R529) -/

theorem dummy_run {α : Type} (op : DummyOp) (k : CpuProg α) (c : Chip) :
    ∃ d, Settled c d ∧ ((op.prog k).run c).value = (k.run d).value := by
  cases op with
  | idle => exact ⟨tick c, tick_settled c, rfl⟩
  | read a => exact ⟨(cycleRead a c).1, cycleRead_settled a c, rfl⟩

theorem dummy_storesNothing {α : Type} (op : DummyOp) {k : CpuProg α} (hk : k.StoresNothing) : (op.prog k).StoresNothing := by
  cases op with
  | idle => exact hk
  | read a => exact fun _ => hk

theorem rtiProg_storesNothing (r : CpuRegs) : (rtiProg r).StoresNothing :=
  dummy_storesNothing _ (dummy_storesNothing _ fun _ _ _ => trivial)

/-- The two free cycles leave WRAM, so the pulls see the bytes that were there. -/
theorem rtiProg_value (r : CpuRegs) (c : Chip) : ((rtiProg r).run c).value =
    { r with
      s := r.s + 3
      p := pulledStatus (c.bus.wram.read (0x100 + (r.s + 1).toNat))
      pc := word16 (c.bus.wram.read (0x100 + (r.s + 2).toNat)) (c.bus.wram.read (0x100 + (r.s + 3).toNat)) } := by
  obtain ⟨d, hd, hvalue⟩ := dummy_run (Config.rtiCycle2 r) _ c
  obtain ⟨e, he, hvalue'⟩ := dummy_run (Config.rtiCycle3 r) _ d
  let p := cycleRead (stackAddr (r.s + 1)) e
  let lo := cycleRead (stackAddr (r.s + 2)) p.1
  let hi := cycleRead (stackAddr (r.s + 3)) lo.1
  have hse := hd.trans he
  have hsp := hse.trans (cycleRead_settled (stackAddr (r.s + 1)) e)
  have hslo := hsp.trans (cycleRead_settled (stackAddr (r.s + 2)) p.1)
  have hp : p.2 = c.bus.wram.read (0x100 + (r.s + 1).toNat) := by rw [← hse.wram]; exact cycleRead_stack _ _
  have hlo : lo.2 = c.bus.wram.read (0x100 + (r.s + 2).toNat) := by rw [← hsp.wram]; exact cycleRead_stack _ _
  have hhi : hi.2 = c.bus.wram.read (0x100 + (r.s + 3).toNat) := by rw [← hslo.wram]; exact cycleRead_stack _ _
  rw [rtiProg, hvalue, hvalue', ← hp, ← hlo, ← hhi]
  rfl

/-- RTI's row, on any chip that can run on. -/
theorem rti_ends {s : State} (h : Ready s.chip) (hb : (0x40 : Byte) ∉ s.chip.params.corruptSet) :
    ∃ t, exec (.execute 0x40) s = .next t ∧ OpcodeEnds s t 6 ∧ OpcodeFrame s.chip t.chip ∧
      t.chip.cpu.regs = ((rtiProg s.chip.cpu.regs).run s.chip).value := by
  obtain ⟨hframe, hends, hchip⟩ := storesNothing_ends h hb (prog := executeProg 0x40 s.chip.params.maxStepCycles)
    (rtiProg_storesNothing _) rfl
  have hops : ((executeProg 0x40 s.chip.params.maxStepCycles s.chip.cpu.regs).run s.chip).ops = 5 := rtiProg_ops _ _
  rw [hops] at hends
  exact ⟨_, rfl, hends, hframe, congrArg (·.cpu.regs) hchip⟩

/-- Settles O13: RTI stores nothing, and what it pulls is in WRAM when it is fetched. -/
theorem returnFromInterrupt : Obligations.ReturnFromInterrupt := by
  intro s h hb
  obtain ⟨t, hexec, hends, hframe, hregs⟩ := rti_ends h hb
  exact ⟨t, hexec, hends, hframe, hregs.trans (rtiProg_value _ _)⟩

/-- The six flags come back as they were pushed (R38, R529). -/
theorem pulledStatus_pushedStatus (p : Status) (brk : Bool) : pulledStatus (pushedStatus p brk) = p := by
  obtain ⟨n, v, d, i, z, c⟩ := p
  revert n v d i z c brk
  decide

theorem word16_bytes (a : Addr) : word16 (loByte a) (hiByte a) = a := append_bytes a

theorem fetchOpcode_settled (c : Chip) : Settled c (fetchOpcode c).1 :=
  ((tick_settled c).trans (cpuRead_settled _ _)).trans (setRegs_settled _ _)

/-- The three stack cells are apart, so RTI pulls each byte as its entry pushed it. -/
theorem stackCells_ne (s : Byte) : s - 2 ≠ s ∧ s - 2 ≠ s - 1 ∧ s - 1 ≠ s := by
  revert s
  decide

/-- Settles O14: the entry pushes `pc` and `p`, the fetch moves `pc` alone, and RTI pulls both and `s` back. -/
theorem interruptThenReturn : Obligations.InterruptThenReturn := by
  intro s k hs hcan hk hb
  obtain ⟨t, hexec, -, hdeck, -, hcorrupted, hregs, -, -, hwram, -⟩ := Proofs.interruptEntry.2 s k hs hcan hk
  have ht : t.chip.Inv := by
    rw [exec_clockInstr hcan] at hexec
    cases hexec
    exact cpuStep_inv hcan.ready.inv
  have hparams : t.chip.params = s.chip.params := by
    rw [exec_clockInstr hcan] at hexec
    cases hexec
    exact (cpuStep_runs s.chip).params
  obtain ⟨hruns, -, hfetched, hstill⟩ := fetchOpcode_spec t.chip
  obtain ⟨u, hexec', hends, -, hregs'⟩ := rti_ends (s := { t with chip := (fetchOpcode t.chip).1 })
    ⟨hruns.inv ht, hstill.trans hcorrupted⟩ (by rw [hruns.params, hparams]; exact hb)
  refine ⟨t, u, hexec, hexec', ?regs, ?deck⟩
  case deck =>
    obtain ⟨h1, h2, h3, h4, h5, h6, h7⟩ := hdeck
    obtain ⟨k1, k2, k3, k4, k5, k6, k7⟩ := hends.deck
    exact ⟨k1.trans h1, k2.trans h2, k3.trans h3, k4.trans h4, k5.trans h5, k6.trans h6, k7.trans h7⟩
  case regs =>
    obtain ⟨h20, h21, h10⟩ := stackCells_ne s.chip.cpu.regs.s
    have hcell : ∀ x : Byte, (fetchOpcode t.chip).1.bus.wram.read (0x100 + x.toNat) =
        if x = s.chip.cpu.regs.s then hiByte s.chip.cpu.regs.pc
        else if x = s.chip.cpu.regs.s - 1 then loByte s.chip.cpu.regs.pc
        else if x = s.chip.cpu.regs.s - 2 then pushedStatus s.chip.cpu.regs.p false
        else s.chip.bus.wram.read (0x100 + x.toNat) := fun x => by
      rw [(fetchOpcode_settled t.chip).wram, hwram]
      simp only [Nat.add_left_cancel_iff, ← BitVec.toNat_eq]
    rw [hregs', rtiProg_value, hfetched, hregs]
    have e1 : s.chip.cpu.regs.s - 3 + 1 = s.chip.cpu.regs.s - 2 := by bv_omega
    have e2 : s.chip.cpu.regs.s - 3 + 2 = s.chip.cpu.regs.s - 1 := by bv_omega
    have e3 : s.chip.cpu.regs.s - 3 + 3 = s.chip.cpu.regs.s := by bv_omega
    simp only [hcell, e1, e2, e3, h20, h21, h10, if_true, if_false, pulledStatus_pushedStatus, word16_bytes]

/-! ## STA (R234) -/

/-- A board's answer to a CPU write does not depend on the cycle it comes in. -/
theorem cpuWrite_answer (a : Addr) (v : Byte) (t t' : Stamp) (m : Mapper) : (m.cpuWrite a v t).2 = (m.cpuWrite a v t').2 := by
  rcases m with _ | ⟨info, regs⟩
  · rfl
  · cases regs with
    | mmc1 m =>
      simp only [Mapper.cpuWrite, mmc1CpuWrite]
      split_ifs <;> rfl
    | nrom => rfl
    | uxrom b => rfl
    | cnrom b => rfl
    | axrom b => rfl
    | mmc3 m => rfl

theorem Settled.prgRamStored {c d : Chip} (h : Settled c d) (a : Addr) (v : Byte) : prgRamStored a v d = prgRamStored a v c := by
  have hanswer : (d.mapper.cpuWrite a v d.cpu.cycle).2 = (c.mapper.cpuWrite a v c.cpu.cycle).2 :=
    (h.stores a v _).trans (cpuWrite_answer a v _ _ _)
  unfold Machine.prgRamStored
  rw [hanswer, h.prgRam]

/-- To any address but the sprite-DMA register: two reads and the write. -/
theorem staProg_run_plain (m : Nat) (r : CpuRegs) (c : Chip) :
    let lo := cycleRead r.pc c
    let hi := cycleRead (r.pc + 1) lo.1
    word16 lo.2 hi.2 ≠ 0x4014 → (staProg m r).run c =
      { chip := cycleWrite (word16 lo.2 hi.2) r.a hi.1, ops := 3, value := { r with pc := r.pc + 2 } } := by
  intro lo hi hplain
  have hstore : staStore m (word16 lo.2 hi.2) { r with pc := r.pc + 2 } =
      .write (word16 lo.2 hi.2) r.a (.done { r with pc := r.pc + 2 }) := by
    rw [staStore, if_neg hplain]
  show { chip := ((staStore m (word16 lo.2 hi.2) { r with pc := r.pc + 2 }).run hi.1).chip
         ops := ((staStore m (word16 lo.2 hi.2) { r with pc := r.pc + 2 }).run hi.1).ops + 1 + 1
         value := ((staStore m (word16 lo.2 hi.2) { r with pc := r.pc + 2 }).run hi.1).value : Ran CpuRegs } = _
  rw [hstore]
  rfl

/-- Whatever the target, STA changes no register but `pc`: what follows the write is the stall (R99). -/
theorem staProg_value (m : Nat) (r : CpuRegs) (c : Chip) : ((staProg m r).run c).value = { r with pc := r.pc + 2 } := by
  simp only [staProg, staStore, CpuProg.run]
  split
  · rw [(andThen_run _ _ _).2.2]
    rfl
  · rfl

/-- Settles O21: the write's cell is named on a chip whose memory the two reads before it left. -/
theorem staResult : Obligations.StaResult := by
  refine ⟨fun s h hb => ?_, fun s h hb => ?_⟩
  · intro lo hi target v hplain
    obtain ⟨hchip, hends⟩ := opcode_ends h hb (staProg s.chip.params.maxStepCycles)
    rw [staProg_run_plain _ _ _ hplain] at hchip hends
    have hquiet : Quiet s.chip (tick hi.1) :=
      ((cycleRead_quiet _ s.chip).trans (cycleRead_quiet _ lo.1)).trans (tick_quiet hi.1)
    have hsettled : Settled s.chip (tick hi.1) :=
      ((cycleRead_settled _ s.chip).trans (cycleRead_settled _ lo.1)).trans (tick_settled hi.1)
    have hall : Runs s.chip (cycleWrite target v hi.1) := (hquiet.trans (cpuWrite_quiet target v _)).toRuns
    have hinv := hquiet.inv h.inv
    refine ⟨_, rfl, hends, hchip, ?latch, ?wram, ?prgRam, ?prgRom, ?genie, ?config, ?identity, ?banks⟩
    case latch => rw [hchip]; rfl
    case wram => intro i; rw [hchip, ← hsettled.wram]; exact cpuWrite_wram hinv.wram target v i
    case prgRam =>
      intro i hi'
      rw [hchip, ← hsettled.prgRam, ← hsettled.prgRamStored target v]
      exact cpuWrite_prgRam hinv.prgRam.1 target v (by rwa [hsettled.prgRam])
    case prgRom => rw [hchip]; exact hall.prgRom
    case genie => rw [hchip]; exact hall.genie
    case config => rw [hchip]; exact hall.config
    case identity => rw [hchip]; exact hall.identity
    case banks =>
      intro hlow n a
      rw [hchip]
      exact (cpuWrite_banks hlow v (tick hi.1) n a).trans (hsettled.reads n a)
  · intro lo hi _
    obtain ⟨hchip, hends⟩ := opcode_ends h hb (staProg s.chip.params.maxStepCycles)
    have hops := staProg_ops s.chip.params.maxStepCycles s.chip.cpu.regs s.chip
    have hmax := (Params.ok_bounds h.inv.params).2.2.1
    have hruns := (cpuProg_run (staProg s.chip.params.maxStepCycles s.chip.cpu.regs) s.chip).1.toRuns
    refine ⟨_, _, rfl, by omega, by omega, hends, ?regs, ?prgRom, ?genie, ?config⟩
    case regs => rw [hchip]; exact staProg_value _ _ _
    case prgRom => rw [hchip]; exact hruns.prgRom
    case genie => rw [hchip]; exact hruns.genie
    case config => rw [hchip]; exact hruns.config

/-! ## The execute class (R219) -/

theorem executeProg_ops (b : Byte) {m : Nat} (hm : 7 ≤ m) (r : CpuRegs) (c : Chip) :
    1 ≤ ((executeProg b m r).run c).ops ∧ ((executeProg b m r).run c).ops ≤ m - 1 := by
  unfold executeProg
  split
  · rw [brkProg_ops]; omega
  split
  · rw [rtiProg_ops]; omega
  · have := freeProg_ops b m r c; omega

/-- A program within R217's bound completes, on a chip that can run on. -/
theorem dispatch_completes {s : State} (h : Ready s.chip) {prog : CpuRegs → CpuProg CpuRegs} {i : Instr}
    (hi : exec i s = .next (endStep s (dispatch prog s.chip)))
    (hops : 1 ≤ ((prog s.chip.cpu.regs).run s.chip).ops ∧
      ((prog s.chip.cpu.regs).run s.chip).ops ≤ s.chip.params.maxStepCycles - 1) :
    ∃ t n, exec i s = .next t ∧ 2 ≤ n ∧ n ≤ s.chip.params.maxStepCycles ∧ OpcodeEnds s t n ∧
      t.chip.cart.prgRom = s.chip.cart.prgRom ∧ t.chip.bus.genie = s.chip.bus.genie ∧ t.chip.config = s.chip.config ∧
      boardIdentity t.chip.mapper = boardIdentity s.chip.mapper := by
  obtain ⟨hchip, hends⟩ := dispatch_ends h prog
  have hruns := (cpuProg_run (prog s.chip.cpu.regs) s.chip).1.toRuns
  have hmax := (Params.ok_bounds h.inv.params).2.2.1
  refine ⟨_, _, hi, by omega, by omega, hends, ?_⟩
  rw [hchip]
  exact ⟨hruns.prgRom, hruns.genie, hruns.config, hruns.identity⟩

/-- Settles O22: the row of a byte dispatches the control unit's program, and `.execute` the program with no rule of its own. -/
theorem executeCompletes : Obligations.ExecuteCompletes := by
  intro s b h hb
  have hmax := (Params.ok_bounds h.inv.params).2.2.1
  refine ⟨dispatch_completes h (opcodeClasses.2.1 b s hb).2 (opcodeProg_ops b hmax _ _), ?_⟩
  refine dispatch_completes h (prog := executeProg b s.chip.params.maxStepCycles) ?_ (executeProg_ops b hmax _ _)
  rw [← opcodeStep_out hb]
  rfl

end Sys2Proof.Machine

/-! PROOFS. 40_deck_clocking.md: one cycle (R214), CLOCK_FRAME and CLOCK_SCANLINE (R203, R204); 60_exceptions.md section 4: a frame
in dots (R540). -/

namespace Sys2Proof.Machine

open Sys2Proof

/-! ## The dots of a cycle -/

/-- The exact rational of dots a cycle, times a cycle count, rounded down (R214). -/
theorem floor_mul_mkRat (k num den : Nat) : ((k : Rat) * mkRat num den).floor = ((k * num / den : Nat) : Int) := by
  have hquot : (k : Rat) * mkRat num den = ((k * num : Nat) : Rat) / den := by
    rw [Rat.mkRat_eq_div, ← mul_div_assoc]
    push_cast
    rfl
  rw [hquot]
  exact Rat.floor_natCast_div_natCast (k * num) den

theorem dotsInCycle_floor (r : RegionParams) (k : Nat) : (dotsInCycle r k : Int) =
    (((k + 1 : Nat) : Rat) * mkRat r.dotsNum r.dotsDen).floor - ((k : Rat) * mkRat r.dotsNum r.dotsDen).floor := by
  have hle : k * r.dotsNum / r.dotsDen ≤ (k + 1) * r.dotsNum / r.dotsDen :=
    Nat.div_le_div_right (Nat.mul_le_mul_right _ (Nat.le_succ k))
  rw [floor_mul_mkRat, floor_mul_mkRat, dotsInCycle, Nat.cast_sub hle]

theorem dotsInCycle_whole {r : RegionParams} (n : Nat) (hnum : r.dotsNum = n) (hden : r.dotsDen = 1) (k : Nat) :
    dotsInCycle r k = n := by
  rw [dotsInCycle, hnum, hden, Nat.div_one, Nat.div_one, Nat.add_mul, Nat.one_mul, Nat.add_sub_cancel_left]

/-- 16 dots in five cycles. -/
theorem dotsInCycle_pal (k : Nat) : dotsInCycle Params.suggested.pal k = if k % 5 = 4 then 4 else 3 := by
  obtain ⟨q, r, hr, rfl⟩ : ∃ q r, r < 5 ∧ k = 5 * q + r := ⟨k / 5, k % 5, Nat.mod_lt _ (by decide), by omega⟩
  show (5 * q + r + 1) * 16 / 5 - (5 * q + r) * 16 / 5 = _
  interval_cases r <;> split <;> omega

/-! ## What the picture unit's dots do not see: the audio unit -/

/-- The chip with another audio unit. -/
def Chip.withApu (c : Chip) (u : Apu) : Chip := { c with apu := u }

theorem withApu_resolvePpu (c : Chip) (u : Apu) (a : Addr) (r : MappedRead) :
    resolvePpu (c.withApu u) a r = resolvePpu c a r := by
  cases r <;> rfl

theorem withApu_applyPpu (c : Chip) (u : Apu) (a : Addr) (v : Byte) (w : MappedWrite) :
    applyPpu (c.withApu u) a v w = (applyPpu c a v w).map (·.withApu u) := by
  have hstore : ∀ w, storePool (c.withApu u) v w = (storePool c v w).withApu u := fun w => by cases w <;> rfl
  unfold applyPpu
  split_ifs
  · exact congrArg some (hstore _)
  · show (ciramIndex c.ppubus.mirrorShift a).map _ = Option.map _ ((ciramIndex c.ppubus.mirrorShift a).map _)
    rw [Option.map_map]
    rfl
  · exact congrArg some (hstore _)

theorem withApu_ppuMappedRead (a : Addr) (c : Chip) (u : Apu) :
    ppuMappedRead a (c.withApu u) = ((ppuMappedRead a c).1.withApu u, (ppuMappedRead a c).2) := by
  have h := withApu_resolvePpu (c.notify a) u a ((c.notify a).mapper.ppuRead a)
  unfold ppuMappedRead
  rw [show (c.withApu u).notify a = (c.notify a).withApu u from rfl,
    show ((c.notify a).withApu u).mapper = (c.notify a).mapper from rfl, h]
  cases resolvePpu (c.notify a) a ((c.notify a).mapper.ppuRead a) <;> rfl

theorem withApu_ppuMappedWrite (a : Addr) (v : Byte) (c : Chip) (u : Apu) :
    ppuMappedWrite a v (c.withApu u) = (ppuMappedWrite a v c).withApu u := by
  let n := { c.notify a with mapper := ((c.notify a).mapper.ppuWrite a v).1 }
  have h := withApu_applyPpu n u a v ((c.notify a).mapper.ppuWrite a v).2
  have hn : ppuMappedWrite a v (c.withApu u) =
      match applyPpu (n.withApu u) a v ((c.notify a).mapper.ppuWrite a v).2 with
      | some t => t.refreshMirror.latchPpu v
      | none => (n.withApu u).markFourScreen.refreshMirror.latchPpu v := rfl
  have hc : ppuMappedWrite a v c =
      match applyPpu n a v ((c.notify a).mapper.ppuWrite a v).2 with
      | some t => t.refreshMirror.latchPpu v
      | none => n.markFourScreen.refreshMirror.latchPpu v := rfl
  rw [hn, hc, h]
  cases applyPpu n a v ((c.notify a).mapper.ppuWrite a v).2 <;> rfl

theorem withApu_ppuRead (a : Addr) (c : Chip) (u : Apu) :
    ppuRead a (c.withApu u) = ((ppuRead a c).1.withApu u, (ppuRead a c).2) := by
  unfold ppuRead
  cases ppuRoute (reducePpu a) with
  | pattern => exact withApu_ppuMappedRead _ c u
  | nametable => exact withApu_ppuMappedRead _ c u
  | palette => rfl

theorem withApu_ppuWrite (a : Addr) (v : Byte) (c : Chip) (u : Apu) :
    ppuWrite a v (c.withApu u) = (ppuWrite a v c).withApu u := by
  unfold ppuWrite
  cases ppuRoute (reducePpu a) with
  | pattern => exact withApu_ppuMappedWrite _ v c u
  | nametable => exact withApu_ppuMappedWrite _ v c u
  | palette => rfl

theorem withApu_ppuProg {α : Type} (p : PpuProg α) (u : Apu) :
    ∀ c : Chip, p.run (c.withApu u) = ((p.run c).1.withApu u, (p.run c).2) := by
  induction p with
  | done x => exact fun c => rfl
  | read a k ih =>
    intro c
    rw [PpuProg.run, withApu_ppuRead, ih]
    rfl
  | write a v k ih =>
    intro c
    rw [PpuProg.run, withApu_ppuWrite, ih]
    rfl
  | addrOut a k ih => exact fun c => ih (c.notify (reducePpu a))

theorem withApu_ppuOwnDot (c : Chip) (u : Apu) :
    ppuOwnDot (c.withApu u) = ((ppuOwnDot c).1.withApu u, (ppuOwnDot c).2) := by
  have h := withApu_ppuProg (Config.ppuDot c.draws c.config.region c.ppu) u c.drawn
  unfold ppuOwnDot
  rw [show (c.withApu u).params = c.params from rfl]
  split
  · rfl
  · dsimp only
    rw [show (c.withApu u).drawn = c.drawn.withApu u from rfl,
      show Config.ppuDot (c.withApu u).draws (c.withApu u).config.region (c.withApu u).ppu =
        Config.ppuDot c.draws c.config.region c.ppu from rfl, h]
    rfl

theorem withApu_ppuTick (c : Chip) (u : Apu) : ppuTick (c.withApu u) = (ppuTick c).withApu u := by
  unfold ppuTick
  rw [withApu_ppuOwnDot]
  show (if c.ppu.scanline < c.regionParams.scanlinesPerFrame then _ else _) =
    Chip.withApu (if c.ppu.scanline < c.regionParams.scanlinesPerFrame then _ else _) u
  split <;> rfl

theorem withApu_ppuDots (u : Apu) : ∀ (n : Nat) (c : Chip), ppuDots n (c.withApu u) = (ppuDots n c).withApu u
  | 0, _ => rfl
  | n + 1, c => by rw [ppuDots, withApu_ppuTick, withApu_ppuDots u n, ppuDots]

/-! ## A cycle (R214) -/

/-- The audio unit's part sees neither the trigger nor anything the trigger's end changes. -/
theorem apuTick_endTrigger (n : BitVec 32) (c : Chip) :
    apuTick (endTrigger n c) = { endTrigger n c with apu := (apuTick c).apu, draws := (apuTick c).draws } := by
  unfold apuTick
  rw [endTrigger_params]
  split <;> rfl

/-- The chip as a cycle's dots find it. -/
def Chip.counted (c : Chip) : Chip := { c with cpu := { c.cpu with cycle := c.cpu.cycle + 1 } }

theorem tickPpu_eq (c : Chip) : tickPpu c = ppuDots (dotsInCycle c.regionParams c.cpu.cycle.toNat) c.counted :=
  keepPpuSide_eq (ppuDots_frame _ _)

/-- What follows the dots of a cycle: the trigger's end, the audio unit, the hook and the edge detector. -/
theorem tick_rest {c dots : Chip} (h : DotFrame c.counted dots) :
    sampleNmi (clockMapper (apuTick (endTrigger c.ppu.frameNumber dots))) = { dots with
      input := { c.input with zapper := { c.input.zapper with
        trigger := c.input.zapper.trigger && decide (dots.ppu.frameNumber = c.ppu.frameNumber) } }
      apu := (apuTick dots).apu
      draws := (apuTick dots).draws
      mapper := dots.mapper.clock (c.cpu.cycle + 1)
      cpu := { c.cpu with
        cycle := c.cpu.cycle + 1
        nmiLatch := c.cpu.nmiLatch || (dots.ppu.nmiOut && !c.cpu.nmiPrev)
        nmiPrev := dots.ppu.nmiOut } } := by
  have hcpu : dots.cpu = { c.cpu with cycle := c.cpu.cycle + 1 } := h.cpu
  have hinput : dots.input = c.input := h.input
  rw [apuTick_endTrigger]
  simp only [sampleNmi, clockMapper, endTrigger, hcpu, hinput, beq_eq_decide]

theorem tick_eq (c : Chip) : tick c = sampleNmi (clockMapper (apuTick (endTrigger c.ppu.frameNumber
    (ppuDots (dotsInCycle c.regionParams c.cpu.cycle.toNat) c.counted)))) := by
  rw [tick, tickPpu_eq]

/-- The enables and the audio unit's cycle: they decide what is mixed, and nothing else of it (R66, R298). -/
theorem apuTick_enables (c : Chip) (e : Channels) :
    let out := Config.apuTick c.draws c.config.region c.apu.core
    apuTick (c.withApu { c.apu with channelEnabled := e }) = (apuTick c).withApu { (apuTick c).apu with
      channelEnabled := e
      samples := c.apu.samples ++
        if c.params.idleUnits then [] else Config.apuMix c.config.region out.sampler (e.mixed out.outputs) } := by
  intro out
  unfold apuTick
  rw [show (c.withApu { c.apu with channelEnabled := e }).params = c.params from rfl]
  split
  · rw [List.append_nil]
  · rfl

theorem tick_enables (c : Chip) (e : Channels) :
    let dots := ppuDots (dotsInCycle c.regionParams c.cpu.cycle.toNat) c.counted
    let out := Config.apuTick dots.draws c.config.region c.apu.core
    tick (c.withApu { c.apu with channelEnabled := e }) = (tick c).withApu { (tick c).apu with
      channelEnabled := e
      samples := c.apu.samples ++
        if c.params.idleUnits then [] else Config.apuMix c.config.region out.sampler (e.mixed out.outputs) } := by
  intro dots out
  have hframe : DotFrame c.counted dots := ppuDots_frame _ _
  have hdots : ppuDots (dotsInCycle c.regionParams c.cpu.cycle.toNat)
      (c.withApu { c.apu with channelEnabled := e }).counted = dots.withApu { dots.apu with channelEnabled := e } := by
    rw [show dots.apu = c.apu from hframe.apu]
    exact withApu_ppuDots _ _ c.counted
  have haudio := apuTick_enables dots e
  rw [show dots.apu = c.apu from hframe.apu, show dots.config = c.config from hframe.config,
    show dots.params = c.params from hframe.params] at haudio
  have hkey : tick (c.withApu { c.apu with channelEnabled := e }) = sampleNmi (clockMapper (apuTick
      (endTrigger c.ppu.frameNumber (dots.withApu { dots.apu with channelEnabled := e })))) := by
    rw [← hdots, tick_eq]
    rfl
  rw [hkey, apuTick_endTrigger, show dots.apu = c.apu from hframe.apu, haudio, tick_eq c, apuTick_endTrigger]
  rfl

theorem mixed_eq_filterMap (e : Channels) (o : ChannelOutputs) : e.mixed o =
    ([(e.pulse1, .pulse1, o.pulse1), (e.pulse2, .pulse2, o.pulse2), (e.triangle, .triangle, o.triangle),
      (e.noise, .noise, o.noise), (e.dmc, .dmc, o.dmc)] : List (Bool × Channel × Nat)).filterMap
        fun x => if x.1 then some x.2 else none := by
  obtain ⟨p1, p2, t, n, d⟩ := e
  cases p1 <;> cases p2 <;> cases t <;> cases n <;> cases d <;> rfl

/-- Settles O10: the parts one after another, on the number of dots that the rational's floors give; the enables reach the mix
alone. -/
theorem tickParts : Obligations.TickParts := by
  refine ⟨fun c => ?parts, fun k => ?numbers, fun c => ?enables⟩
  case parts =>
    refine ⟨dotsInCycle c.regionParams c.cpu.cycle.toNat, dotsInCycle_floor _ _, ?_⟩
    exact (tick_eq c).trans (tick_rest (ppuDots_frame _ _))
  case numbers => exact ⟨dotsInCycle_whole 3 rfl rfl k, dotsInCycle_whole 3 rfl rfl k, dotsInCycle_pal k⟩
  case enables =>
    let dots := ppuDots (dotsInCycle c.regionParams c.cpu.cycle.toNat) c.counted
    let out := Config.apuTick dots.draws c.config.region c.apu.core
    refine ⟨out.outputs, out.sampler, fun e => ?_⟩
    dsimp only
    rw [← mixed_eq_filterMap]
    exact tick_enables c e

/-! ## Frames in dots (R540) -/

/-- The number of dots of a frame that starts now: its boundary is on its last dot, or on the one before when a dot is dropped. -/
theorem frameStart_boundary {c : Chip} (h : c.Inv) (hstart : AtFrameStart c.ppu) :
    ∃ n, (n = c.regionParams.scanlinesPerFrame * c.params.dotsPerScanline ∨
        n + 1 = c.regionParams.scanlinesPerFrame * c.params.dotsPerScanline) ∧
      (∀ m, m < n → (ppuDots m c).ppu.frameNumber = c.ppu.frameNumber ∧
        (ppuDots m c).ppu.scanline < c.regionParams.scanlinesPerFrame) ∧
      (ppuDots n c).ppu.frameNumber = c.ppu.frameNumber + 1 ∧ AtFrameStart (ppuDots n c).ppu := by
  obtain ⟨-, -, -, hL⟩ := Params.ok_bounds h.params
  obtain ⟨-, hS, -⟩ := RegionParams.ok_bounds (Params.ok_region h.params c.config.region)
  change 2 ≤ c.regionParams.scanlinesPerFrame at hS
  have hsize : 2 * 2 ≤ c.regionParams.scanlinesPerFrame * c.params.dotsPerScanline := Nat.mul_le_mul hS hL
  have hdot : ∀ m, Dot c.regionParams.scanlinesPerFrame c.params.dotsPerScanline (ppuDots m c).ppu (ppuDots (m + 1) c).ppu :=
    fun m => by
      have hquiet := ppuDots_quiet m c
      have := ppuTick_dot (ppuDots m c)
      rwa [hquiet.toRuns.regionParams, hquiet.params, ← ppuDots_succ] at this
  have hrange : InRange c.regionParams.scanlinesPerFrame c.params.dotsPerScanline c.ppu := by
    obtain ⟨hline, hfirst⟩ := hstart
    exact ⟨by omega, by rw [hfirst]; split <;> omega⟩
  have hwithin := frame_within h hrange (atStart_progress hstart)
  have hboundary : ∀ m, InRange c.regionParams.scanlinesPerFrame c.params.dotsPerScanline (ppuDots m c).ppu →
      (ppuDots m c).ppu.frameNumber = c.ppu.frameNumber →
      (ppuDots (m + 1) c).ppu.frameNumber = (ppuDots m c).ppu.frameNumber + 1 →
      (ppuDots (m + 1) c).ppu.frameNumber = c.ppu.frameNumber + 1 ∧ AtFrameStart (ppuDots (m + 1) c).ppu :=
    fun m hin hsame hnext => ⟨by rw [hnext, hsame], boundary_atStart (hdot m) hin (by rw [hnext]; simp)⟩
  generalize hn : c.regionParams.scanlinesPerFrame * c.params.dotsPerScanline = size at *
  obtain ⟨k, rfl⟩ : ∃ k, size = k + 2 := ⟨size - 2, by omega⟩
  obtain ⟨hin, hsame, hprogress⟩ := hwithin k (le_refl _)
  have hbefore : ∀ m, m < k + 1 → (ppuDots m c).ppu.frameNumber = c.ppu.frameNumber ∧
      (ppuDots m c).ppu.scanline < c.regionParams.scanlinesPerFrame := fun m hm =>
    have hm := hwithin m (by omega)
    ⟨hm.2.1, hm.1.line⟩
  rcases (hdot k).inRange hL hS hin with ⟨hin', ⟨hsame', hprogress', -⟩ | ⟨hnext, -⟩⟩
  · have hlast := hsame'.trans hsame
    refine ⟨k + 2, Or.inl rfl, fun m hm => ?_, ?_⟩
    · rcases Nat.lt_or_ge m (k + 1) with hlt | hge
      · exact hbefore m hlt
      · obtain rfl : m = k + 1 := by omega
        exact ⟨hlast, hin'.line⟩
    · rcases (hdot (k + 1)).inRange hL hS hin' with ⟨hin2, ⟨-, hover, -⟩ | ⟨hnext, -⟩⟩
      · have := progress_le hin2
        omega
      · exact hboundary (k + 1) hin' hlast hnext
  · exact ⟨k + 1, Or.inr rfl, hbefore, hboundary k hin hsame hnext⟩

/-- Settles O55: progress grows by one a dot, from 1 at a frame's start to the size of the frame at most. -/
theorem frameBoundaries : Obligations.FrameBoundaries := fun _ h hstart => frameStart_boundary h hstart

/-! ## CLOCK_FRAME and CLOCK_SCANLINE (R203, R204) -/

/-- The state a loop's command ends in after `k` steps. -/
def loopDone (k : Nat) (s : State) : State :=
  let run := stepsFrom k { chip := s.chip, cycles := 0 }
  { s with
    chip := run.chip
    result := some (if run.chip.cpu.corrupted then .err .cpuCorrupted else .ok (.cycles run.cycles))
    ongoing := none }

/-- Past the gate a loop's command ends after the first step that meets its condition, if one does, and else goes on for ever;
where a first step comes within the fuel, one step of the machine is enough (log 25). -/
theorem runLoop_first {s : State} (h : s.chip.Inv) (loop : ClockLoop) :
    (∀ k, FirstAt 1 (LoopEnds loop { chip := s.chip, cycles := 0 }) k → EndsIn (runLoop loop 0 s) (loopDone k s)) ∧
    ((∀ k, ¬ FirstAt 1 (LoopEnds loop { chip := s.chip, cycles := 0 }) k) → GoesOn (runLoop loop 0 s)) :=
  ⟨fun k hk => runLoop_endsIn loop k 0 s h hk, fun hnone => runLoop_goesOn loop 0 h hnone⟩

theorem runLoop_within {s : State} (h : s.chip.Inv) (hd : s.chip.regionParams.dotsCome = true) (loop : ClockLoop)
    (hstart : loop.moved s.chip = false)
    (hline : ∀ l, loop = .scanline l → s.chip.regionParams.scanlineOk s.chip.params = true) :
    ∃ k, FirstAt 1 (LoopEnds loop { chip := s.chip, cycles := 0 }) k ∧ runLoop loop 0 s = loopDone k s := by
  obtain ⟨k, hk, hrun⟩ := loop_ends h hd loop hstart hline
  refine ⟨k, hk, ?_⟩
  have hrefusal := (stepsFrom_spec k (g := { chip := s.chip, cycles := 0 }) h).1.noRefusal
  simp only [runLoop, begin_of_noRefusal h.noRefusal, hrun, if_true]
  exact endStep_ok hrefusal

theorem loopEnds_frame (start : BitVec 32) (g : Stepped) (j : Nat) : LoopEnds (.frame start) g j ↔
    (stepsFrom j g).chip.cpu.corrupted = true ∨ (stepsFrom j g).chip.ppu.frameNumber ≠ start := by
  simp only [LoopEnds, ClockLoop.moved, decide_eq_true_eq]

theorem loopEnds_scanline (start : Nat) (g : Stepped) (j : Nat) : LoopEnds (.scanline start) g j ↔
    (stepsFrom j g).chip.cpu.corrupted = true ∨ (stepsFrom j g).chip.ppu.scanline ≠ start := by
  simp only [LoopEnds, ClockLoop.moved, decide_eq_true_eq]

theorem exec_clockFrame {s : State} (h : CanStep s) :
    exec .clockFrame s = .next (runLoop (.frame s.chip.ppu.frameNumber) 0 s) := by
  simp only [exec, execClockFrame, gate_passes h, Option.getD_none]

theorem exec_clockScanline {s : State} (h : CanStep s) :
    exec .clockScanline s = .next (runLoop (.scanline s.chip.ppu.scanline) 0 s) := by
  simp only [exec, execClockScanline, gate_passes h, Option.getD_none]

/-- A step that changes the frame counter moves it by one, and ends the gun's trigger: it has fewer dots than a frame (R203,
R217). -/
theorem cpuStep_frame {c : Chip} (h : c.Inv) (hmoved : (cpuStep c).chip.ppu.frameNumber ≠ c.ppu.frameNumber) :
    (cpuStep c).chip.ppu.frameNumber = c.ppu.frameNumber + 1 ∧ (cpuStep c).chip.input.zapper.trigger = false := by
  obtain ⟨hL, hS, n, -, hn, -, hpassed⟩ := cpuStep_dots h
  refine ⟨?_, ?_⟩
  · rcases Nat.eq_zero_or_pos n with rfl | hpos
    · cases hpassed.dots with
      | none hsame => exact absurd (counters_eq hsame).1 hmoved
    · rcases (Dots.any hL hS hpassed.dots h.dot hpos hn).2 with ⟨hsame, -⟩ | hnext
      · exact absurd hsame hmoved
      · exact hnext
  · exact Bool.eq_false_iff.2 fun htrigger => hmoved (hpassed.trigger htrigger).2

/-- What the first steps of CLOCK_FRAME that end it without corruption leave. -/
theorem frame_first {c : Chip} (h : c.Inv) {k : Nat}
    (hk : FirstAt 1 (LoopEnds (.frame c.ppu.frameNumber) { chip := c, cycles := 0 }) k)
    (hok : (stepsFrom k { chip := c, cycles := 0 }).chip.cpu.corrupted = false) :
    0 < (stepsFrom k { chip := c, cycles := 0 }).cycles ∧
    (stepsFrom k { chip := c, cycles := 0 }).chip.ppu.frameNumber = c.ppu.frameNumber + 1 ∧
    (stepsFrom k { chip := c, cycles := 0 }).chip.input.zapper.trigger = false := by
  obtain ⟨hone, hends, hbefore⟩ := hk
  have hcycles := (stepsFrom_spec k (g := { chip := c, cycles := 0 }) h).2.2.1
  obtain ⟨j, rfl⟩ : ∃ j, k = j + 1 := ⟨k - 1, by omega⟩
  have hsame : (stepsFrom j { chip := c, cycles := 0 }).chip.ppu.frameNumber = c.ppu.frameNumber := by
    rcases Nat.eq_zero_or_pos j with rfl | hj
    · rfl
    · by_contra hmoved
      exact hbefore j hj (Nat.lt_succ_self j) ((loopEnds_frame _ _ _).2 (Or.inr hmoved))
  have hmoved := ((loopEnds_frame _ _ _).1 hends).resolve_left (by rw [hok]; decide)
  rw [stepsFrom_succ] at hmoved ⊢
  rw [← hsame] at hmoved ⊢
  obtain ⟨hnext, htrigger⟩ := cpuStep_frame (stepsFrom_spec j (g := { chip := c, cycles := 0 }) h).1 hmoved
  exact ⟨by rw [← stepsFrom_succ]; omega, hnext, htrigger⟩

/-- Settles O53: the loop ends with its first step, and that step's dots are fewer than a frame's. -/
theorem Proofs.clockFrame : Obligations.ClockFrame := by
  intro s hs hcan run ends done
  have hloop : LoopEnds (.frame s.chip.ppu.frameNumber) { chip := s.chip, cycles := 0 } = ends :=
    funext fun j => propext (loopEnds_frame _ _ j)
  obtain ⟨hfirst, hgoes⟩ := runLoop_first hs.chip (.frame s.chip.ppu.frameNumber)
  have hlast := fun k => @frame_first s.chip hs.chip k
  have hwithin := fun hd => runLoop_within hs.chip hd (.frame s.chip.ppu.frameNumber) (by simp [ClockLoop.moved])
    (fun l hl => by cases hl)
  rw [hloop] at hfirst hgoes hlast hwithin
  exact ⟨_, exec_clockFrame hcan, runLoop_pending _ _ _, fun k hk => ⟨hfirst k hk, hlast k hk⟩, hgoes, hwithin⟩

/-- Settles O54. -/
theorem clockScanline : Obligations.ClockScanline := by
  intro s hs hcan run ends done
  have hloop : LoopEnds (.scanline s.chip.ppu.scanline) { chip := s.chip, cycles := 0 } = ends :=
    funext fun j => propext (loopEnds_scanline _ _ j)
  obtain ⟨hfirst, hgoes⟩ := runLoop_first hs.chip (.scanline s.chip.ppu.scanline)
  have hwithin := fun hd hline => runLoop_within hs.chip hd (.scanline s.chip.ppu.scanline) (by simp [ClockLoop.moved])
    (fun _ _ => hline)
  rw [hloop] at hfirst hgoes hwithin
  exact ⟨_, exec_clockScanline hcan, runLoop_pending _ _ _, hfirst, hgoes, hwithin⟩

end Sys2Proof.Machine

/-! PROOFS. 43_bus.md and 20_memory.md sections 3 to 9: the six BUS words, reads of storage, and the PPU bus: nametables, the
palette and pattern memory. -/

namespace Sys2Proof.Machine

open Sys2Proof

/-! ## The six BUS words -/

/-- R342 on a machine in order. -/
theorem exec_ppuPeek {s : State} {a : Addr} {v : Byte} (h : ppuPeek a s.chip = some v) :
    exec (.ppuPeek a) s = .next { s with result := some (.ok (.byte v)) } := by
  simp only [exec, execPpuPeek, h, State.finish]

/-- Settles O24: no transaction on either bus moves the processor, and only a CPU write reaches what it can store to. -/
theorem busWordsComplete : Obligations.BusWordsComplete := by
  intro s a v h
  obtain ⟨b, hb⟩ := ppuPeek_some h.chip a
  have hwrite := cpuWrite_quiet a v s.chip
  refine ⟨exec_cpuRead s h a, exec_cpuWrite s h a v, rfl, exec_ppuRead s h a, exec_ppuWrite s h a v, ⟨b, hb, exec_ppuPeek hb⟩,
    fun d hd => ?frame, cpuWrite_cpu a v s.chip, hwrite.prgRom, hwrite.genie, hwrite.config, cpuWrite_wram h.chip.wram a v,
    fun i hi => cpuWrite_prgRam h.chip.prgRam.1 a v hi⟩
  case frame =>
    simp only [List.mem_cons, List.not_mem_nil, or_false] at hd
    obtain rfl | rfl | rfl := hd
    · exact ⟨opcodeFrame (cpuRead_settled a _) (cpuRead_quiet a _).toRuns, cpuRead_cpu a _⟩
    · exact ⟨opcodeFrame (ppuRead_settled a _) (ppuRead_quiet a _).toRuns, (ppuRead_frame a _).cpu⟩
    · exact ⟨opcodeFrame (ppuWrite_settled a v _) (ppuWrite_quiet a v _).toRuns, (ppuWrite_frame a v _).cpu⟩

/-! ## Reads of storage (R116, R118) -/

/-- A resolved byte is the latch's, or does not depend on it (R108). -/
theorem resolvePool_latch (c : Chip) (r : MappedRead) :
    (∀ x y, resolvePool c x r = resolvePool c y r) ∨ ∀ x, resolvePool c x r = x := by
  have hpool : ∀ (m : Memory) (i : Nat), (∀ x y, m.readMod i x = m.readMod i y) ∨ ∀ x, m.readMod i x = x := fun m i => by
    by_cases hs : m.size = 0
    · exact Or.inr fun x => if_pos hs
    · exact Or.inl fun x y => (if_neg hs).trans (if_neg hs).symm
  cases r with
  | dflt => exact Or.inr fun _ => rfl
  | openBus => exact Or.inr fun _ => rfl
  | data v => exact Or.inl fun _ _ => rfl
  | prgRom i => exact hpool _ i
  | prgRam i => exact hpool _ i
  | chr i => exact hpool _ i
  | ciRam i => exact hpool _ i
  | exRam i => exact hpool _ i

theorem latchCpu_resolvePool (c : Chip) (v latch : Byte) (r : MappedRead) :
    resolvePool (c.latchCpu v) latch r = resolvePool c latch r := by
  cases r <;> rfl

/-- A peek of storage gives the same again when the latch holds what it gave. -/
theorem cpuPeek_latched {a : Addr} (ha : cpuRoute a ≠ .ppuReg ∧ cpuRoute a ≠ .apuIo) (c : Chip) :
    cpuPeek a (c.latchCpu (cpuPeek a c)) = cpuPeek a c := by
  unfold cpuPeek
  cases hroute : cpuRoute a with
  | ppuReg => exact absurd hroute ha.1
  | apuIo => exact absurd hroute ha.2
  | wram => rfl
  | openBus => exact genieFilter_idem _ _ _
  | cartridge =>
    simp only [cartRead, latchCpu_bus, latchCpu_mapper, latchCpu_cart, latchCpu_resolvePool]
    rcases resolvePool_latch c (c.mapper.cpuRead c.cart.prgRom.size a) with hsame | hlatch
    · exact congrArg _ (hsame _ _)
    · rw [hlatch, hlatch, genieFilter_idem]

theorem resolvePpu_latched {c : Chip} {a : Addr} {r : MappedRead} {v : Byte} (h : resolvePpu c a r = some v) (m : Mapper) :
    resolvePpu { c with mapper := m, ppubus := { c.ppubus with openBus := v } } a r = some v := by
  have hpool : ∀ r, resolvePool c c.ppubus.openBus r = v →
      resolvePool { c with mapper := m, ppubus := { c.ppubus with openBus := v } } v r = v := fun r hr => by
    have hother : resolvePool { c with mapper := m, ppubus := { c.ppubus with openBus := v } } v r = resolvePool c v r := by
      cases r <;> rfl
    rcases resolvePool_latch c r with hsame | hlatch
    · rw [hother, hsame v c.ppubus.openBus, hr]
    · rw [hother, hlatch]
  unfold resolvePpu at h ⊢
  split_ifs at h ⊢
  · exact congrArg some (hpool _ (Option.some.inj h))
  · exact h
  · exact congrArg some (hpool _ (Option.some.inj h))

/-- What a read of the PPU bus leaves is peeked as the byte it gave. -/
theorem ppuPeek_latched {a : Addr} {c : Chip} {v : Byte} (h : ppuPeek a c = some v) :
    ppuPeek a { c with mapper := c.notified a, ppubus := { c.ppubus with openBus := v } } = some v := by
  unfold ppuPeek at h ⊢
  split at h
  · rw [← (notified_banks a c).2] at h
    exact resolvePpu_latched h _
  · rw [← (notified_banks a c).2] at h
    exact resolvePpu_latched h _
  · exact h

/-- Settles O27: a byte that comes from the latch goes back into it, and every other byte does not depend on it. -/
theorem readsOfStorage : Obligations.ReadsOfStorage := by
  refine ⟨fun a c ha => ?cpu, fun a c v h => ?ppu, fun a v c => ⟨ppuWrite_mapper a v c, notified_banks a c⟩⟩
  case cpu =>
    have hroute := route_storage ha
    have hread := cpuRead_storage hroute
    refine ⟨hread c, ?_, ?_⟩
    · rw [hread c, hread]
      exact cpuPeek_latched hroute c
    · rw [cycleRead, hread]
      exact cpuPeek_tick hroute c
  case ppu =>
    rw [ppuRead_eq a c v h]
    exact ⟨rfl, congrArg Prod.snd (ppuRead_eq a _ v (ppuPeek_latched h))⟩

/-! ## Where a nametable address lies (R105, R106) -/

/-- The source's formula adds the offset to its half. -/
theorem half_index (a : Addr) (b : Bool) :
    ((if b then 0x400 else 0x000 : Addr) ||| (~~~(if b then 0x400 else 0x000 : Addr) &&& (a &&& 0x03FF))).toNat =
      b.toNat * 0x400 + a.toNat % 0x400 := by
  have h := half_or_offset (a.setWidth 10)
  have hoffset : (a.setWidth 10).toNat = a.toNat % 0x400 := BitVec.toNat_setWidth _ _
  rw [offset_field]
  cases b
  · simpa [hoffset] using h.2
  · simpa [hoffset] using h.1

theorem horizontal_half (a : Addr) :
    ((a &&& 0x0C00) >>> 1) &&& 0x0400 = if decide (2 ≤ a.toNat / 0x400 % 4) then 0x400 else 0x000 := by
  have hall : ∀ n : BitVec 2, (((n.setWidth 16 : Addr) <<< 10) >>> 1) &&& 0x0400 =
      if decide (2 ≤ n.toNat) then 0x400 else 0x000 := by decide
  rw [table_field, hall, table_number]

theorem vertical_half (a : Addr) :
    ((a &&& 0x0C00) >>> 0) &&& 0x0400 = if decide (a.toNat / 0x400 % 4 % 2 = 1) then 0x400 else 0x000 := by
  have hall : ∀ n : BitVec 2, (((n.setWidth 16 : Addr) <<< 10) >>> 0) &&& 0x0400 =
      if decide (n.toNat % 2 = 1) then 0x400 else 0x000 := by decide
  rw [table_field, hall, table_number]

theorem ciramIndex_table (m : MirrorShift) (a : Addr) : ciramIndex m a =
    (tableHalf m (a.toNat / 0x400 % 4)).map fun half => half * 0x400 + a.toNat % 0x400 := by
  cases m with
  | h =>
    simp only [ciramIndex, halfBit, Option.map_some, horizontal_half, half_index, tableHalf]
    by_cases hn : a.toNat / 0x400 % 4 < 2
    · simp [hn, not_le.2 hn]
    · simp [hn, not_lt.1 hn]
  | v =>
    simp only [ciramIndex, halfBit, Option.map_some, vertical_half, half_index, tableHalf]
    rcases Nat.mod_two_eq_zero_or_one (a.toNat / 0x400 % 4) with hn | hn <;> simp [hn]
  | sa => exact congrArg some (half_index a false)
  | sb => exact congrArg some (half_index a true)
  | fs => rfl

theorem tableHalf_le {m : MirrorShift} {n half : Nat} (h : tableHalf m n = some half) : half ≤ 1 := by
  cases m <;> simp only [tableHalf, Option.some.injEq, reduceCtorEq] at h
  case h => split at h <;> omega
  case v => split at h <;> omega
  all_goals omega

theorem tableHalf_isSome {m : MirrorShift} (h : m ≠ .fs) (n : Nat) : ∃ half, tableHalf m n = some half := by
  cases m
  case fs => exact absurd rfl h
  all_goals exact ⟨_, rfl⟩

theorem ciramIndex_lt {m : MirrorShift} {a : Addr} {i : Nat} (h : ciramIndex m a = some i) : i < 0x800 := by
  rw [ciramIndex_table] at h
  obtain ⟨half, hhalf, rfl⟩ := Option.map_eq_some_iff.1 h
  have := tableHalf_le hhalf
  omega

/-- Settles O28. -/
theorem ciramIndexTable : Obligations.CiramIndexTable := by
  refine fun m a _ _ => ⟨ciramIndex_table m a, ?_, fun i hi => ciramIndex_lt hi⟩
  by_cases hm : m = .fs
  · subst hm
    exact ⟨fun _ => rfl, fun _ => rfl⟩
  · obtain ⟨i, hi⟩ := ciramIndex_isSome hm a
    simp [hm, hi]

/-! ## A write and a read of the PPU bus -/

/-- What a write of the PPU bus stores, on the part of the map that the mapper decides (R338). -/
theorem ppuWrite_stored {c d : Chip} (h : c.Inv) {a : Addr} {v : Byte} (hroute : ppuRoute (reducePpu a) ≠ .palette)
    (hd : applyPpu c (reducePpu a) v (c.mapper.ppuWrite (reducePpu a) v).2 = some d) :
    (ppuWrite a v c).ppubus = { d.ppubus with openBus := v } := by
  obtain ⟨d', hd', hbus, -⟩ := ppuMappedWrite_spec h (reducePpu a) v
  cases hd.symm.trans hd'
  unfold ppuWrite
  cases hr : ppuRoute (reducePpu a) with
  | palette => exact absurd hr hroute
  | pattern => exact hbus
  | nametable => exact hbus

/-- What a write of the PPU bus keeps, whatever it stores. -/
structure PpuWritten (a : Addr) (v : Byte) (s t : State) : Prop where
  inv    : t.Inv
  deck   : SameDeck s t
  frame  : OpcodeFrame s.chip t.chip
  cpu    : t.chip.cpu = s.chip.cpu
  chip   : t.chip = ppuWrite a v s.chip
  reads  : ∀ b, t.chip.mapper.ppuRead b = s.chip.mapper.ppuRead b
  mirror : t.chip.ppubus.mirrorShift = s.chip.ppubus.mirrorShift

theorem exec_ppuWrite_written {s : State} (h : s.Inv) (a : Addr) (v : Byte) :
    ∃ t, exec (.ppuWrite a v) s = .next t ∧ PpuWritten a v s t := by
  have hquiet := ppuWrite_quiet a v s.chip
  have hsettled := ppuWrite_settled a v s.chip
  exact ⟨_, exec_ppuWrite s h a v, {
    inv := inv_ofQuiet h hquiet _
    deck := ⟨rfl, rfl, rfl, rfl, rfl, rfl, rfl⟩
    frame := opcodeFrame hsettled hquiet.toRuns
    cpu := (ppuWrite_frame a v s.chip).cpu
    chip := rfl
    reads := hsettled.ppuReads
    mirror := by
      show (ppuWrite a v s.chip).ppubus.mirrorShift = _
      rw [(hquiet.inv h.chip).mirror, hsettled.mirroring, ← h.chip.mirror] }⟩

/-- R336 by what a peek gives. -/
theorem exec_ppuRead_peek {s : State} (h : s.Inv) {b : Addr} {v : Byte} (hv : ppuPeek b s.chip = some v) :
    ∃ u, exec (.ppuRead b) s = .next u ∧ SameDeck s u ∧ u.result = some (.ok (.byte v)) := by
  refine ⟨_, exec_ppuRead s h b, ⟨rfl, rfl, rfl, rfl, rfl, rfl, rfl⟩, ?_⟩
  rw [ppuRead_eq b s.chip v hv]

theorem reducePpu_nametable (a : Addr) : (reducePpu a).toNat / 0x400 % 4 = a.toNat / 0x400 % 4 ∧
    (reducePpu a).toNat % 0x400 = a.toNat % 0x400 := by
  rw [reducePpu_nat]
  omega

/-- A peek of a nametable, by the board's answer. -/
theorem ppuPeek_nametable {b : Addr} (hb : NametableAddr b) (c : Chip) :
    ppuPeek b c = resolvePpu c (reducePpu b) (c.mapper.ppuRead (reducePpu b)) := by
  rw [ppuPeek, route_nametable hb]

/-! ## Nametables in CIRAM (R103, R106) -/

/-- Without Four-Screen the default decides a nametable's read, with a cartridge or without. -/
theorem ppuRead_dflt {m : Mapper} (hf : m.fourScreen = false) {r : Addr} (hr : ¬ r.toNat < 0x2000) : m.ppuRead r = .dflt := by
  rcases m with _ | ⟨info, regs⟩
  · exact if_neg hr
  · have hinfo : info.fourScreen = false := hf
    simp [Mapper.ppuRead, hr, hinfo]

/-- Without Four-Screen the default decides a nametable's write too, and with no cartridge there is none (R375). -/
theorem ppuWrite_nametable {m : Mapper} (hf : m.fourScreen = false) {r : Addr} (hr : ¬ r.toNat < 0x2000) (v : Byte) :
    (m.ppuWrite r v).2 = if m.kind.isSome then .dflt else .none := by
  rcases m with _ | ⟨info, regs⟩
  · rfl
  · have hinfo : info.fourScreen = false := hf
    simp [Mapper.ppuWrite, hr, hinfo, Mapper.kind]

theorem applyPpu_dflt {c : Chip} (hf : c.mapper.fourScreen = false) {r : Addr} (hr : ¬ r.toNat < 0x2000) (v : Byte) {i : Nat}
    (hi : ciramIndex c.ppubus.mirrorShift r = some i) :
    applyPpu c r v (c.mapper.ppuWrite r v).2 = some { c with ppubus := { c.ppubus with
      ciram := if c.mapper.kind.isSome then c.ppubus.ciram.write i v else c.ppubus.ciram } } := by
  rw [ppuWrite_nametable hf hr]
  split
  · simp [applyPpu, hr, hi]
  · simp [applyPpu, storePool]

/-- Settles O29: a half and an offset are one cell of CIRAM, and both addresses go through the same table. -/
theorem nametableReadBack : Obligations.NametableReadBack := by
  intro s a b v h hf ha hb
  have hshift : s.chip.ppubus.mirrorShift ≠ .fs := fun hs => absurd (h.chip.fs_board hs) (by rw [hf]; decide)
  obtain ⟨i, hi⟩ := tableHalf_isSome hshift (a.toNat / 0x400 % 4)
  obtain ⟨j, hj⟩ := tableHalf_isSome hshift (b.toNat / 0x400 % 4)
  have hcell : ∀ {x : Addr} {k : Nat}, tableHalf s.chip.ppubus.mirrorShift (x.toNat / 0x400 % 4) = some k →
      ciramIndex s.chip.ppubus.mirrorShift (reducePpu x) = some (k * 0x400 + x.toNat % 0x400) := fun {x k} hk => by
    rw [ciramIndex_table, (reducePpu_nametable x).1, (reducePpu_nametable x).2, hk]
    rfl
  obtain ⟨t, ht, hwritten⟩ := exec_ppuWrite_written h a v
  have hbus := ppuWrite_stored h.chip (v := v) (by rw [route_nametable ha]; decide)
    (applyPpu_dflt hf (by have := ha.1; omega) v (hcell hi))
  rw [← hwritten.chip] at hbus
  have hciram : ∀ k, t.chip.ppubus.ciram.read k =
      if s.chip.mapper.kind.isSome = true ∧ k = i * 0x400 + a.toNat % 0x400 then v
      else s.chip.ppubus.ciram.read k := fun k => by
    rw [hbus]
    by_cases hk : s.chip.mapper.kind.isSome = true
    · simp only [hk, if_true, true_and]
      exact h.chip.ciram.read_write (ciramIndex_lt (hcell hi)) v k
    · simp only [hk, if_false, false_and, Bool.false_eq_true]
  have hpeek : ppuPeek b t.chip = some (t.chip.ppubus.ciram.read (j * 0x400 + b.toNat % 0x400)) := by
    have hr : ¬ (reducePpu b).toNat < 0x2000 := by have := hb.1; omega
    rw [ppuPeek_nametable hb, hwritten.reads, ppuRead_dflt hf hr, resolvePpu, if_pos rfl, if_neg hr, hwritten.mirror, hcell hj]
    rfl
  obtain ⟨u, hu, hdeck, hresult⟩ := exec_ppuRead_peek hwritten.inv hpeek
  refine ⟨t, u, i, j, ht, hu, hwritten.deck, hdeck, hi, hj, ?_, hciram, by rw [hbus], by rw [hbus], by rw [hbus], hwritten.frame,
    hwritten.cpu⟩
  rw [hresult, hciram]
  have hi1 := tableHalf_le hi
  have hj1 := tableHalf_le hj
  have hsame : j * 0x400 + b.toNat % 0x400 = i * 0x400 + a.toNat % 0x400 ↔
      i = j ∧ a.toNat % 0x400 = b.toNat % 0x400 := by omega
  simp only [hsame]

/-! ## Nametables under Four-Screen (R374) -/

theorem PoolOk.readMod {m : Memory} {n : Nat} (h : PoolOk m n) (hn : n ≠ 0) (i : Nat) (latch : Byte) :
    m.readMod i latch = m.read (i % n) := by
  simp only [Memory.readMod, h.2, hn, if_false]

theorem PoolOk.read_writeMod {m : Memory} {n : Nat} (h : PoolOk m n) (hn : n ≠ 0) (i : Nat) (v : Byte) (k : Nat) :
    (m.writeMod i v).read k = if k = i % n then v else m.read k := by
  simp only [Memory.writeMod, h.2, hn, if_false]
  exact h.read_write (Nat.mod_lt _ (Nat.pos_of_ne_zero hn)) v k

/-- The cell of a table in its pool, two tables to each. -/
theorem fourScreen_cell (a : Addr) : nametable (reducePpu a) = a.toNat / 0x400 % 4 ∧
    (a.toNat / 0x400 % 4 < 2 → nametable (reducePpu a) * 0x400 + (reducePpu a &&& 0x3FF).toNat = a.toNat % 0x800) ∧
    (¬ a.toNat / 0x400 % 4 < 2 →
      (nametable (reducePpu a) - 2) * 0x400 + (reducePpu a &&& 0x3FF).toNat = a.toNat % 0x800) := by
  rw [nametable_nat, mask_03FF, (reducePpu_nametable a).1, (reducePpu_nametable a).2]
  omega

theorem fourScreenRead_eq (a : Addr) : fourScreenRead (reducePpu a) =
    if a.toNat / 0x400 % 4 < 2 then .ciRam (a.toNat % 0x800) else .exRam (a.toNat % 0x800) := by
  obtain ⟨htable, hlow, hhigh⟩ := fourScreen_cell a
  unfold fourScreenRead
  split_ifs with h h' h'
  · rw [hlow h']
  · exact absurd (htable ▸ h) h'
  · exact absurd (htable.symm ▸ h') h
  · rw [hhigh h']

theorem fourScreenWrite_eq (a : Addr) : fourScreenWrite (reducePpu a) =
    if a.toNat / 0x400 % 4 < 2 then .ciRam (a.toNat % 0x800) else .exRam (a.toNat % 0x800) := by
  obtain ⟨htable, hlow, hhigh⟩ := fourScreen_cell a
  unfold fourScreenWrite
  split_ifs with h h' h'
  · rw [hlow h']
  · exact absurd (htable ▸ h) h'
  · exact absurd (htable.symm ▸ h') h
  · rw [hhigh h']

theorem ppuRead_fourScreen {m : Mapper} (hf : m.fourScreen = true) {r : Addr} (hr : ¬ r.toNat < 0x2000) :
    m.ppuRead r = fourScreenRead r := by
  rcases m with _ | ⟨info, regs⟩
  · cases hf
  · have hinfo : info.fourScreen = true := hf
    simp [Mapper.ppuRead, hr, hinfo]

theorem ppuWrite_fourScreen {m : Mapper} (hf : m.fourScreen = true) {r : Addr} (hr : ¬ r.toNat < 0x2000) (v : Byte) :
    (m.ppuWrite r v).2 = fourScreenWrite r := by
  rcases m with _ | ⟨info, regs⟩
  · cases hf
  · have hinfo : info.fourScreen = true := hf
    simp [Mapper.ppuWrite, hr, hinfo]

theorem mirroring_of_fourScreen {m : Mapper} (hf : m.fourScreen = true) : m.mirroring = .fourScreen := by
  rcases m with _ | ⟨info, regs⟩
  · cases hf
  · exact if_pos hf

/-- Four-Screen's write, in the pool of its table (R374). -/
theorem applyPpu_fourScreen {c : Chip} (hf : c.mapper.fourScreen = true) {a : Addr} (ha : NametableAddr a) (v : Byte) :
    applyPpu c (reducePpu a) v (c.mapper.ppuWrite (reducePpu a) v).2 = some { c with ppubus :=
      if a.toNat / 0x400 % 4 < 2 then { c.ppubus with ciram := c.ppubus.ciram.writeMod (a.toNat % 0x800) v }
      else { c.ppubus with exram := c.ppubus.exram.writeMod (a.toNat % 0x800) v } } := by
  rw [ppuWrite_fourScreen hf (by have := ha.1; omega), fourScreenWrite_eq]
  split <;> simp [applyPpu, storePool]

/-- Settles O30: each table has 1 KiB of its own in one of the two pools. -/
theorem fourScreenTables : Obligations.FourScreenTables := by
  intro s a b v h hf ha hb
  have hexram : PoolOk s.chip.ppubus.exram 2048 := by simpa [hf] using h.chip.exram
  obtain ⟨t, ht, hwritten⟩ := exec_ppuWrite_written h a v
  have hbus := ppuWrite_stored h.chip (v := v) (by rw [route_nametable ha]; decide) (applyPpu_fourScreen hf ha v)
  rw [← hwritten.chip] at hbus
  have hread : (∀ k, t.chip.ppubus.ciram.read k =
        if a.toNat / 0x400 % 4 < 2 ∧ k = a.toNat % 0x800 then v else s.chip.ppubus.ciram.read k) ∧
      ∀ k, t.chip.ppubus.exram.read k =
        if 2 ≤ a.toNat / 0x400 % 4 ∧ k = a.toNat % 0x800 then v else s.chip.ppubus.exram.read k := by
    by_cases hlow : a.toNat / 0x400 % 4 < 2
    · simp only [hbus, hlow, if_true, true_and, not_le.2 hlow, false_and, if_false, implies_true, and_true]
      exact fun k => by rw [h.chip.ciram.read_writeMod (by decide), Nat.mod_mod]
    · simp only [hbus, hlow, if_false, false_and, not_lt.1 hlow, true_and, implies_true]
      exact fun k => by rw [hexram.read_writeMod (by decide), Nat.mod_mod]
  have hpeek : ppuPeek b t.chip = some (if b.toNat / 0x400 % 4 < 2 then t.chip.ppubus.ciram.read (b.toNat % 0x800)
      else t.chip.ppubus.exram.read (b.toNat % 0x800)) := by
    have hcells := hwritten.inv.chip
    have hft : t.chip.mapper.fourScreen = true := by rw [fourScreen_of_identity hwritten.frame.identity, hf]
    have hexram' : PoolOk t.chip.ppubus.exram 2048 := by simpa [hft] using hcells.exram
    rw [ppuPeek_nametable hb, hwritten.reads, ppuRead_fourScreen hf (by have := hb.1; omega), fourScreenRead_eq]
    split
    · simp only [resolvePpu, reduceCtorEq, if_false, resolvePool, hcells.ciram.readMod (by decide), Nat.mod_mod]
    · simp only [resolvePpu, reduceCtorEq, if_false, resolvePool, hexram'.readMod (by decide), Nat.mod_mod]
  obtain ⟨u, hu, hdeck, hresult⟩ := exec_ppuRead_peek hwritten.inv hpeek
  have hkept : t.chip.ppubus.chr = s.chip.ppubus.chr ∧ t.chip.ppubus.palette = s.chip.ppubus.palette := by
    rw [hbus]
    dsimp only
    split <;> exact ⟨rfl, rfl⟩
  have hshift : t.chip.ppubus.mirrorShift = .fs := by
    rw [hwritten.mirror, h.chip.mirror, mirroring_of_fourScreen hf]
    rfl
  refine ⟨t, u, ht, hu, hwritten.deck, hdeck, ?_, hread.1, hread.2, hkept.1, hkept.2, hshift, hwritten.frame, hwritten.cpu⟩
  rw [hresult, hread.1, hread.2]
  congr 3
  by_cases hlow : b.toNat / 0x400 % 4 < 2
  · simp only [if_pos hlow]
    exact if_congr (by omega) rfl rfl
  · simp only [if_neg hlow]
    exact if_congr (by omega) rfl rfl

/-! ## The palette (R112, R113) -/

theorem route_palette {a : Addr} (h : 0x3F00 ≤ a.toNat % 0x4000) : ppuRoute (reducePpu a) = .palette := by
  unfold ppuRoute
  rw [reducePpu_nat, if_neg (by omega), if_neg (by omega)]

theorem paletteIndex_alias {a : Addr} (h : 0x3F00 ≤ a.toNat) (ha : a.toNat % 32 ∈ [0x10, 0x14, 0x18, 0x1C]) :
    paletteIndex a = paletteIndex (a - 0x10) := by
  have hsub : (a - 0x10).toNat = a.toNat - 16 := by
    rw [BitVec.toNat_sub_of_le (BitVec.le_def.2 (by show (16 : Nat) ≤ a.toNat; omega))]
    rfl
  simp only [List.mem_cons, List.not_mem_nil, or_false] at ha
  rw [paletteIndex_nat, paletteIndex_nat, hsub, if_pos (by omega), if_neg (by omega)]
  omega

theorem paletteIndex_offset {i : Nat} (hi : i < 32) : paletteIndex (BitVec.ofNat 16 (0x3F00 + i)) =
    if i = 16 ∨ i = 20 ∨ i = 24 ∨ i = 28 then i - 16 else i := by
  have hmod : (BitVec.ofNat 16 (0x3F00 + i)).toNat % 32 = i := by rw [BitVec.toNat_ofNat]; omega
  rw [paletteIndex_nat, hmod]

theorem ppuWrite_palette {a : Addr} (h : 0x3F00 ≤ a.toNat % 0x4000) (v : Byte) (c : Chip) : ppuWrite a v c =
    { c with ppubus := { c.ppubus with palette := c.ppubus.palette.write (paletteIndex a) v, openBus := v } } := by
  unfold ppuWrite
  rw [route_palette h, paletteIndex_reduce]
  rfl

theorem ppuPeek_palette {a : Addr} (h : 0x3F00 ≤ a.toNat % 0x4000) (c : Chip) :
    ppuPeek a c = some (c.ppubus.palette.read (paletteIndex a)) := by
  unfold ppuPeek
  rw [route_palette h, paletteIndex_reduce]

/-- Settles O31. -/
theorem paletteAliases : Obligations.PaletteAliases := by
  refine ⟨fun a h _ ha => paletteIndex_alias h ha, fun i j hi hj hsame => ?cells, fun s a b v h ha hb => ?readBack⟩
  case cells =>
    rw [paletteIndex_offset hi, paletteIndex_offset hj] at hsame
    simp only [List.mem_cons, List.not_mem_nil, or_false]
    split_ifs at hsame <;> omega
  case readBack =>
    obtain ⟨t, ht, hwritten⟩ := exec_ppuWrite_written h a v
    have hchip := hwritten.chip.trans (ppuWrite_palette ha v s.chip)
    obtain ⟨u, hu, -, hresult⟩ := exec_ppuRead_peek hwritten.inv (ppuPeek_palette hb t.chip)
    refine ⟨t, u, ht, hu, ?_, ?_⟩
    · rw [exec_ppuWrite s h a v, ppuWrite_palette ha] at ht
      cases ht
      rfl
    · rw [hresult, hchip]
      exact congrArg (some ∘ Result.ok ∘ Value.byte) (h.chip.palette.read_write (paletteIndex_lt a) v _)

/-! ## Pattern memory (R109, R364, R375) -/

theorem ppuRead_pattern (info : BoardInfo) (regs : BoardRegs) {r : Addr} (hr : r.toNat < 0x2000) :
    (Mapper.board info regs).ppuRead r = .chr (boardChrIndex r regs) := if_pos hr

theorem ppuWrite_pattern (info : BoardInfo) (regs : BoardRegs) {r : Addr} (hr : r.toNat < 0x2000) (v : Byte) :
    ((Mapper.board info regs).ppuWrite r v).2 = .chr (boardChrIndex r regs) := if_pos hr

/-- A cartridge has CHR of one kind or the other (R52, R54). -/
theorem Chip.Inv.chr_size {c : Chip} (h : c.Inv) {info : BoardInfo} {regs : BoardRegs} (hm : c.mapper = .board info regs) :
    c.ppubus.chr.size ≠ 0 := by
  have hcart := h.cartridge
  rw [CartridgeOk, hm] at hcart
  obtain ⟨d, hd⟩ := hcart
  by_cases hs : d.chrRom.size = 0
  · rw [hd.chrRam hs]
    decide
  · rwa [hd.chrRom hs]

/-- A peek of pattern memory is CHR at the cell the board names. -/
theorem ppuPeek_pattern {c : Chip} {b : Addr} (hb : b.toNat % 0x4000 < 0x2000) {i : Nat}
    (hi : c.mapper.ppuRead (reducePpu b) = .chr i) (hs : c.ppubus.chr.size ≠ 0) :
    ppuPeek b c = some (c.ppubus.chr.read (i % c.ppubus.chr.size)) := by
  rw [ppuPeek, route_pattern hb]
  simp only [hi, resolvePpu, reduceCtorEq, if_false, resolvePool, Memory.readMod, hs]

theorem notify_of_empty {c : Chip} (hm : c.mapper = .empty) (a : Addr) : c.notify a = c := by
  rw [Chip.notify, hm, show Mapper.notify c.params.a12FilterCycles a c.cpu.cycle .empty = .empty from rfl, ← hm]

/-- With no cartridge pattern memory is open bus (R375). -/
theorem ppuPeek_patternEmpty {c : Chip} (hm : c.mapper = .empty) {b : Addr} (hb : b.toNat % 0x4000 < 0x2000) :
    ppuPeek b c = some c.ppubus.openBus := by
  have hread : c.mapper.ppuRead (reducePpu b) = .openBus := by
    rw [hm]
    exact if_pos (by rwa [reducePpu_nat])
  rw [ppuPeek, route_pattern hb]
  simp only [hread, resolvePpu, reduceCtorEq, if_false, resolvePool]

theorem ppuWrite_patternEmpty {c : Chip} (h : c.Inv) (hm : c.mapper = .empty) {a : Addr} (ha : a.toNat % 0x4000 < 0x2000)
    (v : Byte) : ppuWrite a v c = { c with ppubus := { c.ppubus with openBus := v } } := by
  have hmirror := h.mirror
  unfold ppuWrite
  rw [route_pattern ha]
  have hwrite : c.mapper.ppuWrite (reducePpu a) v = (c.mapper, .none) := by rw [hm]; rfl
  simp only [ppuMappedWrite, notify_of_empty hm, hwrite, applyPpu, reduceCtorEq, if_false, storePool, Chip.refreshMirror,
    Chip.latchPpu, ← hmirror]

/-- Settles O32: the board names the cell of both, and a store into it is kept by CHR RAM alone. -/
theorem patternMemory : Obligations.PatternMemory := by
  refine ⟨fun s a b v info regs h hm ha hb => ?board, fun s a b v h hm ha hb => ?empty⟩
  case board =>
    have hs := h.chip.chr_size hm
    have hra : (reducePpu a).toNat < 0x2000 := by rwa [reducePpu_nat]
    obtain ⟨t, ht, hwritten⟩ := exec_ppuWrite_written h a v
    have happly : applyPpu s.chip (reducePpu a) v (s.chip.mapper.ppuWrite (reducePpu a) v).2 =
        some (storePool s.chip v (.chr (boardChrIndex (reducePpu a) regs))) := by
      rw [hm, ppuWrite_pattern info regs hra]
      rfl
    have hbus := ppuWrite_stored h.chip (by rw [route_pattern ha]; decide) happly
    rw [← hwritten.chip] at hbus
    have hsize : t.chip.ppubus.chr.size = s.chip.ppubus.chr.size := by
      rw [hwritten.chip]
      exact (ppuWrite_quiet a v s.chip).chrSize
    have hpeek := ppuPeek_pattern (c := t.chip) hb (i := boardChrIndex (reducePpu b) regs)
      (by rw [hwritten.reads, hm, ppuRead_pattern info regs (by rwa [reducePpu_nat])]) (by rwa [hsize])
    refine ⟨t, _, ht, exec_ppuPeek hpeek, hwritten.deck, ⟨rfl, rfl, rfl, rfl, rfl, rfl, rfl⟩, hs, by rw [hsize]; rfl,
      fun k => ?_, by rw [hbus]; rfl, by rw [hbus]; rfl, by rw [hbus]; rfl, hwritten.frame, hwritten.cpu⟩
    rw [hbus]
    by_cases hram : s.chip.ppubus.chrIsRam = true
    · simp only [storePool, hram, if_true, true_and]
      exact PoolOk.read_writeMod ⟨h.chip.chr, rfl⟩ hs _ v k
    · simp only [storePool, hram, if_false, false_and, Bool.false_eq_true]
  case empty =>
    have hpeek := ppuPeek_patternEmpty hm hb
    refine ⟨by rw [exec_ppuWrite s h, ppuWrite_patternEmpty h.chip hm ha], ?_, exec_ppuPeek hpeek⟩
    have hnotified : s.chip.notified b = s.chip.mapper := by
      rw [notified_route, route_pattern hb]
      exact congrArg Chip.mapper (notify_of_empty hm _)
    rw [exec_ppuRead s h, ppuRead_eq b s.chip _ hpeek, hnotified]

end Sys2Proof.Machine

/-! PROOFS. 45_mapper_boards.md: the windows of the six boards, their register writes, MMC3's scanline counter, and what the resets
make of them. -/

namespace Sys2Proof.Machine

open Sys2Proof

/-! ## PRG ROM (R402, R412, R422, R427, R434, R454) -/

theorem upper_offset {a : Addr} (ha : 0x8000 ≤ a.toNat) : a.toNat - 0x8000 = a.toNat % 0x8000 := by
  have := a.isLt
  omega

theorem nrom_prgRom {a : Addr} (ha : 0x8000 ≤ a.toNat) : nromCpuRead a = .prgRom (a.toNat % 0x8000) := by
  rw [nromCpuRead, if_neg (by omega), if_neg (by omega), upper_offset ha]

theorem uxrom_prgRom {a : Addr} (ha : 0x8000 ≤ a.toNat) (bank : Byte) (p16 : Nat) : uxromCpuRead bank p16 a =
    .prgRom ((if a.toNat < 0xC000 then bank.toNat else p16 - 1) * 0x4000 + a.toNat % 0x4000) := by
  rw [uxromCpuRead, if_neg (by omega), mask_3FFF]
  split <;> rfl

theorem cnrom_prgRom {a : Addr} (ha : 0x8000 ≤ a.toNat) : cnromCpuRead a = .prgRom (a.toNat % 0x8000) := by
  rw [cnromCpuRead, if_neg (by omega), upper_offset ha]

theorem axrom_prgRom {a : Addr} (ha : 0x8000 ≤ a.toNat) (reg : Byte) :
    axromCpuRead reg a = .prgRom (reg.toNat % 8 * 0x8000 + a.toNat % 0x8000) := by
  rw [axromCpuRead, if_neg (by omega), low_three, mask_7FFF]

theorem mmc1_prgRom {a : Addr} (ha : 0x8000 ≤ a.toNat) (m : Mmc1) (p16 : Nat) :
    mmc1CpuRead m p16 a = .prgRom (mmc1PrgIndex m p16 a) := by
  rw [mmc1CpuRead, if_neg (by omega), if_neg (by omega)]

theorem mmc1PrgIndex_pair {m : Mmc1} (h : m.control.toNat / 4 % 4 < 2) (p16 : Nat) (a : Addr) :
    mmc1PrgIndex m p16 a = m.prg.toNat % 16 / 2 * 0x8000 + a.toNat % 0x8000 := by
  simp only [mmc1PrgIndex, mmc1PrgMode, mmc1_mode, h, if_true, mmc1_bankPair, mask_7FFF]
  omega

theorem mmc1PrgIndex_firstFixed {m : Mmc1} (h : m.control.toNat / 4 % 4 = 2) (p16 : Nat) (a : Addr) :
    mmc1PrgIndex m p16 a = (if a.toNat < 0xC000 then 0 else m.prg.toNat % 16) * 0x4000 + a.toNat % 0x4000 := by
  simp only [mmc1PrgIndex, mmc1PrgMode, mmc1_mode, h, Nat.lt_irrefl, if_true, if_false, mmc1_bank, mask_3FFF]
  split <;> omega

theorem mmc1PrgIndex_lastFixed {m : Mmc1} (h : m.control.toNat / 4 % 4 = 3) (p16 : Nat) (a : Addr) :
    mmc1PrgIndex m p16 a = (if a.toNat < 0xC000 then m.prg.toNat % 16 else p16 - 1) * 0x4000 + a.toNat % 0x4000 := by
  simp only [mmc1PrgIndex, mmc1PrgMode, mmc1_mode, h, show ¬ 3 < 2 by decide, show ¬ 3 = 2 by decide, if_false, mmc1_bank,
    mask_3FFF]
  split <;> rfl

theorem mmc3PrgBank_eq (m : Mmc3) (p8 : Nat) (a : Addr) : mmc3PrgBank m p8 a =
    if a.toNat / 0x2000 % 4 = 1 then m.r7.toNat % 64
    else if a.toNat / 0x2000 % 4 = 3 then p8 - 1
    else if (a.toNat / 0x2000 % 4 = 0 ∧ m.bankSelect.toNat / 64 % 2 = 1) ∨
      (a.toNat / 0x2000 % 4 = 2 ∧ ¬ m.bankSelect.toNat / 64 % 2 = 1) then p8 - 1 - 1
    else m.r6.toNat % 64 := by
  simp only [mmc3PrgBank, window_nat, bit_six, low_six, decide_eq_true_eq]
  have hwindow := Nat.mod_lt (a.toNat / 0x2000) (show 0 < 4 by decide)
  split_ifs <;> omega

theorem mmc3_prgRom {a : Addr} (ha : 0x8000 ≤ a.toNat) (m : Mmc3) (p8 : Nat) :
    mmc3CpuRead m p8 a = .prgRom (mmc3PrgBank m p8 a * 0x2000 + a.toNat % 0x2000) := by
  rw [mmc3CpuRead, if_neg (by omega), if_neg (by omega), mask_1FFF]

/-- Settles O33: each board's own answer, its fields as numbers. -/
theorem prgWindows : Obligations.PrgWindows := by
  intro c a info regs h hm ha rom peek last16 last8
  have hsize := h.prg_size (by rw [hm]; rfl)
  have hpeek : ∀ {i}, (Mapper.board info regs).cpuRead c.cart.prgRom.size a = .prgRom i → peek (rom i) := fun hi =>
    cpuPeek_prgRom ha hsize (hm ▸ hi)
  refine ⟨hsize, ?_⟩
  cases regs with
  | nrom => exact hpeek (nrom_prgRom ha)
  | uxrom bank => exact hpeek (uxrom_prgRom ha bank _)
  | cnrom bank => exact hpeek (cnrom_prgRom ha)
  | axrom reg => exact hpeek (axrom_prgRom ha reg)
  | mmc1 m =>
    have hindex := mmc1_prgRom ha m (c.cart.prgRom.size / 16384)
    refine ⟨fun hmode => ?_, fun hmode => ?_, fun hmode => ?_⟩
    · exact hpeek (hindex.trans (congrArg _ (mmc1PrgIndex_pair hmode _ a)))
    · exact hpeek (hindex.trans (congrArg _ (mmc1PrgIndex_firstFixed hmode _ a)))
    · exact hpeek (hindex.trans (congrArg _ (mmc1PrgIndex_lastFixed hmode _ a)))
  | mmc3 m =>
    refine hpeek ((mmc3_prgRom ha m _).trans ?_)
    rw [mmc3PrgBank_eq]

/-! ## PRG RAM (R361, R402, R441, R457) -/

/-- The board has PRG RAM, and its enable lets it answer. -/
def BoardRegs.prgRamAnswers : BoardRegs → Bool
  | .nrom => true
  | .uxrom _ => false
  | .cnrom _ => false
  | .axrom _ => false
  | .mmc1 m => !m.prg.getLsbD 4
  | .mmc3 m => m.prgRamCtl.getLsbD 7

/-- The PRG RAM that answers takes a write too. -/
def BoardRegs.prgRamTakes : BoardRegs → Bool
  | .nrom => true
  | .uxrom _ => false
  | .cnrom _ => false
  | .axrom _ => false
  | .mmc1 _ => true
  | .mmc3 m => !m.prgRamCtl.getLsbD 6

/-- What a board answers to a read below 0x8000. -/
theorem cpuRead_low (info : BoardInfo) (regs : BoardRegs) (n : Nat) {a : Addr} (ha : a.toNat < 0x8000) :
    (Mapper.board info regs).cpuRead n a =
      if (decide (0x6000 ≤ a.toNat) && regs.prgRamAnswers) = true then .prgRam (a.toNat - 0x6000) else .openBus := by
  by_cases hlow : a.toNat < 0x6000
  · have hnot : ¬ 0x6000 ≤ a.toNat := by omega
    cases regs <;> simp [Mapper.cpuRead, nromCpuRead, uxromCpuRead, cnromCpuRead, axromCpuRead, mmc1CpuRead, mmc3CpuRead,
      hlow, hnot, ha]
  · have hge : 0x6000 ≤ a.toNat := by omega
    cases regs <;> simp [Mapper.cpuRead, nromCpuRead, uxromCpuRead, cnromCpuRead, axromCpuRead, mmc1CpuRead, mmc3CpuRead,
      hlow, hge, ha, BoardRegs.prgRamAnswers, mmc1PrgRamEnabled, mmc3PrgRamEnabled]

/-- What a board answers to a write below 0x8000. -/
theorem cpuWrite_low_answer (info : BoardInfo) (regs : BoardRegs) (v : Byte) (t : Stamp) {a : Addr} (ha : a.toNat < 0x8000) :
    ((Mapper.board info regs).cpuWrite a v t).2 =
      if (decide (0x6000 ≤ a.toNat) && regs.prgRamAnswers && regs.prgRamTakes) = true then .prgRam (a.toNat - 0x6000)
      else .none := by
  by_cases hlow : a.toNat < 0x6000
  · have hnot : ¬ 0x6000 ≤ a.toNat := by omega
    cases regs <;> simp [Mapper.cpuWrite, nromCpuWrite, mmc1CpuWrite, mmc3CpuWrite, hlow, hnot]
  · have hge : 0x6000 ≤ a.toNat := by omega
    cases regs <;> simp [Mapper.cpuWrite, nromCpuWrite, mmc1CpuWrite, mmc3CpuWrite, hlow, hge, ha, BoardRegs.prgRamAnswers,
      BoardRegs.prgRamTakes, mmc1PrgRamEnabled, mmc3PrgRamWritable]

theorem prgRamSize_of_answers {regs : BoardRegs} (h : regs.prgRamAnswers = true) (info : BoardInfo) :
    (Mapper.board info regs).prgRamSize = 8192 := by
  cases regs
  case nrom => rfl
  case mmc1 => rfl
  case mmc3 => rfl
  all_goals cases h

theorem cpuPeek_cartridge {a : Addr} (ha : 0x4020 ≤ a.toNat) (hlow : a.toNat < 0x8000) (c : Chip) :
    cpuPeek a c = resolvePool c c.bus.openBus (c.mapper.cpuRead c.cart.prgRom.size a) := by
  rw [cpuPeek, route_cartridge ha, genieFilter_lower hlow]
  rfl

theorem cpuWrite_cartridge {a : Addr} (ha : 0x4020 ≤ a.toNat) (v : Byte) (c : Chip) :
    cpuWrite a v c = (cartWrite a v c).latchCpu v := by
  rw [cpuWrite, cpuDecodeWrite, route_cartridge ha]

/-- Settles O34: the cell is the address's offset in 8 KiB, so its reduction by the pool's size changes nothing. -/
theorem prgRamWindows : Obligations.PrgRamWindows := by
  intro c a v info regs h hm ha hlow answers takes
  have hanswers : answers = (decide (0x6000 ≤ a.toNat) && regs.prgRamAnswers) := by cases regs <;> rfl
  have htakes : takes = (decide (0x6000 ≤ a.toNat) && regs.prgRamAnswers && regs.prgRamTakes) := by
    rw [← hanswers]
    cases regs <;> rfl
  have hread := cpuRead_low info regs c.cart.prgRom.size hlow
  have hwrite := cpuWrite_low_answer info regs v c.cpu.cycle hlow
  rw [← hm, ← hanswers] at hread
  rw [← hm, ← htakes] at hwrite
  have hmapper : (cpuWrite a v c).mapper = c.mapper := by
    rw [cpuWrite_cartridge ha]
    simp [cartWrite, cpuWrite_low hlow]
  have hpool : (decide (0x6000 ≤ a.toNat) && regs.prgRamAnswers) = true →
      PoolOk c.cart.prgRam 8192 ∧ (a.toNat - 0x6000) % 8192 = a.toNat - 0x6000 := fun hon => by
    have hsize := prgRamSize_of_answers (Bool.and_eq_true_iff.1 hon).2 info
    exact ⟨by rw [← hsize, ← hm]; exact h.prgRam, by omega⟩
  refine ⟨fun hon => ?read, fun hoff => ?latch, hmapper, ?size, fun i => ?write⟩
  case read =>
    obtain ⟨hpool, hindex⟩ := hpool (hanswers ▸ hon)
    rw [cpuPeek_cartridge ha hlow, hread, if_pos hon, resolvePool, hpool.readMod (by decide), hindex]
  case latch => rw [cpuPeek_cartridge ha hlow, hread, hoff, if_neg Bool.false_ne_true, resolvePool]
  case size =>
    have hafter := ((cpuWrite_quiet a v c).inv h).prgRam.2
    rw [hafter, hmapper, h.prgRam.2]
  case write =>
    have hcart : (cpuWrite a v c).cart.prgRam =
        if takes then c.cart.prgRam.writeMod (a.toNat - 0x6000) v else c.cart.prgRam := by
      rw [cpuWrite_cartridge ha, latchCpu_cart, cartWrite, refreshMirror_cart, hwrite]
      split <;> rfl
    rw [hcart]
    by_cases hon : takes = true
    · obtain ⟨hpool, hindex⟩ := hpool (Bool.and_eq_true_iff.1 (htakes ▸ hon)).1
      rw [if_pos hon, hpool.read_writeMod (by decide), hindex]
      simp only [hon, true_and]
    · simp only [hon, if_false, false_and, Bool.false_eq_true]

/-! ## CHR (R403, R413, R423, R428, R435, R455) -/

theorem mmc1ChrIndex_pair {m : Mmc1} (h : m.control.getLsbD 4 = false) (a : Addr) :
    mmc1ChrIndex m a = m.chr0.toNat / 2 * 0x2000 + a.toNat := by
  simp only [mmc1ChrIndex, h, Bool.false_eq_true, if_false, mmc1_chrPair]
  omega

theorem mmc1ChrIndex_split {m : Mmc1} (h : m.control.getLsbD 4 = true) (a : Addr) :
    mmc1ChrIndex m a = (if a.toNat < 0x1000 then m.chr0.toNat else m.chr1.toNat) * 0x1000 + a.toNat % 0x1000 := by
  have hoffset : (a &&& 0x0FFF).toNat = a.toNat % 0x1000 := and_mask_toNat a 12 _ rfl
  simp only [mmc1ChrIndex, h, if_true, hoffset]
  split <;> rfl

/-- The slot of 1 KiB that MMC3 sees: the two halves change places while bit 7 of the bank select is set (R455). -/
theorem mmc3_slot (m : Mmc3) {a : Addr} (ha : a.toNat < 0x2000) :
    (if m.bankSelect.getLsbD 7 then a ^^^ 0x1000 else a).toNat / 0x400 =
      (a.toNat / 0x400 + if m.bankSelect.getLsbD 7 then 4 else 0) % 8 := by
  have hslot : a.toNat / 0x400 < 8 := by omega
  split
  · have hxor : (a ^^^ 0x1000).toNat / 0x400 = a.toNat / 0x400 ^^^ 4 := by
      rw [BitVec.toNat_xor, ← Nat.shiftRight_eq_div_pow _ 10, Nat.shiftRight_xor_distrib, Nat.shiftRight_eq_div_pow]
      rfl
    have hall : ∀ n < 8, n ^^^ 4 = (n + 4) % 8 := by decide
    rw [hxor, hall _ hslot]
  · omega

theorem mmc3ChrBank_eq (m : Mmc3) {a : Addr} (ha : a.toNat < 0x2000) {slot : Nat}
    (hslot : slot = (a.toNat / 0x400 + if m.bankSelect.getLsbD 7 then 4 else 0) % 8) : mmc3ChrBank m a =
    if slot < 2 then m.r0.toNat / 2 * 2 + slot
    else if slot < 4 then m.r1.toNat / 2 * 2 + (slot - 2)
    else (mmc3Reg m (slot - 2)).toNat := by
  have hseen := mmc3_slot m ha
  rw [← hslot] at hseen
  unfold mmc3ChrBank
  generalize (if m.bankSelect.getLsbD 7 then a ^^^ 0x1000 else a) = seen at *
  have hbit : ((seen >>> 10) &&& 1).toNat = slot % 2 := by
    rw [and_mask_toNat _ 1 _ rfl, BitVec.toNat_ushiftRight, Nat.shiftRight_eq_div_pow, ← hseen]
    rfl
  have hfirst : seen.toNat < 0x0800 ↔ slot < 2 := by omega
  have hlower : seen.toNat < 0x1000 ↔ slot < 4 := by omega
  simp only [even_part, hbit, hfirst, hlower]
  split_ifs with h0 h1
  · omega
  · omega
  · rw [show 2 + (seen.toNat - 0x1000) / 0x400 = slot - 2 by omega]

theorem reducePpu_pattern {a : Addr} (ha : a.toNat < 0x2000) : reducePpu a = a := by
  apply BitVec.eq_of_toNat_eq
  rw [reducePpu_nat, Nat.mod_eq_of_lt (by omega)]

/-- Settles O35: each board's own index, its fields as numbers. -/
theorem chrWindows : Obligations.ChrWindows := by
  intro c a info regs h hm ha peek
  have hsize := h.chr_size hm
  have hpeek : ∀ {i}, boardChrIndex a regs = i → peek i := fun hi => by
    refine ppuPeek_pattern (by omega) ?_ hsize
    rw [hm, reducePpu_pattern ha, ppuRead_pattern info regs ha, hi]
  refine ⟨hsize, ?_⟩
  cases regs with
  | nrom => exact hpeek rfl
  | uxrom bank => exact hpeek rfl
  | cnrom bank => exact hpeek rfl
  | axrom reg => exact hpeek rfl
  | mmc1 m => exact ⟨fun h4 => hpeek (mmc1ChrIndex_pair h4 a), fun h4 => hpeek (mmc1ChrIndex_split h4 a)⟩
  | mmc3 m =>
    dsimp only
    generalize hslot : (a.toNat / 0x400 + if m.bankSelect.getLsbD 7 then 4 else 0) % 8 = slot
    have hbank := mmc3ChrBank_eq m ha hslot.symm
    have hindex : boardChrIndex a (.mmc3 m) = mmc3ChrBank m a * 0x400 + a.toNat % 0x400 := by
      show mmc3ChrBank m a * 0x400 + (a &&& 0x3FF).toNat = _
      rw [mask_03FF]
    refine ⟨fun h0 => hpeek ?_, fun h2 h4 => hpeek ?_, fun he => hpeek ?_, fun he => hpeek ?_, fun he => hpeek ?_,
      fun he => hpeek ?_⟩
    · rw [hindex, hbank, if_pos h0]
      omega
    · rw [hindex, hbank, if_neg (by omega), if_pos h4]
      omega
    all_goals
      rw [he] at hbank
      rw [hindex, hbank]
      rfl


/-! ## Register writes (R463 to R477) -/

/-- Settles O36: each write stores the byte, and a register row is the CPU write of its address. -/
theorem plainBoardWrites : Obligations.PlainBoardWrites := by
  refine ⟨fun s a v info regs h ha hm => ?_, fun s a v i hi => ?row⟩
  · have hnot : ¬ a.toNat < 0x8000 := by omega
    refine ⟨?uxrom, ?cnrom, ?axrom⟩
    case uxrom =>
      rintro bank rfl
      exact hostWrite_board s h a v info _ _ hm ha (by simp [Mapper.cpuWrite, uxromWrite, hnot])
    case cnrom =>
      rintro bank rfl
      exact hostWrite_board s h a v info _ _ hm ha (by simp [Mapper.cpuWrite, cnromWrite, hnot])
    case axrom =>
      rintro reg rfl
      refine ⟨hostWrite_board s h a v info _ _ hm ha (by simp [Mapper.cpuWrite, axromWrite, hnot]), fun hfs => ?_⟩
      simp only [boardWritten, hfs, boardMirroring, axromMirroring]
      cases v.getLsbD 4 <;> rfl
  case row =>
    fin_cases hi <;> rfl

/-! ## MMC1's serial port (R432, R466 to R469) -/

theorem mmc1Filtered_iff (m : Mmc1) (now : Stamp) : mmc1Filtered m now = true ↔ m.lastWriteCycle.map (· + 1) = some now := by
  unfold mmc1Filtered
  cases m.lastWriteCycle with
  | none => simp
  | some c =>
    rw [Option.map_some, Option.some_inj, beq_iff_eq]
    exact eq_comm

theorem mmc1Shifted_eq (m : Mmc1) (v : Byte) :
    mmc1Shifted m v = BitVec.ofNat 5 (m.shift.toNat ||| v.toNat % 2 * 2 ^ m.count.val) := by
  apply BitVec.eq_of_toNat_eq
  simp [mmc1Shifted, Nat.shiftLeft_eq]

/-- The fifth write stores into the register that the row's address names. -/
theorem mmc1Store_row {m : Mmc1} {a k : Addr} (h : a &&& 0xE000 = k) (x : BitVec 5) :
    mmc1Store m a x = mmc1Store m k x := by
  have htarget : (a >>> 13) &&& (3 : Addr) = (k >>> 13) &&& 3 := by
    rw [← h, BitVec.ushiftRight_and_distrib, BitVec.and_assoc]
    rfl
  unfold mmc1Store
  rw [htarget]

/-- A write to MMC1 from the host, in the four cases of R432; `fifth` is the register of the write's own address. -/
theorem mmc1Row_lands {s : State} (h : s.Inv) {info : BoardInfo} {m : Mmc1} (hm : s.chip.mapper = .board info (.mmc1 m))
    {a : Addr} (ha : 0x8000 ≤ a.toNat) (v : Byte) {i : Instr} (hi : exec i s = .next (hostCpuWrite a v s)) {fifth : Mmc1}
    (hfifth : mmc1Store { m with lastWriteCycle := some s.chip.cpu.cycle } a (mmc1Shifted m v) =
      { fifth with lastWriteCycle := some s.chip.cpu.cycle }) :
    let now := s.chip.cpu.cycle
    let x := BitVec.ofNat 5 (m.shift.toNat ||| v.toNat % 2 * 2 ^ m.count.val)
    let lands := fun m' => Host.Outcome.next (boardWritten s info (.mmc1 m') v)
    (m.lastWriteCycle.map (· + 1) = some now → exec i s = lands { m with lastWriteCycle := some now }) ∧
    (m.lastWriteCycle.map (· + 1) ≠ some now →
      (v.getLsbD 7 = true →
        exec i s = lands { m with lastWriteCycle := some now, shift := 0, count := 0, control := m.control ||| 0x0C }) ∧
      (v.getLsbD 7 = false → m.count.val < 4 →
        exec i s = lands { m with lastWriteCycle := some now, shift := x, count := m.count + 1 }) ∧
      (v.getLsbD 7 = false → m.count.val = 4 →
        exec i s = lands { fifth with lastWriteCycle := some now, shift := 0, count := 0 })) := by
  intro now x lands
  have hlands : ∀ m', mmc1Write m a v now = m' → exec i s = lands m' := fun m' hw => by
    rw [hi]
    refine hostWrite_board s h a v info _ _ hm ha ?_
    simp only [Mapper.cpuWrite, mmc1CpuWrite, if_neg (show ¬ a.toNat < 0x6000 by omega), if_neg (Nat.not_lt.2 ha)]
    rw [hw]
  refine ⟨fun hnext => ?filtered, fun hnext => ⟨fun h7 => ?reset, fun h7 hcount => ?shift, fun h7 hcount => ?fifth⟩⟩
  case filtered => exact hlands _ (by simp [mmc1Write, (mmc1Filtered_iff m now).2 hnext])
  all_goals have hnot : ¬ mmc1Filtered m now = true := fun hf => hnext ((mmc1Filtered_iff m now).1 hf)
  case reset => exact hlands _ (by rw [mmc1Write, if_neg hnot, if_pos h7, mmc1ResetBit])
  all_goals have h7 : ¬ v.getLsbD 7 = true := by rw [h7]; decide
  case shift => exact hlands _ (by rw [mmc1Write, if_neg hnot, if_neg h7, if_pos hcount, mmc1Shifted_eq])
  case fifth => exact hlands _ (by rw [mmc1Write, if_neg hnot, if_neg h7, if_neg (by omega), hfifth])

/-- Settles O37: one row lemma, with the register that each row's address names. -/
theorem mmc1Writes : Obligations.Mmc1Writes := by
  intro s info m a v h hm now x lands row
  refine ⟨fun ha => ?control, fun ha => ?chr0, fun ha => ?chr1, fun ha => ?prg⟩
  all_goals
    refine mmc1Row_lands h hm (upper_of_mmc1Row ha (by decide)) v rfl ?_
    rw [mmc1Store_row ha, mmc1Shifted_eq]
    rfl


/-! ## MMC3's registers (R452, R470 to R477) -/

/-- A write to MMC3 from the host does what its address's row says. -/
theorem mmc3Row_lands {s : State} (h : s.Inv) {info : BoardInfo} {m : Mmc3} (hm : s.chip.mapper = .board info (.mmc3 m))
    {a k : Addr} (hk : 0x8000 ≤ k.toNat) (hak : a &&& 0xE001 = k) (v : Byte) {i : Instr}
    (hi : exec i s = .next (hostCpuWrite a v s)) {m' : Mmc3} (hw : mmc3RegWrite m k v = m') (hkk : k &&& 0xE001 = k) :
    exec i s = .next (boardWritten s info (.mmc3 m') v) := by
  have ha := upper_of_mmc3Row hak hk
  have hrow : mmc3RegWrite m a v = mmc3RegWrite m k v := by simp only [mmc3RegWrite, mmc3Row, hak, hkk]
  rw [hi]
  refine hostWrite_board s h a v info _ _ hm ha ?_
  simp only [Mapper.cpuWrite, mmc3CpuWrite, if_neg (show ¬ a.toNat < 0x6000 by omega), if_neg (Nat.not_lt.2 ha)]
  rw [hrow, hw]

/-- Settles O38: each row of R452. -/
theorem mmc3Writes : Obligations.Mmc3Writes := by
  intro s info m a v h hm lands data
  refine ⟨fun ha => ?bankSelect, fun ha => ?bankData, fun ha => ?mirroring, fun ha => ?protect, fun ha => ?latch,
    fun ha => ?reload, fun ha => ?disable, fun ha => ?enable⟩
  case bankData =>
    have hdata : ∀ {n m'}, mmc3SetReg m n v = m' → m.bankSelect.toNat % 8 = n → data m' := fun hset hn => by
      refine mmc3Row_lands h hm (by decide) ha v rfl ?_ (by decide)
      rw [← hset, ← hn, ← low_three]
      rfl
    exact ⟨hdata rfl, hdata rfl, hdata rfl, hdata rfl, hdata rfl, hdata rfl, hdata rfl, hdata rfl⟩
  case mirroring =>
    refine mmc3Row_lands h hm (by decide) ha v rfl ?_ (by decide)
    rw [← mirroring_bit]
    rfl
  all_goals exact mmc3Row_lands h hm (by decide) ha v rfl rfl (by decide)

/-! ## MMC3's scanline counter (R459, R460) -/

theorem a12_iff (a : Addr) : a.getLsbD 12 = true ↔ a.toNat / 0x1000 % 2 = 1 := by
  simp [BitVec.getLsbD, Nat.testBit, Nat.shiftRight_eq_div_pow, Nat.one_and_eq_mod_two]

theorem mmc3RisePasses_iff (filter : Nat) (m : Mmc3) (now : Stamp) : mmc3RisePasses filter m now = true ↔
    m.a12HighCycle = none ∨ ∃ c, m.a12HighCycle = some c ∧ filter ≤ (now - c).toNat := by
  unfold mmc3RisePasses
  cases m.a12HighCycle <;> simp

theorem mmc3Fires_eq (rev : Revision) (m : Mmc3) : mmc3Fires rev m =
    decide (mmc3NextCounter m = 0 ∧ (rev = .standard ∨ (rev = .revA ∧ (m.irqCounter ≠ 0 ∨ m.irqReload = true)))) := by
  rw [Bool.eq_iff_iff, decide_eq_true_iff]
  cases rev <;> simp [mmc3Fires]

/-- The rise of A12 that clocks the counter. -/
theorem mmc3_clocks_iff (filter : Nat) (m : Mmc3) (a : Addr) (now : Stamp) :
    (a.getLsbD 12 && !m.a12Prev && mmc3RisePasses filter m now) = true ↔
      a.toNat / 0x1000 % 2 = 1 ∧ m.a12Prev = false ∧
        (m.a12HighCycle = none ∨ ∃ c, m.a12HighCycle = some c ∧ filter ≤ (now - c).toNat) := by
  simp only [Bool.and_eq_true, Bool.not_eq_true', a12_iff, mmc3RisePasses_iff, and_assoc]

theorem mmc3Notify_idle {rev : Revision} {filter : Nat} {m : Mmc3} {a : Addr} {now : Stamp}
    (h : ¬ (a.getLsbD 12 && !m.a12Prev && mmc3RisePasses filter m now) = true) : mmc3Notify rev filter m a now =
      { m with a12HighCycle := if a.getLsbD 12 then some now else m.a12HighCycle, a12Prev := a.getLsbD 12 } := by
  simp only [mmc3Notify, if_neg h]

theorem mmc3Notify_clock {rev : Revision} {filter : Nat} {m : Mmc3} {a : Addr} {now : Stamp}
    (h : (a.getLsbD 12 && !m.a12Prev && mmc3RisePasses filter m now) = true) : mmc3Notify rev filter m a now =
      { mmc3ClockIrq rev m with a12HighCycle := some now, a12Prev := true } := by
  have h12 : a.getLsbD 12 = true := (Bool.and_eq_true_iff.1 (Bool.and_eq_true_iff.1 h).1).1
  simp only [mmc3Notify, if_pos h, if_pos h12]
  rw [h12]

theorem notify_other {m : Mapper} (h : m.kind ≠ some .mmc3) (filter : Nat) (a : Addr) (now : Stamp) :
    m.notify filter a now = m := by
  cases m with
  | empty => rfl
  | board info regs =>
    cases regs
    case mmc3 => exact absurd rfl h
    all_goals rfl

/-- Settles O39: a notification that clocks the counter, and one that does not. -/
theorem mmc3ScanlineCounter : Obligations.Mmc3ScanlineCounter := by
  refine ⟨fun filter m a now hk => notify_other hk filter a now,
    fun info filter m a now => ⟨fun hidle => ?_, fun hclock => ?_⟩⟩
  · have ha12 : a.getLsbD 12 = decide (a.toNat / 0x1000 % 2 = 1) := by
      rw [Bool.eq_iff_iff, a12_iff, decide_eq_true_iff]
    show Mapper.board info (.mmc3 (mmc3Notify info.revision filter m a now)) = _
    rw [mmc3Notify_idle (mt (mmc3_clocks_iff filter m a now).1 hidle), ha12]
    simp only [decide_eq_true_eq]
  · show Mapper.board info (.mmc3 (mmc3Notify info.revision filter m a now)) = _
    rw [mmc3Notify_clock ((mmc3_clocks_iff filter m a now).2 hclock), mmc3ClockIrq, mmc3Fires_eq, Bool.or_comm]
    rfl

/-! ## The resets (R371) -/

/-- Settles O40: under a header that is not Four-Screen MMC3's mirroring register is the header's. -/
theorem boardResets : Obligations.BoardResets := by
  refine ⟨fun m => ⟨rfl, hardReset_identity m⟩, rfl, fun info => ⟨rfl, fun _ => rfl, fun _ => rfl, fun _ => rfl,
    fun _ => rfl, fun m hheader => ?_, fun m => ⟨_, rfl⟩⟩⟩
  show Mapper.board info (.mmc3 (mmc3PowerOn info.header)) = _
  have hreg : mmc3PowerOnMirroring info.header = if info.header = .vertical then 0 else 1 := by
    cases hh : info.header with
    | horizontal => rfl
    | vertical => rfl
    | fourScreen => exact absurd hh hheader
  rw [mmc3PowerOn, hreg]

end Sys2Proof.Machine

/-! PROOFS. 41_deck_lifecycle.md, 70_reset_and_hazards.md, 42_deck_config.md: loading a cartridge, the resets, the accessors,
the settings and deck construction. -/

namespace Sys2Proof.Machine

open Sys2Proof

/-! ## Which descriptors load (R251) -/

/-- The mapper ids with their power-on registers (R373). -/
theorem boardOfId_mem {id : BitVec 16} {header : HeaderMirroring} {regs : BoardRegs} (h : boardOfId id header = some regs) :
    (id, regs) ∈ ([(0, .nrom), (1, .mmc1 mmc1PowerOn), (2, .uxrom 0), (3, .cnrom 0), (4, .mmc3 (mmc3PowerOn header)),
      (7, .axrom 0)] : List (BitVec 16 × BoardRegs)) := by
  unfold boardOfId at h
  split_ifs at h with h0 h1 h2 h3 h4 h7
  all_goals
    cases h
    simp [*]

theorem boardOfId_none {id : BitVec 16} {header : HeaderMirroring} (h : boardOfId id header = none) :
    id ∉ ([0, 1, 2, 3, 4, 7] : List (BitVec 16)) := by
  unfold boardOfId at h
  split_ifs at h with h0 h1 h2 h3 h4 h7
  simp only [List.mem_cons, List.not_mem_nil, or_false, not_or]
  exact ⟨h0, h1, h2, h3, h4, h7⟩

theorem boardOfId_supported {id : BitVec 16} {header : HeaderMirroring} {regs : BoardRegs}
    (h : boardOfId id header = some regs) : id ∈ ([0, 1, 2, 3, 4, 7] : List (BitVec 16)) := by
  have hmem := List.mem_map_of_mem (f := Prod.fst) (boardOfId_mem h)
  exact hmem

theorem boardOfId_powerOn {id : BitVec 16} {header : HeaderMirroring} {regs : BoardRegs}
    (h : boardOfId id header = some regs) : boardPowerOn header regs = regs := by
  have hmem := boardOfId_mem h
  simp only [List.mem_cons, Prod.mk.injEq, List.not_mem_nil, or_false] at hmem
  rcases hmem with ⟨_, rfl⟩ | ⟨_, rfl⟩ | ⟨_, rfl⟩ | ⟨_, rfl⟩ | ⟨_, rfl⟩ | ⟨_, rfl⟩ <;> rfl

theorem withinBoardLimits_iff {id : BitVec 16} {header : HeaderMirroring} {regs : BoardRegs}
    (h : boardOfId id header = some regs) (prg chr : Nat) :
    withinBoardLimits prg chr regs = true ↔ WithinLimits id prg chr := by
  have hmem := boardOfId_mem h
  simp only [List.mem_cons, Prod.mk.injEq, List.not_mem_nil, or_false] at hmem
  rcases hmem with ⟨rfl, rfl⟩ | ⟨rfl, rfl⟩ | ⟨rfl, rfl⟩ | ⟨rfl, rfl⟩ | ⟨rfl, rfl⟩ | ⟨rfl, rfl⟩ <;>
    simp [withinBoardLimits, WithinLimits, and_assoc]

theorem badTrainer_iff (t : Option Memory) : badTrainer t = true ↔ ¬ ∀ m, t = some m → m.size = 512 := by
  cases t <;> simp [badTrainer]

/-- The reason is the one of the first check that fails. -/
theorem FirstFailure.unique : ∀ {checks : List (Prop × RomProblem)} {r r' : Option RomProblem}, FirstFailure checks r →
    FirstFailure checks r' → r = r'
  | [], _, _, h, h' => h.trans h'.symm
  | _ :: _, _, _, .inl ⟨_, h⟩, .inl ⟨_, h'⟩ => h.trans h'.symm
  | _ :: _, _, _, .inl ⟨hp, _⟩, .inr ⟨hp', _⟩ => absurd hp' hp
  | _ :: _, _, _, .inr ⟨hp, _⟩, .inl ⟨hp', _⟩ => absurd hp hp'
  | _ :: _, _, _, .inr ⟨_, h⟩, .inr ⟨_, h'⟩ => h.unique h'

/-- `Validate` finds the first check that fails; the one of Four-Screen routing cannot (R374). -/
theorem firstFailure_validate (d : Descriptor) : FirstFailure (loadChecks d) (validate d) := by
  unfold validate
  cases hb : boardOfId d.mapperId d.mirroring with
  | none => exact .inl ⟨boardOfId_none hb, rfl⟩
  | some regs =>
    have hroutes : ¬ (d.mirroring = .fourScreen ∧ routesFourScreen regs = false) := by cases regs <;> exact fun h => nomatch h.2
    refine .inr ⟨boardOfId_supported hb, ?_⟩
    simp only [if_neg hroutes]
    split_ifs with hprg hchr htrainer hlimit
    · exact .inl ⟨by omega, rfl⟩
    · exact .inr ⟨by omega, .inl ⟨hchr, rfl⟩⟩
    · exact .inr ⟨by omega, .inr ⟨by omega, .inl ⟨(badTrainer_iff _).1 htrainer, rfl⟩⟩⟩
    all_goals
      refine .inr ⟨by omega, .inr ⟨by omega, .inr ⟨not_not.1 (mt (badTrainer_iff _).2 htrainer), ?_⟩⟩⟩
      rw [FirstFailure, ← withinBoardLimits_iff hb]
    · exact .inl ⟨by rw [hlimit]; decide, rfl⟩
    · exact .inr ⟨Bool.not_eq_false _ ▸ hlimit, rfl⟩

/-- Settles O41: the reason is `Validate`'s. -/
theorem loadRejects : Obligations.LoadRejects := by
  intro s name d e hfail
  show Host.Outcome.next (match validate d with
    | some e => s.finish (.err (.romFormat e))
    | none => loadValid name d s) = _
  rw [(firstFailure_validate d).unique hfail]
  rfl

theorem validate_of_loadable {d : Descriptor} (h : Loadable d) : validate d = none :=
  (firstFailure_validate d).unique h.2

/-! ## Loading (R250, R252, R253) -/

theorem load_mapper {d : Descriptor} {regs : BoardRegs} (h : boardOfId d.mapperId d.mirroring = some regs) (c : Chip) :
    (c.load d).mapper =
      .board { header := d.mirroring, fourScreen := decide (d.mirroring = .fourScreen),
               region := d.regionHint.getD c.config.region, revision := .standard } regs := by
  simp [Chip.load, Chip.insert, Chip.selectRegion, Chip.initPrgRam, selectBoard, h, Mapper.setRegion, Chip.unload]

theorem hardReset_mapsAs {b : Bool} {c : Chip} (h : HardResetDone (hardResetBoard b c) (hardReset b c)) :
    MapsAs (hardReset b c).mapper c.mapper.hardReset where
  cpu := h.settled.reads
  ppu := h.settled.ppuReads
  mirroring := h.settled.mirroring

theorem hardReset_latch (b : Bool) (c : Chip) :
    (hardReset b c).cpu.nmiLatch = sawEdge (resetProg (hardResetStart b c).cpu.regs) (hardResetStart b c) :=
  resetSequence_latch (by rw [hardResetStart_cpu]; rfl)

theorem hardResetBoard_chr_size (b : Bool) (c : Chip) : (hardResetBoard b c).ppubus.chr.size = c.ppubus.chr.size := by
  show (if c.ppubus.chrIsRam then _ else _ : Memory).size = _
  split
  · exact initRam_size _ _ _
  · rfl

theorem hardResetBoard_chrRom {c : Chip} (h : c.ppubus.chrIsRam = false) (b : Bool) :
    (hardResetBoard b c).ppubus.chr = c.ppubus.chr :=
  (hardResetBoard_sameRoms b c).chrRom h

theorem load_chr (d : Descriptor) (c : Chip) :
    (c.load d).ppubus.chr = if d.chrRom.size = 0 then zeroPool 8192 else d.chrRom := rfl

/-- PRG RAM as the reset sequence of LOAD_ROM finds it: filled once, and again when it has no battery. -/
theorem load_prgRam_filled (d : Descriptor) (c : Chip) :
    FilledBy c.config.ramState (hardResetBoard d.battery (c.load d)).cart.prgRam := by
  show FilledBy _ (if d.battery then _ else _)
  split <;> exact filledBy_initRam _ _ _

theorem exec_loadRom {s : State} (h : s.Inv) (name : Text) {d : Descriptor} (hd : Loadable d) :
    exec (.loadRom name d) s = .next { s with
      running := true, loadedRom := some name, batteryBacked := d.battery, cyclesRemaining := 0
      chip := hardReset d.battery (s.chip.load d), result := some (.ok (.flushed s.flush)) } := by
  have hi := (load_spec h.chip hd.1 (validate_of_loadable hd)).2
  show Host.Outcome.next (match validate d with
    | some e => s.finish (.err (.romFormat e))
    | none => loadValid name d s) = _
  rw [validate_of_loadable hd]
  simp only [loadValid, begin_of_noRefusal h.chip.noRefusal, commit_of_noRefusal _ hi.noRefusal]

/-- Settles O42: the chip is the one of `load_spec`, and its board the one that `SelectBoard` chose. -/
theorem loadSucceeds : Obligations.LoadSucceeds := by
  intro s name d h hd
  obtain ⟨hdone, hi⟩ := load_spec h.chip hd.1 (validate_of_loadable hd)
  obtain ⟨regs, hregs⟩ := validate_board (validate_of_loadable hd)
  have hmapper := load_mapper hregs s.chip
  obtain ⟨info, hinfo⟩ : ∃ info : BoardInfo, info =
      { header := d.mirroring, fourScreen := decide (d.mirroring = .fourScreen),
        region := d.regionHint.getD s.chip.config.region, revision := .standard } := ⟨_, rfl⟩
  rw [← hinfo] at hmapper
  have hstart : (hardResetStart d.battery (s.chip.load d)).mapper = .board info regs := by
    rw [hardResetStart_mapper, hmapper, hinfo]
    exact congrArg _ (boardOfId_powerOn hregs)
  have hidentity : boardIdentity (hardReset d.battery (s.chip.load d)).mapper = some (info, regs.kind) := by
    rw [hdone.runs.identity, hardResetBoard_identity, hmapper]
    rfl
  have hsame : boardIdentity (hardReset d.battery (s.chip.load d)).mapper = boardIdentity (.board info regs) := hidentity
  have hprgRam : (hardReset d.battery (s.chip.load d)).cart.prgRam.size =
      if regs.kind ∈ ([.nrom, .mmc1, .mmc3] : List BoardKind) then 8192 else 0 := by
    rw [hi.prgRam.2, prgRamSize_of_identity hsame]
    cases regs <;> rfl
  have hexram : (hardReset d.battery (s.chip.load d)).ppubus.exram.size = if d.mirroring = .fourScreen then 2048 else 0 := by
    rw [hi.exram.2, fourScreen_of_identity hsame, hinfo]
    simp only [Mapper.fourScreen, decide_eq_true_eq]
  have hlatch := hardReset_latch d.battery (s.chip.load d)
  rw [hardResetStart_cpu] at hlatch
  have hmaps := hardReset_mapsAs hdone
  rw [← hardResetStart_mapper d.battery, hstart] at hmaps
  have hfilled : PoolsFilled s.chip.config.ramState (hardResetStart d.battery (s.chip.load d)) :=
    hardResetStart_filled d.battery (s.chip.load d)
  have hchr : (hardResetBoard d.battery (s.chip.load d)).ppubus.chrIsRam = decide (d.chrRom.size = 0) := rfl
  refine ⟨_, exec_loadRom h name hd, ⟨rfl, hi, hdone.corrupted⟩, rfl, rfl, rfl, rfl, rfl, rfl, rfl, hdone.runs.config,
    ⟨hardResetStart d.battery (s.chip.load d), regs, info, rfl, rfl, hfilled, ?found⟩, hdone.runs.desc, hdone.runs.prgRom,
    fun hram => ?chrRam, fun hrom => ?chrRom, hexram, ?wram, ?prgRam, hdone.regs, hdone.cycle, hdone.runs.genie,
    hdone.runs.channels⟩
  case found =>
    rw [hardResetStart_cart, hardResetStart_ppubus, hardResetStart_cpu, hstart]
    exact ⟨load_prgRam_filled d s.chip, (initRam_size _ _ _).trans h.chip.ciram.2, (initRam_size _ _ _).trans h.chip.palette.2,
      loadStart_units d s.chip, rfl, rfl, hlatch, boardOfId_mem hregs, hinfo, rfl, hidentity, hmaps, hprgRam⟩
  case chrRam =>
    refine ⟨hdone.runs.chrIsRam.trans (hchr.trans (decide_eq_true hram)), hdone.runs.chrSize.trans ?_⟩
    rw [hardResetBoard_chr_size, load_chr, if_pos hram]
    rfl
  case chrRom =>
    have hrom' := hchr.trans (decide_eq_false hrom)
    refine ⟨hdone.runs.chrIsRam.trans hrom', (hdone.runs.chrRom hrom').trans ?_⟩
    rw [hardResetBoard_chrRom (decide_eq_false hrom), load_chr, if_neg hrom]
  case wram =>
    rw [hdone.settled.wram, ← hardResetStart_bus]
    exact hfilled.wram
  case prgRam =>
    exact hdone.settled.prgRam ▸ load_prgRam_filled d s.chip


/-! ## The resets (R260, R571 to R573) -/

theorem exec_reset {s : State} (h : s.Inv) (hl : s.loadedRom.isSome = true) (k : ResetKind) :
    exec (.reset k) s = .next { s with
      cyclesRemaining := 0, chip := resetChip k s.batteryBacked s.chip, result := some (.ok .unit) } := by
  obtain ⟨name, hname⟩ := Option.isSome_iff_exists.1 hl
  have hi := (resetChip_inv h.chip k s.batteryBacked).1
  show Host.Outcome.next (match s.loadedRom with
    | none => s.refuse .noCartridge
    | some _ =>
      { s with cyclesRemaining := 0 }.commit (resetChip k s.batteryBacked s.chip.begin) (.ok .unit)) = _
  rw [hname, begin_of_noRefusal h.chip.noRefusal]
  simp only [commit_of_noRefusal _ hi.noRefusal]

/-- Settles O44: the chip is the one of `softReset_spec`. -/
theorem Proofs.softReset : Obligations.SoftReset := by
  refine ⟨fun s k hnone => ?refused, fun s h hl => ?_⟩
  case refused =>
    show Host.Outcome.next (match s.loadedRom with
      | none => s.refuse .noCartridge
      | some _ =>
        { s with cyclesRemaining := 0 }.commit (resetChip k s.batteryBacked s.chip.begin) (.ok .unit)) = _
    rw [hnone]
    simp only [State.refuse, hnone]
  obtain ⟨hruns, hsettled, hregs, hcorrupted, hcycle, hbus⟩ := softReset_spec h.chip (h.loaded.symm.trans hl)
  have hlatch : (Machine.softReset s.chip).cpu.nmiLatch =
      sawEdge (resetProg (softResetStart s.chip).cpu.regs) (softResetStart s.chip) :=
    resetSequence_latch (by rw [softResetStart_cpu])
  exact ⟨_, exec_reset h hl .soft, ⟨hl, hruns.inv h.chip, hcorrupted⟩, rfl, rfl, rfl, rfl, rfl, rfl, rfl, hcorrupted, hregs,
    hcycle, hbus, opcodeFrame hsettled hruns, softResetStart s.chip, rfl, rfl, softResetStart_units s.chip,
    softResetStart_cpu s.chip, softResetStart_mapper s.chip, softResetStart_ppubus h.chip, softResetStart_bus s.chip,
    softResetStart_cart s.chip, (softResetStart_runs s.chip).config, hlatch⟩

/-- Settles O45: the chip is the one of `hardReset_spec`. -/
theorem Proofs.hardReset : Obligations.HardReset := by
  intro s h hl
  have hboard := hardResetBoard_inv s.batteryBacked h.chip
  have hdone := hardReset_spec s.batteryBacked hboard (h.loaded.symm.trans hl)
  have hfilled := hardResetStart_filled s.batteryBacked s.chip
  have hkeeps := hardReset_keeps s.batteryBacked s.chip
  have hlatch := hardReset_latch s.batteryBacked s.chip
  rw [hardResetStart_cpu] at hlatch
  have hwram : (hardResetStart s.batteryBacked s.chip).bus.wram = (Machine.hardReset s.batteryBacked s.chip).bus.wram := by
    rw [hdone.settled.wram, hardResetStart_bus]
  have hprgRam : (Machine.hardReset s.batteryBacked s.chip).cart.prgRam = if s.batteryBacked then s.chip.cart.prgRam else
      initRam s.chip.config.ramState (s.chip.draws + 5) s.chip.cart.prgRam.size := hdone.settled.prgRam
  refine ⟨_, exec_reset h hl .hard, ⟨hl, hdone.runs.inv hboard, hdone.corrupted⟩, rfl, rfl, rfl, rfl, rfl, rfl, rfl,
    hdone.regs, hdone.cycle, hdone.corrupted, hdone.latch, ?wram, fun hb => ?battery, fun hb => ?prgRam, hkeeps.prgRom, hkeeps.desc,
    hkeeps.chrRom, ?identity, hardReset_mapsAs hdone,
    ⟨hardResetStart s.batteryBacked s.chip, rfl, rfl, hfilled, hardResetStart_mapper _ _, ?found⟩, hdone.runs.config,
    hdone.runs.genie, hdone.runs.channels⟩
  case wram => exact hwram ▸ hfilled.wram
  case battery => exact hprgRam.trans (if_pos hb)
  case prgRam =>
    rw [show (resetChip .hard s.batteryBacked s.chip).cart.prgRam = _ from hprgRam, hb]
    exact filledBy_initRam _ _ _
  case identity => exact hdone.runs.identity.trans (hardResetBoard_identity _ _)
  case found =>
    rw [hardResetStart_bus, hardResetStart_ppubus, hardResetStart_cpu]
    exact ⟨(initRam_size _ _ _).trans h.chip.wram.2, (initRam_size _ _ _).trans h.chip.ciram.2,
      (initRam_size _ _ _).trans h.chip.palette.2, initRam_size _ _ _, hardResetBoard_chr_size _ _, rfl, rfl, rfl, rfl, rfl,
      hardResetStart_units _ _, hlatch⟩


/-! ## The accessors (R262 to R267) -/

/-- Settles O46: LOAD_SRAM stores where the battery is there and the length fits. -/
theorem accessors : Obligations.Accessors := by
  refine fun s => ⟨rfl, rfl, rfl, ⟨_, rfl, Memory.tabulate_wf _ _, rfl, fun i hi => Memory.read_tabulate _ hi⟩, rfl,
    fun b hbattery hsize => ?stored, fun b hnot => ?kept⟩
  all_goals
    show Host.Outcome.next (State.finish (if s.batteryBacked && b.size == s.chip.cart.prgRam.size then _ else _) _) = _
  case stored =>
    rw [if_pos (by rw [hbattery, hsize, beq_self_eq_true]; rfl)]
    rfl
  case kept =>
    rw [if_neg (by rcases hnot with hbattery | hsize <;> simp [*])]
    rfl

/-! ## The settings (R291 to R300, R370) -/

theorem button_bit_lt (button : Button) : button.bit < 10 := by cases button <;> decide

theorem player_cases : ∀ player : BitVec 2, player = 0 ∨ player = 1 ∨ player = 2 ∨ player = 3 := by decide

theorem joypad_setJoypad (i : Input) (player : BitVec 2) (mask : BitVec 16) (other : BitVec 2) :
    Input.joypad (Input.setJoypad i player mask) other = if other = player then mask else Input.joypad i other := by
  rcases player_cases player with rfl | rfl | rfl | rfl <;> rcases player_cases other with rfl | rfl | rfl | rfl <;> rfl

/-- The board's mirroring does not depend on its revision, so the shift in place is right already (R370, R590). -/
theorem setRevision_refreshMirror {c : Chip} (h : c.Inv) (r : Revision) :
    { c with mapper := c.mapper.setRevision r }.refreshMirror = { c with mapper := c.mapper.setRevision r } := by
  rw [Chip.refreshMirror]
  simp only [setRevision_mirroring, ← h.mirror]

theorem exec_setJoypad (player : BitVec 2) (mask : BitVec 10) (s : State) : exec (.setJoypad player mask) s = .next
    (s.setChip (s.chip.setInput (Input.setJoypad s.chip.input player (BitVec.ofNat 16 mask.toNat)))) := by
  rw [BitVec.ofNat_toNat]
  rfl

/-- Settles O47: a joypad's mask is read back at its player; every other setting is its own equation. -/
theorem settingCommands : Obligations.SettingCommands := by
  intro s
  refine ⟨fun _ => rfl, fun _ => rfl, fun _ => rfl, fun _ => rfl, fun _ => rfl, fun _ _ => rfl,
    rfl, rfl, rfl, rfl, rfl, rfl, rfl, fun mask => exec_setJoypad 0 mask s, fun mask => exec_setJoypad 1 mask s,
    fun mask => exec_setJoypad 2 mask s, fun mask => exec_setJoypad 3 mask s, fun player mask button => ?buttons, fun h r => ?revision⟩
  case buttons =>
    have hjoypad := joypad_setJoypad s.chip.input player (BitVec.ofNat 16 mask.toNat)
    refine ⟨_, exec_setJoypad player mask s, ?_, fun other hother => (hjoypad other).trans (if_neg hother)⟩
    show (Input.joypad (Input.setJoypad s.chip.input player _) player).getLsbD button.bit = _
    have hbit : button.bit < 16 := by have := button_bit_lt button; omega
    rw [hjoypad, if_pos rfl, BitVec.ofNat_toNat, BitVec.getLsbD_setWidth, decide_eq_true hbit, Bool.true_and]
    rfl
  case revision => exact congrArg (fun c => Host.Outcome.next (s.setChip c)) (setRevision_refreshMirror h.chip r)

/-! ## Deck construction (R80, R63, R491) -/

/-- A deck with its RAM pools and its cheat table filled in is in order, with no cartridge. -/
theorem construction_inv {table : List GenieEntry} (honce : (table.map GenieEntry.text).Nodup)
    (hcodes : ∀ e ∈ table, parseGenie e.text = .ok e) (cfg : DeckConfig) {wram ciram palette : Memory}
    (hwram : PoolOk wram 2048) (hciram : PoolOk ciram 2048) (hpalette : PoolOk palette 32) (draws : Nat) :
    State.Inv { State.reset with chip := { Chip.construction with
      config := { cfg with genie := table.map GenieEntry.text }
      bus := { Chip.construction.bus with wram := wram, genie := table }
      ppubus := { Chip.construction.ppubus with ciram := ciram, palette := palette }
      draws := draws } } where
  chip :=
    { params := show Params.suggested.ok = true by decide
      wram := hwram
      ciram := hciram
      palette := hpalette
      exram := PoolOk.zeroPool 0
      chr := rfl
      prgRam := PoolOk.zeroPool 0
      frame := PoolOk.zeroPool 61440
      mirror := rfl
      cartridge := ⟨rfl, rfl, rfl, rfl⟩
      dot := show 0 < Params.suggested.dotsPerScanline by decide
      scanline := show 0 < maxScanlines Params.suggested by decide
      genieList := rfl
      genieOnce := honce
      genieCodes := hcodes
      noRefusal := rfl }
  running := rfl
  loaded := rfl
  battery := rfl
  budget := fun hpos => absurd hpos (lt_irrefl 0)
  owed := show -(Params.suggested.maxStepCycles : Rat) < 0 by decide
  ongoing := fun hsome => absurd hsome Bool.false_ne_true

theorem addInitialCodes_nodup : ∀ (codes : List Text) {table : List GenieEntry}, (table.map GenieEntry.text).Nodup →
    ((addInitialCodes codes table).map GenieEntry.text).Nodup
  | [], _, h => h
  | code :: rest, table, h => by
    rw [addInitialCodes]
    split
    · exact addInitialCodes_nodup rest h
    · exact addInitialCodes_nodup rest (genieAdd_nodup h _)

theorem addInitialCodes_codes : ∀ (codes : List Text) {table : List GenieEntry}, (∀ e ∈ table, parseGenie e.text = .ok e) →
    ∀ e ∈ addInitialCodes codes table, parseGenie e.text = .ok e
  | [], _, h => h
  | code :: rest, table, h => by
    rw [addInitialCodes]
    split
    · exact addInitialCodes_codes rest h
    · next g hg => exact addInitialCodes_codes rest (genieAdd_codes h hg)

theorem exec_addGenie {code : Text} {g : GenieEntry} (h : parseGenie code = .ok g) (s : State) :
    exec (.addGenie code) s = .next (s.setChip (s.chip.setGenie (genieAdd g s.chip.bus.genie))) := by
  show Host.Outcome.next (match parseGenie code with
    | .error e => s.finish (.err (.invalidCode e))
    | .ok g => s.setChip (s.chip.setGenie (genieAdd g s.chip.bus.genie))) = _
  rw [h]

theorem exec_addGenie_malformed {code : Text} {e : CodeProblem} (h : parseGenie code = .error e) (s : State) :
    exec (.addGenie code) s = .next { s with result := some (.err (.invalidCode e)) } := by
  show Host.Outcome.next (match parseGenie code with
    | .error e => s.finish (.err (.invalidCode e))
    | .ok g => s.setChip (s.chip.setGenie (genieAdd g s.chip.bus.genie))) = _
  rw [h]
  rfl

/-- ADD_GENIE of each code in order leaves the table that construction makes of them. -/
theorem commandsRun_addGenie : ∀ (codes : List Text) (s : State), ∃ u, commandsRun (codes.map .addGenie) s = some u ∧
    u.chip.bus.genie = addInitialCodes codes s.chip.bus.genie
  | [], s => ⟨s, rfl, rfl⟩
  | code :: rest, s => by
    obtain ⟨t, ht, htable⟩ : ∃ t, exec (.addGenie code) s = .next t ∧
        addInitialCodes rest t.chip.bus.genie = addInitialCodes (code :: rest) s.chip.bus.genie := by
      cases hp : parseGenie code with
      | error e =>
        refine ⟨_, exec_addGenie_malformed hp s, ?_⟩
        rw [addInitialCodes, hp]
      | ok g =>
        refine ⟨_, exec_addGenie hp s, ?_⟩
        rw [addInitialCodes, hp]
        rfl
    obtain ⟨u, hu, hgenie⟩ := commandsRun_addGenie rest t
    refine ⟨u, ?_, hgenie.trans htable⟩
    rw [List.map_cons, commandsRun, ht]
    exact hu

theorem constructDeck_inv (cfg : DeckConfig) : (constructDeck cfg).Inv :=
  construction_inv (addInitialCodes_nodup cfg.genie (table := []) List.nodup_nil)
    (addInitialCodes_codes cfg.genie fun _ he => absurd he List.not_mem_nil) cfg (PoolOk.initRam _ _ _) (PoolOk.initRam _ _ _)
    (PoolOk.initRam _ _ _) 3

theorem reset_state_inv : State.reset.Inv :=
  construction_inv (table := []) List.nodup_nil (fun _ he => absurd he List.not_mem_nil) DeckConfig.construction
    (PoolOk.zeroPool _) (PoolOk.zeroPool _) (PoolOk.zeroPool _) 0

/-- Settles O58: construction is the reset state with the configuration's pools and codes. -/
theorem construction : Obligations.Construction := by
  refine ⟨reset_state_inv, rfl, rfl, rfl, rfl, rfl, rfl, rfl, rfl, rfl, rfl, rfl, rfl, fun i => ⟨rfl, rfl, rfl⟩,
    rfl, rfl, rfl, rfl, rfl, rfl, rfl, rfl, rfl, rfl, fun player => ?joypads, rfl, rfl, fun cfg => ?config⟩
  case joypads => rcases player_cases player with rfl | rfl | rfl | rfl <;> rfl
  case config =>
    obtain ⟨u, hu, hgenie⟩ := commandsRun_addGenie cfg.genie State.reset
    exact ⟨constructDeck_inv cfg, ⟨u, hu, hgenie.symm⟩, rfl, filledBy_initRam _ _ _, filledBy_initRam _ _ _,
      filledBy_initRam _ _ _, rfl⟩

end Sys2Proof.Machine

/-! PROOFS. 46_genie.md: which cheat codes parse and to what, the table's commands, and the filter. -/

namespace Sys2Proof.Machine

open Sys2Proof

/-! ## The cheat table's commands (R480, R481, R491) -/

theorem genieWithout_absent {code : Text} {table : List GenieEntry} (h : code ∉ table.map GenieEntry.text) :
    genieWithout code table = table :=
  List.filter_eq_self.2 fun _ he => decide_eq_true fun htext => h (htext ▸ List.mem_map_of_mem he)

theorem genieWithout_genieAdd {g : GenieEntry} {table : List GenieEntry} (h : g.text ∉ table.map GenieEntry.text) :
    genieWithout g.text (genieAdd g table) = table := by
  rw [genieAdd, genieWithout_absent h, genieWithout, List.filter_append, ← genieWithout, genieWithout_absent h]
  simp

/-- The table in place, set again, changes nothing: the configuration's list is its texts already. -/
theorem Chip.Inv.setGenie_self {c : Chip} (h : c.Inv) : c.setGenie c.bus.genie = c := by
  rw [Chip.setGenie, ← h.genieList]

/-- Settles O48: the last clause by the table, which the added code leaves again. -/
theorem genieCommands : Obligations.GenieCommands := by
  intro s code
  refine ⟨fun g hg => ?added, fun e he => exec_addGenie_malformed he s, rfl, fun h habsent t ht => ?removed⟩
  case added =>
    have htext := parseGenie_text hg
    refine ⟨(exec_addGenie hg s).trans ?_, htext⟩
    rw [genieAdd, htext]
    rfl
  case removed =>
    have hself := h.chip.setGenie_self
    cases hp : parseGenie code with
    | error e =>
      cases (exec_addGenie_malformed hp s).symm.trans ht
      show Host.Outcome.next (State.setChip _ (s.chip.setGenie (genieWithout code s.chip.bus.genie))) = _
      rw [genieWithout_absent habsent, hself]
      rfl
    | ok g =>
      have htext := parseGenie_text hp
      cases (exec_addGenie hp s).symm.trans ht
      show Host.Outcome.next (State.setChip _ (s.chip.setGenie (genieWithout code (genieAdd g s.chip.bus.genie)))) = _
      rw [← htext, genieWithout_genieAdd (htext ▸ habsent), hself]
      rfl

/-! ## Parsing (R173 to R175, R482) -/

/-- The letters of R173 in the order of their values. -/
def alphabet : List Char := ['A', 'P', 'Z', 'L', 'G', 'I', 'T', 'Y', 'E', 'O', 'X', 'U', 'K', 'S', 'V', 'N']

/-- The letter of a value. -/
def letter (n : Fin 16) : Char := alphabet.getD n.val 'A'

theorem nibble_letter : ∀ n : Fin 16, nibble (letter n) = some (BitVec.ofFin n) := by decide

theorem nibble_outside {x : Char} (h : x ∉ alphabet) : nibble x = none := by
  simp only [alphabet, List.mem_cons, List.not_mem_nil, or_false, not_or] at h
  simp only [nibble, h, if_false]

theorem exists_letter {x : Char} (h : x ∈ alphabet) : ∃ n, letter n = x := by
  obtain ⟨i, hi, rfl⟩ := List.mem_iff_getElem.1 h
  exact ⟨⟨i, hi⟩, List.getD_eq_getElem _ _ hi⟩

theorem exists_letters : ∀ {code : Text}, (∀ y ∈ code, y ∈ alphabet) → ∃ ns : List (Fin 16), code = ns.map letter
  | [], _ => ⟨[], rfl⟩
  | x :: rest, h => by
    obtain ⟨n, rfl⟩ := exists_letter (h x List.mem_cons_self)
    obtain ⟨ns, rfl⟩ := exists_letters fun y hy => h y (List.mem_cons_of_mem _ hy)
    exact ⟨n :: ns, rfl⟩

theorem nibbles_letters : ∀ (ns : List (Fin 16)) (k : Nat), nibbles k (ns.map letter) = .ok (ns.map BitVec.ofFin)
  | [], _ => rfl
  | n :: ns, k => by rw [List.map_cons, nibbles, nibble_letter, nibbles_letters ns]; rfl

theorem nibbles_badChar {bad : Text} {x : Char} (hx : x ∉ alphabet) : ∀ (ns : List (Fin 16)) (k : Nat),
    nibbles k (ns.map letter ++ x :: bad) = .error (.badChar (k + ns.length) x)
  | [], k => by rw [List.map_nil, List.nil_append, nibbles, nibble_outside hx]; rfl
  | n :: ns, k => by
    rw [List.map_cons, List.cons_append, nibbles, nibble_letter, nibbles_badChar hx ns]
    simp only [List.length_cons, Nat.add_assoc, Nat.add_comm 1]

theorem parseGenie_of_nibbles {code : Text} (h : code.length = 6 ∨ code.length = 8) {ns : List (BitVec 4)}
    (hns : nibbles 0 code = .ok ns) {g : GenieEntry} (hg : genieEntry code ns = some g) : parseGenie code = .ok g := by
  rw [parseGenie, if_neg (by omega), hns]
  simp only [hg]

/-- The address of R174, over the values of the letters. -/
def letterAddr (n1 n2 n3 n4 n5 : Fin 16) : Addr := BitVec.ofNat 16
  (0x8000 ||| ((n3.val &&& 7) <<< 12) ||| ((n5.val &&& 7) <<< 8) ||| ((n4.val &&& 8) <<< 8) |||
    ((n2.val &&& 7) <<< 4) ||| ((n1.val &&& 8) <<< 4) ||| (n4.val &&& 7) ||| (n3.val &&& 8))

/-- A byte of R175, over the values of the letters. -/
def letterByte (hi lo last : Fin 16) : Byte := BitVec.ofNat 8
  (((hi.val &&& 7) <<< 4) ||| ((lo.val &&& 8) <<< 4) ||| (lo.val &&& 7) ||| (last.val &&& 8))

theorem ofNat_shiftLeft (w x k : Nat) : BitVec.ofNat w (x <<< k) = BitVec.ofNat w x <<< k := by
  apply BitVec.eq_of_toNat_eq
  simp [Nat.shiftLeft_eq]

theorem low3_ofFin : ∀ n : Fin 16, low3 (.ofFin n) = BitVec.ofNat 16 (n.val &&& 7) := by decide

theorem high1_ofFin : ∀ n : Fin 16, high1 (.ofFin n) = BitVec.ofNat 16 (n.val &&& 8) := by decide

theorem genieAddr_letters (n1 n2 n3 n4 n5 : Fin 16) :
    genieAddr (.ofFin n1) (.ofFin n2) (.ofFin n3) (.ofFin n4) (.ofFin n5) = letterAddr n1 n2 n3 n4 n5 := by
  simp only [genieAddr, letterAddr, low3_ofFin, high1_ofFin, BitVec.ofNat_or, ofNat_shiftLeft]
  rfl

theorem lowBits_ofFin : ∀ n : Fin 16, ((.ofFin n &&& 7 : BitVec 4).setWidth 8 : Byte) = BitVec.ofNat 8 (n.val &&& 7) := by
  decide

theorem highBit_ofFin : ∀ n : Fin 16, ((.ofFin n &&& 8 : BitVec 4).setWidth 8 : Byte) = BitVec.ofNat 8 (n.val &&& 8) := by
  decide

theorem genieByte_letters (hi lo last : Fin 16) :
    genieByte (.ofFin hi) (.ofFin lo) (.ofFin last) = letterByte hi lo last := by
  simp only [genieByte, letterByte, lowBits_ofFin, highBit_ofFin, BitVec.ofNat_or, ofNat_shiftLeft]

theorem or_upper {x : Addr} (h : 0x8000 ≤ x.toNat) (y : Addr) : 0x8000 ≤ (x ||| y).toNat := by
  rw [BitVec.toNat_or]
  exact h.trans Nat.left_le_or

theorem genieAddr_upper (n1 n2 n3 n4 n5 : BitVec 4) : 0x8000 ≤ (genieAddr n1 n2 n3 n4 n5).toNat :=
  or_upper (or_upper (or_upper (or_upper (or_upper (or_upper (or_upper (by decide) _) _) _) _) _) _) _

theorem parseGenie_six (n0 n1 n2 n3 n4 n5 : Fin 16) : parseGenie ([n0, n1, n2, n3, n4, n5].map letter) =
    .ok { text := [n0, n1, n2, n3, n4, n5].map letter, addr := letterAddr n1 n2 n3 n4 n5, data := letterByte n1 n0 n5,
          compare := none } := by
  rw [← genieAddr_letters, ← genieByte_letters]
  exact parseGenie_of_nibbles (.inl rfl) (nibbles_letters _ 0) rfl

theorem parseGenie_eight (n0 n1 n2 n3 n4 n5 n6 n7 : Fin 16) : parseGenie ([n0, n1, n2, n3, n4, n5, n6, n7].map letter) =
    .ok { text := [n0, n1, n2, n3, n4, n5, n6, n7].map letter, addr := letterAddr n1 n2 n3 n4 n5,
          data := letterByte n1 n0 n7, compare := some (letterByte n7 n6 n5) } := by
  rw [← genieAddr_letters, ← genieByte_letters, ← genieByte_letters]
  exact parseGenie_of_nibbles (.inr rfl) (nibbles_letters _ 0) rfl

theorem letterAddr_upper (n1 n2 n3 n4 n5 : Fin 16) : 0x8000 ≤ (letterAddr n1 n2 n3 n4 n5).toNat := by
  rw [← genieAddr_letters]
  exact genieAddr_upper _ _ _ _ _

theorem parseGenie_letters : ∀ (ns : List (Fin 16)), ns.length = 6 ∨ ns.length = 8 →
    ∃ g, parseGenie (ns.map letter) = .ok g ∧ 0x8000 ≤ g.addr.toNat ∧ (g.compare = none ↔ ns.length = 6)
  | [n0, n1, n2, n3, n4, n5], _ => ⟨_, parseGenie_six n0 n1 n2 n3 n4 n5, letterAddr_upper _ _ _ _ _, iff_of_true rfl rfl⟩
  | [n0, n1, n2, n3, n4, n5, n6, n7], _ =>
    ⟨_, parseGenie_eight n0 n1 n2 n3 n4 n5 n6 n7, letterAddr_upper _ _ _ _ _, iff_of_false nofun nofun⟩

/-- Settles O49: a code of the alphabet's letters is the list of their values. -/
theorem genieParsing : Obligations.GenieParsing := by
  refine ⟨fun code h6 h8 => if_pos ⟨h6, h8⟩, fun good bad x hgood hx hlength => ?badChar, fun code hcode hlength => ?parses,
    parseGenie_six, parseGenie_eight, rfl, rfl, rfl⟩
  case badChar =>
    obtain ⟨ns, rfl⟩ := exists_letters hgood
    have hlen : (ns.map letter ++ x :: bad).length = (ns.map letter).length + 1 + bad.length := by
      rw [List.length_append, List.length_cons]
      omega
    rw [parseGenie, if_neg (by omega), nibbles_badChar hx, Nat.zero_add, List.length_map]
  case parses =>
    obtain ⟨ns, rfl⟩ := exists_letters hcode
    rw [List.length_map] at hlength ⊢
    obtain ⟨g, hg, haddr, hcompare⟩ := parseGenie_letters ns hlength
    exact ⟨g, hg, parseGenie_text hg, haddr, hcompare⟩

/-! ## The filter (R489, R490) -/

theorem lastAt_append (a : Addr) (after : List GenieEntry) : ∀ before : List GenieEntry,
    lastAt a (before ++ after) = (lastAt a after).or (lastAt a before)
  | [] => (Option.or_none).symm
  | e :: before => by
    rw [List.cons_append, lastAt, lastAt, lastAt_append a after before]
    cases lastAt a after <;> rfl

theorem lastAt_none {a : Addr} : ∀ {table : List GenieEntry}, (∀ e ∈ table, e.addr ≠ a) → lastAt a table = none
  | [], _ => rfl
  | e :: rest, h => by
    rw [lastAt, lastAt_none fun e he => h e (List.mem_cons_of_mem _ he)]
    exact if_neg (h e List.mem_cons_self)

theorem lastAt_other {a : Addr} {g : GenieEntry} (h : g.addr ≠ a) (before after : List GenieEntry) :
    lastAt a (before ++ g :: after) = lastAt a (before ++ after) := by
  have hg : lastAt a (g :: after) = lastAt a after := by
    rw [lastAt, if_neg h]
    cases lastAt a after <;> rfl
  rw [lastAt_append, lastAt_append, hg]

/-- The filter sees of a table only its last entry at the address. -/
theorem genieFilter_congr {a : Addr} {table table' : List GenieEntry} (h : lastAt a table = lastAt a table') (v : Byte) :
    genieFilter table a v = genieFilter table' a v := by
  rw [genieFilter, h, genieFilter]

theorem genieFilter_none {a : Addr} {table : List GenieEntry} (h : lastAt a table = none) (v : Byte) :
    genieFilter table a v = v := by
  rw [genieFilter, h]
  exact ite_self _

theorem genieFilter_some {a : Addr} (ha : 0x8000 ≤ a.toNat) {table : List GenieEntry} {g : GenieEntry}
    (h : lastAt a table = some g) (v : Byte) :
    genieFilter table a v = if g.compare = none ∨ g.compare = some v then g.data else v := by
  rw [genieFilter, if_neg (by omega), h]
  cases hcompare : g.compare <;> simp [hcompare, eq_comm]

/-! What a unit answers does not depend on the cheat table. -/

theorem ppuMappedRead_setGenie (table : List GenieEntry) (a : Addr) (c : Chip) :
    ppuMappedRead a (c.setGenie table) = ((ppuMappedRead a c).1.setGenie table, (ppuMappedRead a c).2) := by
  have hresolve : ∀ r, resolvePpu ((c.setGenie table).notify a) a r = resolvePpu (c.notify a) a r := fun r => by cases r <;> rfl
  have hmapper : ((c.setGenie table).notify a).mapper = (c.notify a).mapper := rfl
  rw [ppuMappedRead, hmapper, hresolve, ppuMappedRead]
  split <;> rfl

theorem ppuRead_setGenie (table : List GenieEntry) (a : Addr) (c : Chip) :
    ppuRead a (c.setGenie table) = ((ppuRead a c).1.setGenie table, (ppuRead a c).2) := by
  rw [ppuRead, ppuRead]
  split
  · exact ppuMappedRead_setGenie table _ c
  · exact ppuMappedRead_setGenie table _ c
  · rfl

theorem storePool_setGenie (table : List GenieEntry) (v : Byte) (r : MappedWrite) (c : Chip) :
    storePool (c.setGenie table) v r = (storePool c v r).setGenie table := by
  cases r <;> rfl

theorem applyPpu_setGenie (table : List GenieEntry) (a : Addr) (v : Byte) (r : MappedWrite) (c : Chip) :
    applyPpu (c.setGenie table) a v r = (applyPpu c a v r).map (·.setGenie table) := by
  have hshift : (c.setGenie table).ppubus.mirrorShift = c.ppubus.mirrorShift := rfl
  simp only [applyPpu, storePool_setGenie, hshift]
  split
  · split
    · rfl
    · cases ciramIndex c.ppubus.mirrorShift a <;> rfl
  · rfl

/-- The chip of a picture-unit write once the board has taken it (R338). -/
def Chip.boardTook (a : Addr) (v : Byte) (c : Chip) : Chip :=
  { c.notify a with mapper := ((c.notify a).mapper.ppuWrite a v).1 }

theorem ppuMappedWrite_eq (a : Addr) (v : Byte) (c : Chip) : ppuMappedWrite a v c =
    ((applyPpu (c.boardTook a v) a v ((c.notify a).mapper.ppuWrite a v).2).getD
      (c.boardTook a v).markFourScreen).refreshMirror.latchPpu v := by
  have happly : applyPpu { c.notify a with mapper := ((c.notify a).mapper.ppuWrite a v).1 } a v
      ((c.notify a).mapper.ppuWrite a v).2 = applyPpu (c.boardTook a v) a v ((c.notify a).mapper.ppuWrite a v).2 := rfl
  simp only [ppuMappedWrite, happly]
  cases applyPpu (c.boardTook a v) a v ((c.notify a).mapper.ppuWrite a v).2 <;> rfl

theorem ppuMappedWrite_setGenie (table : List GenieEntry) (a : Addr) (v : Byte) (c : Chip) :
    ppuMappedWrite a v (c.setGenie table) = (ppuMappedWrite a v c).setGenie table := by
  have htook : (c.setGenie table).boardTook a v = (c.boardTook a v).setGenie table := rfl
  have hanswer : ((c.setGenie table).notify a).mapper = (c.notify a).mapper := rfl
  rw [ppuMappedWrite_eq, ppuMappedWrite_eq, htook, hanswer, applyPpu_setGenie]
  cases applyPpu (c.boardTook a v) a v ((c.notify a).mapper.ppuWrite a v).2 <;> rfl

theorem ppuWrite_setGenie (table : List GenieEntry) (a : Addr) (v : Byte) (c : Chip) :
    ppuWrite a v (c.setGenie table) = (ppuWrite a v c).setGenie table := by
  rw [ppuWrite, ppuWrite]
  split
  · exact ppuMappedWrite_setGenie table _ v c
  · exact ppuMappedWrite_setGenie table _ v c
  · rfl

theorem ppuProg_run_setGenie {α : Type} (table : List GenieEntry) : ∀ (p : PpuProg α) (c : Chip),
    p.run (c.setGenie table) = ((p.run c).1.setGenie table, (p.run c).2)
  | .done _, _ => rfl
  | .read a k, c => by
    rw [PpuProg.run, PpuProg.run, ppuRead_setGenie]
    exact ppuProg_run_setGenie table (k (ppuRead a c).2) _
  | .write a v k, c => by
    rw [PpuProg.run, PpuProg.run, ppuWrite_setGenie]
    exact ppuProg_run_setGenie table k _
  | .addrOut a k, c => ppuProg_run_setGenie table k (c.notify (reducePpu a))

theorem cartRead_setGenie (table : List GenieEntry) (a : Addr) (c : Chip) : cartRead a (c.setGenie table) = cartRead a c := by
  show resolvePool (c.setGenie table) c.bus.openBus (c.mapper.cpuRead c.cart.prgRom.size a) = _
  rw [cartRead]
  cases c.mapper.cpuRead c.cart.prgRom.size a <;> rfl

theorem cpuDecodeRead_setGenie (table : List GenieEntry) (a : Addr) (c : Chip) :
    (cpuDecodeRead a (c.setGenie table)).2 = (cpuDecodeRead a c).2 := by
  rw [cpuDecodeRead, cpuDecodeRead]
  cases cpuRoute a with
  | wram => rfl
  | ppuReg =>
    show ((Config.ppuRegRead c.draws c.config.region c.ppu _).run (c.drawn.setGenie table)).2.value = _
    rw [ppuProg_run_setGenie]
    rfl
  | apuIo => rfl
  | openBus => rfl
  | cartridge => exact cartRead_setGenie table a c

theorem cpuRead_setGenie (table : List GenieEntry) (a : Addr) (c : Chip) :
    (cpuRead a (c.setGenie table)).2 = genieFilter table a (cpuDecodeRead a c).2 := by
  show genieFilter table a (cpuDecodeRead a (c.setGenie table)).2 = _
  rw [cpuDecodeRead_setGenie]

theorem cpuPeek_setGenie {a : Addr} {table table' : List GenieEntry} (h : lastAt a table = lastAt a table') (c : Chip) :
    cpuPeek a (c.setGenie table) = cpuPeek a (c.setGenie table') := by
  have hcart := (cartRead_setGenie table a c).trans (cartRead_setGenie table' a c).symm
  rw [cpuPeek, cpuPeek, hcart]
  exact genieFilter_congr h _

/-- Settles O50: the filter looks at the last entry of the address alone, and no unit looks at the table. -/
theorem Proofs.genieFilter : Obligations.GenieFilter := by
  intro a v before after g
  refine ⟨fun ha => genieFilter_lower ha before v, fun hnone => genieFilter_none (lastAt_none hnone) v,
    fun ha hg hafter => genieFilter_some ha ?last v, fun hg => genieFilter_congr (lastAt_other hg before after) v,
    fun hg c => ⟨cpuPeek_setGenie (lastAt_other hg before after) c, ?read⟩⟩
  case last =>
    rw [lastAt_append, lastAt, lastAt_none hafter, if_pos hg]
    rfl
  case read =>
    refine (cpuRead_setGenie _ a c).trans (Eq.trans ?_ (cpuRead_setGenie _ a c).symm)
    exact genieFilter_congr (lastAt_other hg before after) _

end Sys2Proof.Machine
